-- ==== Sys2Proof/Word.lean ====
section
/-! DEFINITION. The word types of the block (00_scope.md rules R11 to R13): native and compact encoded words, and
one bit field of a word. -/

namespace Sys2Proof

abbrev Byte := BitVec 8

/-- A native EncodedWord, "exactly 128 bits" (R11). -/
abbrev NativeWord := BitVec 128

/-- A compact EncodedWord, "64 bits" (R11). -/
abbrev CompactWord := BitVec 64

/-- An EncodedWord of the output buffer, `BitVec 128 or BitVec 64` (R27). The `compact` flag of R27 is told by the
constructor. -/
inductive EncodedWord where
  | native (w : NativeWord)
  | compact (c : CompactWord)
deriving DecidableEq, Repr

/-- One field of a word under construction: the arguments `off`, `width` and `v` of `pack` (R14). -/
structure Field where
  off : Nat
  width : Nat
  value : Nat
deriving DecidableEq, Repr

end Sys2Proof
end

