-- ==== Sys2Proof/Syntax.lean ====
section
/-! DEFINITION. The input records of the block (10_state.md rules R35 to R38): operands, the Instruction record, and
`Instr`, the Instr command, with one constructor for each row of the opcode table (40_header_dispatch.md R160). -/

namespace Sys2Proof

/-- The 32 mnemonics of the opcode table (R160). -/
inductive Mnemonic where
  | illegal | nop | mov | not | sel | and | or | xor | ror | rol | cmp | add | mul | math | wait | mad | dp4a
  | send | sendc | sends | sendsc
  | jmpi | call | if_ | else_ | endif | while_ | break_ | cont | halt | goto | join
deriving DecidableEq, Repr

/-- The access mode, header bit 8 (R74). -/
inductive AccessMode where
  | align1
  | align16
deriving DecidableEq, Repr

/-- The data types an operand record may name (R35). -/
inductive DataType where
  | ub | b | uw | w | ud | d | uq | q | hf | f | df | v | uv | vf
deriving DecidableEq, Repr

/-- The names of the architectural register selectors (R33, R89). -/
inductive ArfSel where
  | null | a | acc | f | ce | msg | sp | sr | cr | n | ip | tdr | tm
deriving DecidableEq, Repr

/-- The register file of a register operand (R35). -/
inductive RegFile where
  | grf
  | arf (sel : ArfSel)
deriving DecidableEq, Repr

/-- The named special accumulators (R90). -/
inductive AccName where
  | acc2 | acc3 | acc4 | acc5 | acc6 | acc7 | acc8 | acc9 | noacc
deriving DecidableEq, Repr

/-- The source modifiers (R88). -/
inductive SrcMod where
  | none | abs | negate | negateAbs
deriving DecidableEq, Repr

/-- An Align16 channel name (R91). -/
inductive Channel where
  | x | y | z | w
deriving DecidableEq, Repr

/-- An Align16 channel select, one channel name for each of the four channels (R91). -/
structure ChannelSelect where
  c0 : Channel
  c1 : Channel
  c2 : Channel
  c3 : Channel
deriving DecidableEq, Repr

/-- The region of a register operand (R35). -/
inductive Region where
  | none
  | align1 (vertStride width horzStride : Option Nat)
  | align16 (channelSelect : ChannelSelect)
deriving DecidableEq, Repr

/-- The addressing of a register operand (R35). -/
inductive Addressing where
  | direct
  | indirect (addrSubreg : Nat) (immOffset : Int)
deriving DecidableEq, Repr

/-- The `Reg` case of an operand record (R35). `subregister` is counted in elements of `dataType`. -/
structure RegOperand where
  file : RegFile
  number : Nat
  subregister : Nat := 0
  addressing : Addressing := .direct
  region : Region := .none
  dataType : DataType
  modifier : SrcMod := .none
  writeMask : BitVec 4 := 15#4
  specialAcc : Option AccName := Option.none
  repCtrl : Bool := false
deriving DecidableEq, Repr

/-- A float value as the record gives it: an exact number `num / den` with its sign, an infinity, or a NaN with its
payload (R96: nothing is rounded, NaN payloads and signed zeros are kept; DESIGN CHOICE, assumption 11). -/
inductive FloatValue where
  | finite (negative : Bool) (num den : Nat)
  | infinity (negative : Bool)
  | nan (negative : Bool) (payload : Nat)
deriving DecidableEq, Repr

/-- "value : Int or float" (R35). -/
inductive ImmValue where
  | int (v : Int)
  | float (v : FloatValue)
deriving DecidableEq, Repr

/-- "bitWidth : 16 | 32 | 64" (R35). -/
inductive ImmWidth where
  | w16 | w32 | w64
deriving DecidableEq, Repr

/-- The `Imm` case of an operand record (R35). -/
structure ImmOperand where
  value : ImmValue
  bitWidth : ImmWidth
  type : DataType
deriving DecidableEq, Repr

/-- An operand record (R35). -/
inductive Operand where
  | imm (i : ImmOperand)
  | reg (r : RegOperand)
deriving DecidableEq, Repr

/-- The predicate controls other than the default (R78). -/
inductive PredCtrl where
  | anyv | allv | any2h | all2h | any4h | all4h | any8h | all8h | any16h | all16h | any32h | all32h
deriving DecidableEq, Repr

/-- An instruction's predicate (R36). -/
structure Predicate where
  flagReg : Nat
  flagSubreg : Nat
  inverted : Bool := false
  control : Option PredCtrl := none
deriving DecidableEq, Repr

/-- The 11-entry semantic enum of condition modifiers (R82). -/
inductive CondMod where
  | none | eq | zero | ne | gt | ge | lt | le | round | overflow | unordered
deriving DecidableEq, Repr

inductive MaskControl where
  | normal | noMask
deriving DecidableEq, Repr

inductive ThreadControl where
  | normal | atomic | switch | noPreempt
deriving DecidableEq, Repr

structure DepControl where
  noDDClr : Bool := false
  noDDChk : Bool := false
deriving DecidableEq, Repr

inductive CompactionPolicy where
  | normal | mustNot | must
deriving DecidableEq, Repr

/-- The math functions (R92). -/
inductive MathFn where
  | inv | log | exp | sqrt | rsq | sin | cos | fdiv | pow | idiv | iquot | irem | invm | rsqrtm
deriving DecidableEq, Repr

/-- "Labels are compared by name only" (R37): a label is its name, and names are numbers here (DESIGN CHOICE,
assumption 7). -/
structure Label where
  name : Nat
deriving DecidableEq, Repr

/-- The payload of an Instruction record (R36). -/
inductive Payload where
  | none
  | branch (jip : Label) (uip : Option Label)
  | send (desc exDesc : Operand)
  | math (fn : MathFn)
deriving DecidableEq, Repr

/-- An Instruction record without its opcode (R36). -/
structure InsBody where
  executionSize : Nat := 1
  accessMode : AccessMode := .align1
  predicate : Option Predicate := Option.none
  conditionModifier : Option CondMod := Option.none
  destination : Option Operand := Option.none
  sources : List Operand := []
  maskControl : MaskControl := .normal
  maskOffset : Nat := 0
  threadControl : ThreadControl := .normal
  depControl : DepControl := { }
  saturate : Bool := false
  accWriteControl : Bool := false
  debugBreakpoint : Bool := false
  compactionPolicy : CompactionPolicy := .normal
  payload : Payload := .none
deriving DecidableEq, Repr

/-- An Instruction record (R36), the `ins` of an Instr command and of an `OutWord` (R27). -/
structure Instruction where
  opcode : Mnemonic
  body : InsBody
deriving DecidableEq, Repr

/-- The Instr command `Instr(ins, defs)` (R38): the constructor is the record's opcode, `b` the rest of the record and
`defs` the labels defined at the instruction (R37). -/
inductive Instr where
  | illegal (b : InsBody) (defs : List Label)
  | nop (b : InsBody) (defs : List Label)
  | mov (b : InsBody) (defs : List Label)
  | not (b : InsBody) (defs : List Label)
  | sel (b : InsBody) (defs : List Label)
  | and (b : InsBody) (defs : List Label)
  | or (b : InsBody) (defs : List Label)
  | xor (b : InsBody) (defs : List Label)
  | ror (b : InsBody) (defs : List Label)
  | rol (b : InsBody) (defs : List Label)
  | cmp (b : InsBody) (defs : List Label)
  | add (b : InsBody) (defs : List Label)
  | mul (b : InsBody) (defs : List Label)
  | math (b : InsBody) (defs : List Label)
  | wait (b : InsBody) (defs : List Label)
  | mad (b : InsBody) (defs : List Label)
  | dp4a (b : InsBody) (defs : List Label)
  | send (b : InsBody) (defs : List Label)
  | sendc (b : InsBody) (defs : List Label)
  | sends (b : InsBody) (defs : List Label)
  | sendsc (b : InsBody) (defs : List Label)
  | jmpi (b : InsBody) (defs : List Label)
  | call (b : InsBody) (defs : List Label)
  | if_ (b : InsBody) (defs : List Label)
  | else_ (b : InsBody) (defs : List Label)
  | endif (b : InsBody) (defs : List Label)
  | while_ (b : InsBody) (defs : List Label)
  | break_ (b : InsBody) (defs : List Label)
  | cont (b : InsBody) (defs : List Label)
  | halt (b : InsBody) (defs : List Label)
  | goto (b : InsBody) (defs : List Label)
  | join (b : InsBody) (defs : List Label)
deriving DecidableEq, Repr

/-- The commands of the input interface (R38). -/
inductive Command where
  | reset
  | instr (i : Instr)
  | finish
deriving DecidableEq, Repr

/-- The format tags of EncodedWord layouts (R18). -/
inductive FormatTag where
  | oneSrc | twoSrc | threeSrcAlign1 | threeSrcAlign16 | send | sends | branchOneSrc | branchTwoSrc
  | wait | nop | illegal
deriving DecidableEq, Repr

/-- The class column of the opcode table (R160). -/
inductive OpClass where
  | illegal | nop | oneSrc | twoSrc | math | threeSrc | wait | send | sends
  | branchOneSrc | branchTwoSrc | jmpi | call
deriving DecidableEq, Repr

end Sys2Proof
end

