-- ==== Sys2Proof/Config.lean ====
section
/-! DEFINITION. The parameters of the block (00_scope.md rule R10): the record `Cfg` of 10_state.md R28, with the four
compaction tables of R29. The values State.reset holds in it are in Machine/Defaults.lean. -/

namespace Sys2Proof

/-- The parameter `PRED_CTRL` (R78): the codes of the predicate controls above 1. -/
structure PredCtrlTable where
  anyv : BitVec 4
  allv : BitVec 4
  any2h : BitVec 4
  all2h : BitVec 4
  any4h : BitVec 4
  all4h : BitVec 4
  any8h : BitVec 4
  all8h : BitVec 4
  any16h : BitVec 4
  all16h : BitVec 4
  any32h : BitVec 4
  all32h : BitVec 4
deriving DecidableEq, Repr

/-- The parameter `COND_MOD`, an 11-entry table (R82). -/
structure CondModTable where
  none : BitVec 4
  eq : BitVec 4
  zero : BitVec 4
  ne : BitVec 4
  gt : BitVec 4
  ge : BitVec 4
  lt : BitVec 4
  le : BitVec 4
  round : BitVec 4
  overflow : BitVec 4
  unordered : BitVec 4
deriving DecidableEq, Repr

/-- The parameter `ARF_SEL` (R89). -/
structure ArfSelTable where
  null : BitVec 4
  a : BitVec 4
  acc : BitVec 4
  f : BitVec 4
  ce : BitVec 4
  msg : BitVec 4
  sp : BitVec 4
  sr : BitVec 4
  cr : BitVec 4
  n : BitVec 4
  ip : BitVec 4
  tdr : BitVec 4
  tm : BitVec 4
deriving DecidableEq, Repr

/-- The parameter `SPECIAL_ACC` (R90). -/
structure SpecialAccTable where
  acc2 : BitVec 4
  acc3 : BitVec 4
  acc4 : BitVec 4
  acc5 : BitVec 4
  acc6 : BitVec 4
  acc7 : BitVec 4
  acc8 : BitVec 4
  acc9 : BitVec 4
  noacc : BitVec 4
deriving DecidableEq, Repr

/-- A compaction table: `CT_SIZE` = 32 entries of its width (R29, R374; DEDUCED, assumption 8). -/
abbrev CompactionTable (width : Nat) := Vector (BitVec width) 32

/-- The parameters of R10. A table whose names may lack a code (`OPC`, the type tables, `MATH_FC`) lists the names that
have one; a name not listed has no entry. It is a field of State (assumption 1). A table may hold any code of its width,
the codes that R151 reserves too, and the block then emits them (DESIGN CHOICE, assumption 25). -/
structure Cfg where
  platform : Nat
  opc : List (Mnemonic × BitVec 7)
  hasRotate : Bool
  hasDp4a : Bool
  has3SrcAlign1 : Bool
  specialAccSrcOverlay : Bool
  sendsExDescPatch : Bool
  grfCount : Nat
  regType : List (DataType × BitVec 4)
  immType : List (DataType × BitVec 4)
  type3A16 : List (DataType × BitVec 3)
  condMod : CondModTable
  predCtrl : PredCtrlTable
  arfSel : ArfSelTable
  specialAcc : SpecialAccTable
  mathFc : List (MathFn × BitVec 4)
  ctCtrl : CompactionTable 20
  ctDt : CompactionTable 21
  ctSr : CompactionTable 15
  ctSrc : CompactionTable 24
  branchOffsetScale : Int
deriving DecidableEq, Repr

end Sys2Proof
end

