-- ==== Sys2Proof/Machine/Tables.lean ====
section
/-! DEFINITION. The field value tables (30_encoding.md section 2 and 40_header_dispatch.md section 1): the fixed codes,
and the reading of the tables that are parameters of `Cfg` (R10). A name with no code answers `none`. -/

namespace Sys2Proof

/-! ## The opcode table's class column, and the opcode sets -/

/-- The class column of R160. -/
def Mnemonic.opClass : Mnemonic → OpClass
  | .illegal => .illegal
  | .nop => .nop
  | .mov | .not => .oneSrc
  | .sel | .and | .or | .xor | .ror | .rol | .cmp | .add | .mul => .twoSrc
  | .math => .math
  | .wait => .wait
  | .mad | .dp4a => .threeSrc
  | .send | .sendc => .send
  | .sends | .sendsc => .sends
  | .jmpi => .jmpi
  | .call => .call
  | .if_ | .else_ | .break_ | .cont | .halt | .goto => .branchTwoSrc
  | .endif | .while_ | .join => .branchOneSrc

/-- The control-flow (branch-class) opcodes, R162. -/
def Mnemonic.isControlFlow : Mnemonic → Bool
  | .if_ | .else_ | .endif | .while_ | .break_ | .cont | .halt | .goto | .join | .call | .jmpi => true
  | _ => false

/-- The send-class opcodes, R300. -/
def Mnemonic.isSendClass : Mnemonic → Bool
  | .send | .sendc | .sends | .sendsc => true
  | _ => false

/-- Every mnemonic, in the order of R160's table. -/
def Mnemonic.all : List Mnemonic :=
  [.illegal, .mov, .sel, .not, .and, .or, .xor, .ror, .rol, .cmp, .jmpi, .if_, .else_, .endif, .while_, .break_,
   .cont, .halt, .call, .goto, .join, .wait, .send, .sendc, .sends, .sendsc, .math, .add, .mul, .dp4a, .mad, .nop]

/-- `OPC` (R160). -/
def Cfg.opcode (cfg : Cfg) (m : Mnemonic) : Option (BitVec 7) := cfg.opc.lookup m

/-- The number of sources of a math function (R92). -/
def MathFn.sources : MathFn → Nat
  | .inv | .log | .exp | .sqrt | .rsq | .sin | .cos | .rsqrtm => 1
  | .fdiv | .pow | .idiv | .iquot | .irem | .invm => 2

/-- INVM and RSQRTM, the "reciprocal/rsqrt accumulator forms" (R92). -/
def MathFn.isAccumulatorForm : MathFn → Bool
  | .invm | .rsqrtm => true
  | _ => false

/-! ## Data types -/

/-- The packed-vector types, which the block refuses (R35, R247). -/
def DataType.isPackedVector : DataType → Bool
  | .v | .uv | .vf => true
  | _ => false

/-- The size of a data type in bytes (R94). R94 gives none for the packed-vector types: 4 here (DESIGN CHOICE, assumption
20). An operand of such a type is refused whatever its size, but for a null `src1` of a split send, where the size decides
R230's check of the sub-register. -/
def DataType.bytes : DataType → Nat
  | .ub | .b => 1
  | .uw | .w | .hf => 2
  | .ud | .d | .f | .v | .uv | .vf => 4
  | .uq | .q | .df => 8

/-- The type classes of R94. The packed-vector types have none. -/
inductive TypeClass where
  | float | integer | packed
deriving DecidableEq, Repr

def DataType.typeClass : DataType → TypeClass
  | .hf | .f | .df => .float
  | .ub | .b | .uw | .w | .ud | .d | .uq | .q => .integer
  | .v | .uv | .vf => .packed

/-- The 64-bit immediate types (R246). -/
def DataType.is64 : DataType → Bool
  | .df | .q | .uq => true
  | _ => false

/-- The `bitWidth` an immediate of the type must have (R245); UB, B and the packed-vector types have no immediate. -/
def DataType.immWidth : DataType → Option ImmWidth
  | .w | .uw | .hf => some .w16
  | .d | .ud | .f => some .w32
  | .df | .q | .uq => some .w64
  | .ub | .b | .v | .uv | .vf => none

/-- `REG_TYPE` (R84) for a register operand; the packed-vector types are refused (R35). -/
def Cfg.regTypeCode (cfg : Cfg) (t : DataType) : Option (BitVec 4) :=
  if t.isPackedVector then none else cfg.regType.lookup t

/-- `IMM_TYPE` (R85) for an immediate operand; B, UB and the packed-vector types are refused (R247). -/
def Cfg.immTypeCode (cfg : Cfg) (t : DataType) : Option (BitVec 4) :=
  if t.immWidth.isNone then none else cfg.immType.lookup t

/-- `TYPE3_A16` (R86). -/
def Cfg.type3Code (cfg : Cfg) (t : DataType) : Option (BitVec 3) :=
  if t.isPackedVector then none else cfg.type3A16.lookup t

/-! ## Parameter tables that hold a code for every name -/

/-- `PRED_CTRL` (R78). -/
def PredCtrlTable.code (t : PredCtrlTable) : PredCtrl → BitVec 4
  | .anyv => t.anyv
  | .allv => t.allv
  | .any2h => t.any2h
  | .all2h => t.all2h
  | .any4h => t.any4h
  | .all4h => t.all4h
  | .any8h => t.any8h
  | .all8h => t.all8h
  | .any16h => t.any16h
  | .all16h => t.all16h
  | .any32h => t.any32h
  | .all32h => t.all32h

/-- `COND_MOD` (R82). -/
def CondModTable.code (t : CondModTable) : CondMod → BitVec 4
  | .none => t.none
  | .eq => t.eq
  | .zero => t.zero
  | .ne => t.ne
  | .gt => t.gt
  | .ge => t.ge
  | .lt => t.lt
  | .le => t.le
  | .round => t.round
  | .overflow => t.overflow
  | .unordered => t.unordered

/-- `ARF_SEL` (R89). -/
def ArfSelTable.code (t : ArfSelTable) : ArfSel → BitVec 4
  | .null => t.null
  | .a => t.a
  | .acc => t.acc
  | .f => t.f
  | .ce => t.ce
  | .msg => t.msg
  | .sp => t.sp
  | .sr => t.sr
  | .cr => t.cr
  | .n => t.n
  | .ip => t.ip
  | .tdr => t.tdr
  | .tm => t.tm

/-- `SPECIAL_ACC` (R90). -/
def SpecialAccTable.code (t : SpecialAccTable) : AccName → BitVec 4
  | .acc2 => t.acc2
  | .acc3 => t.acc3
  | .acc4 => t.acc4
  | .acc5 => t.acc5
  | .acc6 => t.acc6
  | .acc7 => t.acc7
  | .acc8 => t.acc8
  | .acc9 => t.acc9
  | .noacc => t.noacc

/-! ## Fixed codes -/

/-- R74. -/
def AccessMode.code : AccessMode → Nat
  | .align1 => 0
  | .align16 => 1

/-- R76. -/
def ThreadControl.code : ThreadControl → Nat
  | .normal => 0
  | .atomic => 1
  | .switch => 2
  | .noPreempt => 3

/-- R80. -/
def MaskControl.code : MaskControl → Nat
  | .normal => 0
  | .noMask => 1

/-- R79: the log2 code of an execution size; any other size has none. -/
def execSizeCode (n : Nat) : Option Nat :=
  match n with
  | 1 => some 0
  | 2 => some 1
  | 4 => some 2
  | 8 => some 3
  | 16 => some 4
  | 32 => some 5
  | _ => none

/-- The two-bit register-file code of a register operand (R83): ARF = 0, GRF = 1. -/
def RegFile.code : RegFile → Nat
  | .grf => 1
  | .arf _ => 0

/-- The two-bit register-file code IMM (R83). -/
def immFileCode : Nat := 3

/-- R88. -/
def SrcMod.code : SrcMod → Nat
  | .none => 0
  | .abs => 1
  | .negate => 2
  | .negateAbs => 3

/-- R91. -/
def Channel.code : Channel → Nat
  | .x => 0
  | .y => 1
  | .z => 2
  | .w => 3

/-- The identity channel select "(X,Y,Z,W)" (R91). -/
def identitySelect : ChannelSelect := { c0 := .x, c1 := .y, c2 := .z, c3 := .w }

/-- R87: the HorzStride code of a two-source region. -/
def horzStrideCode (n : Nat) : Option Nat :=
  match n with
  | 0 => some 0
  | 1 => some 1
  | 2 => some 2
  | 4 => some 3
  | _ => none

/-- R87: the Width code. -/
def widthCode (n : Nat) : Option Nat :=
  match n with
  | 1 => some 0
  | 2 => some 1
  | 4 => some 2
  | 8 => some 3
  | 16 => some 4
  | _ => none

/-- R87: the VertStride code. -/
def vertStrideCode (n : Nat) : Option Nat :=
  match n with
  | 0 => some 0
  | 1 => some 1
  | 2 => some 2
  | 4 => some 3
  | 8 => some 4
  | 16 => some 5
  | 32 => some 6
  | _ => none

/-- R93: the vertical stride class of a three-source Align1 source. -/
def vertStride3Code (n : Nat) : Option Nat :=
  match n with
  | 0 => some 0
  | 2 => some 1
  | 4 => some 2
  | 8 => some 3
  | _ => none

/-- R93: the horizontal stride class of a three-source Align1 source. -/
def horzStride3Code (n : Nat) : Option Nat :=
  match n with
  | 0 => some 0
  | 1 => some 1
  | 2 => some 2
  | 4 => some 3
  | _ => none

/-- R93: the one-bit destination stride of ThreeSrcAlign1. -/
def dstStride3Code (n : Nat) : Option Nat :=
  match n with
  | 1 => some 0
  | 2 => some 1
  | _ => Option.none

/-! ## What a region gives explicitly -/

def Region.vertStride? : Region → Option Nat
  | .align1 v _ _ => v
  | _ => Option.none

def Region.width? : Region → Option Nat
  | .align1 _ w _ => w
  | _ => Option.none

def Region.horzStride? : Region → Option Nat
  | .align1 _ _ h => h
  | _ => Option.none

def Region.channelSelect? : Region → Option ChannelSelect
  | .align16 c => some c
  | _ => Option.none

/-! ## The parts of an Instr command -/

def Instr.mnemonic : Instr → Mnemonic
  | .illegal _ _ => .illegal
  | .nop _ _ => .nop
  | .mov _ _ => .mov
  | .not _ _ => .not
  | .sel _ _ => .sel
  | .and _ _ => .and
  | .or _ _ => .or
  | .xor _ _ => .xor
  | .ror _ _ => .ror
  | .rol _ _ => .rol
  | .cmp _ _ => .cmp
  | .add _ _ => .add
  | .mul _ _ => .mul
  | .math _ _ => .math
  | .wait _ _ => .wait
  | .mad _ _ => .mad
  | .dp4a _ _ => .dp4a
  | .send _ _ => .send
  | .sendc _ _ => .sendc
  | .sends _ _ => .sends
  | .sendsc _ _ => .sendsc
  | .jmpi _ _ => .jmpi
  | .call _ _ => .call
  | .if_ _ _ => .if_
  | .else_ _ _ => .else_
  | .endif _ _ => .endif
  | .while_ _ _ => .while_
  | .break_ _ _ => .break_
  | .cont _ _ => .cont
  | .halt _ _ => .halt
  | .goto _ _ => .goto
  | .join _ _ => .join

def Instr.body : Instr → InsBody
  | .illegal b _ | .nop b _ | .mov b _ | .not b _ | .sel b _ | .and b _ | .or b _ | .xor b _ | .ror b _ | .rol b _
  | .cmp b _ | .add b _ | .mul b _ | .math b _ | .wait b _ | .mad b _ | .dp4a b _ | .send b _ | .sendc b _
  | .sends b _ | .sendsc b _ | .jmpi b _ | .call b _ | .if_ b _ | .else_ b _ | .endif b _ | .while_ b _
  | .break_ b _ | .cont b _ | .halt b _ | .goto b _ | .join b _ => b

def Instr.defs : Instr → List Label
  | .illegal _ l | .nop _ l | .mov _ l | .not _ l | .sel _ l | .and _ l | .or _ l | .xor _ l | .ror _ l | .rol _ l
  | .cmp _ l | .add _ l | .mul _ l | .math _ l | .wait _ l | .mad _ l | .dp4a _ l | .send _ l | .sendc _ l
  | .sends _ l | .sendsc _ l | .jmpi _ l | .call _ l | .if_ _ l | .else_ _ l | .endif _ l | .while_ _ l
  | .break_ _ l | .cont _ l | .halt _ l | .goto _ l | .join _ l => l

/-- The Instruction record of an Instr command. -/
def Instr.instruction (i : Instr) : Instruction := { opcode := i.mnemonic, body := i.body }

/-- The Instr command that carries an Instruction record and its label definitions. -/
def Mnemonic.instr : Mnemonic → InsBody → List Label → Instr
  | .illegal => .illegal
  | .nop => .nop
  | .mov => .mov
  | .not => .not
  | .sel => .sel
  | .and => .and
  | .or => .or
  | .xor => .xor
  | .ror => .ror
  | .rol => .rol
  | .cmp => .cmp
  | .add => .add
  | .mul => .mul
  | .math => .math
  | .wait => .wait
  | .mad => .mad
  | .dp4a => .dp4a
  | .send => .send
  | .sendc => .sendc
  | .sends => .sends
  | .sendsc => .sendsc
  | .jmpi => .jmpi
  | .call => .call
  | .if_ => .if_
  | .else_ => .else_
  | .endif => .endif
  | .while_ => .while_
  | .break_ => .break_
  | .cont => .cont
  | .halt => .halt
  | .goto => .goto
  | .join => .join

/-- Which of a branch's two offsets (R333). -/
inductive Target where
  | jip | uip
deriving DecidableEq, Repr

/-- The labels a branch names, JIP before UIP (R340, R343); a record without a Branch payload names none. -/
def Payload.targets : Payload → List (Target × Label)
  | .branch jip Option.none => [(.jip, jip)]
  | .branch jip (some uip) => [(.jip, jip), (.uip, uip)]
  | _ => []

end Sys2Proof
end

