-- ==== Sys2Proof/Machine/Defaults.lean ====
section
/-! DEFINITION. The default value of every parameter of 00_scope.md rule R10. Every code is the spec's default, marked
there [from general knowledge, not in source]; the contents of the compaction tables, which have no default, are the
model's own (assumption 2). -/

namespace Sys2Proof

/-- `OPC` (R160). `ror`, `rol` and `dp4a` have no default code and so no entry. -/
def defaultOpc : List (Mnemonic × BitVec 7) :=
  [(.illegal, 0x00#7), (.mov, 0x01#7), (.sel, 0x02#7), (.not, 0x04#7), (.and, 0x05#7), (.or, 0x06#7), (.xor, 0x07#7),
   (.cmp, 0x10#7), (.jmpi, 0x20#7), (.if_, 0x22#7), (.else_, 0x24#7), (.endif, 0x25#7), (.while_, 0x27#7),
   (.break_, 0x28#7), (.cont, 0x29#7), (.halt, 0x2A#7), (.call, 0x2C#7), (.goto, 0x2E#7), (.join, 0x2F#7),
   (.wait, 0x30#7), (.send, 0x31#7), (.sendc, 0x32#7), (.sends, 0x33#7), (.sendsc, 0x34#7), (.math, 0x38#7),
   (.add, 0x40#7), (.mul, 0x41#7), (.mad, 0x5B#7), (.nop, 0x7E#7)]

/-- `REG_TYPE` (R84). -/
def defaultRegType : List (DataType × BitVec 4) :=
  [(.ud, 0#4), (.d, 1#4), (.uw, 2#4), (.w, 3#4), (.ub, 4#4), (.b, 5#4), (.df, 6#4), (.f, 7#4), (.uq, 8#4), (.q, 9#4),
   (.hf, 10#4)]

/-- `IMM_TYPE` (R85). -/
def defaultImmType : List (DataType × BitVec 4) :=
  [(.ud, 0#4), (.d, 1#4), (.uw, 2#4), (.w, 3#4), (.uv, 4#4), (.vf, 5#4), (.v, 6#4), (.f, 7#4), (.uq, 8#4), (.q, 9#4),
   (.df, 10#4), (.hf, 11#4)]

/-- `TYPE3_A16` (R86). -/
def defaultType3A16 : List (DataType × BitVec 3) :=
  [(.f, 0#3), (.d, 1#3), (.ud, 2#3), (.df, 3#3), (.hf, 4#3)]

/-- `COND_MOD` (R82). -/
def defaultCondMod : CondModTable :=
  { none := 0#4, eq := 1#4, zero := 1#4, ne := 2#4, gt := 3#4, ge := 4#4, lt := 5#4, le := 6#4, round := 7#4,
    overflow := 8#4, unordered := 9#4 }

/-- `PRED_CTRL` (R78). -/
def defaultPredCtrl : PredCtrlTable :=
  { anyv := 2#4, allv := 3#4, any2h := 4#4, all2h := 5#4, any4h := 6#4, all4h := 7#4, any8h := 8#4, all8h := 9#4,
    any16h := 10#4, all16h := 11#4, any32h := 12#4, all32h := 13#4 }

/-- `ARF_SEL` (R89). -/
def defaultArfSel : ArfSelTable :=
  { null := 0#4, a := 1#4, acc := 2#4, f := 3#4, ce := 4#4, msg := 5#4, sp := 6#4, sr := 7#4, cr := 8#4, n := 9#4,
    ip := 10#4, tdr := 11#4, tm := 12#4 }

/-- `SPECIAL_ACC` (R90). -/
def defaultSpecialAcc : SpecialAccTable :=
  { acc2 := 0#4, acc3 := 1#4, acc4 := 2#4, acc5 := 3#4, acc6 := 4#4, acc7 := 5#4, acc8 := 6#4, acc9 := 7#4,
    noacc := 8#4 }

/-- `MATH_FC` (R92). -/
def defaultMathFc : List (MathFn × BitVec 4) :=
  [(.inv, 1#4), (.log, 2#4), (.exp, 3#4), (.sqrt, 4#4), (.rsq, 5#4), (.sin, 6#4), (.cos, 7#4), (.fdiv, 9#4),
   (.pow, 10#4), (.idiv, 11#4), (.iquot, 12#4), (.irem, 13#4), (.invm, 14#4), (.rsqrtm, 15#4)]

/-- DESIGN CHOICE (assumption 2): a compaction table of zeros, since R10 leaves the contents open with no default.
No word of an eligible format has a DT group of 0, so nothing compacts with these tables. -/
def blankTable (width : Nat) : CompactionTable width := Vector.replicate 32 (0#width)

/-- The parameters at their defaults (R10). -/
def defaultCfg : Cfg :=
  { platform := 0
    opc := defaultOpc
    hasRotate := false
    hasDp4a := false
    has3SrcAlign1 := true
    specialAccSrcOverlay := true
    sendsExDescPatch := true
    grfCount := 128
    regType := defaultRegType
    immType := defaultImmType
    type3A16 := defaultType3A16
    condMod := defaultCondMod
    predCtrl := defaultPredCtrl
    arfSel := defaultArfSel
    specialAcc := defaultSpecialAcc
    mathFc := defaultMathFc
    ctCtrl := blankTable 20
    ctDt := blankTable 21
    ctSr := blankTable 15
    ctSrc := blankTable 24
    branchOffsetScale := 1 }

end Sys2Proof
end

