-- ==== Sys2Proof/Machine/State.lean ====
section
/-! DEFINITION. The state of the block (10_state.md rules R20 to R30): the Encoding Session, the configuration with the
compaction tables, the input stream (R38) and the report of the last command (R39, R400). -/

namespace Sys2Proof.Machine

/-- R21. -/
inductive Phase where
  | scanning | finalizing | done | aborted | failed
deriving DecidableEq, Repr

/-- The error outcomes of R400, codes 1 to 4. -/
inductive ErrCode where
  | unsupportedOpcode | invariantViolation | danglingLabel | failure
deriving DecidableEq, Repr

/-- What a step found wrong: the rule that failed, as `status.detail` names it (R403). The first group is the list of
R401, the second that of R402, then R344 and R300. -/
inductive Cause where
  /-- R161: the opcode has no row in `OPC`. -/
  | noOpcode
  /-- R161: the platform lacks the feature the opcode needs. -/
  | featureAbsent
  /-- R164: the operand shape is not the class's. -/
  | shape
  /-- R202: a math function with no code. -/
  | mathFunction
  /-- R232, R238, R272, R273, R275, R276: a data type with no code in the table the field uses. -/
  | typeCode
  /-- R232, R238: Align16 with indirect addressing. -/
  | align16Indirect
  /-- R271: an indirect three-source operand. -/
  | threeSourceIndirect
  /-- R303: an indirect send operand. -/
  | sendIndirect
  /-- R232: an immediate destination. -/
  | immediateDestination
  /-- R247: an immediate of a refused type, or of a type with no `IMM_TYPE` code. -/
  | immediateType
  /-- R278: an immediate of an unsupported type in a three-source slot. -/
  | threeSourceImmediateType
  /-- R243, R273, R276: a special-accumulator source where none is legal. -/
  | specialAccSource
  /-- R248: a `wait` operand that is not a direct ARF `n` register. -/
  | waitOperand
  /-- R15, R95: a value wider than its field. -/
  | fieldWidth
  /-- R25: a label defined twice. -/
  | duplicateLabel (l : Label)
  /-- R172: Align16 where the format must be Align1. -/
  | accessMode
  /-- R174: a mask offset not a multiple of 4, or above 28. -/
  | maskOffset
  /-- R175: non-Normal thread control on a control-flow opcode. -/
  | threadControl
  /-- R176: a flag register or sub-register above 1. -/
  | flagNumber
  /-- R180, R354: a condition modifier on send, sends, math or a branch. -/
  | conditionModifier
  /-- R183: an execution size not in 1, 2, 4, 8, 16, 32. -/
  | executionSize
  /-- R203: a `wait` with execution size other than 1. -/
  | waitExecutionSize
  /-- R231: a register number out of range. -/
  | registerNumber
  /-- R230: a sub-register offset that leaves the register. -/
  | subregister
  /-- R234, R241: an indirect offset or address sub-register out of range. -/
  | indirectRange
  /-- R235, R242, R272, R273: an Align16 address that is not a multiple of 16. -/
  | align16Address
  /-- R233: a destination stride of 0. -/
  | destinationStride
  /-- R87, R239: a region value with no code. -/
  | regionValue
  /-- R242, R276: replicate control outside three-source Align16. -/
  | replicateControl
  /-- R237, R243: a special-accumulator overlay on an operand that is not direct with sub-register 0. -/
  | specialAccOperand
  /-- R96, R245: an immediate value its type does not hold. -/
  | immediateValue
  /-- R245: an immediate of the wrong width. -/
  | immediateWidth
  /-- R246: a 64-bit immediate outside OneSrc slot 0. -/
  | immediate64Slot
  /-- R104: an immediate in source 0 of a TwoSrc instruction. -/
  | immediateSource0
  /-- R270: mixed type classes in a three-source instruction. -/
  | mixedClass
  /-- R291: a float-class `dp4a`. -/
  | dp4aClass
  /-- R272, R273, R275, R276: a disallowed three-source operand file. -/
  | threeSourceFile
  /-- R273, R278: an immediate in slot 1 or in Align16. -/
  | threeSourceImmediateSlot
  /-- R273: an Align1 region on a three-source Align16 source. -/
  | threeSourceRegion
  /-- R275, R277: a three-source stride outside the restricted classes. -/
  | threeSourceStride
  /-- R303, R310: a send operand of a disallowed file or place. -/
  | sendOperand
  /-- R303, R310: a source modifier on a send operand. -/
  | sendModifier
  /-- R353: a `call` destination that is not a direct GRF of type D or UD. -/
  | callDestination
  /-- R345: a branch offset that does not fit its field. -/
  | branchOffset
  /-- R370: `Must` on a format that is not eligible. -/
  | mustIneligible
  /-- R370: `Must` with no match in the tables. -/
  | mustNoMatch
  /-- R344: a deferred entry whose label is still absent in pass 2. -/
  | danglingLabel (l : Label)
  /-- R300: a malformed send descriptor; the number is the case of R300's list. -/
  | sendDescriptor (case : Nat)
deriving DecidableEq, Repr

/-- R30: `{code, index, detail}`. `detail` is the failed rule as data (assumption 5). -/
structure Status where
  code : Option ErrCode
  index : Option Nat
  detail : Option Cause
deriving DecidableEq, Repr

/-- R26. -/
structure DeferredEntry where
  index : Nat
  pos : Nat
deriving DecidableEq, Repr

/-- R27. Whether the word is compact is told by `bits`. -/
structure OutWord where
  pos : Nat
  tag : FormatTag
  bits : EncodedWord
  ins : Instruction
deriving DecidableEq, Repr

/-- What the host is told of a command: R400's outcome OK or an error code, or R39's "reported as refused". -/
inductive CommandReport where
  | ok
  | error (code : ErrCode)
  | refused
deriving DecidableEq, Repr

/-- The state of the block. `phase` to `status` are the Session of R20, `cfg` the configuration and compaction tables of
R28 and R29. `input` is the command stream of R38, the next command first; `none` stands for a step at which no command
is given (assumption 3). `report` is the outcome of the last command, which R39 and R400 report to the host
(assumption 4). -/
structure State where
  phase : Phase
  pos : Nat
  count : Nat
  labels : List (Label × Nat)
  deferred : List DeferredEntry
  out : List OutWord
  status : Status
  cfg : Cfg
  input : List (Option Command)
  report : Option CommandReport
deriving DecidableEq, Repr

/-- Where the model stops. The spec gives the block no stop: each fault is raised by a pass-2 step on a state that no
session reaches (`Sys2Proof.Machine.State.Inv` rules it out), where R343 names an entry of `out` that does not exist or
is no branch. Both are safe: the model goes no further where the spec gives no effect (DESIGN CHOICE,
assumption 22). -/
inductive Fault where
  /-- Raised by the pass-2 step when the first deferred entry's index is outside `out` (safe). -/
  | deferredIndex (index : Nat)
  /-- Raised by the pass-2 step when the first deferred entry's word is no branch word (safe). -/
  | deferredNotBranch (index : Nat)
deriving DecidableEq, Repr

/-- The model refuses nothing. -/
inductive Refusal where
  /-- An instruction without a meaning; no arm of `exec` answers it (safe). -/
  | notModelled (mnemonic : String)
deriving DecidableEq, Repr

/-- The empty status register (R30, R42). -/
def Status.empty : Status := { code := none, index := none, detail := none }

/-- The state after Reset at power-on (R42): the Session's reset values, the parameters at their defaults (R10), no
command given yet and none reported. -/
def State.reset : State :=
  { phase := .scanning
    pos := 0
    count := 0
    labels := []
    deferred := []
    out := []
    status := Status.empty
    cfg := defaultCfg
    input := []
    report := none }

end Sys2Proof.Machine
end

