-- ==== Sys2Proof/Machine/Ops.lean ====
section
/-! DEFINITION. The shared operations: the field codec `pack` and `unpack` (R14 to R16, R70), number ranges (R13),
label table, table reads, the byte image (R51 to R53), and raising an error (R403, R404), the block's one exception. -/

namespace Sys2Proof

/-! ## Ranges and two's complement (R13, R95) -/

/-- `fits_u(n, v)`. -/
def fitsU (n v : Nat) : Bool := decide (v < 2 ^ n)

/-- `fits_s(n, v)`: -2^(n-1) ≤ v < 2^(n-1). -/
def fitsS (n : Nat) (v : Int) : Bool := decide (-(2 ^ (n - 1) : Int) ≤ v) && decide (v < (2 ^ (n - 1) : Int))

/-- `v mod 2^n`, the two's complement of a value (R95). -/
def twos (n : Nat) (v : Int) : Nat := (v % (2 ^ n : Int)).toNat

/-- The integer an n-bit pattern stands for, read as two's complement (`sext` of R13). -/
def signed (n : Nat) (v : Nat) : Int := if v < 2 ^ (n - 1) then (v : Int) else (v : Int) - (2 ^ n : Int)

/-! ## The field codec -/

/-- `w` with `w[off+width-1:off] = v` and every other bit unchanged. -/
def setField {n : Nat} (w : BitVec n) (off width v : Nat) : BitVec n :=
  (w &&& ~~~(BitVec.ofNat n (2 ^ width - 1) <<< off)) ||| (BitVec.ofNat n (v % 2 ^ width) <<< off)

/-- `unpack(w, off, width)` (R14): the field as an unsigned number. -/
def unpack {n : Nat} (w : BitVec n) (off width : Nat) : Nat := (w.toNat >>> off) % 2 ^ width

namespace Machine

/-- `pack(w, off, width, v)` (R14, R15): a field outside the word or a value wider than it raises
`InvariantViolation`. -/
def pack {n : Nat} (w : BitVec n) (off width v : Nat) : Except Cause (BitVec n) :=
  if off + width ≤ n ∧ v < 2 ^ width then .ok (setField w off width v) else .error .fieldWidth

/-- The fields packed one after another. -/
def packFields {n : Nat} (w : BitVec n) : List Field → Except Cause (BitVec n)
  | [] => .ok w
  | f :: fs =>
    match pack w f.off f.width f.value with
    | .ok w' => packFields w' fs
    | .error c => .error c

/-- A check that raises `c` when it does not hold. -/
def require (holds : Bool) (c : Cause) : Except Cause Unit := if holds then .ok () else .error c

/-- The value of a table entry; a name with no entry raises `c`. -/
def entry {α : Type} (o : Option α) (c : Cause) : Except Cause α :=
  match o with
  | some a => .ok a
  | none => .error c

/-! ## Labels (R25, R335) -/

/-- `labels[l]`. -/
def labelPos (labels : List (Label × Nat)) (l : Label) : Option Nat := labels.lookup l

/-- The labels an instruction defines, entered in list order at the instruction's position; a label already present
raises `InvariantViolation` (R335, R405 step 1). -/
def enterLabels (labels : List (Label × Nat)) (pos : Nat) : List Label → Except Cause (List (Label × Nat))
  | [] => .ok labels
  | l :: ls =>
    match labelPos labels l with
    | some _ => .error (.duplicateLabel l)
    | none => enterLabels (labels ++ [(l, pos)]) pos ls

/-! ## Compaction table reads (R56, R373) -/

/-- `TableRead(T, i)`. -/
def tableRead {n : Nat} (t : CompactionTable n) (i : Fin 32) : BitVec n := t.get i

/-- `Lookup(T, g)`: the smallest index whose entry is `g` (R373). -/
def tableLookup {n : Nat} (t : CompactionTable n) (g : BitVec n) : Option (Fin 32) :=
  (List.finRange 32).find? fun i => tableRead t i == g

end Machine

/-! ## Words and the byte image (R24, R51, R53) -/

/-- "one unit per 8 bytes" (R331): a native word is 2 units, a compact word 1. -/
def EncodedWord.units : EncodedWord → Nat
  | .native _ => 2
  | .compact _ => 1

def EncodedWord.isCompact : EncodedWord → Bool
  | .native _ => false
  | .compact _ => true

/-- Byte `j` of a word, bits 8j+7..8j: little-endian (R51, R53). -/
def EncodedWord.byte (w : EncodedWord) (j : Nat) : Byte :=
  match w with
  | .native b => BitVec.ofNat 8 (unpack b (8 * j) 8)
  | .compact b => BitVec.ofNat 8 (unpack b (8 * j) 8)

/-- `UNIT_BYTES` (R331; DEDUCED, assumption 8). -/
def unitBytes : Nat := 8

/-- The number the bytes stand for, the first the least significant (R53). -/
def ofBytes : List Byte → Nat
  | [] => 0
  | b :: bs => b.toNat + 256 * ofBytes bs

/-- The `n` bytes of a number, the least significant first (R53). -/
def toBytes : Nat → Nat → List Byte
  | 0, _ => []
  | n + 1, v => BitVec.ofNat 8 v :: toBytes n (v / 256)

/-- A memory: its listed cells (R51). An address that is not listed holds nothing (R433). -/
abbrev Memory := List Host.Cell

/-- The canonical form of a memory: addresses strictly rising. No entry is redundant, since an unlisted address holds no
value. -/
abbrev Memory.wf (m : Memory) : Prop := (m.map Prod.fst).Pairwise (· < ·)

/-- The byte at an address. -/
def Memory.read (m : Memory) (a : Nat) : Option Byte := m.lookup a

namespace Machine

/-- The first byte of an emitted word (R51). -/
def OutWord.base (o : OutWord) : Nat := unitBytes * o.pos

/-- The number of bytes of an emitted word: 16 if native, 8 if compact (R51). -/
def OutWord.size (o : OutWord) : Nat := unitBytes * o.bits.units

/-- The cells of one emitted word (R51). -/
def OutWord.cells (o : OutWord) : Memory := (List.range o.size).map fun j => (o.base + j, o.bits.byte j)

/-- The output byte image (R51): the cells of the emitted words, in emission order (DESIGN CHOICE, assumption 23). -/
def State.image (s : State) : Memory := s.out.flatMap OutWord.cells

/-- The byte of the image at an address, if the image holds one (R51, R433). -/
def State.imageByte (s : State) (a : Nat) : Option Byte := s.image.read a

/-- `MemRead(addr, n)` (R14): n bytes of the image, little-endian; only where the image holds them all. -/
def State.memRead (s : State) (a n : Nat) : Option Nat :=
  ((List.range n).mapM fun j => s.imageByte (a + j)).map ofBytes

/-- The output of R40: the byte image and the two counters. -/
structure Output where
  image : Memory
  count : Nat
  units : Nat
deriving DecidableEq, Repr

/-- The output interface, valid only in phase `Done` (R40). -/
def State.output (s : State) : Option Output :=
  if s.phase = .done then some { image := s.image, count := s.count, units := s.pos } else none

/-! ## Errors (R400, R403, R404) -/

/-- The class of a cause: the lists of R401, R402, R344 and R300. -/
def Cause.code : Cause → ErrCode
  | .noOpcode | .featureAbsent | .shape | .mathFunction | .typeCode | .align16Indirect | .threeSourceIndirect
  | .sendIndirect | .immediateDestination | .immediateType | .threeSourceImmediateType | .specialAccSource
  | .waitOperand => .unsupportedOpcode
  | .danglingLabel _ => .danglingLabel
  | .sendDescriptor _ => .failure
  | _ => .invariantViolation

/-- The number of an error outcome (R400). -/
def ErrCode.number : ErrCode → Nat
  | .unsupportedOpcode => 1
  | .invariantViolation => 2
  | .danglingLabel => 3
  | .failure => 4

/-- The number of a command's outcome: R400's table, OK among it. A refused command has no outcome of the table (R39). -/
def CommandReport.number : CommandReport → Option Nat
  | .ok => some 0
  | .error code => some code.number
  | .refused => none

/-- The phase an error leads to: `Aborted` for the Fatal classes, `Failed` for the Status class (R400). -/
def ErrCode.phase : ErrCode → Phase
  | .failure => .failed
  | _ => .aborted

/-- `raise` (R14, R403): the failing step changes nothing but `phase` and `status`, and reports the code. There is no
return from it but Reset (R404, R408). -/
def State.raise (s : State) (index : Nat) (c : Cause) : State :=
  { s with
    phase := c.code.phase
    status := { code := some c.code, index := some index, detail := some c }
    report := some (.error c.code) }

/-- R39: a command in a phase where it is not legal has no effect and is reported as refused. -/
def State.refuse (s : State) : State := { s with report := some .refused }

/-- `Reset` (R42, R430): every piece of session state at its reset value, beside the return from an error it is the only
way out of `Aborted` and `Failed`. The configuration and the tables are not changed, nor the commands still to come. -/
def State.resetSession (s : State) : State :=
  { State.reset with cfg := s.cfg, input := s.input, report := some .ok }

end Machine

end Sys2Proof
end

