-- ==== Sys2Proof/Machine/Flags.lean ====
section
/-! DEFINITION. The flag fields. The block evaluates no flag (R44); it encodes the predicate, the flag register numbers
and the condition modifier (40_header_dispatch.md rules R176, R180, R354). -/

namespace Sys2Proof.Machine

/-- PredCtrl, PredInv, FlagSubRegNum and FlagRegNum (R176). -/
def predicateFields (cfg : Cfg) (p : Option Predicate) : Except Cause (List Field) :=
  match p with
  | none => .ok [⟨16, 4, 0⟩, ⟨20, 1, 0⟩, ⟨32, 1, 0⟩, ⟨33, 1, 0⟩]
  | some p => do
    require (decide (p.flagReg ≤ 1) && decide (p.flagSubreg ≤ 1)) .flagNumber
    let control := match p.control with
      | some c => (cfg.predCtrl.code c).toNat
      | none => 1
    .ok [⟨16, 4, control⟩, ⟨20, 1, p.inverted.toNat⟩, ⟨32, 1, p.flagSubreg⟩, ⟨33, 1, p.flagReg⟩]

/-- Whether bits 51:48 of the format carry another field than the condition modifier (R180): SFID in Send and Sends, the
function code in `math`. -/
def condModReused (m : Mnemonic) : Bool := m.isSendClass || m == .math

/-- CondModifier (R180): refused where bits 51:48 carry another field, and on a branch (R354). Where they carry another
field, that field's rule writes them. `some NONE` is a modifier (DEDUCED, assumption 9). -/
def condModFields (cfg : Cfg) (ins : Instruction) : Except Cause (List Field) := do
  require (ins.body.conditionModifier.isNone || !(condModReused ins.opcode || ins.opcode.isControlFlow))
    .conditionModifier
  if condModReused ins.opcode then
    .ok []
  else
    match ins.body.conditionModifier with
    | some m => .ok [⟨48, 4, (cfg.condMod.code m).toNat⟩]
    | none => .ok [⟨48, 4, 0⟩]

end Sys2Proof.Machine
end

