-- ==== Sys2Proof/Machine/Header.lean ====
section
/-! DEFINITION. The header encoder (40_header_dispatch.md rules R170 to R183): the fields of the common header
(30_encoding.md R100), in the order of the rules. -/

namespace Sys2Proof.Machine

/-- The formats that must be Align1 (R172): every format but OneSrc, TwoSrc and ThreeSrcAlign16. -/
def needsAlign1 : FormatTag → Bool
  | .oneSrc | .twoSrc | .threeSrcAlign16 => false
  | .threeSrcAlign1 | .send | .sends | .branchOneSrc | .branchTwoSrc | .wait | .nop | .illegal => true

/-- R174: a mask offset that is a multiple of 4 and at most 28. -/
def maskOffsetOk (o : Nat) : Bool := decide (o % 4 = 0) && decide (o ≤ 28)

/-- ExecSize (R183), and R203's restriction of `wait` to size 1. -/
def execSizeField (ins : Instruction) : Except Cause Nat := do
  let code ← entry (execSizeCode ins.body.executionSize) .executionSize
  require (ins.opcode != .wait || ins.body.executionSize == 1) .waitExecutionSize
  .ok code

/-- `EncodeHeader` (R170): `opc` is the opcode's code, and `backward` the backward-branch condition of R338. Bit 53, the
compaction bit, is 0 in the native word (R181). -/
def encodeHeader (cfg : Cfg) (opc : BitVec 7) (fmt : FormatTag) (ins : Instruction) (backward : Bool) :
    Except Cause (List Field) := do
  let b := ins.body
  require (!(needsAlign1 fmt && b.accessMode == .align16)) .accessMode
  require (maskOffsetOk b.maskOffset) .maskOffset
  require (!(ins.opcode.isControlFlow && b.threadControl != .normal)) .threadControl
  let flags ← predicateFields cfg b.predicate
  let cond ← condModFields cfg ins
  let size ← execSizeField ins
  .ok ([⟨0, 7, opc.toNat⟩,
        ⟨8, 1, b.accessMode.code⟩,
        ⟨9, 1, b.depControl.noDDClr.toNat⟩,
        ⟨10, 1, b.depControl.noDDChk.toNat⟩,
        ⟨11, 1, b.maskOffset / 4 % 2⟩,
        ⟨12, 2, b.maskOffset / 8⟩,
        ⟨14, 2, b.threadControl.code⟩,
        ⟨21, 1, b.saturate.toNat⟩,
        ⟨29, 3, size⟩,
        ⟨34, 1, b.maskControl.code⟩,
        ⟨52, 1, (b.accWriteControl || backward).toNat⟩,
        ⟨53, 1, 0⟩,
        ⟨54, 1, b.debugBreakpoint.toNat⟩] ++ flags ++ cond)

end Sys2Proof.Machine
end

