-- ==== Sys2Proof/Machine/Operands.lean ====
section
/-! DEFINITION. The destination and source operand encoders of the two-source layout (41_operands.md; layouts
30_encoding.md R101 to R105). Each answers the fields it packs. -/

namespace Sys2Proof.Machine

/-! ## Common operand arithmetic (R230, R231) -/

/-- `byteAddr(r)` (R230). -/
def byteAddr (r : RegOperand) : Nat := 32 * r.number + r.subregister * r.dataType.bytes

/-- R231: a GRF number below `GRF_COUNT` and at most 255, an ARF number at most 15. -/
def registerNumberOk (cfg : Cfg) (r : RegOperand) : Bool :=
  match r.file with
  | .grf => decide (r.number < cfg.grfCount) && decide (r.number ≤ 255)
  | .arf _ => decide (r.number ≤ 15)

/-- R230: a sub-register offset that stays in the 32-byte register (R230 says it of any register operand). -/
def subregisterOk (r : RegOperand) : Bool := decide (r.subregister * r.dataType.bytes < 32)

/-- The checks of R230 and R231 on a register operand, direct or indirect. -/
def checkRegister (cfg : Cfg) (r : RegOperand) : Except Cause Unit := do
  require (registerNumberOk cfg r) .registerNumber
  require (subregisterOk r) .subregister

/-- The register-number field of a direct operand (R230, R231, R236). That of the null register is `ARF_SEL(null) << 4`,
0x00 with the default codes (DESIGN CHOICE, assumption 24). -/
def regNumField (cfg : Cfg) (r : RegOperand) : Nat :=
  match r.file with
  | .grf => byteAddr r >>> 5
  | .arf sel => (cfg.arfSel.code sel).toNat <<< 4 ||| (r.number &&& 0xF)

/-- The sub-register byte offset of a direct operand (R230). -/
def subRegField (r : RegOperand) : Nat := byteAddr r &&& 0x1F

/-- The high bit of the sub-register offset, all an Align16 word holds of it (R235, R242). -/
def subRegHighBit (r : RegOperand) : Nat := (byteAddr r >>> 4) &&& 1

/-- R235, R242: an Align16 address is a multiple of 16. -/
def align16AddressOk (r : RegOperand) : Bool := byteAddr r % 16 == 0

/-- R234, R241: an address sub-register in 0..15 and an offset that fits 10 bits. -/
def indirectRangeOk (addrSubreg : Nat) (immOffset : Int) : Bool := decide (addrSubreg ≤ 15) && fitsS 10 immOffset

/-- R237, R243: a special-accumulator overlay needs a direct operand with sub-register 0. -/
def specialAccOperandOk (r : RegOperand) : Bool := r.addressing == .direct && r.subregister == 0

/-! ## Destination (R232 to R237) -/

/-- `HS(d)` (R233): the explicit stride's code, by default that of stride 1; stride 0 is refused. -/
def destinationStride (d : RegOperand) : Except Cause Nat := do
  let stride := d.region.horzStride?.getD 1
  require (stride != 0) .destinationStride
  entry (horzStrideCode stride) .regionValue

/-- R233 with the override of R237. -/
def dstAlign1Direct (cfg : Cfg) (d : RegOperand) : Except Cause (List Field) := do
  checkRegister cfg d
  require (d.specialAcc.isNone || specialAccOperandOk d) .specialAccOperand
  let sub := match d.specialAcc with
    | some a => (cfg.specialAcc.code a).toNat
    | none => subRegField d
  let hs ← destinationStride d
  .ok [⟨47, 1, 0⟩, ⟨55, 8, regNumField cfg d⟩, ⟨24, 5, sub⟩, ⟨22, 2, hs⟩]

/-- R234. Number and sub-register are checked as every register operand's are (R230, R231) and not packed. -/
def dstAlign1Indirect (cfg : Cfg) (d : RegOperand) (addrSubreg : Nat) (immOffset : Int) :
    Except Cause (List Field) := do
  checkRegister cfg d
  require (indirectRangeOk addrSubreg immOffset) .indirectRange
  require d.specialAcc.isNone .specialAccOperand
  let v := twos 10 immOffset
  let hs ← destinationStride d
  .ok [⟨47, 1, 1⟩, ⟨24, 4, addrSubreg⟩, ⟨55, 9, v &&& 0x1FF⟩, ⟨28, 1, v >>> 9⟩, ⟨22, 2, hs⟩]

/-- R235 with the override of R237. The stride code 3 is forced. -/
def dstAlign16Direct (cfg : Cfg) (d : RegOperand) : Except Cause (List Field) := do
  checkRegister cfg d
  require (align16AddressOk d) .align16Address
  require (d.specialAcc.isNone || specialAccOperandOk d) .specialAccOperand
  let chanEn := match d.specialAcc with
    | some a => (cfg.specialAcc.code a).toNat
    | none => d.writeMask.toNat
  let high := match d.specialAcc with
    | some _ => 0
    | none => subRegHighBit d
  .ok [⟨47, 1, 0⟩, ⟨55, 8, regNumField cfg d⟩, ⟨28, 1, high⟩, ⟨24, 4, chanEn⟩, ⟨22, 2, 3⟩]

/-- The destination cases of R232, by access mode and addressing. Replicate control is refused, since it is a three-source
Align16 field (R402). The other fields that a case does not name are ignored (DEDUCED, assumptions 15 and 18). -/
def encodeDstReg (cfg : Cfg) (mode : AccessMode) (d : RegOperand) : Except Cause (List Field) := do
  let ty ← entry (cfg.regTypeCode d.dataType) .typeCode
  let rest ← match mode, d.addressing with
    | .align1, .direct => dstAlign1Direct cfg d
    | .align1, .indirect a o => dstAlign1Indirect cfg d a o
    | .align16, .direct => dstAlign16Direct cfg d
    | .align16, .indirect _ _ => .error .align16Indirect
  require (!d.repCtrl) .replicateControl
  .ok (⟨35, 2, d.file.code⟩ :: ⟨37, 4, ty.toNat⟩ :: rest)

/-- `EncodeDst(d)` (R232). -/
def encodeDst (cfg : Cfg) (mode : AccessMode) (d : Operand) : Except Cause (List Field) :=
  match d with
  | .imm _ => .error .immediateDestination
  | .reg r => encodeDstReg cfg mode r

/-! ## Source registers (R238 to R244) -/

/-- The region a source packs: vertical stride, width, horizontal stride. -/
structure SrcRegion where
  vertStride : Nat
  width : Nat
  horzStride : Nat
deriving DecidableEq, Repr

/-- The execution-size table of R239. -/
def execSizeRegion (execSize : Nat) : SrcRegion :=
  match execSize with
  | 1 => ⟨0, 1, 0⟩
  | 2 => ⟨2, 2, 1⟩
  | 4 => ⟨4, 4, 1⟩
  | 8 => ⟨8, 8, 1⟩
  | _ => ⟨16, 16, 1⟩

/-- The scalar region `<0;1,0>` (R239, R248). -/
def scalarRegion : SrcRegion := ⟨0, 1, 0⟩

/-- The priority rule of R239, for each of the three values by itself. -/
def sourceRegion (execSize : Nat) (s : RegOperand) : SrcRegion :=
  let dflt := if s.subregister != 0 then scalarRegion else execSizeRegion execSize
  { vertStride := s.region.vertStride?.getD dflt.vertStride
    width := s.region.width?.getD dflt.width
    horzStride := s.region.horzStride?.getD dflt.horzStride }

/-- The three region fields of the slot that starts at `base` (R239). -/
def regionFields (base : Nat) (r : SrcRegion) : Except Cause (List Field) := do
  let v ← entry (vertStrideCode r.vertStride) .regionValue
  let w ← entry (widthCode r.width) .regionValue
  let h ← entry (horzStrideCode r.horzStride) .regionValue
  .ok [⟨base + 19, 4, v⟩, ⟨base + 16, 3, w⟩, ⟨base + 14, 2, h⟩]

/-- R243: whether an instruction may name a special accumulator on a source: `math` with INVM or RSQRTM, on a platform
with the overlay. -/
def sourceOverlayLegal (cfg : Cfg) (ins : Instruction) : Bool :=
  ins.opcode == .math && cfg.specialAccSrcOverlay &&
    (match ins.body.payload with
     | .math fn => fn.isAccumulatorForm
     | _ => false)

/-- The checks of R243 on a source that names a special accumulator. -/
def checkSourceOverlay (overlayLegal : Bool) (s : RegOperand) : Except Cause Unit := do
  require (s.specialAcc.isNone || overlayLegal) .specialAccSource
  require (s.specialAcc.isNone || specialAccOperandOk s) .specialAccOperand

/-- R240, with the region given by the caller and the overlay of R243. -/
def srcAlign1Direct (cfg : Cfg) (base : Nat) (region : SrcRegion) (overlayLegal : Bool) (s : RegOperand) :
    Except Cause (List Field) := do
  checkRegister cfg s
  let rs ← regionFields base region
  checkSourceOverlay overlayLegal s
  let sub := match s.specialAcc with
    | some a => (cfg.specialAcc.code a).toNat
    | none => subRegField s
  .ok ([⟨base + 13, 1, 0⟩, ⟨base + 5, 8, regNumField cfg s⟩, ⟨base, 5, sub⟩] ++ rs)

/-- R241. Number and sub-register are checked as every register operand's are (R230, R231) and not packed. -/
def srcAlign1Indirect (cfg : Cfg) (base : Nat) (region : SrcRegion) (overlayLegal : Bool) (s : RegOperand)
    (addrSubreg : Nat) (immOffset : Int) : Except Cause (List Field) := do
  checkRegister cfg s
  require (indirectRangeOk addrSubreg immOffset) .indirectRange
  let rs ← regionFields base region
  checkSourceOverlay overlayLegal s
  let v := twos 10 immOffset
  .ok ([⟨base + 13, 1, 1⟩, ⟨base + 9, 4, addrSubreg⟩, ⟨base, 9, v &&& 0x1FF⟩, ⟨base + 31, 1, v >>> 9⟩] ++ rs)

/-- R242, with the overlay of R243. Bits base+18 and base+22..base+19 stay 0. -/
def srcAlign16Direct (cfg : Cfg) (base : Nat) (overlayLegal : Bool) (s : RegOperand) : Except Cause (List Field) := do
  checkRegister cfg s
  require (align16AddressOk s) .align16Address
  checkSourceOverlay overlayLegal s
  let c := s.region.channelSelect?.getD identitySelect
  let low := match s.specialAcc with
    | some a => (cfg.specialAcc.code a).toNat
    | none => c.c0.code ||| c.c1.code <<< 2
  .ok [⟨base + 13, 1, 0⟩, ⟨base + 5, 8, regNumField cfg s⟩, ⟨base + 4, 1, subRegHighBit s⟩, ⟨base, 4, low⟩,
       ⟨base + 14, 2, c.c2.code⟩, ⟨base + 16, 2, c.c3.code⟩]

/-- The first bit of slot `k` (R238): 64 or 96. -/
def slotBase (k : Nat) : Nat := 64 + 32 * k

/-- The register-file position of slot `k` (R238). -/
def rfPos (k : Nat) : Nat := if k = 0 then 41 else 89

/-- The type position of slot `k` (R238). -/
def tyPos (k : Nat) : Nat := if k = 0 then 43 else 91

/-- The register case of `EncodeSrc(k, s)` (R238) and the modifier field (R244). Replicate control is refused, since it
is a three-source Align16 field (R242, R402; DEDUCED, assumptions 15 and 18). -/
def encodeSrcReg (cfg : Cfg) (mode : AccessMode) (region : SrcRegion) (overlayLegal : Bool) (k : Nat) (s : RegOperand) :
    Except Cause (List Field) := do
  let ty ← entry (cfg.regTypeCode s.dataType) .typeCode
  let rest ← match mode, s.addressing with
    | .align1, .direct => srcAlign1Direct cfg (slotBase k) region overlayLegal s
    | .align1, .indirect a o => srcAlign1Indirect cfg (slotBase k) region overlayLegal s a o
    | .align16, .direct => srcAlign16Direct cfg (slotBase k) overlayLegal s
    | .align16, .indirect _ _ => .error .align16Indirect
  require (!s.repCtrl) .replicateControl
  .ok (⟨rfPos k, 2, s.file.code⟩ :: ⟨tyPos k, 4, ty.toNat⟩ :: ⟨slotBase k + 23, 2, s.modifier.code⟩ :: rest)

/-! ## Immediates (R245 to R247, R96) -/

/-- The IEEE 754 interchange format with `expBits` exponent bits and `fracBits` fraction bits: the bit pattern of a
value that the format holds exactly (R96: the block never rounds); any other value has none. The exact value is counted
in units of the smallest subnormal, 2^-(2^(expBits-1) + fracBits - 2). -/
def floatBits (expBits fracBits : Nat) (v : FloatValue) : Option Nat :=
  let signBit (neg : Bool) : Nat := neg.toNat <<< (expBits + fracBits)
  let allOnes : Nat := 2 ^ expBits - 1
  match v with
  | .infinity neg => some (signBit neg ||| allOnes <<< fracBits)
  | .nan neg payload =>
    if payload != 0 && fitsU fracBits payload then
      some (signBit neg ||| allOnes <<< fracBits ||| payload)
    else none
  | .finite neg num den =>
    let scaled := num * 2 ^ (2 ^ (expBits - 1) + fracBits - 2)
    if den == 0 || scaled % den != 0 then none
    else
      let n := scaled / den
      if n < 2 ^ fracBits then some (signBit neg ||| n)
      else
        let shift := Nat.log2 n - fracBits
        if n % 2 ^ shift != 0 || decide (allOnes ≤ shift + 1) then none
        else some (signBit neg ||| (shift + 1) <<< fracBits ||| (n >>> shift - 2 ^ fracBits))

/-- An integer value; a float given for an integer type is not converted (R13, R96; DEDUCED, assumption 10). -/
def intValue (v : ImmValue) : Except Cause Int :=
  match v with
  | .int i => .ok i
  | .float _ => .error .immediateValue

/-- The bit pattern of a float value; an integer given for a float type is not converted (R13, R96). -/
def floatValue (expBits fracBits : Nat) (v : ImmValue) : Except Cause Nat :=
  match v with
  | .int _ => .error .immediateValue
  | .float f => entry (floatBits expBits fracBits f) .immediateValue

/-- A signed integer value of n bits as its two's complement. -/
def signedValue (n : Nat) (v : ImmValue) : Except Cause Nat := do
  let i ← intValue v
  require (fitsS n i) .immediateValue
  .ok (twos n i)

/-- An unsigned integer value of n bits. -/
def unsignedValue (n : Nat) (v : ImmValue) : Except Cause Nat := do
  let i ← intValue v
  require (decide (0 ≤ i) && fitsU n i.toNat) .immediateValue
  .ok i.toNat

/-- "word types are replicated into both halves" (R245). -/
def replicate16 (h : Nat) : Nat := h <<< 16 ||| h

/-- The bits of an immediate by its type: 32 bits for R245's types, 64 for R246's. -/
def immBits (i : ImmOperand) : Except Cause Nat :=
  match i.type with
  | .d => signedValue 32 i.value
  | .ud => unsignedValue 32 i.value
  | .f => floatValue 8 23 i.value
  | .w => replicate16 <$> signedValue 16 i.value
  | .uw => replicate16 <$> unsignedValue 16 i.value
  | .hf => replicate16 <$> floatValue 5 10 i.value
  | .df => floatValue 11 52 i.value
  | .q => signedValue 64 i.value
  | .uq => unsignedValue 64 i.value
  | .ub | .b | .v | .uv | .vf => .error .immediateType

/-- An immediate in slot `k` (R104, R245, R246). `sole` says that the slot is the only source of a one-source
instruction, where alone slot 0 may be immediate and the type may have 64 bits. -/
def encodeImm (cfg : Cfg) (sole : Bool) (k : Nat) (i : ImmOperand) : Except Cause (List Field) := do
  require (k != 0 || sole) .immediateSource0
  let ty ← entry (cfg.immTypeCode i.type) .immediateType
  require (!i.type.is64 || sole) .immediate64Slot
  require (i.type.immWidth == some i.bitWidth) .immediateWidth
  let v ← immBits i
  .ok [⟨rfPos k, 2, immFileCode⟩, ⟨tyPos k, 4, ty.toNat⟩,
       if i.type.is64 then ⟨64, 64, v⟩ else ⟨96, 32, v⟩]

/-! ## The operands of an instruction of the two-source layout -/

/-- `EncodeSrc(k, s)` (R238). -/
def encodeSrc (cfg : Cfg) (ins : Instruction) (sole : Bool) (k : Nat) (s : Operand) : Except Cause (List Field) :=
  match s with
  | .imm i => encodeImm cfg sole k i
  | .reg r =>
    encodeSrcReg cfg ins.body.accessMode (sourceRegion ins.body.executionSize r) (sourceOverlayLegal cfg ins) k r

/-- The operands of a OneSrc instruction (R192): destination, source 0. Every source-1 field is 0 (R105). -/
def encodeOneSrc (cfg : Cfg) (ins : Instruction) (d s0 : Operand) : Except Cause (List Field) := do
  let fd ← encodeDst cfg ins.body.accessMode d
  let f0 ← encodeSrc cfg ins true 0 s0
  .ok (fd ++ f0)

/-- The operands of a TwoSrc instruction (R194): destination, source 0, source 1. -/
def encodeTwoSrc (cfg : Cfg) (ins : Instruction) (d s0 s1 : Operand) : Except Cause (List Field) := do
  let fd ← encodeDst cfg ins.body.accessMode d
  let f0 ← encodeSrc cfg ins false 0 s0
  let f1 ← encodeSrc cfg ins false 1 s1
  .ok (fd ++ f0 ++ f1)

/-- R248: a `wait` operand is a direct ARF `n` register with a number up to 15. A greater number raises R248's
`UnsupportedOpcode`, though R89 and R231 give an ARF number above 15 `InvariantViolation` (DESIGN CHOICE, assumption
12). -/
def waitOperandOk (s : RegOperand) : Bool :=
  s.file == .arf .n && decide (s.number ≤ 15) && s.addressing == .direct

/-- The operand of `wait` (R203, R248): packed as destination with stride code 1 and as source 0 with region
`<0;1,0>` and its modifier (DEDUCED, assumption 21). An immediate, a 64-bit one too, is no ARF `n` operand (R248) and
raises `UnsupportedOpcode`, though R246 gives a 64-bit immediate outside OneSrc `InvariantViolation` (DESIGN CHOICE,
assumption 12). -/
def encodeWait (cfg : Cfg) (s : Operand) : Except Cause (List Field) :=
  match s with
  | .imm _ => .error .waitOperand
  | .reg r => do
    require (waitOperandOk r) .waitOperand
    let fd ← encodeDstReg cfg .align1 { r with region := .align1 none none (some 1) }
    let fs ← encodeSrcReg cfg .align1 scalarRegion false 0 r
    .ok (fd ++ fs)

end Sys2Proof.Machine
end

