-- ==== Sys2Proof/Machine/Branch.lean ====
section
/-! DEFINITION. The operand fields of branch words, and branch and label resolution (44_branch.md). -/

namespace Sys2Proof.Machine

/-! ## Operand fields (R350 to R353) -/

/-- Source 1 of a BranchOneSrc word: an immediate of type D (R351). The offset, DW3, is written by `writeOffset`. The type
is R351's constant 1, not R120's `IMM_TYPE(D)`, which has that value by default (DESIGN CHOICE, assumption 24). -/
def jipOperandFields : List Field := [⟨89, 2, immFileCode⟩, ⟨91, 4, 1⟩]

/-- Destination and source 0 all 0 (R351). -/
def noDstFields : List Field := [⟨22, 2, 0⟩, ⟨24, 5, 0⟩, ⟨35, 2, 0⟩, ⟨37, 4, 0⟩, ⟨47, 1, 0⟩, ⟨55, 8, 0⟩]

/-- Source 0 fields all 0 (R351, R353). -/
def noSrc0Fields : List Field :=
  [⟨41, 2, 0⟩, ⟨43, 4, 0⟩, ⟨64, 5, 0⟩, ⟨69, 8, 0⟩, ⟨77, 1, 0⟩, ⟨78, 2, 0⟩, ⟨80, 3, 0⟩, ⟨83, 4, 0⟩, ⟨87, 2, 0⟩]

/-- `endif`, `while`, `join` (R351). -/
def branchOneSrcFields : List Field := noDstFields ++ noSrc0Fields ++ jipOperandFields

/-- The register-number field of the ARF instruction pointer (R352). -/
def ipField (cfg : Cfg) : Nat := (cfg.arfSel.code .ip).toNat <<< 4

/-- `jmpi`: destination and source 0 are the ARF `ip` with type UD (R352). Both register numbers are `ARF_SEL(ip) << 4`,
where R352 writes 0xA0 for source 0, and both types its constant 0, not `REG_TYPE(UD)`: the same with the default codes
(DESIGN CHOICE, assumption 24). -/
def jmpiFields (cfg : Cfg) : List Field :=
  [⟨35, 2, 0⟩, ⟨37, 4, 0⟩, ⟨55, 8, ipField cfg⟩, ⟨22, 2, 1⟩, ⟨24, 5, 0⟩, ⟨47, 1, 0⟩,
   ⟨41, 2, 0⟩, ⟨43, 4, 0⟩, ⟨69, 8, ipField cfg⟩, ⟨64, 5, 0⟩, ⟨77, 1, 0⟩, ⟨78, 2, 0⟩, ⟨80, 3, 0⟩, ⟨83, 4, 0⟩,
   ⟨87, 2, 0⟩] ++ jipOperandFields

/-- The destination `call` requires: a direct GRF register of type D or UD (R353). -/
def callDestinationOk (r : RegOperand) : Bool :=
  r.addressing == .direct && r.file == .grf && (r.dataType == .d || r.dataType == .ud)

/-- `call` (R353), in the order of assumption 18 (DEDUCED). -/
def encodeCall (cfg : Cfg) (d : Operand) : Except Cause (List Field) :=
  match d with
  | .imm _ => .error .immediateDestination
  | .reg r => do
    require (callDestinationOk r) .callDestination
    let fd ← encodeDstReg cfg .align1 r
    .ok (fd ++ noSrc0Fields ++ jipOperandFields)

/-! ## Offsets (R332, R345, R346) -/

/-- `Offset(p, t)` (R332), in granularity units. -/
def branchOffset (cfg : Cfg) (p t : Nat) : Int := ((t : Int) - (p : Int)) * cfg.branchOffsetScale

/-- `Fits(compact, v)` (R345). -/
def offsetFits (compact : Bool) (v : Int) : Bool := if compact then fitsS 10 v else fitsS 32 v

/-- `WriteOffset` (R346): writes the offset's field of the word and nothing else. A word with no such field is left. -/
def writeOffset (bits : EncodedWord) (tag : FormatTag) (which : Target) (v : Int) : EncodedWord :=
  match bits, tag, which with
  | .native w, .branchOneSrc, .jip => .native (setField w 96 32 (twos 32 v))
  | .native w, .branchTwoSrc, .jip => .native (setField w 64 32 (twos 32 v))
  | .native w, .branchTwoSrc, .uip => .native (setField w 96 32 (twos 32 v))
  | .compact c, .branchOneSrc, .jip => .compact (setField c 54 10 (twos 10 v))
  | _, _, _ => bits

/-- One offset, checked and written. -/
def placeOffset (cfg : Cfg) (pos target : Nat) (tag : FormatTag) (which : Target) (bits : EncodedWord) :
    Except Cause EncodedWord := do
  let v := branchOffset cfg pos target
  require (offsetFits bits.isCompact v) .branchOffset
  .ok (writeOffset bits tag which v)

/-! ## Pass 1 (R338, R340) -/

/-- `backward(ins)` (R338): a branch-class instruction whose JIP label is in `labels`. -/
def backward (labels : List (Label × Nat)) (ins : Instruction) : Bool :=
  ins.opcode.isControlFlow &&
    (match ins.body.payload with
     | .branch jip _ => (labelPos labels jip).isSome
     | _ => false)

/-- The loop of `ResolveOrDefer` (R340): the word with the offsets that are known, and whether one is not. -/
def resolveTargets (cfg : Cfg) (labels : List (Label × Nat)) (pos : Nat) (tag : FormatTag) :
    List (Target × Label) → EncodedWord → Except Cause (EncodedWord × Bool)
  | [], bits => .ok (bits, false)
  | (which, l) :: rest, bits =>
    match labelPos labels l with
    | some t => do
      let bits' ← placeOffset cfg pos t tag which bits
      resolveTargets cfg labels pos tag rest bits'
    | none => do
      let (bits', _) ← resolveTargets cfg labels pos tag rest bits
      .ok (bits', true)

/-- `ResolveOrDefer` (R340). -/
def resolveOrDefer (cfg : Cfg) (labels : List (Label × Nat)) (pos : Nat) (ins : Instruction) (tag : FormatTag)
    (bits : EncodedWord) : Except Cause (EncodedWord × Bool) :=
  if ins.opcode.isControlFlow then resolveTargets cfg labels pos tag ins.body.payload.targets bits
  else .ok (bits, false)

/-! ## Pass 2 (R343) -/

/-- The loop of `Pass2Step` (R343): every label must be present. -/
def patchTargets (cfg : Cfg) (labels : List (Label × Nat)) (pos : Nat) (tag : FormatTag) :
    List (Target × Label) → EncodedWord → Except Cause EncodedWord
  | [], bits => .ok bits
  | (which, l) :: rest, bits =>
    match labelPos labels l with
    | none => .error (.danglingLabel l)
    | some t => do
      let bits' ← placeOffset cfg pos t tag which bits
      patchTargets cfg labels pos tag rest bits'

end Sys2Proof.Machine
end

