-- ==== Sys2Proof/Machine/Compaction.lean ====
section
/-! DEFINITION. The compaction engine (45_compaction.md; layout and groups 30_encoding.md R130 to R132). -/

namespace Sys2Proof.Machine

/-! ## The four groups (R131) -/

/-- Whether source 1 is an immediate, bits 90:89 = 3 (R131). -/
def imm1 (w : NativeWord) : Bool := unpack w 89 2 == 3

/-- CTRL(N), 20 bits. -/
def groupCtrl (w : NativeWord) : BitVec 20 :=
  BitVec.ofNat 20 (unpack w 8 14 ||| unpack w 29 3 <<< 14 ||| unpack w 32 3 <<< 17)

/-- DT(N), 21 bits. -/
def groupDt (w : NativeWord) : BitVec 21 :=
  BitVec.ofNat 21 (unpack w 22 2 ||| unpack w 35 13 <<< 2 ||| unpack w 89 6 <<< 15)

/-- SR(N), 15 bits. -/
def groupSr (w : NativeWord) : BitVec 15 :=
  BitVec.ofNat 15 (unpack w 24 5 ||| unpack w 64 5 <<< 5 ||| (if imm1 w then 0 else unpack w 96 5) <<< 10)

/-- SRC(N), 24 bits. -/
def groupSrc (w : NativeWord) : BitVec 24 :=
  BitVec.ofNat 24 (unpack w 77 12 ||| (if imm1 w then 0 else unpack w 109 12) <<< 12)

/-! ## TryCompact and Expand (R380, R383) -/

/-- `sext_32` of a 10-bit value, as a 32-bit number (R132). -/
def sext10to32 (v : Nat) : Nat := twos 32 (signed 10 v)

/-- The requirements of R380 on the bits that no group carries (R132). -/
def compactable (w : NativeWord) : Bool :=
  unpack w 7 1 == 0 && unpack w 53 1 == 0 && unpack w 63 1 == 0 && unpack w 95 1 == 0 &&
    (if imm1 w then unpack w 96 32 == sext10to32 (unpack w 96 10) else unpack w 121 7 == 0)

/-- The compact word of a native word whose groups have the given indexes (R380, R130). -/
def compactWord (w : NativeWord) (ci di si xi : Fin 32) : CompactWord :=
  let c := setField (0 : CompactWord) 0 7 (unpack w 0 7)
  let c := setField c 7 1 (unpack w 54 1)
  let c := setField c 8 5 ci
  let c := setField c 13 5 di
  let c := setField c 18 5 si
  let c := setField c 23 5 xi
  let c := setField c 28 4 (unpack w 48 4)
  let c := setField c 32 1 (unpack w 52 1)
  let c := setField c 33 8 (unpack w 55 8)
  let c := setField c 41 8 (unpack w 69 8)
  let c := setField c 53 1 1
  if imm1 w then setField c 54 10 (unpack w 96 10) else setField c 54 8 (unpack w 101 8)

/-- `TryCompact(N)` (R380). -/
def tryCompact (cfg : Cfg) (w : NativeWord) : Option CompactWord :=
  if compactable w then
    match tableLookup cfg.ctCtrl (groupCtrl w), tableLookup cfg.ctDt (groupDt w), tableLookup cfg.ctSr (groupSr w),
      tableLookup cfg.ctSrc (groupSrc w) with
    | some ci, some di, some si, some xi => some (compactWord w ci di si xi)
    | _, _, _, _ => none
  else none

/-- The table entry a 5-bit index field of a compact word names. -/
def tableAt {n : Nat} (t : CompactionTable n) (c : CompactWord) (off : Nat) : Nat :=
  (tableRead t (Fin.ofNat 32 (unpack c off 5))).toNat

/-- `Expand(C)` (R383). -/
def expand (cfg : Cfg) (c : CompactWord) : NativeWord :=
  let ctrl := tableAt cfg.ctCtrl c 8
  let dt := tableAt cfg.ctDt c 13
  let sr := tableAt cfg.ctSr c 18
  let src := tableAt cfg.ctSrc c 23
  let n := setField (0 : NativeWord) 0 7 (unpack c 0 7)
  let n := setField n 54 1 (unpack c 7 1)
  let n := setField n 48 4 (unpack c 28 4)
  let n := setField n 52 1 (unpack c 32 1)
  let n := setField n 8 14 (ctrl % 2 ^ 14)
  let n := setField n 29 3 (ctrl / 2 ^ 14 % 8)
  let n := setField n 32 3 (ctrl / 2 ^ 17)
  let n := setField n 22 2 (dt % 4)
  let n := setField n 35 13 (dt / 4 % 2 ^ 13)
  let n := setField n 89 6 (dt / 2 ^ 15)
  let n := setField n 24 5 (sr % 32)
  let n := setField n 64 5 (sr / 32 % 32)
  let n := setField n 77 12 (src % 2 ^ 12)
  let n := setField n 55 8 (unpack c 33 8)
  let n := setField n 69 8 (unpack c 41 8)
  if imm1 n then
    setField n 96 32 (sext10to32 (unpack c 54 10))
  else
    let n := setField n 96 5 (sr / 2 ^ 10)
    let n := setField n 101 8 (unpack c 54 8)
    setField n 109 12 (src / 2 ^ 12)

/-! ## The policies (R370 to R372) -/

/-- `Eligible(fmt)` (R371). -/
def eligible : FormatTag → Bool
  | .oneSrc | .twoSrc | .branchOneSrc => true
  | .threeSrcAlign1 | .threeSrcAlign16 | .send | .sends | .branchTwoSrc | .wait | .nop | .illegal => false

/-- The branch-class formats (R372). -/
def isBranchFormat : FormatTag → Bool
  | .branchOneSrc | .branchTwoSrc => true
  | _ => false

/-- `Compact(ins, fmt, N)` (R370). -/
def compact (cfg : Cfg) (policy : CompactionPolicy) (fmt : FormatTag) (w : NativeWord) : Except Cause EncodedWord :=
  match policy with
  | .mustNot => .ok (.native w)
  | .normal =>
    if isBranchFormat fmt || !eligible fmt then .ok (.native w)
    else
      match tryCompact cfg w with
      | some c => .ok (.compact c)
      | none => .ok (.native w)
  | .must =>
    if eligible fmt then
      match tryCompact cfg w with
      | some c => .ok (.compact c)
      | none => .error .mustNoMatch
    else .error .mustIneligible

end Sys2Proof.Machine
end

