-- ==== Sys2Proof/Machine/Send.lean ====
section
/-! DEFINITION. The send and split-send encoders (43_send.md; layouts 30_encoding.md R115 and R116). -/

namespace Sys2Proof.Machine

/-! ## The malformed descriptors (R300) -/

/-- An immediate of type UD or D with an integer value (R300 cases 3 to 5). Its `bitWidth` is not looked at, since R300
names its type and value only (DEDUCED, assumption 13). -/
def descImmediate (o : Operand) : Option Int :=
  match o with
  | .imm i =>
    if i.type == .ud || i.type == .d then
      match i.value with
      | .int v => some v
      | .float _ => none
    else none
  | .reg _ => none

/-- The sub-register of an ARF address operand `a0.n` (R300 cases 3 and 5): direct (DEDUCED, assumption 13),
number 0, n up to 15. -/
def addressRegister (o : Operand) : Option Nat :=
  match o with
  | .imm _ => none
  | .reg r =>
    if r.file == .arf .a && r.number == 0 && r.addressing == .direct && decide (r.subregister ≤ 15) then
      some r.subregister
    else none

/-- A descriptor as the block uses it (R300): the immediate value modulo 2^32, or the address sub-register. -/
inductive Descriptor where
  | imm (value : Nat)
  | reg (subregister : Nat)
deriving DecidableEq, Repr

/-- The descriptor an operand gives, if it is one (R300). -/
def descriptorOf (o : Operand) : Option Descriptor :=
  match descImmediate o with
  | some v => some (.imm (twos 32 v))
  | none => (addressRegister o).map .reg

/-- R300: "a value outside -2^31 .. 2^32-1 is case 6". -/
def descRangeOk (o : Operand) : Bool :=
  match descImmediate o with
  | some v => decide (-(2 ^ 31 : Int) ≤ v) && decide (v < (2 ^ 32 : Int))
  | none => true

/-- EOT, bit 5 of the extended descriptor; 0 where it is in a register (R302, R311). -/
def eotBit : Descriptor → Nat
  | .imm x => x >>> 5 &&& 1
  | .reg _ => 0

/-- SFID, bits 3:0 of the extended descriptor; 0 where it is in a register (R302, R311). -/
def sfid : Descriptor → Nat
  | .imm x => x &&& 0xF
  | .reg _ => 0

/-- The bits of an immediate extended descriptor that the block encodes (R300 case 6): 3:0 and 5, and 31:16 for a split
send. -/
def exDescMask (split : Bool) : Nat := if split then 0xFFFF002F else 0x2F

/-- R300 case 6 on the extended descriptor. -/
def exDescBitsOk (split : Bool) : Descriptor → Bool
  | .imm x => x &&& exDescMask split == x
  | .reg _ => true

/-- R300 case 7: bit 31 of an immediate descriptor is the EOT bit. -/
def eotAgrees (desc exDesc : Descriptor) : Bool :=
  match desc with
  | .imm x => x >>> 31 &&& 1 == eotBit exDesc
  | .reg _ => true

/-- The operands of a send-class instruction that are there (R300 case 1, R164). -/
def sendSources (b : InsBody) (n : Nat) : Except Cause (Operand × List Operand) :=
  match b.destination with
  | some d => if b.sources.length = n then .ok (d, b.sources) else .error (.sendDescriptor 1)
  | none => .error (.sendDescriptor 1)

/-- The checks of R300 cases 2 to 7, in that order; `split` is `sends` and `sendsc`. -/
def sendDescriptors (b : InsBody) (split : Bool) : Except Cause (Descriptor × Descriptor) :=
  match b.payload with
  | .send desc exDesc => do
    let d ← entry (descriptorOf desc) (.sendDescriptor 3)
    require (match d with | .reg n => n == 0 | .imm _ => true) (.sendDescriptor 3)
    let x ← entry (descriptorOf exDesc) (.sendDescriptor (if split then 5 else 4))
    require (match x with | .reg _ => split | .imm _ => true) (.sendDescriptor 4)
    require (descRangeOk desc && descRangeOk exDesc && exDescBitsOk split x) (.sendDescriptor 6)
    require (eotAgrees d x) (.sendDescriptor 7)
    .ok (d, x)
  | _ => .error (.sendDescriptor 2)

/-! ## send, sendc (R302, R303) -/

/-- A GRF operand or the ARF null register (R303, R310; the null register is `sel = null, number = 0`, R236). -/
def grfOrNull (r : RegOperand) : Bool := r.file == .grf || (r.file == .arf .null && r.number == 0)

/-- The register a send operand names (R303): an indirect one is refused, an immediate is of no register file. -/
def sendRegister (o : Operand) (immediate : Cause) : Except Cause RegOperand :=
  match o with
  | .imm _ => .error immediate
  | .reg r => do
    require (r.addressing == .direct) .sendIndirect
    .ok r

/-- `EncodeSend` (R302), with the restrictions of R303, in the order of assumption 18 (DEDUCED). R303's Align16 operand is
read as one in access mode Align16, which the header refuses first (R172, R405); an Align16 region on an operand of an
Align1 send is ignored (DEDUCED, assumptions 15 and 17). -/
def encodeSend (cfg : Cfg) (ins : Instruction) (d s0 : Operand) (desc exDesc : Descriptor) :
    Except Cause (List Field) := do
  let rd ← sendRegister d .immediateDestination
  require (grfOrNull rd) .sendOperand
  let fd ← encodeDst cfg ins.body.accessMode d
  let r0 ← sendRegister s0 .sendOperand
  require (r0.file == .grf) .sendOperand
  require (r0.modifier == .none) .sendModifier
  let f0 ← encodeSrc cfg ins false 0 s0
  let fx := [⟨48, 4, sfid exDesc⟩, ⟨91, 4, sfid exDesc⟩, ⟨95, 1, eotBit exDesc⟩, ⟨127, 1, eotBit exDesc⟩]
  let fe := match desc with
    | .imm x => [⟨89, 2, immFileCode⟩, ⟨96, 31, x &&& 0x7FFFFFFF⟩]
    | .reg _ =>
      [⟨89, 2, 0⟩, ⟨101, 8, (cfg.arfSel.code .a).toNat <<< 4 ||| 0⟩, ⟨96, 5, 0⟩, ⟨115, 4, 0⟩, ⟨112, 3, 0⟩,
       ⟨110, 2, 0⟩]
  .ok (fd ++ f0 ++ fx ++ fe)

/-! ## sends, sendsc (R310 to R312) -/

/-- A direct GRF operand with sub-register 0 (R310). -/
def payloadRegisterOk (r : RegOperand) : Bool := r.addressing == .direct && r.file == .grf && r.subregister == 0

/-- The register record of a split-send operand; an immediate, as destination too, breaks R310's requirement (DEDUCED,
assumption 14). -/
def splitRegister (o : Operand) : Except Cause RegOperand :=
  match o with
  | .imm _ => .error .sendOperand
  | .reg r => .ok r

/-- `src1` of a split send (R310): a payload register or the ARF null register. The null register too must be direct, but
its sub-register need not be 0 (DEDUCED, assumption 14); that it stays in the register is R230's check. -/
def secondPayloadOk (r : RegOperand) : Bool :=
  payloadRegisterOk r || (r.addressing == .direct && r.file == .arf .null && r.number == 0)

/-- The bits of the extended descriptor in a Sends word (R310, R116). -/
def exDescFields : Descriptor → List Field
  | .imm x => [⟨48, 4, x &&& 0xF⟩, ⟨80, 16, x >>> 16⟩, ⟨127, 1, x >>> 5 &&& 1⟩]
  | .reg n => [⟨48, 4, 0⟩, ⟨80, 4, n⟩, ⟨84, 12, 0⟩, ⟨127, 1, 0⟩]

/-- R402: replicate control outside three-source Align16; R401: a special-accumulator source outside math. Both hold of
the payload sources of a split send too (R310 names neither; assumption 14). -/
def checkSplitSource (r : RegOperand) : Except Cause Unit := do
  require r.specialAcc.isNone .specialAccSource
  require (!r.repCtrl) .replicateControl

/-- The destination of a split send with its type code: R310's requirement, the type code, then R231 and R402
(order DEDUCED, assumption 14). -/
def splitDestination (cfg : Cfg) (d : Operand) : Except Cause (RegOperand × BitVec 4) := do
  let r ← splitRegister d
  require (r.addressing == .direct && grfOrNull r) .sendOperand
  require (subregisterOk r && subRegField r == 0) .sendOperand
  let ty ← entry (cfg.regTypeCode r.dataType) .typeCode
  require (registerNumberOk cfg r) .registerNumber
  require (!r.repCtrl) .replicateControl
  .ok (r, ty)

/-- A payload source of a split send: R310's requirement on its place and its modifier, R230, R231, then R401 and R402
(order DEDUCED, assumption 14). -/
def splitSource (cfg : Cfg) (placeOk : RegOperand → Bool) (s : Operand) : Except Cause RegOperand := do
  let r ← splitRegister s
  require (placeOk r) .sendOperand
  require (r.modifier == .none) .sendModifier
  checkRegister cfg r
  checkSplitSource r
  .ok r

/-- `EncodeSends` (R310): the destination, then source 0, then source 1 (R405 step 7). -/
def encodeSends (cfg : Cfg) (d s0 s1 : Operand) (desc exDesc : Descriptor) : Except Cause (List Field) := do
  let (rd, ty) ← splitDestination cfg d
  let r0 ← splitSource cfg payloadRegisterOk s0
  let r1 ← splitSource cfg secondPayloadOk s1
  let isGrf1 := r1.file == .grf
  let fd := match desc with
    | .imm x => [⟨44, 1, 0⟩, ⟨96, 31, x &&& 0x7FFFFFFF⟩]
    | .reg _ => [⟨44, 1, 1⟩, ⟨96, 31, 0⟩]
  .ok ([⟨22, 2, 1⟩, ⟨24, 5, 0⟩, ⟨35, 2, rd.file.code⟩, ⟨37, 4, ty.toNat⟩, ⟨41, 2, 1⟩, ⟨43, 1, isGrf1.toNat⟩,
        ⟨47, 1, 0⟩, ⟨55, 8, regNumField cfg rd⟩, ⟨64, 8, byteAddr r0 >>> 5⟩,
        ⟨72, 8, if isGrf1 then byteAddr r1 >>> 5 else 0⟩] ++ fd ++ exDescFields exDesc)

/-- Bit 45, the "extended descriptor register number" bit (R312). -/
def exDescRegBit : Descriptor → Nat
  | .imm _ => 0
  | .reg _ => 1

/-- `SendsPatch` (R312): the post-encoding patch of bit 45. -/
def sendsPatch (w : NativeWord) (exDesc : Descriptor) : NativeWord := setField w 45 1 (exDescRegBit exDesc)

end Sys2Proof.Machine
end

