-- ==== Sys2Proof/Machine/ThreeSource.lean ====
section
/-! DEFINITION. The three-source encoder (42_three_source.md; layouts 30_encoding.md R110 and R111). -/

namespace Sys2Proof.Machine

/-! ## The type-class invariant (R270, R291) -/

/-- The data type of an operand, for R270: `dataType` of a register, `type` of an immediate. -/
def operandType : Operand → DataType
  | .imm i => i.type
  | .reg r => r.dataType

/-- `|cls| = 1` (R270). -/
def sameClass (d s0 s1 s2 : Operand) : Bool :=
  let c := (operandType d).typeClass
  (operandType s0).typeClass == c && (operandType s1).typeClass == c && (operandType s2).typeClass == c

/-- R270, and R291's restriction of `dp4a` to the integer class (order DEDUCED, assumption 18). -/
def checkClasses (m : Mnemonic) (d s0 s1 s2 : Operand) : Except Cause Unit := do
  require (sameClass d s0 s1 s2) .mixedClass
  require (m != .dp4a || (operandType d).typeClass == .integer) .dp4aClass

/-! ## Operand files -/

/-- A register operand that is direct; an indirect one is refused (R271), an immediate takes `c`
(DEDUCED, assumption 19). -/
def directRegister (o : Operand) (c : Cause) : Except Cause RegOperand :=
  match o with
  | .imm _ => .error c
  | .reg r => do
    require (r.addressing == .direct) .threeSourceIndirect
    .ok r

/-- A GRF operand or the ARF accumulator (R272, R275). -/
def grfOrAccumulator (r : RegOperand) : Bool := r.file == .grf || r.file == .arf .acc

/-- The one-bit register-file code of the three-source formats for a register (R83): 0 = GRF, 1 = accumulator. -/
def regFileBit (r : RegOperand) : Nat :=
  match r.file with
  | .grf => 0
  | .arf _ => 1

/-! ## ThreeSrcAlign16 (R272, R273) -/

/-- `Dst16` (R272). Bit 26 is the high bit of the sub-register offset for the accumulator too, as the pseudocode packs it,
though R272's prose says that its byte address is used only for the alignment test (DESIGN CHOICE, assumption 16).
Replicate control is not refused here: this is three-source Align16 (R402; DEDUCED, assumption 15). -/
def dst16 (cfg : Cfg) (d : Operand) : Except Cause (List Field) := do
  let r ← directRegister d .threeSourceFile
  require (grfOrAccumulator r) .threeSourceFile
  let ty ← entry (cfg.type3Code r.dataType) .typeCode
  checkRegister cfg r
  require (align16AddressOk r) .align16Address
  require (r.specialAcc.isNone || specialAccOperandOk r) .specialAccOperand
  let chanEn := match r.specialAcc with
    | some a => (cfg.specialAcc.code a).toNat
    | none => r.writeMask.toNat
  .ok [⟨38, 1, regFileBit r⟩, ⟨35, 3, ty.toNat⟩, ⟨55, 8, regNumField cfg r⟩, ⟨26, 1, subRegHighBit r⟩,
       ⟨22, 4, chanEn⟩, ⟨27, 2, 3⟩]

/-- The positions of one source in ThreeSrcAlign16 (the table of R273). -/
structure Slot16 where
  type : Nat
  rep : Nat
  swizzle : Nat
  sub : Nat
  regnum : Nat
  srcmod : Nat

/-- The table of R273. -/
def slot16 (k : Nat) : Slot16 :=
  match k with
  | 0 => ⟨64, 67, 68, 76, 77, 41⟩
  | 1 => ⟨85, 88, 89, 97, 98, 43⟩
  | _ => ⟨106, 109, 110, 118, 119, 45⟩

/-- The 8-bit swizzle (R273): identity is 0xE4. -/
def swizzle (c : ChannelSelect) : Nat :=
  c.c0.code ||| c.c1.code <<< 2 ||| c.c2.code <<< 4 ||| c.c3.code <<< 6

/-- The region of a ThreeSrcAlign16 source (R273): a channel select, or the identity; an Align1 region is refused. -/
def swizzleOf (r : Region) : Except Cause ChannelSelect :=
  match r with
  | .align16 c => .ok c
  | .none => .ok identitySelect
  | .align1 _ _ _ => .error .threeSourceRegion

/-- `Src16` (R273). Number and sub-register (R230, R231), which R273 does not list, are checked before the alignment and
so before the type code, and the region that R273 refuses in the prose after its pseudocode is looked at last, after the
type code (DEDUCED, assumption 18). -/
def src16 (cfg : Cfg) (k : Nat) (s : Operand) : Except Cause (List Field) := do
  let r ← directRegister s .threeSourceImmediateSlot
  require (r.file == .grf) .threeSourceFile
  require r.specialAcc.isNone .specialAccSource
  checkRegister cfg r
  require (align16AddressOk r) .align16Address
  let ty ← entry (cfg.type3Code r.dataType) .typeCode
  let c ← swizzleOf r.region
  let p := slot16 k
  .ok [⟨p.type, 3, ty.toNat⟩, ⟨p.rep, 1, r.repCtrl.toNat⟩, ⟨p.swizzle, 8, swizzle c⟩, ⟨p.sub, 1, subRegHighBit r⟩,
       ⟨p.regnum, 8, byteAddr r >>> 5⟩, ⟨p.srcmod, 2, r.modifier.code⟩]

/-! ## ThreeSrcAlign1 (R275 to R278) -/

/-- `Dst1` (R275). Replicate control is refused, being an Align16 field (R402). -/
def dst1 (cfg : Cfg) (d : Operand) : Except Cause (List Field) := do
  let r ← directRegister d .threeSourceFile
  require (grfOrAccumulator r) .threeSourceFile
  let ty ← entry (cfg.regTypeCode r.dataType) .typeCode
  checkRegister cfg r
  require (r.specialAcc.isNone || specialAccOperandOk r) .specialAccOperand
  let sub := match r.specialAcc with
    | some a => (cfg.specialAcc.code a).toNat
    | none => subRegField r
  let hs ← entry (dstStride3Code (r.region.horzStride?.getD 1)) .threeSourceStride
  require (!r.repCtrl) .replicateControl
  .ok [⟨26, 1, regFileBit r⟩, ⟨35, 4, ty.toNat⟩, ⟨120, 8, regNumField cfg r⟩, ⟨115, 5, sub⟩, ⟨22, 1, hs⟩]

/-- The positions of one source in ThreeSrcAlign1 (the table of R276). -/
structure Slot1 where
  regfile : Nat
  type : Nat
  srcmod : Nat
  vstride : Nat
  hstride : Nat
  subreg : Nat
  regnum : Nat

/-- The table of R276. -/
def slot1 (k : Nat) : Slot1 :=
  match k with
  | 0 => ⟨23, 39, 59, 64, 66, 68, 73⟩
  | 1 => ⟨24, 43, 61, 81, 83, 85, 90⟩
  | _ => ⟨25, 55, 27, 98, 100, 102, 107⟩

/-- The execution-size table of R277: vertical and horizontal stride. -/
def execSizeRegion3 (execSize : Nat) : Nat × Nat :=
  match execSize with
  | 1 => (0, 0)
  | 2 => (2, 1)
  | 4 => (4, 1)
  | _ => (8, 1)

/-- The region of a ThreeSrcAlign1 source (R277). -/
def sourceRegion3 (execSize : Nat) (s : RegOperand) : Nat × Nat :=
  let dflt := if s.subregister != 0 then (0, 0) else execSizeRegion3 execSize
  (s.region.vertStride?.getD dflt.1, s.region.horzStride?.getD dflt.2)

/-- The 16-bit immediate of R278. A 64-bit type is one of R278's other types and raises `UnsupportedOpcode`, though R246
gives a 64-bit immediate outside OneSrc `InvariantViolation` (DESIGN CHOICE, assumption 12). -/
def imm16 (i : ImmOperand) : Except Cause Nat :=
  match i.type with
  | .w | .d => signedValue 16 i.value
  | .uw | .ud => unsignedValue 15 i.value
  | .hf => floatValue 5 10 i.value
  | _ => .error .threeSourceImmediateType

/-- An immediate source (R278): legal in slots 0 and 2 only; its width is not checked (DEDUCED, assumption 19). -/
def src1Imm (cfg : Cfg) (k : Nat) (i : ImmOperand) : Except Cause (List Field) := do
  require (k != 1) .threeSourceImmediateSlot
  let v ← imm16 i
  let ty ← entry (cfg.regTypeCode i.type) .typeCode
  let p := slot1 k
  .ok [⟨p.regfile, 1, 1⟩, ⟨p.type, 4, ty.toNat⟩, ⟨p.vstride, 16, v⟩, ⟨p.vstride + 16, 1, 0⟩, ⟨p.srcmod, 2, 0⟩]

/-- The file check of R276: GRF in every slot, the accumulator in slot 1 only. -/
def srcFile1Ok (k : Nat) (r : RegOperand) : Bool := r.file == .grf || (k == 1 && r.file == .arf .acc)

/-- A register source (R276). -/
def src1Reg (cfg : Cfg) (execSize k : Nat) (r : RegOperand) : Except Cause (List Field) := do
  require (r.addressing == .direct) .threeSourceIndirect
  require (srcFile1Ok k r) .threeSourceFile
  let ty ← entry (cfg.regTypeCode r.dataType) .typeCode
  let region := sourceRegion3 execSize r
  let vs ← entry (vertStride3Code region.1) .threeSourceStride
  let hs ← entry (horzStride3Code region.2) .threeSourceStride
  checkRegister cfg r
  checkSourceOverlay cfg.specialAccSrcOverlay r
  require (!r.repCtrl) .replicateControl
  let sub := match r.specialAcc with
    | some a => (cfg.specialAcc.code a).toNat
    | none => subRegField r
  let p := slot1 k
  .ok [⟨p.regfile, 1, regFileBit r⟩, ⟨p.type, 4, ty.toNat⟩, ⟨p.srcmod, 2, r.modifier.code⟩, ⟨p.vstride, 2, vs⟩,
       ⟨p.hstride, 2, hs⟩, ⟨p.regnum, 8, regNumField cfg r⟩, ⟨p.subreg, 5, sub⟩]

/-- `Src1` (R276, R278). -/
def src1 (cfg : Cfg) (execSize k : Nat) (s : Operand) : Except Cause (List Field) :=
  match s with
  | .imm i => src1Imm cfg k i
  | .reg r => src1Reg cfg execSize k r

/-- `EncodeThreeSrc` (R271): the invariant, then the destination and the sources in slot order. -/
def encodeThreeSrc (cfg : Cfg) (ins : Instruction) (d s0 s1 s2 : Operand) : Except Cause (List Field) := do
  checkClasses ins.opcode d s0 s1 s2
  match ins.body.accessMode with
  | .align16 =>
    let fd ← dst16 cfg d
    let f0 ← src16 cfg 0 s0
    let f1 ← src16 cfg 1 s1
    let f2 ← src16 cfg 2 s2
    .ok (fd ++ f0 ++ f1 ++ f2)
  | .align1 =>
    let fd ← dst1 cfg d
    let f0 ← src1 cfg ins.body.executionSize 0 s0
    let f1 ← src1 cfg ins.body.executionSize 1 s1
    let f2 ← src1 cfg ins.body.executionSize 2 s2
    .ok (fd ++ f0 ++ f1 ++ f2)

end Sys2Proof.Machine
end

