-- ==== Sys2Proof/Machine/Encode.lean ====
section
/-! DEFINITION. The format selector (40_header_dispatch.md rules R161 to R164) and the native word of an Instruction
record: header, operands and patches (R165). -/

namespace Sys2Proof.Machine

/-- The platform features an opcode needs (R161, R163). -/
def featuresPresent (cfg : Cfg) (ins : Instruction) : Bool :=
  match ins.opcode with
  | .ror | .rol => cfg.hasRotate
  | .dp4a => cfg.hasDp4a && (ins.body.accessMode == .align16 || cfg.has3SrcAlign1)
  | .mad => ins.body.accessMode == .align16 || cfg.has3SrcAlign1
  | _ => true

/-- The opcode's code, with its row and its features checked (R161, R405 step 2). -/
def checkOpcode (cfg : Cfg) (ins : Instruction) : Except Cause (BitVec 7) := do
  let code ← entry (cfg.opcode ins.opcode) .noOpcode
  require (featuresPresent cfg ins) .featureAbsent
  .ok code

/-- The operands and payload of a record that has its class's shape (R164): the format it selects (R163) and what its
operand encoder takes. -/
inductive Shape where
  | bare (fmt : FormatTag)
  | one (d s0 : Operand)
  | two (d s0 s1 : Operand)
  | mathOne (fn : MathFn) (d s0 : Operand)
  | mathTwo (fn : MathFn) (d s0 s1 : Operand)
  | three (fmt : FormatTag) (d s0 s1 s2 : Operand)
  | wait (s0 : Operand)
  | send (d s0 : Operand) (desc exDesc : Descriptor)
  | sends (d s0 s1 : Operand) (desc exDesc : Descriptor)
  | branchOne
  | branchTwo
  | jmpi
  | call (d : Operand)
deriving DecidableEq, Repr

/-- The format of a shape (R163): `call` and `jmpi` words are tagged BranchOneSrc, a math word OneSrc or TwoSrc. -/
def Shape.format : Shape → FormatTag
  | .bare fmt => fmt
  | .one _ _ | .mathOne _ _ _ => .oneSrc
  | .two _ _ _ | .mathTwo _ _ _ _ => .twoSrc
  | .three fmt _ _ _ _ => fmt
  | .wait _ => .wait
  | .send _ _ _ _ => .send
  | .sends _ _ _ _ _ => .sends
  | .branchOne | .jmpi | .call _ => .branchOneSrc
  | .branchTwo => .branchTwoSrc

/-- No destination, no sources and no payload (R164). -/
def bareShape (fmt : FormatTag) (b : InsBody) : Except Cause Shape :=
  match b.destination, b.sources, b.payload with
  | none, [], .none => .ok (.bare fmt)
  | _, _, _ => .error .shape

/-- The math row of R164, with the function's source count (R163). -/
def mathShape (b : InsBody) : Except Cause Shape :=
  match b.payload with
  | .math fn =>
    match b.destination, b.sources, fn.sources with
    | some d, [s0], 1 => .ok (.mathOne fn d s0)
    | some d, [s0, s1], 2 => .ok (.mathTwo fn d s0 s1)
    | _, _, _ => .error .shape
  | _ => .error .shape

/-- The send rows of R164: a malformed one is a FAILURE (R300), in the order of R300's list. -/
def sendShape (b : InsBody) (split : Bool) : Except Cause Shape := do
  let (d, srcs) ← sendSources b (if split then 2 else 1)
  let (desc, exDesc) ← sendDescriptors b split
  match split, srcs with
  | false, [s0] => .ok (.send d s0 desc exDesc)
  | true, [s0, s1] => .ok (.sends d s0 s1 desc exDesc)
  | _, _ => .error (.sendDescriptor 1)

/-- The branch rows of R164: no sources, a Branch payload with a UIP exactly where the class has one. -/
def branchShape (b : InsBody) (wantUip : Bool) (shape : Shape) : Except Cause Shape :=
  match b.destination, b.sources, b.payload with
  | none, [], .branch _ uip => if uip.isSome = wantUip then .ok shape else .error .shape
  | _, _, _ => .error .shape

/-- `Select(ins)` with the operand shape check (R163, R164). -/
def select (ins : Instruction) : Except Cause Shape :=
  let b := ins.body
  match ins.opcode.opClass with
  | .illegal => bareShape .illegal b
  | .nop => bareShape .nop b
  | .oneSrc =>
    match b.destination, b.sources, b.payload with
    | some d, [s0], .none => .ok (.one d s0)
    | _, _, _ => .error .shape
  | .twoSrc =>
    match b.destination, b.sources, b.payload with
    | some d, [s0, s1], .none => .ok (.two d s0 s1)
    | _, _, _ => .error .shape
  | .math => mathShape b
  | .threeSrc =>
    match b.destination, b.sources, b.payload with
    | some d, [s0, s1, s2], .none =>
      .ok (.three (if b.accessMode = .align16 then .threeSrcAlign16 else .threeSrcAlign1) d s0 s1 s2)
    | _, _, _ => .error .shape
  | .wait =>
    match b.destination, b.sources, b.payload with
    | none, [s0], .none => .ok (.wait s0)
    | _, _, _ => .error .shape
  | .send => sendShape b false
  | .sends => sendShape b true
  | .branchOneSrc => branchShape b false .branchOne
  | .branchTwoSrc => branchShape b true .branchTwo
  | .jmpi => branchShape b false .jmpi
  | .call =>
    match b.destination, b.sources, b.payload with
    | some d, [], .branch _ none => .ok (.call d)
    | _, _, _ => .error .shape

/-- The math patch (R202): the function code in bits 51:48. A function with no code is found here, after the operands
(R405 step 8). -/
def mathPatch (cfg : Cfg) (fn : MathFn) : Except Cause (List Field) := do
  let code ← entry (cfg.mathFc.lookup fn) .mathFunction
  .ok [⟨48, 4, code.toNat⟩]

/-- `EncodeOperands` and the patches that are fields (R165): the operand fields of a shape. The split-send patch
(R312) is a step of its own after the fields are packed, unless the platform has the bit in the layout. -/
def encodeOperands (cfg : Cfg) (ins : Instruction) : Shape → Except Cause (List Field)
  | .bare _ => .ok []
  | .one d s0 => encodeOneSrc cfg ins d s0
  | .two d s0 s1 => encodeTwoSrc cfg ins d s0 s1
  | .mathOne fn d s0 => do
    let fs ← encodeOneSrc cfg ins d s0
    let fm ← mathPatch cfg fn
    .ok (fs ++ fm)
  | .mathTwo fn d s0 s1 => do
    let fs ← encodeTwoSrc cfg ins d s0 s1
    let fm ← mathPatch cfg fn
    .ok (fs ++ fm)
  | .three _ d s0 s1 s2 => encodeThreeSrc cfg ins d s0 s1 s2
  | .wait s0 => encodeWait cfg s0
  | .send d s0 desc exDesc => encodeSend cfg ins d s0 desc exDesc
  | .sends d s0 s1 desc exDesc => do
    let fs ← encodeSends cfg d s0 s1 desc exDesc
    .ok (if cfg.sendsExDescPatch then fs else fs ++ [⟨45, 1, exDescRegBit exDesc⟩])
  | .branchOne => .ok branchOneSrcFields
  | .branchTwo => .ok []
  | .jmpi => .ok (jmpiFields cfg)
  | .call d => encodeCall cfg d

/-- The split-send patch of R165, where `SENDS_EXDESC_PATCH` holds. -/
def applySendsPatch (cfg : Cfg) (shape : Shape) (w : NativeWord) : NativeWord :=
  match shape with
  | .sends _ _ _ _ exDesc => if cfg.sendsExDescPatch then sendsPatch w exDesc else w
  | _ => w

/-- Every field of an Instruction record's native word, in the order the rules pack them. -/
def encodeFields (cfg : Cfg) (back : Bool) (ins : Instruction) : Except Cause (Shape × List Field) := do
  let opc ← checkOpcode cfg ins
  let shape ← select ins
  let header ← encodeHeader cfg opc shape.format ins back
  let operands ← encodeOperands cfg ins shape
  .ok (shape, header ++ operands)

/-- The native word of an Instruction record and its format tag, offsets not yet written (R165): every bit starts at 0
(R71, R432). `back` is the backward-branch condition (R338). -/
def encodeNative (cfg : Cfg) (back : Bool) (ins : Instruction) : Except Cause (FormatTag × NativeWord) := do
  let (shape, fields) ← encodeFields cfg back ins
  let w ← packFields (0 : NativeWord) fields
  .ok (shape.format, applySendsPatch cfg shape w)

end Sys2Proof.Machine
end

