-- ==== Sys2Proof/Decode.lean ====
section
/-! DEFINITION. The decoder: the reading of an encoded word's fields back into an Instr command, by the layout tables
of 30_encoding.md; and after it the encoder of a well-formed instruction. The spec specifies no decoder (R5); this one
is the model's, made of the encoding tables (assumption 6). -/

namespace Sys2Proof

/-- Why a word is rejected. -/
inductive DecodeError where
  /-- Fewer bytes than the word's length (R150). -/
  | truncated
  /-- An opcode value with no entry in `OPC` (R151). -/
  | opcode (code : Nat)
  /-- A reserved bit is 1 (R71, R151). -/
  | reservedBits (off width : Nat)
  /-- ExecSize 6 or 7 (R151). -/
  | execSize (code : Nat)
  /-- A predicate control with no meaning, or flag and inversion bits without a predicate (R151, R176). -/
  | predicate (code : Nat)
  /-- A condition modifier with no meaning (R151). -/
  | condMod (code : Nat)
  /-- A register-file code that the field does not admit (R151, R83). -/
  | regFile (code : Nat)
  /-- A type code with no meaning in the field's table (R151). -/
  | dataType (code : Nat)
  /-- A region code with no meaning (R151). -/
  | region (code : Nat)
  /-- A reserved ARF selector (R151). -/
  | arfSelector (code : Nat)
  /-- A sub-register offset that is no element of the type and no special accumulator (R230, R237). -/
  | subregister (offset : Nat)
  /-- The two halves of a replicated 16-bit immediate differ (R245). -/
  | halves
  /-- An immediate of a type that the slot does not admit (R246). -/
  | immediate
  /-- Align16 indirect addressing has no case (R101). -/
  | addressing
deriving DecidableEq, Repr

namespace Decoding

abbrev Read := Except DecodeError

/-! ## Tables read backwards -/

def keyOf {α β : Type} [BEq β] (t : List (α × β)) (b : β) : Option α := (t.find? fun e => e.2 == b).map Prod.fst

def nameOf {α β : Type} [BEq β] (names : List α) (code : α → β) (b : β) : Option α := names.find? fun n => code n == b

def found {α : Type} (o : Option α) (e : DecodeError) : Read α :=
  match o with
  | some a => .ok a
  | none => .error e

def allPredCtrl : List PredCtrl :=
  [.anyv, .allv, .any2h, .all2h, .any4h, .all4h, .any8h, .all8h, .any16h, .all16h, .any32h, .all32h]

/-- The condition modifiers with a code of their own, EQ before ZERO, which shares its code (R82). -/
def allCondMod : List CondMod := [.eq, .zero, .ne, .gt, .ge, .lt, .le, .round, .overflow, .unordered]

def allArfSel : List ArfSel := [.null, .a, .acc, .f, .ce, .msg, .sp, .sr, .cr, .n, .ip, .tdr, .tm]

def allAccName : List AccName := [.acc2, .acc3, .acc4, .acc5, .acc6, .acc7, .acc8, .acc9, .noacc]

def execSizeOf (code : Nat) : Option Nat := if code ≤ 5 then some (2 ^ code) else none

def threadControlOf (code : Nat) : ThreadControl :=
  match code with
  | 0 => .normal
  | 1 => .atomic
  | 2 => .switch
  | _ => .noPreempt

def srcModOf (code : Nat) : SrcMod :=
  match code with
  | 0 => .none
  | 1 => .abs
  | 2 => .negate
  | _ => .negateAbs

def channelOf (code : Nat) : Channel :=
  match code with
  | 0 => .x
  | 1 => .y
  | 2 => .z
  | _ => .w

def horzStrideOf (code : Nat) : Nat :=
  match code with
  | 0 => 0
  | 1 => 1
  | 2 => 2
  | _ => 4

def widthOf (code : Nat) : Option Nat := if code ≤ 4 then some (2 ^ code) else none

def vertStrideOf (code : Nat) : Option Nat :=
  match code with
  | 0 => some 0
  | 1 => some 1
  | 2 => some 2
  | 3 => some 4
  | 4 => some 8
  | 5 => some 16
  | 6 => some 32
  | _ => none

def vertStride3Of (code : Nat) : Nat :=
  match code with
  | 0 => 0
  | 1 => 2
  | 2 => 4
  | _ => 8

/-- `REG_TYPE` read backwards (R84). -/
def regTypeOf (cfg : Cfg) (code : Nat) : Option DataType :=
  keyOf (cfg.regType.filter fun e => !e.1.isPackedVector) (BitVec.ofNat 4 code)

/-- `IMM_TYPE` read backwards (R85). -/
def immTypeOf (cfg : Cfg) (code : Nat) : Option DataType :=
  keyOf (cfg.immType.filter fun e => e.1.immWidth.isSome) (BitVec.ofNat 4 code)

/-- `TYPE3_A16` read backwards (R86). -/
def type3Of (cfg : Cfg) (code : Nat) : Option DataType :=
  keyOf (cfg.type3A16.filter fun e => !e.1.isPackedVector) (BitVec.ofNat 3 code)

/-! ## Fields -/

def flag (w : NativeWord) (i : Nat) : Bool := unpack w i 1 == 1

/-- Reserved bits must be 0 (R71). -/
def reserved {n : Nat} (w : BitVec n) : List (Nat × Nat) → Read Unit
  | [] => .ok ()
  | (off, width) :: rest => if unpack w off width = 0 then reserved w rest else .error (.reservedBits off width)

/-- The predicate (R176, R78). -/
def readPredicate (cfg : Cfg) (w : NativeWord) : Read (Option Predicate) :=
  let code := unpack w 16 4
  if code = 0 then
    if unpack w 20 1 = 0 ∧ unpack w 32 2 = 0 then .ok none else .error (.predicate code)
  else do
    let control ←
      if code = 1 then .ok none
      else some <$> found (nameOf allPredCtrl cfg.predCtrl.code (BitVec.ofNat 4 code)) (.predicate code)
    .ok (some { flagReg := unpack w 33 1, flagSubreg := unpack w 32 1, inverted := flag w 20, control := control })

/-- The condition modifier (R82), where bits 51:48 hold it. -/
def readCondMod (cfg : Cfg) (m : Mnemonic) (w : NativeWord) : Read (Option CondMod) :=
  let code := unpack w 48 4
  if m.isSendClass || m == .math || code == 0 then .ok none
  else some <$> found (nameOf allCondMod cfg.condMod.code (BitVec.ofNat 4 code)) (.condMod code)

/-- The common header (R100). -/
def readHeader (cfg : Cfg) (m : Mnemonic) (policy : CompactionPolicy) (w : NativeWord) : Read InsBody := do
  let size ← found (execSizeOf (unpack w 29 3)) (.execSize (unpack w 29 3))
  let predicate ← readPredicate cfg w
  let cond ← readCondMod cfg m w
  .ok { executionSize := size
        accessMode := if flag w 8 then .align16 else .align1
        predicate := predicate
        conditionModifier := cond
        maskControl := if flag w 34 then .noMask else .normal
        maskOffset := 8 * unpack w 12 2 + 4 * unpack w 11 1
        threadControl := threadControlOf (unpack w 14 2)
        depControl := { noDDClr := flag w 9, noDDChk := flag w 10 }
        saturate := flag w 21
        accWriteControl := flag w 52
        debugBreakpoint := flag w 54
        compactionPolicy := policy }

/-! ## Two-source layout operands (R101 to R104) -/

/-- A two-bit register-file code of a register, with the register number's field (R83, R89). -/
def readRegister (cfg : Cfg) (file num : Nat) : Read (RegFile × Nat) :=
  match file with
  | 1 => .ok (.grf, num)
  | 0 => do
    let sel ← found (nameOf allArfSel cfg.arfSel.code (BitVec.ofNat 4 (num / 16))) (.arfSelector (num / 16))
    .ok (.arf sel, num % 16)
  | _ => .error (.regFile file)

/-- A sub-register byte offset: an element of the type (R230), or else, where the overlay may stand, a special
accumulator (R237, R243). -/
def readSub (cfg : Cfg) (t : DataType) (overlay : Bool) (off : Nat) : Read (Nat × Option AccName) :=
  if off % t.bytes = 0 then .ok (off / t.bytes, none)
  else if overlay then do
    let a ← found (nameOf allAccName (fun a => (cfg.specialAcc.code a).toNat) off) (.subregister off)
    .ok (0, some a)
  else .error (.subregister off)

/-- The destination of the two-source layout (R101). -/
def readDst (cfg : Cfg) (mode : AccessMode) (w : NativeWord) : Read Operand := do
  let t ← found (regTypeOf cfg (unpack w 37 4)) (.dataType (unpack w 37 4))
  let stride := Region.align1 none none (some (horzStrideOf (unpack w 22 2)))
  match mode, flag w 47 with
  | .align1, false => do
    let (file, num) ← readRegister cfg (unpack w 35 2) (unpack w 55 8)
    let (sub, acc) ← readSub cfg t true (unpack w 24 5)
    reserved w [(63, 1)]
    .ok (.reg { file := file, number := num, subregister := sub, region := stride, dataType := t, specialAcc := acc })
  | .align1, true => do
    let (file, _) ← readRegister cfg (unpack w 35 2) 0
    let off := signed 10 (unpack w 55 9 + 512 * unpack w 28 1)
    .ok (.reg { file := file, number := 0, addressing := .indirect (unpack w 24 4) off, region := stride,
                dataType := t })
  | .align16, false => do
    let (file, num) ← readRegister cfg (unpack w 35 2) (unpack w 55 8)
    reserved w [(63, 1)]
    .ok (.reg { file := file, number := num, subregister := 16 * unpack w 28 1 / t.bytes, dataType := t,
                writeMask := BitVec.ofNat 4 (unpack w 24 4) })
  | .align16, true => .error .addressing

/-- The Align1 region of the slot at `base` (R102). -/
def readRegion (w : NativeWord) (base : Nat) : Read Region := do
  let v ← found (vertStrideOf (unpack w (base + 19) 4)) (.region (unpack w (base + 19) 4))
  let wd ← found (widthOf (unpack w (base + 16) 3)) (.region (unpack w (base + 16) 3))
  .ok (.align1 (some v) (some wd) (some (horzStrideOf (unpack w (base + 14) 2))))

/-- A register source of the two-source layout in slot `k` (R102, R103). -/
def readSrcReg (cfg : Cfg) (mode : AccessMode) (overlay : Bool) (k : Nat) (w : NativeWord) : Read Operand := do
  let base := Machine.slotBase k
  let tyCode := unpack w (Machine.tyPos k) 4
  let fileCode := unpack w (Machine.rfPos k) 2
  let t ← found (regTypeOf cfg tyCode) (.dataType tyCode)
  let modifier := srcModOf (unpack w (base + 23) 2)
  match mode, flag w (base + 13) with
  | .align1, false => do
    let (file, num) ← readRegister cfg fileCode (unpack w (base + 5) 8)
    let (sub, acc) ← readSub cfg t overlay (unpack w base 5)
    let region ← readRegion w base
    .ok (.reg { file := file, number := num, subregister := sub, region := region, dataType := t,
                modifier := modifier, specialAcc := acc })
  | .align1, true => do
    let (file, _) ← readRegister cfg fileCode 0
    let region ← readRegion w base
    let off := signed 10 (unpack w base 9 + 512 * unpack w (base + 31) 1)
    .ok (.reg { file := file, number := 0, addressing := .indirect (unpack w (base + 9) 4) off, region := region,
                dataType := t, modifier := modifier })
  | .align16, false => do
    let (file, num) ← readRegister cfg fileCode (unpack w (base + 5) 8)
    reserved w [(base + 18, 1), (base + 19, 4)]
    let sel : ChannelSelect :=
      { c0 := channelOf (unpack w base 2), c1 := channelOf (unpack w (base + 2) 2),
        c2 := channelOf (unpack w (base + 14) 2), c3 := channelOf (unpack w (base + 16) 2) }
    .ok (.reg { file := file, number := num, subregister := 16 * unpack w (base + 4) 1 / t.bytes,
                region := .align16 sel, dataType := t, modifier := modifier })
  | .align16, true => .error .addressing

/-- The reserved bits of a register slot: the last bit of the slot unless it is the sign of an indirect offset (R102,
R103). -/
def slotReserved (w : NativeWord) (k : Nat) : Read Unit :=
  if flag w (Machine.slotBase k + 13) then .ok () else reserved w [(Machine.slotBase k + 31, 1)]

/-! ## Immediates (R104, R245, R246) -/

/-- The value an IEEE 754 bit pattern stands for, its number in lowest terms (R96). -/
def floatOf (expBits fracBits bits : Nat) : FloatValue :=
  let neg := bits / 2 ^ (expBits + fracBits) % 2 == 1
  let e := bits / 2 ^ fracBits % 2 ^ expBits
  let f := bits % 2 ^ fracBits
  if e = 2 ^ expBits - 1 then
    if f = 0 then .infinity neg else .nan neg f
  else
    let n := if e = 0 then f else (2 ^ fracBits + f) * 2 ^ (e - 1)
    let one := 2 ^ (2 ^ (expBits - 1) + fracBits - 2)
    let g := Nat.gcd n one
    .finite neg (n / g) (one / g)

/-- A replicated 16-bit value (R245). -/
def half (v : Nat) : Read Nat := if v / 2 ^ 16 = v % 2 ^ 16 then .ok (v % 2 ^ 16) else .error .halves

/-- An immediate of the type whose code stands at `tyPos k` (R245, R246). -/
def readImm (cfg : Cfg) (sole : Bool) (k : Nat) (w : NativeWord) : Read Operand := do
  let code := unpack w (Machine.tyPos k) 4
  let t ← found (immTypeOf cfg code) (.dataType code)
  let v32 := unpack w 96 32
  let v64 := unpack w 64 64
  let imm (value : ImmValue) (bitWidth : ImmWidth) : Operand := .imm { value := value, bitWidth := bitWidth, type := t }
  if t.is64 && !sole then .error .immediate
  else match t with
    | .d => .ok (imm (.int (signed 32 v32)) .w32)
    | .ud => .ok (imm (.int v32) .w32)
    | .f => .ok (imm (.float (floatOf 8 23 v32)) .w32)
    | .w => (fun h => imm (.int (signed 16 h)) .w16) <$> half v32
    | .uw => (fun (h : Nat) => imm (.int h) .w16) <$> half v32
    | .hf => (fun h => imm (.float (floatOf 5 10 h)) .w16) <$> half v32
    | .df => .ok (imm (.float (floatOf 11 52 v64)) .w64)
    | .q => .ok (imm (.int (signed 64 v64)) .w64)
    | .uq => .ok (imm (.int v64) .w64)
    | .ub | .b | .v | .uv | .vf => .error .immediate

/-- The source of a one-source instruction (R104, R105). -/
def readSole (cfg : Cfg) (mode : AccessMode) (overlay : Bool) (w : NativeWord) : Read Operand :=
  if unpack w 41 2 = immFileCode then do
    let s ← readImm cfg true 0 w
    if (Machine.operandType s).is64 then .ok s
    else do
      reserved w [(64, 32)]
      .ok s
  else do
    let s ← readSrcReg cfg mode overlay 0 w
    slotReserved w 0
    reserved w [(89, 6), (96, 32)]
    .ok s

/-- The sources of a two-source instruction (R103, R104). -/
def readPair (cfg : Cfg) (mode : AccessMode) (overlay : Bool) (w : NativeWord) : Read (List Operand) := do
  let s0 ← readSrcReg cfg mode overlay 0 w
  slotReserved w 0
  if unpack w 89 2 = immFileCode then do
    let s1 ← readImm cfg false 1 w
    .ok [s0, s1]
  else do
    let s1 ← readSrcReg cfg mode overlay 1 w
    slotReserved w 1
    reserved w [(121, 6)]
    .ok [s0, s1]

/-! ## Three-source operands (R110, R111) -/

/-- The one-bit register-file code of a three-source register slot (R83): the accumulator's number stands with its
selector in the register-number field. -/
def readRegister3 (cfg : Cfg) (bit num : Nat) : Read (RegFile × Nat) := readRegister cfg (1 - bit) num

/-- ThreeSrcAlign16 (R110). -/
def readThree16 (cfg : Cfg) (w : NativeWord) : Read (Operand × List Operand) := do
  let t ← found (type3Of cfg (unpack w 35 3)) (.dataType (unpack w 35 3))
  let (file, num) ← readRegister3 cfg (unpack w 38 1) (unpack w 55 8)
  let d : Operand := .reg { file := file, number := num, subregister := 16 * unpack w 26 1 / t.bytes, dataType := t,
                            writeMask := BitVec.ofNat 4 (unpack w 22 4) }
  let src (k : Nat) : Read Operand := do
    let p := Machine.slot16 k
    let ts ← found (type3Of cfg (unpack w p.type 3)) (.dataType (unpack w p.type 3))
    .ok (.reg { file := .grf, number := unpack w p.regnum 8, subregister := 16 * unpack w p.sub 1 / ts.bytes,
                region := .align16 { c0 := channelOf (unpack w p.swizzle 2),
                                     c1 := channelOf (unpack w (p.swizzle + 2) 2),
                                     c2 := channelOf (unpack w (p.swizzle + 4) 2),
                                     c3 := channelOf (unpack w (p.swizzle + 6) 2) },
                dataType := ts, modifier := srcModOf (unpack w p.srcmod 2), repCtrl := flag w p.rep })
  let s0 ← src 0
  let s1 ← src 1
  let s2 ← src 2
  reserved w [(39, 2), (47, 1), (63, 1), (127, 1)]
  .ok (d, [s0, s1, s2])

/-- An immediate of a three-source slot (R278: read back as `sext_16` for every integer type). -/
def readImm16 (t : DataType) (v : Nat) : Read Operand :=
  match t with
  | .w | .uw => .ok (.imm { value := .int (signed 16 v), bitWidth := .w16, type := t })
  | .d | .ud => .ok (.imm { value := .int (signed 16 v), bitWidth := .w32, type := t })
  | .hf => .ok (.imm { value := .float (floatOf 5 10 v), bitWidth := .w16, type := t })
  | _ => .error .immediate

/-- ThreeSrcAlign1 (R111). -/
def readThree1 (cfg : Cfg) (w : NativeWord) : Read (Operand × List Operand) := do
  let t ← found (regTypeOf cfg (unpack w 35 4)) (.dataType (unpack w 35 4))
  let (file, num) ← readRegister3 cfg (unpack w 26 1) (unpack w 120 8)
  let (sub, acc) ← readSub cfg t true (unpack w 115 5)
  let d : Operand := .reg { file := file, number := num, subregister := sub, dataType := t, specialAcc := acc,
                            region := .align1 none none (some (1 + unpack w 22 1)) }
  let src (k : Nat) : Read Operand := do
    let p := Machine.slot1 k
    let ts ← found (regTypeOf cfg (unpack w p.type 4)) (.dataType (unpack w p.type 4))
    if k ≠ 1 ∧ unpack w p.regfile 1 = 1 then do
      reserved w [(p.vstride + 16, 1), (p.srcmod, 2)]
      readImm16 ts (unpack w p.vstride 16)
    else do
      let (sf, sn) ← readRegister3 cfg (unpack w p.regfile 1) (unpack w p.regnum 8)
      let (ss, sa) ← readSub cfg ts cfg.specialAccSrcOverlay (unpack w p.subreg 5)
      .ok (.reg { file := sf, number := sn, subregister := ss, dataType := ts, specialAcc := sa,
                  region := .align1 (some (vertStride3Of (unpack w p.vstride 2))) none
                    (some (horzStrideOf (unpack w p.hstride 2))),
                  modifier := srcModOf (unpack w p.srcmod 2) })
  let s0 ← src 0
  let s1 ← src 1
  let s2 ← src 2
  reserved w [(47, 1), (63, 1)]
  .ok (d, [s0, s1, s2])

/-! ## Send operands (R115, R116) -/

def udImm (v : Nat) : Operand := .imm { value := .int v, bitWidth := .w32, type := .ud }

/-- The ARF address operand `a0.n` of a descriptor. -/
def addressOperand (n : Nat) : Operand := .reg { file := .arf .a, number := 0, subregister := n, dataType := .ud }

/-- The operands of a Send word (R115). -/
def readSend (cfg : Cfg) (w : NativeWord) : Read (Operand × List Operand × Payload) := do
  reserved w [(47, 1), (77, 1)]
  let d ← readDst cfg .align1 w
  let s0 ← readSrcReg cfg .align1 false 0 w
  let eot := unpack w 127 1
  let exDesc := udImm (unpack w 48 4 + 32 * eot)
  match unpack w 89 2 with
  | 3 => .ok (d, [s0], .send (udImm (unpack w 96 31 + 2 ^ 31 * eot)) exDesc)
  | file => do
    reserved w [(109, 18)]
    let (f, num) ← readRegister cfg file (unpack w 101 8)
    .ok (d, [s0], .send (.reg { file := f, number := num, subregister := unpack w 96 5, dataType := .ud }) exDesc)

/-- The operands of a Sends word (R116). -/
def readSends (cfg : Cfg) (w : NativeWord) : Read (Operand × List Operand × Payload) := do
  let t ← found (regTypeOf cfg (unpack w 37 4)) (.dataType (unpack w 37 4))
  reserved w [(24, 5), (46, 1), (47, 1), (63, 1)]
  let (df, dn) ← readRegister cfg (unpack w 35 2) (unpack w 55 8)
  let (f0, n0) ← readRegister cfg (unpack w 41 2) (unpack w 64 8)
  let (f1, n1) ← readRegister cfg (unpack w 43 1) (unpack w 72 8)
  let eot := unpack w 127 1
  let exDesc ← if flag w 45 then do
      reserved w [(48, 4), (84, 12), (127, 1)]
      .ok (addressOperand (unpack w 80 4))
    else .ok (udImm (unpack w 48 4 + 32 * eot + 2 ^ 16 * unpack w 80 16))
  let desc ← if flag w 44 then do
      reserved w [(96, 31)]
      .ok (addressOperand 0)
    else .ok (udImm (unpack w 96 31 + 2 ^ 31 * eot))
  .ok (.reg { file := df, number := dn, dataType := t },
       [.reg { file := f0, number := n0, dataType := .ud }, .reg { file := f1, number := n1, dataType := .ud }],
       .send desc exDesc)

/-! ## The native word -/

/-- The operand areas 28:22, 47:35 and 63:55, all 0 where a format has no operands there (R121, R123). -/
def noOperandAreas : List (Nat × Nat) := [(22, 7), (35, 13), (55, 9)]

/-- A branch's label as a word gives it: the number in the offset field (assumption 6). -/
def offsetLabel (w : NativeWord) (off : Nat) : Label := { name := unpack w off 32 }

/-- The function a math word names; a reserved code names none (R92), which leaves the record without a Math payload. -/
def readMathFn (cfg : Cfg) (w : NativeWord) : Option MathFn := keyOf cfg.mathFc (BitVec.ofNat 4 (unpack w 48 4))

/-- The operands and the payload of a native word, by the class of its opcode. A field that the layout fixes (the `ip`
operands of `jmpi`, the null operands of `endif`, the copies in `wait`, `send`) is not read (assumption 6). -/
def readOperands (cfg : Cfg) (m : Mnemonic) (b : InsBody) (w : NativeWord) : Read InsBody :=
  let jip := offsetLabel w 96
  match m.opClass with
  | .illegal | .nop => do
    reserved w (noOperandAreas ++ [(64, 64)])
    .ok b
  | .oneSrc => do
    let d ← readDst cfg b.accessMode w
    let s ← readSole cfg b.accessMode false w
    .ok { b with destination := some d, sources := [s] }
  | .twoSrc => do
    let d ← readDst cfg b.accessMode w
    let ss ← readPair cfg b.accessMode false w
    .ok { b with destination := some d, sources := ss }
  | .math => do
    let d ← readDst cfg b.accessMode w
    match readMathFn cfg w with
    | some fn => do
      let overlay := cfg.specialAccSrcOverlay && fn.isAccumulatorForm
      let ss ← if fn.sources = 2 then readPair cfg b.accessMode overlay w
        else (fun s => [s]) <$> readSole cfg b.accessMode overlay w
      .ok { b with destination := some d, sources := ss, payload := .math fn }
    | none => do
      let s ← readSole cfg b.accessMode false w
      .ok { b with destination := some d, sources := [s] }
  | .threeSrc => do
    let (d, ss) ← match b.accessMode with
      | .align16 => readThree16 cfg w
      | .align1 => readThree1 cfg w
    .ok { b with destination := some d, sources := ss }
  | .wait => do
    let t ← found (regTypeOf cfg (unpack w 43 4)) (.dataType (unpack w 43 4))
    let (file, num) ← readRegister cfg (unpack w 41 2) (unpack w 69 8)
    let (sub, _) ← readSub cfg t false (unpack w 64 5)
    reserved w [(77, 10), (89, 7), (96, 32)]
    .ok { b with sources := [.reg { file := file, number := num, subregister := sub, dataType := t,
                                    modifier := srcModOf (unpack w 87 2) }] }
  | .send => do
    let (d, ss, p) ← readSend cfg w
    .ok { b with destination := some d, sources := ss, payload := p }
  | .sends => do
    let (d, ss, p) ← readSends cfg w
    .ok { b with destination := some d, sources := ss, payload := p }
  | .branchOneSrc | .jmpi => .ok { b with payload := .branch jip none }
  | .call => do
    let d ← readDst cfg .align1 w
    .ok { b with destination := some d, payload := .branch jip none }
  | .branchTwoSrc => do
    reserved w noOperandAreas
    .ok { b with payload := .branch (offsetLabel w 64) (some jip) }

end Decoding

open Decoding

/-- The Instr command of a native word, with the policy it was emitted under. -/
def decodeNative (cfg : Cfg) (policy : CompactionPolicy) (w : NativeWord) : Except DecodeError Instr := do
  let m ← found (keyOf cfg.opc (BitVec.ofNat 7 (unpack w 0 7))) (.opcode (unpack w 0 7))
  reserved w [(7, 1), (53, 1)]
  let b ← readHeader cfg m policy w
  let b ← readOperands cfg m b w
  .ok (m.instr b [])

/-- Whether the word that starts with these 8 bytes is compact (R150). -/
def isCompactAt (first8 : Nat) : Bool := first8 / 2 ^ 53 % 2 == 1

/-- The native word that a compact word stands for (R383). Its reserved bits, 52:49 and, beside a register source 1, 63:62
(R130), must be 0, as those of a native word (R151; DESIGN CHOICE, assumption 6). -/
def readCompact (cfg : Cfg) (c : CompactWord) : Read NativeWord := do
  let w := Machine.expand cfg c
  reserved c [(49, 4)]
  if Machine.imm1 w then .ok w
  else do
    reserved c [(62, 2)]
    .ok w

/-- The decoder: the instruction at the front of the bytes, and the bytes after it. The length is told by bit 53 (R150);
a compact word stands for its expansion (R383). A native word decodes to policy `MustNot` and a compact one to `Must`,
the policies under which the record gives that word again. -/
def decode (cfg : Cfg) (bytes : List Byte) : Except DecodeError (Instr × List Byte) :=
  if bytes.length < 8 then .error .truncated
  else
    let first8 := ofBytes (bytes.take 8)
    if isCompactAt first8 then do
      let w ← readCompact cfg (BitVec.ofNat 64 first8)
      let i ← decodeNative cfg .must w
      .ok (i, bytes.drop 8)
    else if bytes.length < 16 then .error .truncated
    else do
      let i ← decodeNative cfg .mustNot (BitVec.ofNat 128 (ofBytes (bytes.take 16)))
      .ok (i, bytes.drop 16)

/-! ## The encoder -/

/-- The offset fields of a word with each label's name as the offset: what `decode` reads back (assumption 6). -/
def writeLabels (tag : FormatTag) : List (Target × Label) → EncodedWord → EncodedWord
  | [], bits => bits
  | (which, l) :: rest, bits => writeLabels tag rest (Machine.writeOffset bits tag which l.name)

/-- The native word of an instruction, with its labels' names as offsets. -/
def encode (cfg : Cfg) (i : Instr) : Except Machine.Cause NativeWord := do
  let (tag, w) ← Machine.encodeNative cfg false i.instruction
  match writeLabels tag i.body.payload.targets (.native w) with
  | .native w' => .ok w'
  | .compact _ => .ok w

/-- The bytes of an instruction's native word, little-endian (R53). -/
def encodeBytes (cfg : Cfg) (i : Instr) : Except Machine.Cause (List Byte) := do
  let w ← encode cfg i
  .ok (toBytes 16 w.toNat)

/-- The instruction whose bits are `w`, numbered as spec/opcode_table.json numbers them; `nbits` of them are given and
the rest of the native word is 0. -/
def decodeTableWord (nbits w : Nat) : Option Instr :=
  match decode defaultCfg (toBytes 16 (w % 2 ^ nbits)) with
  | .ok (i, _) => some i
  | .error _ => none

/-! ## What a native word tells of a record

A word holds no default and no unused field of its record. A canonical record gives every such field the value that the
decoder fills in. -/

/-- Every table that the decoder reads backwards gives each name's code back as that name. -/
def Cfg.readable (cfg : Cfg) : Bool :=
  let types : List DataType := [.ub, .b, .uw, .w, .ud, .d, .uq, .q, .hf, .f, .df, .v, .uv, .vf]
  let functions : List MathFn :=
    [.inv, .log, .exp, .sqrt, .rsq, .sin, .cos, .fdiv, .pow, .idiv, .iquot, .irem, .invm, .rsqrtm]
  (Mnemonic.all.all fun m => (cfg.opcode m).all fun c => keyOf cfg.opc c == some m) &&
  (types.all fun t => (cfg.regTypeCode t).all fun c => regTypeOf cfg c.toNat == some t) &&
  (types.all fun t => (cfg.immTypeCode t).all fun c => immTypeOf cfg c.toNat == some t) &&
  (types.all fun t => (cfg.type3Code t).all fun c => type3Of cfg c.toNat == some t) &&
  (allArfSel.all fun sel => nameOf allArfSel cfg.arfSel.code (cfg.arfSel.code sel) == some sel) &&
  (allAccName.all fun a =>
    nameOf allAccName (fun n => (cfg.specialAcc.code n).toNat) (cfg.specialAcc.code a).toNat == some a) &&
  (allPredCtrl.all fun c =>
    decide (1 < (cfg.predCtrl.code c).toNat) && nameOf allPredCtrl cfg.predCtrl.code (cfg.predCtrl.code c) == some c) &&
  (allCondMod.all fun m => m == .zero ||
    (cfg.condMod.code m != 0#4 && nameOf allCondMod cfg.condMod.code (cfg.condMod.code m) == some m)) &&
  (functions.all fun f => (cfg.mathFc.lookup f).all fun c => keyOf cfg.mathFc c == some f)

/-- A special accumulator whose code is no sub-register offset of the type, so that the overlay can be told (R237). -/
def accReadable (cfg : Cfg) (r : RegOperand) : Bool :=
  match r.specialAcc with
  | none => true
  | some a => (cfg.specialAcc.code a).toNat % r.dataType.bytes != 0

/-- The word of an indirect operand holds no register number and no sub-register (R234, R241). -/
def indirectCanonical (cfg : Cfg) (r : RegOperand) : Bool :=
  r.number == 0 && r.subregister == 0 && r.specialAcc.isNone &&
  (match r.file with
   | .grf => true
   | .arf sel => cfg.arfSel.code sel == 0#4)

/-- A region that gives the horizontal stride alone, as a destination word does. -/
def strideOnly : Region → Bool
  | .align1 none none (some _) => true
  | _ => false

/-- A destination of the two-source layout. -/
def dstCanonical (cfg : Cfg) (mode : AccessMode) (r : RegOperand) : Bool :=
  r.modifier == .none && !r.repCtrl &&
  match mode, r.addressing with
  | .align1, .direct => strideOnly r.region && r.writeMask == 15#4 && accReadable cfg r
  | .align1, .indirect _ _ => strideOnly r.region && r.writeMask == 15#4 && indirectCanonical cfg r
  | .align16, _ => r.region == .none && r.specialAcc.isNone

/-- A register source of the two-source layout. -/
def srcRegCanonical (cfg : Cfg) (mode : AccessMode) (r : RegOperand) : Bool :=
  r.writeMask == 15#4 && !r.repCtrl &&
  match mode, r.region, r.addressing with
  | .align1, .align1 (some _) (some _) (some _), .direct => accReadable cfg r
  | .align1, .align1 (some _) (some _) (some _), .indirect _ _ => indirectCanonical cfg r
  | .align16, .align16 _, _ => r.specialAcc.isNone
  | _, _, _ => false

/-- An immediate of its type's width, a float number in lowest terms. -/
def immCanonical (i : ImmOperand) : Bool :=
  i.type.immWidth == some i.bitWidth &&
  match i.value with
  | .float (.finite _ num den) => Nat.gcd num den == 1
  | _ => true

def srcCanonical (cfg : Cfg) (mode : AccessMode) : Operand → Bool
  | .imm i => immCanonical i
  | .reg r => srcRegCanonical cfg mode r

/-- The destination of a three-source word (R272, R275). -/
def dst3Canonical (cfg : Cfg) (mode : AccessMode) (r : RegOperand) : Bool :=
  r.modifier == .none && !r.repCtrl &&
  match mode with
  | .align16 => r.region == .none && r.specialAcc.isNone
  | .align1 => strideOnly r.region && r.writeMask == 15#4 && accReadable cfg r

/-- A source of a three-source word (R273, R276, R278). -/
def src3Canonical (cfg : Cfg) (mode : AccessMode) : Operand → Bool
  | .imm i => immCanonical i
  | .reg r =>
    r.writeMask == 15#4 &&
    match mode, r.region with
    | .align16, .align16 _ => true
    | .align1, .align1 (some _) none (some _) => accReadable cfg r
    | _, _ => false

/-- A descriptor: an immediate of type UD as an unsigned number, or an address register of type UD (R300). -/
def descCanonical : Operand → Bool
  | .imm i =>
    i.type == .ud && i.bitWidth == .w32 &&
    (match i.value with
     | .int v => decide (0 ≤ v)
     | .float _ => false)
  | .reg r => .reg r == addressOperand r.subregister

/-- A payload source of a split send: its file and number are all a word holds (R116). -/
def payloadCanonical (cfg : Cfg) (r : RegOperand) : Bool :=
  r == { file := r.file, number := r.number, dataType := .ud } &&
  (match r.file with
   | .grf => true
   | .arf sel => cfg.arfSel.code sel == 0#4)

/-- The operands of a record, by class. -/
def operandsCanonical (cfg : Cfg) (m : Mnemonic) (b : InsBody) : Bool :=
  match m.opClass, b.destination, b.sources, b.payload with
  | .oneSrc, some (.reg d), ss, _ | .twoSrc, some (.reg d), ss, _ | .math, some (.reg d), ss, _ =>
    dstCanonical cfg b.accessMode d && ss.all (srcCanonical cfg b.accessMode)
  | .threeSrc, some (.reg d), ss, _ => dst3Canonical cfg b.accessMode d && ss.all (src3Canonical cfg b.accessMode)
  | .wait, _, [.reg r], _ =>
    r == { file := r.file, number := r.number, subregister := r.subregister, dataType := r.dataType,
           modifier := r.modifier }
  | .send, some (.reg d), [s0], .send desc exDesc =>
    dstCanonical cfg .align1 d && srcCanonical cfg .align1 s0 && descCanonical desc && descCanonical exDesc
  | .sends, some (.reg d), [.reg r0, .reg r1], .send desc exDesc =>
    d == { file := d.file, number := d.number, dataType := d.dataType } && payloadCanonical cfg r0 &&
    payloadCanonical cfg r1 && descCanonical desc && descCanonical exDesc
  | .call, some (.reg d), _, _ => dstCanonical cfg .align1 d
  | .illegal, _, _, _ | .nop, _, _, _ | .branchOneSrc, _, _, _ | .branchTwoSrc, _, _, _ | .jmpi, _, _, _ => true
  | _, _, _, _ => false

/-- A canonical Instr command: no labels defined, policy `MustNot`, a condition modifier with a code of its own (R82),
branch labels whose names are 32-bit offsets, and canonical operands. -/
def Instr.canonical (cfg : Cfg) (i : Instr) : Bool :=
  let b := i.body
  i.defs == [] && b.compactionPolicy == .mustNot && b.conditionModifier != some .none &&
  b.conditionModifier != some .zero && (b.payload.targets.all fun t => decide (t.2.name < 2 ^ 32)) &&
  operandsCanonical cfg i.mnemonic b

end Sys2Proof
end

