-- ==== Sys2Proof/Machine/Session.lean ====
section
/-! DEFINITION. The steps of the Encoding Session: the Instr command (40_header_dispatch.md R165), End (44_branch.md
R342) and the pass-2 step (R343). -/

namespace Sys2Proof.Machine

/-- What a step of the block answers. -/
abbrev StepResult := Host.Outcome State Fault Refusal

/-- A word appended to the output buffer at the position counter: `pos` moves by the word's units, `count` by 1 (R23,
R24, R52), a pending branch joins the queue (R26), and the labels are those of the step. A compact branch moves `pos` by
1 like any other word, so its own length is part of a forward offset: R24 and R385, against the last sentence of R349
(DEDUCED, assumption 26). -/
def State.emit (s : State) (labels : List (Label × Nat)) (tag : FormatTag) (bits : EncodedWord) (ins : Instruction)
    (pending : Bool) : State :=
  { s with
    labels := labels
    out := s.out ++ [{ pos := s.pos, tag := tag, bits := bits, ins := ins }]
    deferred := if pending then s.deferred ++ [{ index := s.count, pos := s.pos }] else s.deferred
    pos := s.pos + bits.units
    count := s.count + 1
    report := some .ok }

/-- The body of an Instr command (R165), which either appends one word or finds an error. -/
def encodeCommand (s : State) (ins : Instruction) (defs : List Label) : Except Cause State := do
  let labels ← enterLabels s.labels s.pos defs
  let (tag, w) ← encodeNative s.cfg (backward labels ins) ins
  let bits ← compact s.cfg ins.body.compactionPolicy tag w
  let (bits', pending) ← resolveOrDefer s.cfg labels s.pos ins tag bits
  .ok (s.emit labels tag bits' ins pending)

/-- The Instr command (R165): legal in `Scanning` only, else refused with no effect (R38, R39); an error keeps nothing
of the step but `phase` and `status` (R403). -/
def instrCommand (ins : Instruction) (defs : List Label) (s : State) : StepResult :=
  if s.phase = .scanning then
    match encodeCommand s ins defs with
    | .ok s' => .next s'
    | .error c => .next (s.raise s.count c)
  else .next s.refuse

/-- The End command (R342): legal in `Scanning` only. -/
def endCommand (s : State) : StepResult :=
  if s.phase = .scanning then .next { s with phase := .finalizing, report := some .ok } else .next s.refuse

/-- The Reset command (R430): legal in every phase. -/
def resetCommand (s : State) : StepResult := .next s.resetSession

/-- Entry `i` of a list replaced. -/
def replaceAt {α : Type} : List α → Nat → α → List α
  | [], _, _ => []
  | _ :: xs, 0, a => a :: xs
  | x :: xs, i + 1, a => x :: replaceAt xs i a

/-- `Pass2Step` (R343): resolves the first deferred entry, or ends the session when there is none. An entry that names
no branch word of `out`, which no session has, is a fault. -/
def pass2Step (s : State) : StepResult :=
  match s.deferred with
  | [] => .next { s with phase := .done }
  | e :: rest =>
    match s.out[e.index]? with
    | none => .fault (.deferredIndex e.index)
    | some o =>
      match o.ins.body.payload.targets with
      | [] => .fault (.deferredNotBranch e.index)
      | t :: ts =>
        match patchTargets s.cfg s.labels e.pos o.tag (t :: ts) o.bits with
        | .ok bits => .next { s with out := replaceAt s.out e.index { o with bits := bits }, deferred := rest }
        | .error c => .next (s.raise e.index c)

/-- A step at which no command is given: a pass-2 step in `Finalizing` (R343); in any other phase the block holds its
state (R454). -/
def quietStep (s : State) : StepResult :=
  if s.phase = .finalizing then pass2Step s else .next s

end Sys2Proof.Machine
end

