-- ==== Sys2Proof/Machine/Alu.lean ====
section
/-! DEFINITION. The meanings of the ALU and math instructions (40_header_dispatch.md rules R192 to R202): one Instr command (R165) each. -/

namespace Sys2Proof.Machine

/-- `mov`. R192: OneSrc; `EncodeHeader; EncodeDst(dst); EncodeSrc(0, src0)`. -/
def execMov (b : InsBody) (defs : List Label) (s : State) : StepResult :=
  instrCommand { opcode := .mov, body := b } defs s

/-- `not`. R193: OneSrc, as `mov`; a Negate modifier is encoded with the same code (R88). -/
def execNot (b : InsBody) (defs : List Label) (s : State) : StepResult :=
  instrCommand { opcode := .not, body := b } defs s

/-- `sel`. R194: TwoSrc; `EncodeHeader; EncodeDst(dst); EncodeSrc(0, src0); EncodeSrc(1, src1)`. -/
def execSel (b : InsBody) (defs : List Label) (s : State) : StepResult :=
  instrCommand { opcode := .sel, body := b } defs s

/-- `and`. R195: TwoSrc, as `sel`. -/
def execAnd (b : InsBody) (defs : List Label) (s : State) : StepResult :=
  instrCommand { opcode := .and, body := b } defs s

/-- `or`. R196: TwoSrc, as `sel`. -/
def execOr (b : InsBody) (defs : List Label) (s : State) : StepResult :=
  instrCommand { opcode := .or, body := b } defs s

/-- `xor`. R197: TwoSrc, as `sel`. -/
def execXor (b : InsBody) (defs : List Label) (s : State) : StepResult :=
  instrCommand { opcode := .xor, body := b } defs s

/-- `ror`. R198: TwoSrc, as `sel`, on a platform with `HAS_ROTATE`; else `UnsupportedOpcode`. -/
def execRor (b : InsBody) (defs : List Label) (s : State) : StepResult :=
  instrCommand { opcode := .ror, body := b } defs s

/-- `rol`. R199: as `ror`. -/
def execRol (b : InsBody) (defs : List Label) (s : State) : StepResult :=
  instrCommand { opcode := .rol, body := b } defs s

/-- `cmp`. R200: TwoSrc, as `sel`; the condition modifier is not required. -/
def execCmp (b : InsBody) (defs : List Label) (s : State) : StepResult :=
  instrCommand { opcode := .cmp, body := b } defs s

/-- `add`. R201: TwoSrc, as `sel`. -/
def execAdd (b : InsBody) (defs : List Label) (s : State) : StepResult :=
  instrCommand { opcode := .add, body := b } defs s

/-- `mul`. R201: TwoSrc, as `sel`. -/
def execMul (b : InsBody) (defs : List Label) (s : State) : StepResult :=
  instrCommand { opcode := .mul, body := b } defs s

/-- `math`. R202: OneSrc or TwoSrc by the function's source count, then the math patch. -/
def execMath (b : InsBody) (defs : List Label) (s : State) : StepResult :=
  instrCommand { opcode := .math, body := b } defs s

end Sys2Proof.Machine
end

