-- ==== Sys2Proof/Machine/BranchOps.lean ====
section
/-! DEFINITION. The meanings of the branch instructions (44_branch.md rules R355 to R365): one Instr command (R165) each. -/

namespace Sys2Proof.Machine

/-- `jmpi`. R355: BranchOneSrc with the `ip` operands of R352. -/
def execJmpi (b : InsBody) (defs : List Label) (s : State) : StepResult :=
  instrCommand { opcode := .jmpi, body := b } defs s

/-- `call`. R356: BranchOneSrc with the destination of R353. -/
def execCall (b : InsBody) (defs : List Label) (s : State) : StepResult :=
  instrCommand { opcode := .call, body := b } defs s

/-- `if`. R357: BranchTwoSrc. -/
def execIf (b : InsBody) (defs : List Label) (s : State) : StepResult :=
  instrCommand { opcode := .if_, body := b } defs s

/-- `else`. R358: as `if`. -/
def execElse (b : InsBody) (defs : List Label) (s : State) : StepResult :=
  instrCommand { opcode := .else_, body := b } defs s

/-- `endif`. R359: BranchOneSrc (R351). -/
def execEndif (b : InsBody) (defs : List Label) (s : State) : StepResult :=
  instrCommand { opcode := .endif, body := b } defs s

/-- `while`. R360: as `endif`. -/
def execWhile (b : InsBody) (defs : List Label) (s : State) : StepResult :=
  instrCommand { opcode := .while_, body := b } defs s

/-- `break`. R361: as `if`. -/
def execBreak (b : InsBody) (defs : List Label) (s : State) : StepResult :=
  instrCommand { opcode := .break_, body := b } defs s

/-- `cont`. R362: as `if`. -/
def execCont (b : InsBody) (defs : List Label) (s : State) : StepResult :=
  instrCommand { opcode := .cont, body := b } defs s

/-- `halt`. R363: as `if`. -/
def execHalt (b : InsBody) (defs : List Label) (s : State) : StepResult :=
  instrCommand { opcode := .halt, body := b } defs s

/-- `goto`. R364: as `if`. -/
def execGoto (b : InsBody) (defs : List Label) (s : State) : StepResult :=
  instrCommand { opcode := .goto, body := b } defs s

/-- `join`. R365: as `endif`. -/
def execJoin (b : InsBody) (defs : List Label) (s : State) : StepResult :=
  instrCommand { opcode := .join, body := b } defs s

end Sys2Proof.Machine
end

