-- ==== Sys2Proof/Machine/Misc.lean ====
section
/-! DEFINITION. The meanings of the instructions with no layout of their own operands (40_header_dispatch.md rules R190, R191, R203): one Instr command (R165) each. -/

namespace Sys2Proof.Machine

/-- `illegal`. R190: header only. -/
def execIllegal (b : InsBody) (defs : List Label) (s : State) : StepResult :=
  instrCommand { opcode := .illegal, body := b } defs s

/-- `nop`. R191: header only. -/
def execNop (b : InsBody) (defs : List Label) (s : State) : StepResult :=
  instrCommand { opcode := .nop, body := b } defs s

/-- `wait`. R203: the notification register as destination and as source 0; execution size 1. -/
def execWait (b : InsBody) (defs : List Label) (s : State) : StepResult :=
  instrCommand { opcode := .wait, body := b } defs s

end Sys2Proof.Machine
end

