-- ==== Sys2Proof/Machine/SendOps.lean ====
section
/-! DEFINITION. The meanings of the send instructions (43_send.md rules R320 to R323): one Instr command (R165) each. -/

namespace Sys2Proof.Machine

/-- `send`. R320: Send layout; a malformed descriptor is `FAILURE` (R300). -/
def execSend (b : InsBody) (defs : List Label) (s : State) : StepResult :=
  instrCommand { opcode := .send, body := b } defs s

/-- `sendc`. R321: as `send`. -/
def execSendc (b : InsBody) (defs : List Label) (s : State) : StepResult :=
  instrCommand { opcode := .sendc, body := b } defs s

/-- `sends`. R322: Sends layout, then the split-send patch; a malformed descriptor is `FAILURE` (R300). -/
def execSends (b : InsBody) (defs : List Label) (s : State) : StepResult :=
  instrCommand { opcode := .sends, body := b } defs s

/-- `sendsc`. R323: as `sends`. -/
def execSendsc (b : InsBody) (defs : List Label) (s : State) : StepResult :=
  instrCommand { opcode := .sendsc, body := b } defs s

end Sys2Proof.Machine
end

