-- ==== Sys2Proof/Machine/ThreeSourceOps.lean ====
section
/-! DEFINITION. The meanings of the three-source instructions (42_three_source.md rules R290, R291): one Instr command (R165) each. -/

namespace Sys2Proof.Machine

/-- `mad`. R290: ThreeSrcAlign16, or ThreeSrcAlign1 where the platform has it. -/
def execMad (b : InsBody) (defs : List Label) (s : State) : StepResult :=
  instrCommand { opcode := .mad, body := b } defs s

/-- `dp4a`. R291: as `mad`, with every operand of the integer class, on a platform with `HAS_DP4A`. -/
def execDp4a (b : InsBody) (defs : List Label) (s : State) : StepResult :=
  instrCommand { opcode := .dp4a, body := b } defs s

end Sys2Proof.Machine
end

