-- ==== Sys2Proof/Machine/Dispatch.lean ====
section
/-! DEFINITION. The dispatch of Instr commands to their meanings, one arm for each row of the opcode table. -/

namespace Sys2Proof.Machine

def exec (i : Instr) (s : State) : Host.Outcome State Fault Refusal :=
  match i with
  | .illegal b defs => Sys2Proof.Machine.execIllegal b defs s
  | .nop b defs => Sys2Proof.Machine.execNop b defs s
  | .mov b defs => Sys2Proof.Machine.execMov b defs s
  | .not b defs => Sys2Proof.Machine.execNot b defs s
  | .sel b defs => Sys2Proof.Machine.execSel b defs s
  | .and b defs => Sys2Proof.Machine.execAnd b defs s
  | .or b defs => Sys2Proof.Machine.execOr b defs s
  | .xor b defs => Sys2Proof.Machine.execXor b defs s
  | .ror b defs => Sys2Proof.Machine.execRor b defs s
  | .rol b defs => Sys2Proof.Machine.execRol b defs s
  | .cmp b defs => Sys2Proof.Machine.execCmp b defs s
  | .add b defs => Sys2Proof.Machine.execAdd b defs s
  | .mul b defs => Sys2Proof.Machine.execMul b defs s
  | .math b defs => Sys2Proof.Machine.execMath b defs s
  | .wait b defs => Sys2Proof.Machine.execWait b defs s
  | .mad b defs => Sys2Proof.Machine.execMad b defs s
  | .dp4a b defs => Sys2Proof.Machine.execDp4a b defs s
  | .send b defs => Sys2Proof.Machine.execSend b defs s
  | .sendc b defs => Sys2Proof.Machine.execSendc b defs s
  | .sends b defs => Sys2Proof.Machine.execSends b defs s
  | .sendsc b defs => Sys2Proof.Machine.execSendsc b defs s
  | .jmpi b defs => Sys2Proof.Machine.execJmpi b defs s
  | .call b defs => Sys2Proof.Machine.execCall b defs s
  | .if_ b defs => Sys2Proof.Machine.execIf b defs s
  | .else_ b defs => Sys2Proof.Machine.execElse b defs s
  | .endif b defs => Sys2Proof.Machine.execEndif b defs s
  | .while_ b defs => Sys2Proof.Machine.execWhile b defs s
  | .break_ b defs => Sys2Proof.Machine.execBreak b defs s
  | .cont b defs => Sys2Proof.Machine.execCont b defs s
  | .halt b defs => Sys2Proof.Machine.execHalt b defs s
  | .goto b defs => Sys2Proof.Machine.execGoto b defs s
  | .join b defs => Sys2Proof.Machine.execJoin b defs s

end Sys2Proof.Machine
end

