-- ==== Sys2Proof/Machine/Step.lean ====
section
/-! DEFINITION. One step of the block (00_scope.md R8): it consumes one command of the input stream, or, where none is
given, takes a pass-2 step (44_branch.md R343). -/

namespace Sys2Proof.Machine

/-- The effect of one command (R38). -/
def runCommand (c : Command) (s : State) : StepResult :=
  match c with
  | .reset => resetCommand s
  | .instr i => exec i s
  | .finish => endCommand s

/-- One step: the next entry of the input stream is consumed, and a command there is run (R8, R38). -/
def step (s : State) : Host.Outcome State Fault Refusal :=
  match s.input with
  | [] => quietStep s
  | none :: rest => quietStep { s with input := rest }
  | some c :: rest => runCommand c { s with input := rest }

/-- `s` with the Instr command that the word stands for as its next command (assumption 6); the block fetches records,
so the word is decoded here. A word that no instruction has gives no command. -/
def State.withFetchWord (s : State) (nbits w : Nat) : State :=
  match decodeTableWord nbits w with
  | some i => { s with input := some (.instr i) :: s.input }
  | none => s

end Sys2Proof.Machine
end

