-- ==== Sys2Proof/WellFormed.lean ====
section
/-! DEFINITION. Well-formed Instr commands: the ranges that 10_state.md rules R32 to R36 and 41_operands.md R230, R231
and R234 give the fields of a record, and the operand shapes of 40_header_dispatch.md R164. A record out of these ranges
is no stop of the model: the encoder finds an error in it. -/

namespace Sys2Proof

/-- `executionSize : 1|2|4|8|16|32` (R36). -/
def InsBody.sizeOk (b : InsBody) : Bool := (execSizeCode b.executionSize).isSome

/-- A mask offset of a quarter and a nibble (R174). -/
def InsBody.offsetOk (b : InsBody) : Bool := decide (b.maskOffset < 32) && b.maskOffset % 4 == 0

/-- Flag registers are f0 and f1, with sub-registers 0 and 1 (R34). -/
def InsBody.flagsOk (b : InsBody) : Bool :=
  match b.predicate with
  | none => true
  | some p => decide (p.flagReg < 2) && decide (p.flagSubreg < 2)

/-- A GRF number has 8 bits and an ARF number 4 (R32, R33). -/
def RegOperand.numberOk (r : RegOperand) : Bool :=
  match r.file with
  | .grf => decide (r.number < 256)
  | .arf _ => decide (r.number < 16)

/-- A register operand names a register and an element in it (R230, R231); an indirect one also a sub-register of the
address register and a 10-bit offset (R234). -/
def RegOperand.wellFormed (r : RegOperand) : Bool :=
  r.numberOk && decide (r.subregister * r.dataType.bytes < 32) &&
  match r.addressing with
  | .direct => true
  | .indirect a o => decide (a < 16) && decide (-512 ≤ o) && decide (o < 512)

/-- An integer type has an integer value of its range, a float type a float value (R13, R245); the packed-vector types
have no immediate (R247), nor have UB and B. -/
def ImmOperand.wellFormed (i : ImmOperand) : Bool :=
  match i.type, i.value with
  | .uw, .int v => decide (0 ≤ v) && decide (v < 65536)
  | .w, .int v => decide (-32768 ≤ v) && decide (v < 32768)
  | .ud, .int v => decide (0 ≤ v) && decide (v < 4294967296)
  | .d, .int v => decide (-2147483648 ≤ v) && decide (v < 2147483648)
  | .uq, .int v => decide (0 ≤ v) && decide (v < 18446744073709551616)
  | .q, .int v => decide (-9223372036854775808 ≤ v) && decide (v < 9223372036854775808)
  | .hf, .float v | .f, .float v | .df, .float v =>
    (match v with
     | .finite _ _ den => den != 0
     | .infinity _ => true
     | .nan _ payload => payload != 0)
  | _, _ => false

def Operand.wellFormed : Operand → Bool
  | .imm i => i.wellFormed
  | .reg r => r.wellFormed

/-- A destination is a register (R232). -/
def Operand.destinationOk : Operand → Bool
  | .imm _ => false
  | .reg r => r.wellFormed

/-- The number of sources, whether there is a destination, and the payload, by class (R164). -/
def InsBody.shapeOk (c : OpClass) (b : InsBody) : Bool :=
  let n := b.sources.length
  let d := b.destination.isSome
  match c, b.payload with
  | .illegal, .none | .nop, .none => !d && n == 0
  | .oneSrc, .none => d && n == 1
  | .twoSrc, .none => d && n == 2
  | .math, .math fn => d && n == fn.sources
  | .threeSrc, .none => d && n == 3
  | .wait, .none => !d && n == 1
  | .send, .send _ _ => d && n == 1
  | .sends, .send _ _ => d && n == 2
  | .branchOneSrc, .branch _ none | .jmpi, .branch _ none => !d && n == 0
  | .branchTwoSrc, .branch _ (some _) => !d && n == 0
  | .call, .branch _ none => d && n == 0
  | _, _ => false

/-- Every operand is in its ranges. -/
def InsBody.operandsOk (b : InsBody) : Bool :=
  (match b.destination with
   | none => true
   | some d => d.destinationOk) && b.sources.all Operand.wellFormed

/-- A well-formed Instr command. -/
def Instr.wellFormed (i : Instr) : Bool :=
  i.body.sizeOk && i.body.offsetOk && i.body.flagsOk && i.body.shapeOk i.mnemonic.opClass && i.body.operandsOk

end Sys2Proof
end

