-- ==== Sys2Proof/Machine/Layout.lean ====
section
/-! DEFINITION. The layout tables of 30_encoding.md and the error lists R401 and R402 of 60_exceptions.md, written as
checks on a finished word and on a record, apart from the encoder: what the statements about encoded words are made of.
A `…Reads` check says that a word's fields hold what the tables give an operand; a `…Legal` check, that no cause of R401,
R402 or R300 holds of a record. -/

namespace Sys2Proof.Layout

open Sys2Proof.Machine

/-- `w[off+width-1:off] = v`. -/
def reads (w : NativeWord) (off width v : Nat) : Bool := unpack w off width == v

/-- The field holds the code of a table entry. -/
def readsCode {n : Nat} (w : NativeWord) (off width : Nat) (code : Option (BitVec n)) : Bool :=
  code.map BitVec.toNat == some (unpack w off width)

/-- The field holds a code of a fixed table. -/
def readsNat (w : NativeWord) (off width : Nat) (code : Option Nat) : Bool := code == some (unpack w off width)

/-! ## Header (R100, R171 to R183) -/

/-- The flag fields of R176. -/
def predicateReads (cfg : Cfg) (p : Option Predicate) (w : NativeWord) : Bool :=
  match p with
  | none => reads w 16 4 0 && reads w 20 1 0 && reads w 32 1 0 && reads w 33 1 0
  | some p =>
    reads w 16 4 (match p.control with
      | some c => (cfg.predCtrl.code c).toNat
      | none => 1) &&
    reads w 20 1 p.inverted.toNat && reads w 32 1 p.flagSubreg && reads w 33 1 p.flagReg

/-- The common header of R100 but bits 51:48. -/
def headerReads (cfg : Cfg) (ins : Instruction) (back : Bool) (w : NativeWord) : Bool :=
  let b := ins.body
  readsCode w 0 7 (cfg.opcode ins.opcode) && reads w 7 1 0 &&
  reads w 8 1 (if b.accessMode = .align16 then 1 else 0) &&
  reads w 9 1 b.depControl.noDDClr.toNat && reads w 10 1 b.depControl.noDDChk.toNat &&
  reads w 11 1 (b.maskOffset / 4 % 2) && reads w 12 2 (b.maskOffset / 8) &&
  reads w 14 2 b.threadControl.code && predicateReads cfg b.predicate w &&
  reads w 21 1 b.saturate.toNat && readsNat w 29 3 (execSizeCode b.executionSize) &&
  reads w 34 1 (if b.maskControl = .noMask then 1 else 0) &&
  reads w 52 1 (b.accWriteControl || back).toNat && reads w 53 1 0 && reads w 54 1 b.debugBreakpoint.toNat

/-- Bits 51:48 where they hold the condition modifier (R180). -/
def condModReads (cfg : Cfg) (ins : Instruction) (w : NativeWord) : Bool :=
  reads w 48 4 (match ins.body.conditionModifier with
    | some m => (cfg.condMod.code m).toNat
    | none => 0)

/-- No header cause of R402 holds. -/
def headerLegal (fmt : FormatTag) (ins : Instruction) : Bool :=
  let b := ins.body
  (b.accessMode != .align16 || fmt == .oneSrc || fmt == .twoSrc || fmt == .threeSrcAlign16) &&
  [0, 4, 8, 12, 16, 20, 24, 28].contains b.maskOffset &&
  (b.threadControl == .normal || !ins.opcode.isControlFlow) &&
  (match b.predicate with
   | none => true
   | some p => decide (p.flagReg < 2) && decide (p.flagSubreg < 2)) &&
  (b.conditionModifier.isNone || !(ins.opcode.isSendClass || ins.opcode == .math || ins.opcode.isControlFlow)) &&
  [1, 2, 4, 8, 16, 32].contains b.executionSize && (ins.opcode != .wait || b.executionSize == 1)

/-! ## Register operands -/

/-- The register-number field: the GRF number, or the ARF selector and number (R230, R236). -/
def registerNumber (cfg : Cfg) (r : RegOperand) : Nat :=
  match r.file with
  | .grf => r.number
  | .arf sel => 16 * (cfg.arfSel.code sel).toNat + r.number

/-- The sub-register offset in bytes (R230). -/
def offsetInRegister (r : RegOperand) : Nat := r.subregister * r.dataType.bytes

/-- R230, R231: the register exists and the sub-register is in it. -/
def registerLegal (cfg : Cfg) (r : RegOperand) : Bool :=
  (match r.file with
   | .grf => decide (r.number < cfg.grfCount) && decide (r.number < 256)
   | .arf _ => decide (r.number < 16)) &&
  decide (offsetInRegister r < 32)

/-- R234, R241. -/
def indirectLegal (addrSubreg : Nat) (immOffset : Int) : Bool :=
  decide (addrSubreg < 16) && decide (-512 ≤ immOffset) && decide (immOffset ≤ 511)

/-- R237: the overlay replaces the sub-register offset. -/
def subRegOrAcc (cfg : Cfg) (r : RegOperand) : Nat :=
  match r.specialAcc with
  | some a => (cfg.specialAcc.code a).toNat
  | none => offsetInRegister r

/-- The special-accumulator conditions of R237 and R243, where the overlay may stand. -/
def accLegal (r : RegOperand) : Bool := r.specialAcc.isNone || (r.addressing == .direct && r.subregister == 0)

/-! ## Two-source layout: destination (R101, R232 to R237) -/

/-- The destination's stride, 1 by default (R233). -/
def dstStride (d : RegOperand) : Nat := d.region.horzStride?.getD 1

def dstReads (cfg : Cfg) (mode : AccessMode) (d : RegOperand) (w : NativeWord) : Bool :=
  reads w 35 2 (if d.file = .grf then 1 else 0) && readsCode w 37 4 (cfg.regTypeCode d.dataType) &&
  match mode, d.addressing with
  | .align1, .direct =>
    reads w 47 1 0 && reads w 55 8 (registerNumber cfg d) && reads w 24 5 (subRegOrAcc cfg d) &&
    readsNat w 22 2 (horzStrideCode (dstStride d)) && reads w 63 1 0
  | .align1, .indirect a o =>
    reads w 47 1 1 && reads w 24 4 a && signed 10 (unpack w 55 9 + 512 * unpack w 28 1) == o &&
    readsNat w 22 2 (horzStrideCode (dstStride d))
  | .align16, .direct =>
    reads w 47 1 0 && reads w 55 8 (registerNumber cfg d) &&
    reads w 28 1 (match d.specialAcc with
      | some _ => 0
      | none => offsetInRegister d / 16) &&
    reads w 24 4 (match d.specialAcc with
      | some a => (cfg.specialAcc.code a).toNat
      | none => d.writeMask.toNat) &&
    reads w 22 2 3 && reads w 63 1 0
  | .align16, .indirect _ _ => false

def dstLegal (cfg : Cfg) (mode : AccessMode) (d : RegOperand) : Bool :=
  (cfg.regTypeCode d.dataType).isSome && registerLegal cfg d && accLegal d && !d.repCtrl &&
  match mode, d.addressing with
  | .align1, .direct => [1, 2, 4].contains (dstStride d)
  | .align1, .indirect a o => indirectLegal a o && [1, 2, 4].contains (dstStride d)
  | .align16, .direct => offsetInRegister d % 16 == 0
  | .align16, .indirect _ _ => false

/-! ## Two-source layout: sources (R102 to R104, R238 to R247) -/

def regionReads (base : Nat) (r : SrcRegion) (w : NativeWord) : Bool :=
  readsNat w (base + 19) 4 (vertStrideCode r.vertStride) && readsNat w (base + 16) 3 (widthCode r.width) &&
  readsNat w (base + 14) 2 (horzStrideCode r.horzStride)

def regionLegal (r : SrcRegion) : Bool :=
  [0, 1, 2, 4, 8, 16, 32].contains r.vertStride && [1, 2, 4, 8, 16].contains r.width &&
  [0, 1, 2, 4].contains r.horzStride

def srcRegReads (cfg : Cfg) (mode : AccessMode) (region : SrcRegion) (k : Nat) (s : RegOperand) (w : NativeWord) :
    Bool :=
  let base := 64 + 32 * k
  reads w (if k = 0 then 41 else 89) 2 (if s.file = .grf then 1 else 0) &&
  readsCode w (if k = 0 then 43 else 91) 4 (cfg.regTypeCode s.dataType) &&
  reads w (base + 23) 2 s.modifier.code &&
  match mode, s.addressing with
  | .align1, .direct =>
    reads w (base + 13) 1 0 && reads w (base + 5) 8 (registerNumber cfg s) && reads w base 5 (subRegOrAcc cfg s) &&
    regionReads base region w
  | .align1, .indirect a o =>
    reads w (base + 13) 1 1 && reads w (base + 9) 4 a &&
    signed 10 (unpack w base 9 + 512 * unpack w (base + 31) 1) == o && regionReads base region w
  | .align16, .direct =>
    let c := s.region.channelSelect?.getD identitySelect
    reads w (base + 13) 1 0 && reads w (base + 5) 8 (registerNumber cfg s) &&
    reads w (base + 4) 1 (offsetInRegister s / 16) &&
    (match s.specialAcc with
     | some a => reads w base 4 (cfg.specialAcc.code a).toNat
     | none => reads w base 2 c.c0.code && reads w (base + 2) 2 c.c1.code) &&
    reads w (base + 14) 2 c.c2.code && reads w (base + 16) 2 c.c3.code &&
    reads w (base + 18) 1 0 && reads w (base + 19) 4 0
  | .align16, .indirect _ _ => false

/-- What R230, R231 and the source's case (R240 to R242) ask of register, offset and region. -/
def srcPlaceLegal (cfg : Cfg) (mode : AccessMode) (region : SrcRegion) (s : RegOperand) : Bool :=
  registerLegal cfg s &&
  match mode, s.addressing with
  | .align1, .direct => regionLegal region
  | .align1, .indirect a o => indirectLegal a o && regionLegal region
  | .align16, .direct => offsetInRegister s % 16 == 0
  | .align16, .indirect _ _ => false

def srcRegLegal (cfg : Cfg) (mode : AccessMode) (region : SrcRegion) (overlay : Bool) (s : RegOperand) : Bool :=
  (cfg.regTypeCode s.dataType).isSome && !s.repCtrl && (s.specialAcc.isNone || overlay) && accLegal s &&
  srcPlaceLegal cfg mode region s

/-- The value field of an immediate (R245, R246). -/
def immValueReads (i : ImmOperand) (w : NativeWord) : Bool :=
  let lo := unpack w 96 16
  let hi := unpack w 112 16
  match i.type, i.value with
  | .d, .int v => signed 32 (unpack w 96 32) == v
  | .ud, .int v => (unpack w 96 32 : Int) == v
  | .w, .int v => signed 16 lo == v && lo == hi
  | .uw, .int v => (lo : Int) == v && lo == hi
  | .q, .int v => signed 64 (unpack w 64 64) == v
  | .uq, .int v => (unpack w 64 64 : Int) == v
  | .f, .float v => floatBits 8 23 v == some (unpack w 96 32)
  | .hf, .float v => floatBits 5 10 v == some lo && lo == hi
  | .df, .float v => floatBits 11 52 v == some (unpack w 64 64)
  | _, _ => false

def immReads (cfg : Cfg) (k : Nat) (i : ImmOperand) (w : NativeWord) : Bool :=
  reads w (if k = 0 then 41 else 89) 2 3 && readsCode w (if k = 0 then 43 else 91) 4 (cfg.immTypeCode i.type) &&
  immValueReads i w

/-- R245, R246, R96: a value the type holds exactly. -/
def immValueLegal (i : ImmOperand) : Bool :=
  match i.type, i.value with
  | .d, .int v => decide (-2147483648 ≤ v) && decide (v < 2147483648)
  | .ud, .int v => decide (0 ≤ v) && decide (v < 4294967296)
  | .w, .int v => decide (-32768 ≤ v) && decide (v < 32768)
  | .uw, .int v => decide (0 ≤ v) && decide (v < 65536)
  | .q, .int v => decide (-9223372036854775808 ≤ v) && decide (v < 9223372036854775808)
  | .uq, .int v => decide (0 ≤ v) && decide (v < 18446744073709551616)
  | .f, .float v => (floatBits 8 23 v).isSome
  | .hf, .float v => (floatBits 5 10 v).isSome
  | .df, .float v => (floatBits 11 52 v).isSome
  | _, _ => false

/-- An immediate in slot `k`; `sole` in the only slot of a one-source instruction. -/
def immLegal (cfg : Cfg) (sole : Bool) (k : Nat) (i : ImmOperand) : Bool :=
  (k != 0 || sole) && (cfg.immTypeCode i.type).isSome && (!i.type.is64 || sole) && i.type.immWidth == some i.bitWidth &&
  immValueLegal i

def srcReads (cfg : Cfg) (ins : Instruction) (k : Nat) (s : Operand) (w : NativeWord) : Bool :=
  match s with
  | .imm i => immReads cfg k i w
  | .reg r => srcRegReads cfg ins.body.accessMode (sourceRegion ins.body.executionSize r) k r w

def srcLegal (cfg : Cfg) (ins : Instruction) (sole : Bool) (k : Nat) (s : Operand) : Bool :=
  match s with
  | .imm i => immLegal cfg sole k i
  | .reg r =>
    srcRegLegal cfg ins.body.accessMode (sourceRegion ins.body.executionSize r) (sourceOverlayLegal cfg ins) r

/-- The bits that slot `k` leaves reserved beside a register (R102, R103): its last one, unless that is the sign of an
indirect offset, and bits 126:121 of slot 1. -/
def slotReservedReads (k : Nat) (s : Operand) (w : NativeWord) : Bool :=
  match s with
  | .imm _ => true
  | .reg r =>
    (match r.addressing with
     | .direct => reads w (95 + 32 * k) 1 0
     | .indirect _ _ => true) && (k == 0 || reads w 121 6 0)

/-- The sources of a one-source word: source 0, and 0 in every bit that R102, R104 and R105 leave over. -/
def soleReads (cfg : Cfg) (ins : Instruction) (s0 : Operand) (w : NativeWord) : Bool :=
  srcReads cfg ins 0 s0 w && slotReservedReads 0 s0 w &&
  match s0 with
  | .imm i => i.type.is64 || reads w 64 32 0
  | .reg _ => reads w 89 6 0 && reads w 96 32 0

/-- The sources of a two-source word, and 0 in every bit that R102 and R103 leave over. -/
def pairReads (cfg : Cfg) (ins : Instruction) (s0 s1 : Operand) (w : NativeWord) : Bool :=
  srcReads cfg ins 0 s0 w && slotReservedReads 0 s0 w && srcReads cfg ins 1 s1 w && slotReservedReads 1 s1 w

/-- A destination operand of the two-source layout. -/
def dstOpReads (cfg : Cfg) (ins : Instruction) (d : Operand) (w : NativeWord) : Bool :=
  match d with
  | .imm _ => false
  | .reg r => dstReads cfg ins.body.accessMode r w

def dstOpLegal (cfg : Cfg) (ins : Instruction) (d : Operand) : Bool :=
  match d with
  | .imm _ => false
  | .reg r => dstLegal cfg ins.body.accessMode r

/-! ## Three-source layouts (R110, R111, R270 to R279) -/

/-- R270, R291. -/
def classesLegal (m : Mnemonic) (d s0 s1 s2 : Operand) : Bool :=
  let classes := [d, s0, s1, s2].map fun o => (operandType o).typeClass
  (m != .dp4a && classes == [.float, .float, .float, .float]) ||
  classes == [.integer, .integer, .integer, .integer] ||
  (m != .dp4a && classes == [.packed, .packed, .packed, .packed])

def dst16Reads (cfg : Cfg) (d : RegOperand) (w : NativeWord) : Bool :=
  reads w 38 1 (if d.file = .grf then 0 else 1) && readsCode w 35 3 (cfg.type3Code d.dataType) &&
  reads w 55 8 (registerNumber cfg d) && reads w 26 1 (offsetInRegister d / 16) &&
  reads w 22 4 (match d.specialAcc with
    | some a => (cfg.specialAcc.code a).toNat
    | none => d.writeMask.toNat) &&
  reads w 27 2 3

def dst16Legal (cfg : Cfg) (d : RegOperand) : Bool :=
  d.addressing == .direct && (d.file == .grf || d.file == .arf .acc) && (cfg.type3Code d.dataType).isSome &&
  registerLegal cfg d && offsetInRegister d % 16 == 0 && accLegal d

/-- The swizzle of a source without an Align1 region (R273). -/
def swizzleChannels (s : RegOperand) : ChannelSelect := s.region.channelSelect?.getD identitySelect

def src16Reads (cfg : Cfg) (k : Nat) (s : RegOperand) (w : NativeWord) : Bool :=
  let p := slot16 k
  let c := swizzleChannels s
  readsCode w p.type 3 (cfg.type3Code s.dataType) && reads w p.rep 1 s.repCtrl.toNat &&
  reads w p.swizzle 2 c.c0.code && reads w (p.swizzle + 2) 2 c.c1.code && reads w (p.swizzle + 4) 2 c.c2.code &&
  reads w (p.swizzle + 6) 2 c.c3.code && reads w p.sub 1 (offsetInRegister s / 16) && reads w p.regnum 8 s.number &&
  reads w p.srcmod 2 s.modifier.code

def src16Legal (cfg : Cfg) (s : RegOperand) : Bool :=
  s.addressing == .direct && s.file == .grf && s.specialAcc.isNone && registerLegal cfg s &&
  offsetInRegister s % 16 == 0 && (cfg.type3Code s.dataType).isSome &&
  (match s.region with
   | .align1 _ _ _ => false
   | _ => true)

def dst1Reads (cfg : Cfg) (d : RegOperand) (w : NativeWord) : Bool :=
  reads w 26 1 (if d.file = .grf then 0 else 1) && readsCode w 35 4 (cfg.regTypeCode d.dataType) &&
  reads w 120 8 (registerNumber cfg d) && reads w 115 5 (subRegOrAcc cfg d) &&
  reads w 22 1 (dstStride d - 1)

def dst1Legal (cfg : Cfg) (d : RegOperand) : Bool :=
  d.addressing == .direct && (d.file == .grf || d.file == .arf .acc) && (cfg.regTypeCode d.dataType).isSome &&
  registerLegal cfg d && accLegal d && [1, 2].contains (dstStride d) && !d.repCtrl

def src1RegReads (cfg : Cfg) (execSize k : Nat) (s : RegOperand) (w : NativeWord) : Bool :=
  let p := slot1 k
  reads w p.regfile 1 (if s.file = .grf then 0 else 1) && readsCode w p.type 4 (cfg.regTypeCode s.dataType) &&
  reads w p.srcmod 2 s.modifier.code && readsNat w p.vstride 2 (vertStride3Code (sourceRegion3 execSize s).1) &&
  readsNat w p.hstride 2 (horzStride3Code (sourceRegion3 execSize s).2) &&
  reads w p.regnum 8 (registerNumber cfg s) && reads w p.subreg 5 (subRegOrAcc cfg s)

def src1RegLegal (cfg : Cfg) (execSize k : Nat) (s : RegOperand) : Bool :=
  s.addressing == .direct && (s.file == .grf || (k == 1 && s.file == .arf .acc)) &&
  (cfg.regTypeCode s.dataType).isSome && registerLegal cfg s && !s.repCtrl &&
  [0, 2, 4, 8].contains (sourceRegion3 execSize s).1 && [0, 1, 2, 4].contains (sourceRegion3 execSize s).2 &&
  (s.specialAcc.isNone || cfg.specialAccSrcOverlay) && accLegal s

/-- The 16-bit immediate of a three-source slot (R278); its modifier bits are 0 (R279). -/
def imm16Reads (cfg : Cfg) (k : Nat) (i : ImmOperand) (w : NativeWord) : Bool :=
  let p := slot1 k
  let v := unpack w p.vstride 16
  reads w p.regfile 1 1 && readsCode w p.type 4 (cfg.regTypeCode i.type) && reads w (p.vstride + 16) 1 0 &&
  reads w p.srcmod 2 0 &&
  match i.value with
  | .int x => signed 16 v == x
  | .float x => floatBits 5 10 x == some v

/-- The types of a three-source immediate (R278). -/
def imm16Type (t : DataType) : Bool := t == .w || t == .d || t == .uw || t == .ud || t == .hf

/-- A value that the 16-bit field of R278 holds. -/
def imm16ValueLegal (i : ImmOperand) : Bool :=
  match i.type, i.value with
  | .w, .int v | .d, .int v => decide (-32768 ≤ v) && decide (v < 32768)
  | .uw, .int v | .ud, .int v => decide (0 ≤ v) && decide (v < 32768)
  | .hf, .float v => (floatBits 5 10 v).isSome
  | _, _ => false

def imm16Legal (cfg : Cfg) (k : Nat) (i : ImmOperand) : Bool :=
  k != 1 && (cfg.regTypeCode i.type).isSome && imm16ValueLegal i

def src1Reads (cfg : Cfg) (execSize k : Nat) (s : Operand) (w : NativeWord) : Bool :=
  match s with
  | .imm i => imm16Reads cfg k i w
  | .reg r => src1RegReads cfg execSize k r w

def src1Legal (cfg : Cfg) (execSize k : Nat) (s : Operand) : Bool :=
  match s with
  | .imm i => imm16Legal cfg k i
  | .reg r => src1RegLegal cfg execSize k r

/-- The operands of a three-source word, by access mode. -/
def threeReads (cfg : Cfg) (ins : Instruction) (d s0 s1 s2 : Operand) (w : NativeWord) : Bool :=
  match ins.body.accessMode, d, s0, s1, s2 with
  | .align16, .reg d, .reg r0, .reg r1, .reg r2 =>
    dst16Reads cfg d w && src16Reads cfg 0 r0 w && src16Reads cfg 1 r1 w && src16Reads cfg 2 r2 w &&
    reads w 39 2 0 && reads w 47 1 0 && reads w 63 1 0 && reads w 127 1 0
  | .align1, .reg d, s0, s1, s2 =>
    let e := ins.body.executionSize
    dst1Reads cfg d w && src1Reads cfg e 0 s0 w && src1Reads cfg e 1 s1 w && src1Reads cfg e 2 s2 w &&
    reads w 47 1 0 && reads w 63 1 0
  | _, _, _, _, _ => false

def threeLegal (cfg : Cfg) (ins : Instruction) (d s0 s1 s2 : Operand) : Bool :=
  classesLegal ins.opcode d s0 s1 s2 &&
  match ins.body.accessMode, d, s0, s1, s2 with
  | .align16, .reg d, .reg r0, .reg r1, .reg r2 =>
    dst16Legal cfg d && src16Legal cfg r0 && src16Legal cfg r1 && src16Legal cfg r2
  | .align1, .reg d, s0, s1, s2 =>
    let e := ins.body.executionSize
    dst1Legal cfg d && src1Legal cfg e 0 s0 && src1Legal cfg e 1 s1 && src1Legal cfg e 2 s2
  | _, _, _, _, _ => false

/-! ## Send layouts (R115, R116, R300 to R312) -/

/-- The descriptor of a payload operand that is not malformed by itself (R300 cases 3 to 5): the 32-bit value of an
immediate, or the address sub-register. -/
def descLegal (o : Operand) (regAllowed : Nat → Bool) : Bool :=
  match o with
  | .imm ⟨.int v, _, t⟩ => (t == .ud || t == .d) && decide (-2147483648 ≤ v) && decide (v < 4294967296)
  | .imm _ => false
  | .reg r => r.file == .arf .a && r.number == 0 && r.addressing == .direct && regAllowed r.subregister

/-- The 32-bit value of an immediate descriptor (R300). -/
def descValue : Operand → Option Nat
  | .imm ⟨.int v, _, _⟩ => some (v % 4294967296).toNat
  | _ => none

/-- EOT of an extended descriptor operand: bit 5 of an immediate, 0 of a register (R302, R311). -/
def eotOf (exDesc : Operand) : Nat :=
  match descValue exDesc with
  | some x => x / 32 % 2
  | none => 0

/-- R300 cases 3 to 7 hold of none: the descriptors are well formed. -/
def descriptorsLegal (split : Bool) (desc exDesc : Operand) : Bool :=
  descLegal desc (· == 0) && descLegal exDesc (fun n => split && decide (n < 16)) &&
  (match descValue exDesc with
   | some x => x % 65536 / 64 == 0 && x / 16 % 2 == 0 && (split || x / 65536 == 0)
   | none => true) &&
  (match descValue desc with
   | some x => x / 2147483648 == eotOf exDesc
   | none => true)

/-- The descriptor fields of a Send word (R302). -/
def sendDescReads (cfg : Cfg) (desc exDesc : Operand) (w : NativeWord) : Bool :=
  let x := (descValue exDesc).getD 0
  reads w 48 4 (x % 16) && reads w 91 4 (x % 16) && reads w 95 1 (x / 32 % 2) && reads w 127 1 (x / 32 % 2) &&
  match descValue desc with
  | some v => reads w 89 2 3 && reads w 96 31 (v % 2147483648)
  | none =>
    reads w 89 2 0 && reads w 96 5 0 && reads w 101 8 (16 * (cfg.arfSel.code .a).toNat) && reads w 109 18 0

/-- The destination and source of a send (R303), besides what the two-source layout asks of them. -/
def sendOperandsLegal (cfg : Cfg) (ins : Instruction) (d s0 : Operand) : Bool :=
  match d, s0 with
  | .reg rd, .reg r0 =>
    rd.addressing == .direct && (rd.file == .grf || (rd.file == .arf .null && rd.number == 0)) &&
    dstLegal cfg ins.body.accessMode rd &&
    r0.addressing == .direct && r0.file == .grf && r0.modifier == .none && srcLegal cfg ins false 0 s0
  | _, _ => false

/-- The operands of a Sends word (R310). -/
def sendsReads (cfg : Cfg) (rd r0 r1 : RegOperand) (desc exDesc : Operand) (w : NativeWord) : Bool :=
  reads w 22 2 1 && reads w 24 5 0 && reads w 35 2 (if rd.file = .grf then 1 else 0) &&
  readsCode w 37 4 (cfg.regTypeCode rd.dataType) && reads w 41 2 1 && reads w 43 1 (if r1.file = .grf then 1 else 0) &&
  reads w 46 1 0 && reads w 47 1 0 && reads w 55 8 (registerNumber cfg rd) && reads w 63 1 0 &&
  reads w 64 8 r0.number && reads w 72 8 (if r1.file = .grf then r1.number else 0) &&
  (match descValue desc with
   | some v => reads w 44 1 0 && reads w 96 31 (v % 2147483648)
   | none => reads w 44 1 1 && reads w 96 31 0) &&
  (match exDesc with
   | .imm _ =>
     let x := (descValue exDesc).getD 0
     reads w 45 1 0 && reads w 48 4 (x % 16) && reads w 80 16 (x / 65536) && reads w 127 1 (x / 32 % 2)
   | .reg r => reads w 45 1 1 && reads w 48 4 0 && reads w 80 4 r.subregister && reads w 84 12 0 && reads w 127 1 0)

/-- A payload register of a split send (R310). -/
def payloadLegal (cfg : Cfg) (r : RegOperand) : Bool :=
  r.addressing == .direct && r.subregister == 0 && r.modifier == .none && r.specialAcc.isNone && !r.repCtrl &&
  r.file == .grf && decide (r.number < cfg.grfCount) && decide (r.number < 256)

def sendsOperandsLegal (cfg : Cfg) (rd r0 r1 : RegOperand) : Bool :=
  rd.addressing == .direct && rd.subregister == 0 && (cfg.regTypeCode rd.dataType).isSome && !rd.repCtrl &&
  ((rd.file == .grf && decide (rd.number < cfg.grfCount) && decide (rd.number < 256)) ||
   (rd.file == .arf .null && rd.number == 0)) &&
  payloadLegal cfg r0 &&
  (payloadLegal cfg r1 ||
   (r1.addressing == .direct && r1.file == .arf .null && r1.number == 0 && decide (offsetInRegister r1 < 32) &&
    r1.modifier == .none && r1.specialAcc.isNone && !r1.repCtrl))

/-! ## Branch, wait and bare words (R120 to R123) -/

/-- The operand areas of a word with none (R121, R123). -/
def noOperandsRead (w : NativeWord) : Bool := reads w 22 7 0 && reads w 35 13 0 && reads w 55 9 0

/-- Source 1 an immediate of type D (R351). -/
def jipOperandReads (w : NativeWord) : Bool := reads w 89 2 3 && reads w 91 4 1

/-- Source 0 all 0 (R351, R353). -/
def noSource0Reads (w : NativeWord) : Bool := reads w 41 6 0 && reads w 64 25 0 && reads w 95 1 0

/-- Destination all 0 (R351). -/
def noDestinationReads (w : NativeWord) : Bool := reads w 22 7 0 && reads w 35 6 0 && reads w 47 1 0 && reads w 55 9 0

/-- The `ip` operands of `jmpi` (R352). -/
def ipReads (cfg : Cfg) (w : NativeWord) : Bool :=
  let ip := 16 * (cfg.arfSel.code .ip).toNat
  reads w 22 2 1 && reads w 24 5 0 && reads w 35 6 0 && reads w 47 1 0 && reads w 55 8 ip && reads w 63 1 0 &&
  reads w 41 6 0 && reads w 64 5 0 && reads w 69 8 ip && reads w 77 12 0 && reads w 95 1 0

/-- The operand of `wait`, as destination and as source 0 (R248). -/
def waitReads (cfg : Cfg) (s : RegOperand) (w : NativeWord) : Bool :=
  dstReads cfg .align1 { s with region := .align1 none none (some 1) } w && srcRegReads cfg .align1 scalarRegion 0 s w &&
  reads w 89 7 0 && reads w 96 32 0

/-- R248, with the operand rules of the destination and the source it is packed as. -/
def waitLegal (cfg : Cfg) (s : RegOperand) : Bool :=
  s.file == .arf .n && s.addressing == .direct && registerLegal cfg s && (cfg.regTypeCode s.dataType).isSome &&
  s.specialAcc.isNone && !s.repCtrl

/-- R353. -/
def callLegal (cfg : Cfg) (d : RegOperand) : Bool :=
  d.addressing == .direct && d.file == .grf && (d.dataType == .d || d.dataType == .ud) && dstLegal cfg .align1 d

/-! ## Whole records -/

/-- The platform has what the opcode needs (R161). -/
def opcodeLegal (cfg : Cfg) (ins : Instruction) : Bool :=
  (cfg.opcode ins.opcode).isSome &&
  match ins.opcode with
  | .ror | .rol => cfg.hasRotate
  | .mad => ins.body.accessMode == .align16 || cfg.has3SrcAlign1
  | .dp4a => cfg.hasDp4a && (ins.body.accessMode == .align16 || cfg.has3SrcAlign1)
  | _ => true

/-- The format of a record of a class (R163). -/
def formatOf (ins : Instruction) : FormatTag :=
  match ins.opcode.opClass with
  | .illegal => .illegal
  | .nop => .nop
  | .oneSrc => .oneSrc
  | .twoSrc => .twoSrc
  | .math => if ins.body.sources.length = 1 then .oneSrc else .twoSrc
  | .threeSrc => if ins.body.accessMode = .align16 then .threeSrcAlign16 else .threeSrcAlign1
  | .wait => .wait
  | .send => .send
  | .sends => .sends
  | .branchTwoSrc => .branchTwoSrc
  | .branchOneSrc | .jmpi | .call => .branchOneSrc

/-- The shape of R164 and the operands of the class hold no cause of R401, R402 or R300. -/
def operandsLegal (cfg : Cfg) (ins : Instruction) : Bool :=
  let b := ins.body
  match ins.opcode.opClass, b.destination, b.sources, b.payload with
  | .illegal, none, [], .none | .nop, none, [], .none => true
  | .oneSrc, some d, [s0], .none => dstOpLegal cfg ins d && srcLegal cfg ins true 0 s0
  | .twoSrc, some d, [s0, s1], .none =>
    dstOpLegal cfg ins d && srcLegal cfg ins false 0 s0 && srcLegal cfg ins false 1 s1
  | .math, some d, [s0], .math fn =>
    (cfg.mathFc.lookup fn).isSome && fn.sources == 1 && dstOpLegal cfg ins d && srcLegal cfg ins true 0 s0
  | .math, some d, [s0, s1], .math fn =>
    (cfg.mathFc.lookup fn).isSome && fn.sources == 2 && dstOpLegal cfg ins d && srcLegal cfg ins false 0 s0 &&
    srcLegal cfg ins false 1 s1
  | .threeSrc, some d, [s0, s1, s2], .none => threeLegal cfg ins d s0 s1 s2
  | .wait, none, [.reg s0], .none => waitLegal cfg s0
  | .send, some d, [s0], .send desc exDesc => descriptorsLegal false desc exDesc && sendOperandsLegal cfg ins d s0
  | .sends, some (.reg rd), [.reg r0, .reg r1], .send desc exDesc =>
    descriptorsLegal true desc exDesc && sendsOperandsLegal cfg rd r0 r1
  | .branchOneSrc, none, [], .branch _ none | .jmpi, none, [], .branch _ none => true
  | .branchTwoSrc, none, [], .branch _ (some _) => true
  | .call, some (.reg d), [], .branch _ none => callLegal cfg d
  | _, _, _, _ => false

/-- No cause of R401, R402 or R300 holds of the record itself (labels, compaction and offsets apart). -/
def recordLegal (cfg : Cfg) (ins : Instruction) : Bool :=
  opcodeLegal cfg ins && headerLegal (formatOf ins) ins && operandsLegal cfg ins

/-- The operand fields of a word and bits 51:48, by class; the offset fields of branches apart. -/
def operandsRead (cfg : Cfg) (ins : Instruction) (w : NativeWord) : Bool :=
  let b := ins.body
  match ins.opcode.opClass, b.destination, b.sources, b.payload with
  | .illegal, _, _, _ | .nop, _, _, _ => condModReads cfg ins w && noOperandsRead w && reads w 64 64 0
  | .oneSrc, some d, [s0], _ => condModReads cfg ins w && dstOpReads cfg ins d w && soleReads cfg ins s0 w
  | .twoSrc, some d, [s0, s1], _ => condModReads cfg ins w && dstOpReads cfg ins d w && pairReads cfg ins s0 s1 w
  | .math, some d, [s0], .math fn =>
    readsCode w 48 4 (cfg.mathFc.lookup fn) && dstOpReads cfg ins d w && soleReads cfg ins s0 w
  | .math, some d, [s0, s1], .math fn =>
    readsCode w 48 4 (cfg.mathFc.lookup fn) && dstOpReads cfg ins d w && pairReads cfg ins s0 s1 w
  | .threeSrc, some d, [s0, s1, s2], _ => condModReads cfg ins w && threeReads cfg ins d s0 s1 s2 w
  | .wait, _, [.reg s0], _ => condModReads cfg ins w && waitReads cfg s0 w
  | .send, some d, [s0], .send desc exDesc =>
    dstOpReads cfg ins d w && srcReads cfg ins 0 s0 w && sendDescReads cfg desc exDesc w
  | .sends, some (.reg rd), [.reg r0, .reg r1], .send desc exDesc => sendsReads cfg rd r0 r1 desc exDesc w
  | .branchOneSrc, _, _, _ => reads w 48 4 0 && noDestinationReads w && noSource0Reads w && jipOperandReads w
  | .jmpi, _, _, _ => reads w 48 4 0 && ipReads cfg w && jipOperandReads w
  | .call, some (.reg d), _, _ => reads w 48 4 0 && dstReads cfg .align1 d w && noSource0Reads w && jipOperandReads w
  | .branchTwoSrc, _, _, _ => reads w 48 4 0 && noOperandsRead w
  | _, _, _, _ => false

/-! ## Which error a record ends in (R401, R402, R300, R405)

Each list holds what the rules ask of an operand, a header or a record, in the order of R405 and, within one operand, in
the order its rule lists its checks (where the wording leaves that order, assumptions 14, 18 and 19), each with the error
that a breach of it raises. A last entry that asks for all of a `…Legal` check stands for the checks still left, which
all raise its error. -/

/-- What a rule asks, and the error where it does not hold. -/
structure Demand where
  holds : Bool
  error : ErrCode
deriving DecidableEq, Repr

/-- The error of the first demand that does not hold. -/
def firstError : List Demand → Option ErrCode
  | [] => none
  | d :: rest => if d.holds then firstError rest else some d.error

def elseUnsupported (holds : Bool) : Demand := ⟨holds, .unsupportedOpcode⟩

def elseViolation (holds : Bool) : Demand := ⟨holds, .invariantViolation⟩

/-- R232: Align16 with indirect addressing has no case. -/
def addressingCase (mode : AccessMode) (r : RegOperand) : Bool := mode == .align1 || r.addressing == .direct

def dstRegDemands (cfg : Cfg) (mode : AccessMode) (d : RegOperand) : List Demand :=
  [elseUnsupported (cfg.regTypeCode d.dataType).isSome, elseUnsupported (addressingCase mode d),
   elseViolation (dstLegal cfg mode d)]

def dstDemands (cfg : Cfg) (ins : Instruction) (d : Operand) : List Demand :=
  match d with
  | .imm _ => [elseUnsupported false]
  | .reg r => dstRegDemands cfg ins.body.accessMode r

def srcRegDemands (cfg : Cfg) (mode : AccessMode) (region : SrcRegion) (overlay : Bool) (s : RegOperand) :
    List Demand :=
  [elseUnsupported (cfg.regTypeCode s.dataType).isSome, elseUnsupported (addressingCase mode s),
   elseViolation (srcPlaceLegal cfg mode region s), elseUnsupported (s.specialAcc.isNone || overlay),
   elseViolation (srcRegLegal cfg mode region overlay s)]

def srcDemands (cfg : Cfg) (ins : Instruction) (sole : Bool) (k : Nat) (s : Operand) : List Demand :=
  match s with
  | .imm i =>
    [elseViolation (k != 0 || sole), elseUnsupported (cfg.immTypeCode i.type).isSome,
     elseViolation (immLegal cfg sole k i)]
  | .reg r =>
    srcRegDemands cfg ins.body.accessMode (sourceRegion ins.body.executionSize r) (sourceOverlayLegal cfg ins) r

def dst16Demands (cfg : Cfg) (d : Operand) : List Demand :=
  match d with
  | .imm _ => [elseViolation false]
  | .reg r =>
    [elseUnsupported (r.addressing == .direct), elseViolation (r.file == .grf || r.file == .arf .acc),
     elseUnsupported (cfg.type3Code r.dataType).isSome, elseViolation (dst16Legal cfg r)]

def src16Demands (cfg : Cfg) (s : Operand) : List Demand :=
  match s with
  | .imm _ => [elseViolation false]
  | .reg r =>
    [elseUnsupported (r.addressing == .direct), elseViolation (r.file == .grf), elseUnsupported r.specialAcc.isNone,
     elseViolation (registerLegal cfg r && offsetInRegister r % 16 == 0),
     elseUnsupported (cfg.type3Code r.dataType).isSome, elseViolation (src16Legal cfg r)]

def dst1Demands (cfg : Cfg) (d : Operand) : List Demand :=
  match d with
  | .imm _ => [elseViolation false]
  | .reg r =>
    [elseUnsupported (r.addressing == .direct), elseViolation (r.file == .grf || r.file == .arf .acc),
     elseUnsupported (cfg.regTypeCode r.dataType).isSome, elseViolation (dst1Legal cfg r)]

def src1Demands (cfg : Cfg) (execSize k : Nat) (s : Operand) : List Demand :=
  match s with
  | .imm i =>
    [elseViolation (k != 1), elseUnsupported (imm16Type i.type), elseViolation (imm16ValueLegal i),
     elseUnsupported (cfg.regTypeCode i.type).isSome]
  | .reg r =>
    [elseUnsupported (r.addressing == .direct), elseViolation (r.file == .grf || (k == 1 && r.file == .arf .acc)),
     elseUnsupported (cfg.regTypeCode r.dataType).isSome,
     elseViolation ([0, 2, 4, 8].contains (sourceRegion3 execSize r).1 &&
       [0, 1, 2, 4].contains (sourceRegion3 execSize r).2 && registerLegal cfg r),
     elseUnsupported (r.specialAcc.isNone || cfg.specialAccSrcOverlay), elseViolation (src1RegLegal cfg execSize k r)]

def threeDemands (cfg : Cfg) (ins : Instruction) (d s0 s1 s2 : Operand) : List Demand :=
  elseViolation (classesLegal ins.opcode d s0 s1 s2) ::
  match ins.body.accessMode with
  | .align16 => dst16Demands cfg d ++ src16Demands cfg s0 ++ src16Demands cfg s1 ++ src16Demands cfg s2
  | .align1 =>
    let e := ins.body.executionSize
    dst1Demands cfg d ++ src1Demands cfg e 0 s0 ++ src1Demands cfg e 1 s1 ++ src1Demands cfg e 2 s2

/-- A GRF register or the ARF null register (R303, R310). -/
def grfOrNullLegal (r : RegOperand) : Bool := r.file == .grf || (r.file == .arf .null && r.number == 0)

def sendOperandDemands (cfg : Cfg) (ins : Instruction) (d s0 : Operand) : List Demand :=
  (match d with
   | .imm _ => [elseUnsupported false]
   | .reg r =>
     [elseUnsupported (r.addressing == .direct), elseViolation (grfOrNullLegal r)] ++
     dstRegDemands cfg ins.body.accessMode r) ++
  match s0 with
  | .imm _ => [elseViolation false]
  | .reg r =>
    [elseUnsupported (r.addressing == .direct), elseViolation (r.file == .grf), elseViolation (r.modifier == .none)] ++
    srcDemands cfg ins false 0 s0

/-- A direct GRF operand with sub-register 0 (R310). -/
def payloadPlace (r : RegOperand) : Bool := r.addressing == .direct && r.file == .grf && r.subregister == 0

def splitDestinationDemands (cfg : Cfg) (d : Operand) : List Demand :=
  match d with
  | .imm _ => [elseViolation false]
  | .reg r =>
    [elseViolation (r.addressing == .direct && grfOrNullLegal r && r.subregister == 0),
     elseUnsupported (cfg.regTypeCode r.dataType).isSome, elseViolation (registerLegal cfg r && !r.repCtrl)]

def splitSourceDemands (cfg : Cfg) (place : RegOperand → Bool) (s : Operand) : List Demand :=
  match s with
  | .imm _ => [elseViolation false]
  | .reg r =>
    [elseViolation (place r && r.modifier == .none && registerLegal cfg r), elseUnsupported r.specialAcc.isNone,
     elseViolation (!r.repCtrl)]

def sendsOperandDemands (cfg : Cfg) (d s0 s1 : Operand) : List Demand :=
  splitDestinationDemands cfg d ++ splitSourceDemands cfg payloadPlace s0 ++
  splitSourceDemands cfg
    (fun r => payloadPlace r || (r.addressing == .direct && r.file == .arf .null && r.number == 0)) s1

def waitDemands (cfg : Cfg) (s : Operand) : List Demand :=
  match s with
  | .imm _ => [elseUnsupported false]
  | .reg r =>
    [elseUnsupported (r.file == .arf .n && decide (r.number < 16) && r.addressing == .direct),
     elseUnsupported (cfg.regTypeCode r.dataType).isSome,
     elseViolation (registerLegal cfg r && accLegal r && !r.repCtrl), elseUnsupported r.specialAcc.isNone]

def callDemands (cfg : Cfg) (d : Operand) : List Demand :=
  match d with
  | .imm _ => [elseUnsupported false]
  | .reg r =>
    elseViolation (r.addressing == .direct && r.file == .grf && (r.dataType == .d || r.dataType == .ud)) ::
    dstRegDemands cfg .align1 r

/-- The operands in the order of R405 step 7 (R270 before them, step 6), then the math patch (step 8). -/
def operandDemands (cfg : Cfg) (ins : Instruction) : List Demand :=
  let b := ins.body
  match ins.opcode.opClass, b.destination, b.sources, b.payload with
  | .oneSrc, some d, [s0], _ => dstDemands cfg ins d ++ srcDemands cfg ins true 0 s0
  | .twoSrc, some d, [s0, s1], _ =>
    dstDemands cfg ins d ++ srcDemands cfg ins false 0 s0 ++ srcDemands cfg ins false 1 s1
  | .math, some d, [s0], .math fn =>
    dstDemands cfg ins d ++ srcDemands cfg ins true 0 s0 ++ [elseUnsupported (cfg.mathFc.lookup fn).isSome]
  | .math, some d, [s0, s1], .math fn =>
    dstDemands cfg ins d ++ srcDemands cfg ins false 0 s0 ++ srcDemands cfg ins false 1 s1 ++
    [elseUnsupported (cfg.mathFc.lookup fn).isSome]
  | .threeSrc, some d, [s0, s1, s2], _ => threeDemands cfg ins d s0 s1 s2
  | .wait, _, [s0], _ => waitDemands cfg s0
  | .send, some d, [s0], _ => sendOperandDemands cfg ins d s0
  | .sends, some d, [s0, s1], _ => sendsOperandDemands cfg d s0 s1
  | .call, some d, _, _ => callDemands cfg d
  | _, _, _, _ => []

/-- What is asked of a record, in the order of R405 steps 2 to 8: opcode, shape, send descriptors, header, operands. -/
def recordDemands (cfg : Cfg) (ins : Instruction) : List Demand :=
  [elseUnsupported (opcodeLegal cfg ins),
   ⟨ins.body.shapeOk ins.opcode.opClass, if ins.opcode.isSendClass then .failure else .unsupportedOpcode⟩,
   ⟨match ins.body.payload with
    | .send desc exDesc => descriptorsLegal (ins.opcode.opClass == .sends) desc exDesc
    | _ => true, .failure⟩,
   elseViolation (headerLegal (formatOf ins) ins)] ++ operandDemands cfg ins

/-- The error that a record ends in by itself (labels, compaction and branch offsets apart). -/
def recordError (cfg : Cfg) (ins : Instruction) : Option ErrCode := firstError (recordDemands cfg ins)

/-! ## Commands -/

/-- No label of `defs` has a position yet, and none stands twice in `defs` (R25). -/
def labelsFresh (labels : List (Label × Nat)) (defs : List Label) : Bool :=
  decide defs.Nodup && defs.all fun l => (labelPos labels l).isNone

/-- The label table with the command's definitions at its position (R335). -/
def labelsAfter (s : State) (defs : List Label) : List (Label × Nat) := s.labels ++ defs.map fun l => (l, s.pos)

/-- The state and the operands on which an Instr command, its compaction policy and branch offsets apart, has no error:
phase `Scanning` (R38), fresh labels (R25), and a record with no cause of R401, R402 or R300. -/
def accepts (s : State) (i : Instr) : Bool :=
  s.phase == .scanning && labelsFresh s.labels i.defs && recordLegal s.cfg i.instruction

/-- The native word that a word of the buffer is or stands for (R383). -/
def nativeOf (cfg : Cfg) (bits : EncodedWord) : NativeWord :=
  match bits with
  | .native w => w
  | .compact c => expand cfg c

/-- A label of a branch, as the command finds it (R332, R345): absent, or at an offset of `bits` bits. -/
def offsetLegal (cfg : Cfg) (labels : List (Label × Nat)) (pos bits : Nat) (l : Label) : Bool :=
  match labelPos labels l with
  | some t =>
    let v := ((t : Int) - pos) * cfg.branchOffsetScale
    decide (-(2 ^ (bits - 1) : Int) ≤ v) && decide (v < (2 ^ (bits - 1) : Int))
  | none => true

/-- The 32-bit field of a label: its offset, or the placeholder 0 while it is absent (R332, R341, R346). -/
def offsetReads (cfg : Cfg) (labels : List (Label × Nat)) (pos : Nat) (l : Label) (field : Nat) : Bool :=
  match labelPos labels l with
  | some t => signed 32 field == ((t : Int) - pos) * cfg.branchOffsetScale
  | none => field == 0

/-- Every label of the command's branch has an offset of `bits` bits or none yet (R345). -/
def targetsLegal (s : State) (i : Instr) (bits : Nat) : Bool :=
  i.body.payload.targets.all fun t => offsetLegal s.cfg (labelsAfter s i.defs) s.pos bits t.2

/-- JIP and UIP of a native branch word (R346): DW3 with one offset, DW2 and DW3 with two. -/
def targetsRead (s : State) (i : Instr) (w : NativeWord) : Bool :=
  let ok := offsetReads s.cfg (labelsAfter s i.defs) s.pos
  match i.body.payload with
  | .branch jip none => ok jip (unpack w 96 32)
  | .branch jip (some uip) => ok jip (unpack w 64 32) && ok uip (unpack w 96 32)
  | _ => false

/-- A label of the branch is still absent, so that the word is deferred (R340). -/
def targetsPending (s : State) (i : Instr) : Bool :=
  i.body.payload.targets.any fun t => (labelPos (labelsAfter s i.defs) t.2).isNone

/-- A branch whose JIP label has a position (R338). -/
def isBackward (s : State) (i : Instr) : Bool :=
  i.mnemonic.isControlFlow &&
  (match i.body.payload with
   | .branch jip _ => (labelPos (labelsAfter s i.defs) jip).isSome
   | _ => false)

/-- The header and the operand fields of a word are those of the instruction; `back` is the backward-branch condition
(R178). -/
def wordReads (cfg : Cfg) (i : Instr) (back : Bool) (w : NativeWord) : Bool :=
  headerReads cfg i.instruction back w && operandsRead cfg i.instruction w

/-- The word of an eligible format, branches apart, under a policy other than `Must` (R370): compact where the tables
match and the policy lets it. -/
def shortest (cfg : Cfg) (policy : CompactionPolicy) (w : NativeWord) : EncodedWord :=
  if policy = .mustNot then .native w
  else
    match tryCompact cfg w with
    | some c => .compact c
    | none => .native w

end Sys2Proof.Layout
end

