-- ==== Sys2Proof/Safety.lean ====
section
/-! DEFINITION. What a safe run of the block is: the step never stops, and every state of a session keeps the
invariants that the rules of 10_state.md, 20_memory.md and 44_branch.md state of it. -/

namespace Sys2Proof

/-- Bit 53 of a word's first 8 bytes (R150). -/
def EncodedWord.lengthBit : EncodedWord → Bool
  | .native w => w.getLsbD 53
  | .compact c => c.getLsbD 53

end Sys2Proof

namespace Sys2Proof.Machine

/-- The block goes on: it has no stop of its own (60_exceptions.md R408; errors are states). -/
def State.Safe (s : State) : Prop := ∃ t, step s = .next t

/-! ## The two ends of an Instr command -/

/-- The command appends the word `bits` at the position counter and changes nothing else but what R165 names: the labels
it defines, the deferred queue if it is `pending`, the two counters, and the report. -/
def State.instrEmits (s : State) (i : Instr) (bits : EncodedWord) (pending : Bool) : Prop :=
  exec i s = .next
    { s with
      labels := Layout.labelsAfter s i.defs
      out := s.out ++ [{ pos := s.pos, tag := Layout.formatOf i.instruction, bits := bits, ins := i.instruction }]
      deferred := if pending then s.deferred ++ [{ index := s.count, pos := s.pos }] else s.deferred
      pos := s.pos + (if bits.isCompact then 1 else 2)
      count := s.count + 1
      report := some .ok }

/-- The command ends with an error of class `e` and keeps nothing of the step but the phase, the status and the report
(R403). -/
def State.instrFails (s : State) (i : Instr) (e : ErrCode) : Prop :=
  ∃ c : Cause, c.code = e ∧
    exec i s = .next
      { s with
        phase := e.phase
        status := { code := some e, index := some s.count, detail := some c }
        report := some (.error e) }

/-! ## The output buffer -/

/-- The words follow one another from position `p` without gaps (R51, R58). -/
def contiguous : Nat → List OutWord → Bool
  | _, [] => true
  | p, o :: rest => o.pos == p && contiguous (p + o.bits.units) rest

/-- The units of all words (R24). -/
def totalUnits (out : List OutWord) : Nat := (out.map fun o => o.bits.units).sum

/-- A word of the buffer is of its record's format (R163) and shape (R164), is compact in an eligible format only (R371),
and tells its length by bit 53 (R150). -/
def OutWord.wordOk (o : OutWord) : Bool :=
  o.tag == Layout.formatOf o.ins && o.ins.body.shapeOk o.ins.opcode.opClass &&
  (!o.bits.isCompact || eligible o.tag) && o.bits.lengthBit == o.bits.isCompact

/-- A deferred entry names a branch word of the buffer and its position (R26). -/
def entryOk (out : List OutWord) (e : DeferredEntry) : Bool :=
  match out[e.index]? with
  | some o => o.pos == e.pos && o.ins.opcode.isControlFlow
  | none => false

/-! ## The invariant of the session -/

/-- What every state of a session satisfies. -/
structure State.Inv (s : State) : Prop where
  /-- R51: `out[0].pos = 0` and the words are contiguous. -/
  layout : contiguous 0 s.out = true
  /-- R24: `pos` is the position after the last word. -/
  pos : s.pos = totalUnits s.out
  /-- R23: `count` is the number of words. -/
  count : s.count = s.out.length
  /-- R27, R150: each word is of its record's format. -/
  words : ∀ o ∈ s.out, o.wordOk = true
  /-- R25: a label is entered once. -/
  labels_once : (s.labels.map Prod.fst).Nodup
  /-- R25: a label stands for the position of an emitted instruction. -/
  labels_placed : ∀ e ∈ s.labels, ∃ o ∈ s.out, o.pos = e.2
  /-- R26: the entries name branch words. -/
  deferred_branches : ∀ e ∈ s.deferred, entryOk s.out e = true
  /-- R26: the queue is in emission order, each word at most once. -/
  deferred_order : (s.deferred.map DeferredEntry.index).Pairwise (· < ·)
  /-- R26: `deferred = []` in phase `Done`. -/
  done_resolved : s.phase = .done → s.deferred = []
  /-- R30: the status is empty while the session is healthy. -/
  healthy : s.phase ≠ .aborted → s.phase ≠ .failed → s.status = Status.empty
  /-- R400: in `Aborted` and `Failed` the status holds a code of that phase. -/
  stopped : s.phase = .aborted ∨ s.phase = .failed → ∃ c, s.status.code = some c ∧ s.phase = c.phase

/-! ## Branches -/

/-- The offset field of a branch word, read as two's complement (R346). -/
def OutWord.offset (o : OutWord) (which : Target) : Option Int :=
  match o.bits, o.tag, which with
  | .native w, .branchOneSrc, .jip => some (signed 32 (unpack w 96 32))
  | .native w, .branchTwoSrc, .jip => some (signed 32 (unpack w 64 32))
  | .native w, .branchTwoSrc, .uip => some (signed 32 (unpack w 96 32))
  | .compact c, .branchOneSrc, .jip => some (signed 10 (unpack c 54 10))
  | _, _, _ => none

/-- Each label of a branch word has a position, and its offset field holds the offset to it (R332, R346). -/
def OutWord.resolved (cfg : Cfg) (labels : List (Label × Nat)) (o : OutWord) : Prop :=
  ∀ t ∈ o.ins.body.payload.targets, ∃ p, labelPos labels t.2 = some p ∧ o.offset t.1 = some (branchOffset cfg o.pos p)

/-- Every branch word is resolved unless the deferred queue names it (R26, R340). -/
def State.BranchesResolved (s : State) : Prop :=
  ∀ (k : Nat) (o : OutWord), s.out[k]? = some o → o.ins.opcode.isControlFlow = true →
    (∃ e ∈ s.deferred, e.index = k) ∨ o.resolved s.cfg s.labels

end Sys2Proof.Machine
end

