-- ==== Sys2Proof/Certificates/Slice0/Obligations.lean ====
section
/-! DEFINITION. The statements about the block. A `Layout` check or an `instr…` property that a statement names is
explained at its definition; rules are those of spec/. -/

open Sys2Proof Sys2Proof.Machine Sys2Proof.Layout

/-! ## Commands and phases -/

/-- R42: the state after power-on holds the reset values, and a Reset command brings every session value back to them,
leaving the configuration and the commands still to come. -/
def Obligations.ResetValues : Prop :=
  State.reset.phase = .scanning ∧ State.reset.pos = 0 ∧ State.reset.count = 0 ∧
  (∀ l, labelPos State.reset.labels l = none) ∧ State.reset.deferred = [] ∧ State.reset.out = [] ∧
  State.reset.image = [] ∧ State.reset.status = Status.empty ∧
  ∀ s rest, s.input = some .reset :: rest →
    ∃ r, step s = .next { State.reset with cfg := s.cfg, input := rest, report := r }

/-- R430, R433: after a Reset nothing of an earlier session is left: two states with the same configuration and the same
commands ahead, the first a Reset, have the same next state. -/
def Obligations.ResetForgets : Prop :=
  ∀ s t : State, s.cfg = t.cfg → s.input = t.input → s.input.head? = some (some .reset) → step s = step t

/-- R342: End sets the phase to `Finalizing` and changes nothing else; it is legal in `Scanning` only. -/
def Obligations.EndFinalizes : Prop :=
  ∀ s rest, s.input = some .finish :: rest →
    (s.phase = .scanning → ∃ r, step s = .next { s with input := rest, phase := .finalizing, report := r }) ∧
    (s.phase ≠ .scanning → ∃ r, step s = .next { s with input := rest, report := r })

/-- R39: a command in a phase where it is not legal changes nothing and is reported as refused. -/
def Obligations.IllegalCommandRefused : Prop :=
  ∀ s : State, s.phase ≠ .scanning →
    (∀ i : Instr, exec i s = .next { s with report := some .refused }) ∧
    endCommand s = .next { s with report := some .refused }

/-- R8, R38: a step consumes the next command and runs it; an Instr command runs `exec` of its instruction, and the
instruction that a word stands for is run so when it is the next command (assumption 6). -/
def Obligations.StepRunsInstr : Prop :=
  (∀ i s rest, s.input = some (.instr i) :: rest → step s = exec i { s with input := rest }) ∧
  ∀ nbits w i s, decodeTableWord nbits w = some i → step (s.withFetchWord nbits w) = exec i s

/-- Words of 95_test_vectors.md (V1-1, H1, VB-1), with the default codes, decode to the instructions they were encoded
from; labels are read as the numbers in the offset fields (assumption 6). -/
def Obligations.DecodeWords : Prop :=
  decode defaultCfg (toBytes 16 0x00000000_00234280_05003AE8_60400001) =
    .ok (.mov
      { executionSize := 8
        destination := some (.reg { file := .grf, number := 10, region := .align1 none none (some 1), dataType := .f })
        sources := [.reg { file := .grf, number := 20, region := .align1 (some 8) (some 8) (some 1), dataType := .f }]
        compactionPolicy := .mustNot } [], []) ∧
  decode defaultCfg (toBytes 16 0x7E) = .ok (.nop { compactionPolicy := .mustNot } [], []) ∧
  decode defaultCfg (toBytes 16 0x00000000_00000000_00100000_60000022) =
    .ok (.if_
      { executionSize := 8, accWriteControl := true, payload := .branch ⟨0⟩ (some ⟨0⟩)
        compactionPolicy := .mustNot } [], [])

/-- R400, R408: no Instr command stops the block: each ends in a next state. -/
def Obligations.ExecAnswers : Prop := ∀ (i : Instr) (s : State), ∃ t, exec i s = .next t

/-- R22: the phase changes in the ways the rule lists and in no other, and each of them is taken. -/
def Obligations.PhaseTransitions : Prop :=
  (∀ s t : State, step s = .next t →
    t.phase = s.phase ∨
    (s.input.head? = some (some .reset) ∧ t.phase = .scanning) ∨
    (s.phase = .scanning ∧ s.input.head? = some (some .finish) ∧ t.phase = .finalizing) ∨
    (s.phase = .finalizing ∧ s.input.head?.join = none ∧ s.deferred = [] ∧ t.phase = .done) ∨
    ((s.phase = .scanning ∨ s.phase = .finalizing) ∧ t.phase = .aborted ∧
      ∃ c, t.status.code = some c ∧ c ≠ .failure) ∨
    (s.phase = .scanning ∧ t.phase = .failed ∧ t.status.code = some .failure)) ∧
  (∀ s rest, s.input = some .reset :: rest → ∃ t, step s = .next t ∧ t.phase = .scanning) ∧
  (∀ s rest, s.input = some .finish :: rest → s.phase = .scanning →
    ∃ t, step s = .next t ∧ t.phase = .finalizing) ∧
  (∀ s : State, s.phase = .finalizing → s.input.head?.join = none → s.deferred = [] →
    step s = .next { s with input := s.input.tail, phase := .done }) ∧
  (∀ i s t, s.phase = .scanning → exec i s = .next t →
    (t.report = some .ok ∧ t.phase = .scanning) ∨ ∃ c, t.report = some (.error c) ∧ t.phase = c.phase)

/-- R23, R24, R26, R27, R28, R335: an Instr command that ends without error appends one word, made of its record, at the
position counter; the position moves by 2 or, for a compact word, by 1, the count by 1; its labels get its position; it
is queued or not; nothing else changes. -/
def Obligations.InstrAppendsOneWord : Prop :=
  ∀ (i : Instr) (s t : State), s.phase = .scanning → exec i s = .next t → t.report = some .ok →
    ∃ (tag : FormatTag) (bits : EncodedWord) (queue : List DeferredEntry),
      (queue = [] ∨ queue = [{ index := s.count, pos := s.pos }]) ∧
      t = { s with
            labels := s.labels ++ i.defs.map fun l => (l, s.pos)
            out := s.out ++ [{ pos := s.pos, tag := tag, bits := bits, ins := i.instruction }]
            deferred := s.deferred ++ queue
            pos := s.pos + (if bits.isCompact then 1 else 2)
            count := s.count + 1
            report := some .ok }

/-- R403: an error changes nothing but the phase and the status: of the Instr step, which names `count`, and of the pass-2
step, which names the deferred entry. In `Aborted` and `Failed` there is no output. -/
def Obligations.ErrorKeepsNothing : Prop :=
  (∀ i s t c, s.phase = .scanning → exec i s = .next t → t.report = some (.error c) → s.instrFails i c) ∧
  (∀ s t : State, s.phase = .finalizing → quietStep s = .next t → t.phase = .aborted →
    ∃ e rest d, s.deferred = e :: rest ∧
      t = { s with
            phase := .aborted
            status := { code := some d.code, index := some e.index, detail := some d }
            report := some (.error d.code) }) ∧
  ∀ s : State, s.phase = .aborted ∨ s.phase = .failed → s.output = none

/-- R404: after an error every step but a Reset leaves the whole session as it is, so that the first error stays. -/
def Obligations.ErrorIsSticky : Prop :=
  ∀ s t : State, s.phase = .aborted ∨ s.phase = .failed → s.input.head? ≠ some (some .reset) → step s = .next t →
    t = { s with input := t.input, report := t.report }

/-- R28, R29: no step writes the configuration or the compaction tables. -/
def Obligations.ConfigurationReadOnly : Prop := ∀ s t : State, step s = .next t → t.cfg = s.cfg

/-- R334: a label that has a position keeps it until a Reset. -/
def Obligations.LabelsNeverChange : Prop :=
  ∀ (s t : State) (l : Label) (p : Nat), step s = .next t → s.input.head? ≠ some (some .reset) →
    labelPos s.labels l = some p → labelPos t.labels l = some p

/-- R40: the output is the byte image and the two counters, in phase `Done` and in no other. -/
def Obligations.OutputOnlyInDone : Prop :=
  ∀ s : State, (s.phase = .done → s.output = some { image := s.image, count := s.count, units := s.pos }) ∧
    (s.phase ≠ .done → s.output = none)

/-! ## Invariants -/

/-- The state after power-on satisfies the two invariants. -/
def Obligations.InvariantsAtReset : Prop := State.reset.Inv ∧ State.reset.BranchesResolved

/-- R23 to R27, R30, R51, R150, R400: every step keeps the session's invariant, from every state that has it. -/
def Obligations.InvariantKept : Prop := ∀ s t : State, s.Inv → step s = .next t → t.Inv

/-- R340, R343, R346: every step keeps this: a branch word that the deferred queue does not name holds, for each of its
labels, the offset to the label's position. -/
def Obligations.BranchesResolvedKept : Prop :=
  ∀ s t : State, s.Inv → s.BranchesResolved → step s = .next t → t.BranchesResolved

/-- R408: the block has no stop: under the session's invariant every step ends in a next state. -/
def Obligations.StepNeverStops : Prop := ∀ s : State, s.Inv → s.Safe

/-! ## The byte image -/

/-- R51, R53, R58: the image holds the words one after another from byte 0, each little-endian, 8 bytes for each unit of
`pos`, and nothing beyond. -/
def Obligations.ImageLayout : Prop :=
  ∀ s : State, s.Inv →
    (∀ (k : Nat) (o : OutWord) (j : Nat), s.out[k]? = some o → j < (if o.bits.isCompact then 8 else 16) →
      s.imageByte (8 * o.pos + j) =
        some (match o.bits with
          | .native w => w.extractLsb' (8 * j) 8
          | .compact c => c.extractLsb' (8 * j) 8)) ∧
    (∀ a, 8 * s.pos ≤ a → s.imageByte a = none) ∧ s.image.length = 8 * s.pos ∧
    (∀ o : OutWord, s.out[0]? = some o → o.pos = 0) ∧
    ∀ (k : Nat) (o o' : OutWord), s.out[k]? = some o → s.out[k + 1]? = some o' → o'.pos = o.pos + (if o.bits.isCompact then 1 else 2)

/-- R52, R57, the frame of every Instr command: outside the bytes it stores, which start at byte `8 * pos` and end where
the position counter stands after it, every byte of the image reads as before; a command that ends in an error stores
nothing. -/
def Obligations.InstrImageFrame : Prop :=
  ∀ (i : Instr) (s t : State), s.Inv → exec i s = .next t →
    (∀ a, a < 8 * s.pos ∨ 8 * t.pos ≤ a → t.imageByte a = s.imageByte a) ∧
    (t.report ≠ some .ok → ∀ a, t.imageByte a = s.imageByte a)

/-- R347, R52: a pass-2 step that raises no error rewrites the offset bits of the word it resolves (63:54 if compact,
127:96 or 127:64 if native), takes the entry off the queue and changes nothing else. -/
def Obligations.Pass2ChangesOffsetsOnly : Prop :=
  ∀ (s t : State) (e : DeferredEntry) (rest : List DeferredEntry) (o : OutWord),
    s.phase = .finalizing → s.deferred = e :: rest → s.out[e.index]? = some o → quietStep s = .next t →
    t.phase = .finalizing →
    ∃ b : EncodedWord,
      t = { s with out := t.out, deferred := rest } ∧ t.out.length = s.out.length ∧
      t.out[e.index]? = some { o with bits := b } ∧ (∀ k, k ≠ e.index → t.out[k]? = s.out[k]?) ∧
      match o.bits, b with
      | .native w, .native w' => ∀ k, k < 64 ∨ (o.tag = .branchOneSrc ∧ k < 96) → w'.getLsbD k = w.getLsbD k
      | .compact c, .compact c' => ∀ k, k < 54 → c'.getLsbD k = c.getLsbD k
      | _, _ => False

/-- R343: where every label of the first deferred entry's word has a position and its offset fits, the pass-2 step
resolves the word and takes the entry off the queue. -/
def Obligations.Pass2Resolves : Prop :=
  ∀ (s : State) (e : DeferredEntry) (rest : List DeferredEntry) (o : OutWord),
    s.Inv → s.phase = .finalizing → s.deferred = e :: rest → s.out[e.index]? = some o →
    (∀ x ∈ o.ins.body.payload.targets, (labelPos s.labels x.2).isSome ∧
      offsetLegal s.cfg s.labels e.pos (if o.bits.isCompact then 10 else 32) x.2 = true) →
    ∃ t o', quietStep s = .next t ∧ t.phase = .finalizing ∧ t.deferred = rest ∧ t.out[e.index]? = some o' ∧
      o'.ins = o.ins ∧ o'.pos = o.pos ∧ o'.resolved s.cfg s.labels

/-- R343, R344, R403: a deferred entry with a label still absent, the labels before it present and their offsets in range,
aborts the session with the entry's index and the label. The report is the model's (assumption 4). -/
def Obligations.DanglingLabelAborts : Prop :=
  ∀ (s : State) (e : DeferredEntry) (rest : List DeferredEntry) (o : OutWord) (before after : List (Target × Label))
    (which : Target) (l : Label),
    s.phase = .finalizing → s.deferred = e :: rest → s.out[e.index]? = some o →
    o.ins.body.payload.targets = before ++ (which, l) :: after →
    (∀ x ∈ before, (labelPos s.labels x.2).isSome ∧
      offsetLegal s.cfg s.labels e.pos (if o.bits.isCompact then 10 else 32) x.2 = true) →
    labelPos s.labels l = none →
    quietStep s = .next
      { s with
        phase := .aborted
        status := { code := some .danglingLabel, index := some e.index, detail := some (.danglingLabel l) }
        report := some (.error .danglingLabel) }

/-- R343, R345, R403: a deferred entry with a label whose offset does not fit its field, of 32 bits or, in a compact word,
of 10, the labels before it present and their offsets in range, aborts the session with `InvariantViolation` and the
entry's index. The report is the model's (assumption 4). -/
def Obligations.Pass2OffsetOutOfRange : Prop :=
  ∀ (s : State) (e : DeferredEntry) (rest : List DeferredEntry) (o : OutWord) (before after : List (Target × Label))
    (which : Target) (l : Label),
    s.phase = .finalizing → s.deferred = e :: rest → s.out[e.index]? = some o →
    o.ins.body.payload.targets = before ++ (which, l) :: after →
    (∀ x ∈ before, (labelPos s.labels x.2).isSome ∧
      offsetLegal s.cfg s.labels e.pos (if o.bits.isCompact then 10 else 32) x.2 = true) →
    offsetLegal s.cfg s.labels e.pos (if o.bits.isCompact then 10 else 32) l = false →
    ∃ c : Cause, c.code = .invariantViolation ∧
      quietStep s = .next
        { s with
          phase := .aborted
          status := { code := some .invariantViolation, index := some e.index, detail := some c }
          report := some (.error .invariantViolation) }

/-- R22, R450: with no command given, a session in `Finalizing` reaches `Done` or `Aborted` in one step for each deferred
entry and one final step. -/
def Obligations.FinalizingTerminates : Prop :=
  ∀ s : State, s.Inv → s.phase = .finalizing → s.input = [] →
    ∃ t : State, Host.Core.run Sys2Proof.core (s.deferred.length + 1) s = .next t ∧
      ((t.phase = .done ∧ t.deferred = []) ∨ t.phase = .aborted)

/-! ## Fields -/

/-- R15: `pack` writes its field and nothing else, and fails on a field outside the word or a value wider than it. -/
def Obligations.PackField : Prop :=
  ∀ (n : Nat) (w : BitVec n) (off width v : Nat),
    (off + width ≤ n → v < 2 ^ width →
      ∃ w', pack w off width v = .ok w' ∧ unpack w' off width = v ∧
        ∀ k, k < off ∨ off + width ≤ k → w'.getLsbD k = w.getLsbD k) ∧
    (¬(off + width ≤ n ∧ v < 2 ^ width) →
      ∃ c, pack w off width v = .error c ∧ c.code = .invariantViolation)

/-- R72, R95: the fields of a record lie in the word, no two of them overlap, and each holds its value. -/
def Obligations.FieldsDisjoint : Prop :=
  ∀ (cfg : Cfg) (back : Bool) (ins : Instruction) (shape : Shape) (fields : List Field),
    encodeFields cfg back ins = .ok (shape, fields) →
    (fields.Pairwise fun f g => f.off + f.width ≤ g.off ∨ g.off + g.width ≤ f.off) ∧
    ∀ f ∈ fields, f.off + f.width ≤ 128 ∧ f.value < 2 ^ f.width

/-- R71, R432: a native word holds its fields' values, and every bit that no field names is 0. Bit 45 of a split send is
the patch's (R312). -/
def Obligations.WordIsItsFields : Prop :=
  ∀ (cfg : Cfg) (back : Bool) (ins : Instruction) (shape : Shape) (fields : List Field),
    encodeFields cfg back ins = .ok (shape, fields) →
    ∃ w, encodeNative cfg back ins = .ok (shape.format, w) ∧ (∀ f ∈ fields, unpack w f.off f.width = f.value) ∧
      ∀ k, (∀ f ∈ fields, k < f.off ∨ f.off + f.width ≤ k) → ¬(shape.format = .sends ∧ k = 45) → w.getLsbD k = false

/-- R96: every binary16, binary32 and binary64 bit pattern, NaN payloads, signed zeros and subnormals among them, is the
pattern of the value it stands for. -/
def Obligations.FloatBitsReadBack : Prop :=
  ∀ e f : Nat, (e, f) ∈ [(5, 10), (8, 23), (11, 52)] → ∀ b, b < 2 ^ (1 + e + f) →
    floatBits e f (Decoding.floatOf e f b) = some b

/-- R96: the block never rounds: a value that has a bit pattern is the value the pattern stands for. -/
def Obligations.FloatExact : Prop :=
  ∀ e f : Nat, (e, f) ∈ [(5, 10), (8, 23), (11, 52)] → ∀ (v : FloatValue) (b : Nat), floatBits e f v = some b →
    b < 2 ^ (1 + e + f) ∧
    match v with
    | .finite neg num den =>
      ∃ num' den', Decoding.floatOf e f b = .finite neg num' den' ∧ den ≠ 0 ∧ num * den' = num' * den
    | _ => Decoding.floatOf e f b = v

/-! ## What each instruction emits

Fields of an operand record that no rule of its case reads have no part in the words (DEDUCED, assumption 15). -/

/-- R190, R191: `illegal` and `nop` emit their header and no operands. -/
def Obligations.BareWordsEmitted : Prop :=
  ∀ (i : Instr) (s : State), i.mnemonic ∈ [Mnemonic.illegal, .nop] → accepts s i = true →
    i.body.compactionPolicy ≠ .must →
    ∃ w : NativeWord, s.instrEmits i (.native w) false ∧ wordReads s.cfg i false w = true

/-- R192, R193: `mov` and `not` emit header, destination and source 0, compact where the policy and the tables let
them. -/
def Obligations.OneSrcEmitted : Prop :=
  ∀ (i : Instr) (s : State), i.mnemonic ∈ [Mnemonic.mov, .not] → accepts s i = true →
    i.body.compactionPolicy ≠ .must →
    ∃ w : NativeWord, s.instrEmits i (shortest s.cfg i.body.compactionPolicy w) false ∧
      wordReads s.cfg i false w = true

/-- R194 to R201: the two-source instructions emit header, destination and both sources. -/
def Obligations.TwoSrcEmitted : Prop :=
  ∀ (i : Instr) (s : State), i.mnemonic ∈ [Mnemonic.sel, .and, .or, .xor, .ror, .rol, .cmp, .add, .mul] →
    accepts s i = true → i.body.compactionPolicy ≠ .must →
    ∃ w : NativeWord, s.instrEmits i (shortest s.cfg i.body.compactionPolicy w) false ∧
      wordReads s.cfg i false w = true

/-- R202: `math` emits header, destination, its one or two sources, and the function code in bits 51:48. -/
def Obligations.MathEmitted : Prop :=
  ∀ (i : Instr) (s : State), i.mnemonic = .math → accepts s i = true → i.body.compactionPolicy ≠ .must →
    ∃ w : NativeWord, s.instrEmits i (shortest s.cfg i.body.compactionPolicy w) false ∧
      wordReads s.cfg i false w = true

/-- R203, R248: `wait` emits its notification register as destination and as source 0. That the operand's source modifier
is packed in the source-0 slot is the model's reading (DEDUCED, assumption 21). -/
def Obligations.WaitEmitted : Prop :=
  ∀ (i : Instr) (s : State), i.mnemonic = .wait → accepts s i = true → i.body.compactionPolicy ≠ .must →
    ∃ w : NativeWord, s.instrEmits i (.native w) false ∧ wordReads s.cfg i false w = true

/-- R270 to R279, R290, R291: `mad` and `dp4a` emit header, destination and three sources, in both access
modes. That bit 26 of an Align16 accumulator destination is packed as R272's pseudocode has it, against its prose, is the
model's choice (assumption 16). -/
def Obligations.ThreeSrcEmitted : Prop :=
  ∀ (i : Instr) (s : State), i.mnemonic ∈ [Mnemonic.mad, .dp4a] → accepts s i = true →
    i.body.compactionPolicy ≠ .must →
    ∃ w : NativeWord, s.instrEmits i (.native w) false ∧ wordReads s.cfg i false w = true

/-- R302, R303, R320, R321: `send` and `sendc` emit header, destination, source 0 and the two descriptors. -/
def Obligations.SendEmitted : Prop :=
  ∀ (i : Instr) (s : State), i.mnemonic ∈ [Mnemonic.send, .sendc] → accepts s i = true →
    i.body.compactionPolicy ≠ .must →
    ∃ w : NativeWord, s.instrEmits i (.native w) false ∧ wordReads s.cfg i false w = true

/-- R310 to R312, R322, R323: `sends` and `sendsc` emit header, destination, two payload registers and the two
descriptors, with bit 45 telling where the extended one is, whichever way the platform writes that bit. -/
def Obligations.SendsEmitted : Prop :=
  ∀ (i : Instr) (s : State), i.mnemonic ∈ [Mnemonic.sends, .sendsc] → accepts s i = true →
    i.body.compactionPolicy ≠ .must →
    ∃ w : NativeWord, s.instrEmits i (.native w) false ∧ wordReads s.cfg i false w = true

/-- R340, R351 to R353, R355, R356, R359, R360, R365: the branches with one offset emit their word native, with the
offset of a label that has a position, or the placeholder 0 and an entry in the queue; a backward one sets the
accumulator-write bit (R178). Where the code tables differ from the literals of R351 and R352, the operand fields are the
model's choice (DESIGN CHOICE, assumption 24). -/
def Obligations.BranchOneSrcEmitted : Prop :=
  ∀ (i : Instr) (s : State), i.mnemonic ∈ [Mnemonic.jmpi, .call, .endif, .while_, .join] → accepts s i = true →
    i.body.compactionPolicy ≠ .must → targetsLegal s i 32 = true →
    ∃ w : NativeWord, s.instrEmits i (.native w) (targetsPending s i) ∧
      wordReads s.cfg i (isBackward s i) w = true ∧ targetsRead s i w = true

/-- R340, R350, R357, R358, R361 to R364: the branches with two offsets, likewise: JIP in DW2 and UIP in DW3. -/
def Obligations.BranchTwoSrcEmitted : Prop :=
  ∀ (i : Instr) (s : State), i.mnemonic ∈ [Mnemonic.if_, .else_, .break_, .cont, .halt, .goto] →
    accepts s i = true → i.body.compactionPolicy ≠ .must → targetsLegal s i 32 = true →
    ∃ w : NativeWord, s.instrEmits i (.native w) (targetsPending s i) ∧
      wordReads s.cfg i (isBackward s i) w = true ∧ targetsRead s i w = true

/-! ## Policy `Must` -/

/-- R370, R371: under `Must` an instruction of one or two sources emits the compact word that stands for its native word,
the one that the block packs and whose fields are the record's, or, where the tables have no match for that word, ends in
`InvariantViolation`. -/
def Obligations.MustCompactsOperands : Prop :=
  ∀ (i : Instr) (s : State),
    i.mnemonic ∈ [Mnemonic.mov, .not, .sel, .and, .or, .xor, .ror, .rol, .cmp, .add, .mul, .math] →
    accepts s i = true → i.body.compactionPolicy = .must →
    ∃ w : NativeWord, encodeNative s.cfg false i.instruction = .ok (formatOf i.instruction, w) ∧
      wordReads s.cfg i false w = true ∧
      ((∃ c : CompactWord, s.instrEmits i (.compact c) false ∧ expand s.cfg c = w) ∨
       (tryCompact s.cfg w = none ∧ s.instrFails i .invariantViolation))

/-- R370, R372: under `Must` a branch with one offset emits a compact word, whose expansion holds the offset, or the
placeholder 0 and an entry in the queue; where the tables do not match the native word that the block packs, its offset
not yet written, it ends in `InvariantViolation`. Its operand fields follow assumption 24 (DESIGN CHOICE). -/
def Obligations.MustCompactsBranches : Prop :=
  ∀ (i : Instr) (s : State), i.mnemonic ∈ [Mnemonic.jmpi, .call, .endif, .while_, .join] → accepts s i = true →
    i.body.compactionPolicy = .must → targetsLegal s i 10 = true →
    (∃ c : CompactWord, s.instrEmits i (.compact c) (targetsPending s i) ∧
      wordReads s.cfg i (isBackward s i) (expand s.cfg c) = true ∧ targetsRead s i (expand s.cfg c) = true) ∨
    (∃ w : NativeWord, encodeNative s.cfg (isBackward s i) i.instruction = .ok (.branchOneSrc, w) ∧
      wordReads s.cfg i (isBackward s i) w = true ∧ unpack w 96 32 = 0 ∧ tryCompact s.cfg w = none ∧ s.instrFails i .invariantViolation)

/-- R280, R313, R370, R371: `Must` on any other format ends in `InvariantViolation`. -/
def Obligations.MustIneligibleFails : Prop :=
  ∀ (i : Instr) (s : State),
    formatOf i.instruction ∈ [FormatTag.threeSrcAlign1, .threeSrcAlign16, .send, .sends, .branchTwoSrc, .wait, .nop,
      .illegal] →
    accepts s i = true → i.body.compactionPolicy = .must → s.instrFails i .invariantViolation

/-! ## Errors -/

/-- R25: an Instr command that defines a label that already has a position, or one label twice, ends in
`InvariantViolation`, before any other check (R405). -/
def Obligations.DuplicateLabelFails : Prop :=
  ∀ (i : Instr) (s : State), s.phase = .scanning → labelsFresh s.labels i.defs = false →
    s.instrFails i .invariantViolation

/-- R161: an instruction whose opcode has no row, or whose row needs a feature the platform lacks, ends in
`UnsupportedOpcode`. -/
def Obligations.OpcodeUnsupported : Prop :=
  ∀ (i : Instr) (s : State), s.phase = .scanning → labelsFresh s.labels i.defs = true →
    opcodeLegal s.cfg i.instruction = false → s.instrFails i .unsupportedOpcode

/-- R164, R300 cases 1 and 2, R405 step 3: an operand shape that is not the class's ends in `UnsupportedOpcode`, on a
send-class instruction in `FAILURE`. -/
def Obligations.ShapeMismatch : Prop :=
  ∀ (i : Instr) (s : State), s.phase = .scanning → labelsFresh s.labels i.defs = true →
    opcodeLegal s.cfg i.instruction = true → i.body.shapeOk i.mnemonic.opClass = false →
    s.instrFails i (if i.mnemonic.isSendClass then .failure else .unsupportedOpcode)

/-- R300, R301: a send-class instruction with a malformed descriptor ends in `FAILURE`, whatever else is wrong with it.
R300 names selector, number and sub-register, type and value; that an indirect address register and a float value are
malformed too, and that a descriptor's `bitWidth` is not looked at, is the model's reading (DEDUCED, assumptions 13 and
10). -/
def Obligations.MalformedSendFails : Prop :=
  ∀ (i : Instr) (s : State) (desc exDesc : Operand), s.phase = .scanning → labelsFresh s.labels i.defs = true →
    opcodeLegal s.cfg i.instruction = true → i.mnemonic.isSendClass = true → i.body.payload = .send desc exDesc →
    descriptorsLegal (i.mnemonic.opClass == .sends) desc exDesc = false → s.instrFails i .failure

/-- R172, R174, R175, R176, R180, R183, R203, R354: on a record of the right shape, a header value that the block must
not guess ends in `InvariantViolation`, whatever the operands are. That an explicit modifier NONE counts as one (R180)
and that the execution size of a `wait` (R203) is checked with the header, before its operand, is the model's reading
(DEDUCED, assumptions 9 and 18). -/
def Obligations.HeaderViolation : Prop :=
  ∀ (i : Instr) (s : State), s.phase = .scanning → labelsFresh s.labels i.defs = true →
    opcodeLegal s.cfg i.instruction = true → i.body.shapeOk i.mnemonic.opClass = true →
    (match i.body.payload with
     | .send desc exDesc => descriptorsLegal (i.mnemonic.opClass == .sends) desc exDesc
     | _ => true) = true →
    headerLegal (formatOf i.instruction) i.instruction = false → s.instrFails i .invariantViolation

/-- R270: a three-source instruction whose operands are not all of one type class ends in `InvariantViolation`, whatever
else is wrong with the operands. R94 puts the packed-vector types in no class; that one of them beside a type of a class is
a mixed class is the model's reading (DEDUCED, assumption 19). -/
def Obligations.MixedClassFails : Prop :=
  ∀ (i : Instr) (s : State) (d s0 s1 s2 : Operand), s.phase = .scanning → labelsFresh s.labels i.defs = true →
    opcodeLegal s.cfg i.instruction = true → i.mnemonic.opClass = .threeSrc → i.body.payload = .none →
    i.body.destination = some d → i.body.sources = [s0, s1, s2] →
    headerLegal (formatOf i.instruction) i.instruction = true →
    (¬∃ c, ∀ o ∈ [d, s0, s1, s2], (operandType o).typeClass = c) → s.instrFails i .invariantViolation

/-- R345: a branch to a label with a position whose offset does not fit its field, of 32 bits or, under `Must`, of 10,
ends in `InvariantViolation`. -/
def Obligations.OffsetOutOfRange : Prop :=
  ∀ (i : Instr) (s : State), i.mnemonic.isControlFlow = true → accepts s i = true →
    targetsLegal s i (if i.body.compactionPolicy = .must then 10 else 32) = false →
    s.instrFails i .invariantViolation

/-- R401, R402, R300: a record is encoded exactly where none of the listed causes holds of it, as the model reads the lists:
`recordLegal` rests on assumptions 9 to 11, 13 to 15, 17, 19 to 21 and 25 (DEDUCED or DESIGN CHOICE); 20 is the size 4 of
a packed-vector type, by which a null `src1` of a split send has its sub-register checked, and 25 that a record is not
refused for a reserved code of a parameter table. -/
def Obligations.ErrorsExactly : Prop :=
  ∀ (cfg : Cfg) (back : Bool) (ins : Instruction),
    (∃ r, encodeNative cfg back ins = .ok r) ↔ recordLegal cfg ins = true

/-- R400, R401, R402, R405 steps 2 to 8: which error an Instr command with new labels ends in by its record: that of the
first demand of R405's order that the record breaks (a type without a code, say, in `UnsupportedOpcode`, a register number
out of range in `InvariantViolation`); and no record that breaks none has a listed cause. The order inside one operand and
the readings of the lists are the model's where the rules leave them (assumptions 9 to 15, 17 to 21 and 25); 20 is the
size 4 of a packed-vector type, by which a null `src1` of a split send has its sub-register checked (DESIGN CHOICE). -/
def Obligations.RecordErrors : Prop :=
  (∀ (i : Instr) (s : State) (e : ErrCode), s.phase = .scanning → labelsFresh s.labels i.defs = true →
    recordError s.cfg i.instruction = some e → s.instrFails i e) ∧
  ∀ (cfg : Cfg) (ins : Instruction), recordError cfg ins = none ↔ recordLegal cfg ins = true

/-- R400: the codes of the outcomes, OK among them, each an outcome that a command reports: every command that is not
refused ends in OK, with no error in the status, or in an error, with that error's code there. -/
def Obligations.OutcomeCodes : Prop :=
  CommandReport.ok.number = some 0 ∧ (CommandReport.error .unsupportedOpcode).number = some 1 ∧
  (CommandReport.error .invariantViolation).number = some 2 ∧ (CommandReport.error .danglingLabel).number = some 3 ∧
  (CommandReport.error .failure).number = some 4 ∧
  ∀ (i : Instr) (s t : State), s.phase = .scanning → exec i s = .next t →
    ∃ r n, t.report = some r ∧ r.number = some n ∧
      (n = 0 → t.status = s.status ∧ t.phase = .scanning) ∧
      (n ≠ 0 → ∃ c, t.status.code = some c ∧ c.number = n ∧ t.phase = c.phase)

/-- R32 to R34, R36, R164, R174, R230 to R232, R234, R245, R246, R278: a record that the block encodes is well formed. Where
those rules leave it, the ranges are the model's: an immediate is not converted between integer and float (assumption 10),
a three-source or split-send destination must be a register too (assumptions 19 and 14), and a packed-vector type has size
4 in the sub-register's range (assumption 20; DEDUCED or DESIGN CHOICE). -/
def Obligations.EncodedIsWellFormed : Prop :=
  ∀ (cfg : Cfg) (back : Bool) (i : Instr), (∃ r, encodeNative cfg back i.instruction = .ok r) → i.wellFormed = true

/-! ## Compaction -/

/-- R384: the compact word determines its native word. -/
def Obligations.ExpandUndoesCompaction : Prop :=
  ∀ (cfg : Cfg) (w : NativeWord) (c : CompactWord), tryCompact cfg w = some c → expand cfg c = w

/-- R373: a lookup gives the smallest index whose entry is the pattern, and none where no entry is. -/
def Obligations.LookupExact : Prop :=
  ∀ (n : Nat) (t : CompactionTable n) (g : BitVec n),
    (∀ i, tableLookup t g = some i ↔ tableRead t i = g ∧ ∀ j, j < i → tableRead t j ≠ g) ∧
    (tableLookup t g = none ↔ ∀ i, tableRead t i ≠ g)

/-! ## Decode and encode agree -/

/-- The words without operands and the branches without a destination: each field of a canonical instruction is read back
from its bytes. -/
def Obligations.RoundTripBare : Prop :=
  ∀ (cfg : Cfg) (i : Instr), cfg.readable = true →
    i.mnemonic ∈ [Mnemonic.illegal, .nop, .jmpi, .endif, .while_, .join, .if_, .else_, .break_, .cont, .halt, .goto] →
    recordLegal cfg i.instruction = true → i.canonical cfg = true →
    ∃ bytes, encodeBytes cfg i = .ok bytes ∧ ∀ rest, decode cfg (bytes ++ rest) = .ok (i, rest)

/-- The instructions of the one- and two-source formats, `math`, `wait` and `call`. -/
def Obligations.RoundTripOperands : Prop :=
  ∀ (cfg : Cfg) (i : Instr), cfg.readable = true →
    i.mnemonic ∈ [Mnemonic.mov, .not, .sel, .and, .or, .xor, .ror, .rol, .cmp, .add, .mul, .math, .wait, .call] →
    recordLegal cfg i.instruction = true → i.canonical cfg = true →
    ∃ bytes, encodeBytes cfg i = .ok bytes ∧ ∀ rest, decode cfg (bytes ++ rest) = .ok (i, rest)

/-- The three-source instructions, in both access modes. -/
def Obligations.RoundTripThreeSrc : Prop :=
  ∀ (cfg : Cfg) (i : Instr), cfg.readable = true → i.mnemonic ∈ [Mnemonic.mad, .dp4a] →
    recordLegal cfg i.instruction = true → i.canonical cfg = true →
    ∃ bytes, encodeBytes cfg i = .ok bytes ∧ ∀ rest, decode cfg (bytes ++ rest) = .ok (i, rest)

/-- The send-class instructions. -/
def Obligations.RoundTripSend : Prop :=
  ∀ (cfg : Cfg) (i : Instr), cfg.readable = true → i.mnemonic ∈ [Mnemonic.send, .sendc, .sends, .sendsc] →
    recordLegal cfg i.instruction = true → i.canonical cfg = true →
    ∃ bytes, encodeBytes cfg i = .ok bytes ∧ ∀ rest, decode cfg (bytes ++ rest) = .ok (i, rest)
end

