-- ==== Sys2Proof/Laws/Encoders.lean ====
section
/-! SUPPORT. For each field encoder, once, what it can answer: it encodes just the operands and headers that the checks
of Sys2Proof/Machine/Layout.lean call legal (30_encoding.md, 40_header_dispatch.md to 43_send.md, 60_exceptions.md
R401 and R402), and the fields it then packs. -/

namespace Sys2Proof.Machine

/-! ## Checks in sequence -/

@[simp] theorem ok_bind {α β : Type} (a : α) (f : α → Except Cause β) : (Except.ok a >>= f) = f a := rfl

@[simp] theorem error_bind {α β : Type} (c : Cause) (f : α → Except Cause β) :
    ((Except.error c : Except Cause α) >>= f) = .error c := rfl

@[simp] theorem require_true (c : Cause) : require true c = .ok () := rfl

@[simp] theorem require_false (c : Cause) : require false c = .error c := rfl

@[simp] theorem entry_some {α : Type} (a : α) (c : Cause) : entry (some a) c = .ok a := rfl

@[simp] theorem entry_none {α : Type} (c : Cause) : entry (none : Option α) c = .error c := rfl

/-- A sequence of checks succeeds just where each part does. -/
theorem bind_eq_ok {α β : Type} {x : Except Cause α} {f : α → Except Cause β} {b : β} :
    (x >>= f) = .ok b ↔ ∃ a, x = .ok a ∧ f a = .ok b := by
  cases x <;> simp

@[simp] theorem require_eq_ok {b : Bool} {c : Cause} {u : Unit} : require b c = .ok u ↔ b = true := by
  cases b <;> simp

@[simp] theorem entry_eq_ok {α : Type} {o : Option α} {c : Cause} {a : α} : entry o c = .ok a ↔ o = some a := by
  cases o <;> simp

/-! ## Register numbers (R230, R231) -/

/-- What R230 and R231 ask of a register operand, as the encoder checks it. -/
theorem registerLegal_eq (cfg : Cfg) (r : RegOperand) :
    Layout.registerLegal cfg r = (registerNumberOk cfg r && subregisterOk r) := by
  unfold Layout.registerLegal registerNumberOk subregisterOk Layout.offsetInRegister
  cases r.file <;> simp [Nat.lt_succ_iff]

/-- The two checks on a register operand, together. -/
theorem checkRegister_cases (cfg : Cfg) (r : RegOperand) :
    (Layout.registerLegal cfg r = true ∧ checkRegister cfg r = .ok ()) ∨
    (Layout.registerLegal cfg r = false ∧ ∃ c, checkRegister cfg r = .error c) := by
  rw [registerLegal_eq]
  cases h1 : registerNumberOk cfg r <;> cases h2 : subregisterOk r <;> simp [checkRegister, h1, h2]

theorem offset_lt {cfg : Cfg} {r : RegOperand} (h : Layout.registerLegal cfg r = true) :
    Layout.offsetInRegister r < 32 := by
  simp only [Layout.registerLegal, Bool.and_eq_true, decide_eq_true_eq] at h
  exact h.2

/-- A legal register number has 8 bits. -/
theorem registerNumber_lt {cfg : Cfg} {r : RegOperand} (h : Layout.registerLegal cfg r = true) :
    Layout.registerNumber cfg r < 256 := by
  unfold Layout.registerLegal at h
  unfold Layout.registerNumber
  cases hf : r.file with
  | grf => simp [hf] at h ⊢; omega
  | arf sel =>
    have := (cfg.arfSel.code sel).isLt
    simp [hf] at h ⊢
    omega

theorem byteAddr_eq (r : RegOperand) : byteAddr r = 32 * r.number + Layout.offsetInRegister r := rfl

theorem regNumField_eq {cfg : Cfg} {r : RegOperand} (h : Layout.registerLegal cfg r = true) :
    regNumField cfg r = Layout.registerNumber cfg r := by
  have ho := offset_lt h
  unfold Layout.registerLegal at h
  unfold regNumField Layout.registerNumber
  cases hf : r.file with
  | grf => simp only [byteAddr_eq, Nat.shiftRight_eq_div_pow]; omega
  | arf sel =>
    simp [hf] at h
    have h4 : r.number &&& 0xF = r.number := by
      rw [show (0xF : Nat) = 2 ^ 4 - 1 from rfl, Nat.and_two_pow_sub_one_eq_mod]
      omega
    simp only [h4]
    rw [← Nat.shiftLeft_add_eq_or_of_lt (by omega : r.number < 2 ^ 4), Nat.shiftLeft_eq]
    omega

theorem subRegField_eq {cfg : Cfg} {r : RegOperand} (h : Layout.registerLegal cfg r = true) :
    subRegField r = Layout.offsetInRegister r := by
  have ho := offset_lt h
  rw [subRegField, byteAddr_eq, show (0x1F : Nat) = 2 ^ 5 - 1 from rfl, Nat.and_two_pow_sub_one_eq_mod]
  omega

theorem subRegHighBit_eq {cfg : Cfg} {r : RegOperand} (h : Layout.registerLegal cfg r = true) :
    subRegHighBit r = Layout.offsetInRegister r / 16 := by
  have ho := offset_lt h
  rw [subRegHighBit, byteAddr_eq, Nat.shiftRight_eq_div_pow, show (1 : Nat) = 2 ^ 1 - 1 from rfl,
    Nat.and_two_pow_sub_one_eq_mod]
  omega

theorem align16AddressOk_eq (r : RegOperand) : align16AddressOk r = (Layout.offsetInRegister r % 16 == 0) := by
  simp only [align16AddressOk, byteAddr_eq]
  congr 1
  omega

@[simp] theorem checkRegister_eq_ok {cfg : Cfg} {r : RegOperand} {u : Unit} :
    checkRegister cfg r = .ok u ↔ Layout.registerLegal cfg r = true := by
  rcases checkRegister_cases cfg r with ⟨h, e⟩ | ⟨h, c, e⟩ <;> simp [h, e]

/-! ## Destinations (R232 to R237) -/

/-- The stride a destination packs (R233). -/
theorem destinationStride_eq_ok {d : RegOperand} {c : Nat} :
    destinationStride d = .ok c ↔
      [1, 2, 4].contains (Layout.dstStride d) = true ∧ horzStrideCode (Layout.dstStride d) = some c := by
  simp only [destinationStride, Layout.dstStride, bind_eq_ok, require_eq_ok, entry_eq_ok, exists_const]
  generalize d.region.horzStride?.getD 1 = n
  unfold horzStrideCode
  split <;> simp_all

theorem indirectRangeOk_eq (a : Nat) (o : Int) : indirectRangeOk a o = Layout.indirectLegal a o := by
  rw [Bool.eq_iff_iff]
  simp only [indirectRangeOk, Layout.indirectLegal, fitsS, Bool.and_eq_true, decide_eq_true_eq]
  omega

theorem regionFields_eq_ok {base : Nat} {r : SrcRegion} {fs : List Field} :
    regionFields base r = .ok fs ↔
      ∃ v w h, vertStrideCode r.vertStride = some v ∧ widthCode r.width = some w ∧
        horzStrideCode r.horzStride = some h ∧ fs = [⟨base + 19, 4, v⟩, ⟨base + 16, 3, w⟩, ⟨base + 14, 2, h⟩] := by
  simp only [regionFields, bind_eq_ok, entry_eq_ok, Except.ok.injEq]
  constructor
  · rintro ⟨v, hv, w, hw, h, hh, rfl⟩
    exact ⟨v, w, h, hv, hw, hh, rfl⟩
  · rintro ⟨v, w, h, hv, hw, hh, rfl⟩
    exact ⟨v, hv, w, hw, h, hh, rfl⟩

/-- A direct Align1 destination: where it is legal, its four fields (R233, R237). -/
theorem dstAlign1Direct_eq_ok {cfg : Cfg} {d : RegOperand} (hd : d.addressing = .direct) {fs : List Field} :
    dstAlign1Direct cfg d = .ok fs ↔
      Layout.registerLegal cfg d = true ∧ Layout.accLegal d = true ∧ ∃ hs, destinationStride d = .ok hs ∧
        fs = [⟨47, 1, 0⟩, ⟨55, 8, Layout.registerNumber cfg d⟩, ⟨24, 5, Layout.subRegOrAcc cfg d⟩, ⟨22, 2, hs⟩] := by
  simp only [dstAlign1Direct, bind_eq_ok, checkRegister_eq_ok, require_eq_ok, exists_const, Except.ok.injEq]
  refine and_congr_right fun h => ?_
  rw [regNumField_eq h, subRegField_eq h]
  exact and_congr (by simp [Layout.accLegal, specialAccOperandOk, hd])
    (exists_congr fun _ => and_congr_right fun _ => eq_comm)

/-- A direct Align16 destination: where it is legal, its five fields (R235, R237). -/
theorem dstAlign16Direct_eq_ok {cfg : Cfg} {d : RegOperand} (hd : d.addressing = .direct) {fs : List Field} :
    dstAlign16Direct cfg d = .ok fs ↔
      Layout.registerLegal cfg d = true ∧ Layout.offsetInRegister d % 16 = 0 ∧ Layout.accLegal d = true ∧
        fs = [⟨47, 1, 0⟩, ⟨55, 8, Layout.registerNumber cfg d⟩,
          ⟨28, 1, match d.specialAcc with | some _ => 0 | none => Layout.offsetInRegister d / 16⟩,
          ⟨24, 4, match d.specialAcc with | some a => (cfg.specialAcc.code a).toNat | none => d.writeMask.toNat⟩,
          ⟨22, 2, 3⟩] := by
  simp only [dstAlign16Direct, bind_eq_ok, checkRegister_eq_ok, require_eq_ok, exists_const, Except.ok.injEq,
    align16AddressOk_eq, beq_iff_eq]
  refine and_congr_right fun h => and_congr_right fun _ => ?_
  rw [regNumField_eq h, subRegHighBit_eq h]
  exact and_congr (by simp [Layout.accLegal, specialAccOperandOk, hd]) eq_comm

/-- An indirect destination: where it is legal, its five fields (R234). -/
theorem dstAlign1Indirect_eq_ok {cfg : Cfg} {d : RegOperand} {a : Nat} {o : Int} {fs : List Field} :
    dstAlign1Indirect cfg d a o = .ok fs ↔
      Layout.registerLegal cfg d = true ∧ Layout.indirectLegal a o = true ∧ d.specialAcc = none ∧
        ∃ hs, destinationStride d = .ok hs ∧
        fs = [⟨47, 1, 1⟩, ⟨24, 4, a⟩, ⟨55, 9, twos 10 o &&& 0x1FF⟩, ⟨28, 1, twos 10 o >>> 9⟩, ⟨22, 2, hs⟩] := by
  simp only [dstAlign1Indirect, bind_eq_ok, checkRegister_eq_ok, require_eq_ok, exists_const, Except.ok.injEq,
    indirectRangeOk_eq, Option.isNone_iff_eq_none]
  exact and_congr_right fun _ => and_congr_right fun _ => and_congr_right fun _ =>
    exists_congr fun _ => and_congr_right fun _ => eq_comm

theorem horzStrideCode_isSome {n : Nat} (h : [1, 2, 4].contains n = true) : ∃ c, horzStrideCode n = some c := by
  simp at h
  rcases h with rfl | rfl | rfl <;> exact ⟨_, rfl⟩

theorem destinationStride_ok_iff {d : RegOperand} :
    (∃ c, destinationStride d = .ok c) ↔ [1, 2, 4].contains (Layout.dstStride d) = true := by
  simp only [destinationStride_eq_ok, exists_and_left]
  exact ⟨And.left, fun h => ⟨h, horzStrideCode_isSome h⟩⟩

/-- The destinations that the block encodes (R232 to R237, R401, R402). -/
theorem encodeDstReg_ok_iff {cfg : Cfg} {mode : AccessMode} {d : RegOperand} :
    (∃ fs, encodeDstReg cfg mode d = .ok fs) ↔ Layout.dstLegal cfg mode d = true := by
  have hs := destinationStride_ok_iff (d := d)
  rcases mode <;> cases hd : d.addressing <;>
    simp only [encodeDstReg, Layout.dstLegal, hd, bind_eq_ok, entry_eq_ok, Except.ok.injEq, Bool.and_eq_true,
      Option.isSome_iff_exists, dstAlign1Direct_eq_ok, dstAlign16Direct_eq_ok, dstAlign1Indirect_eq_ok,
      ← hs, Layout.accLegal, beq_iff_eq]
  · aesop
  · aesop
  · aesop
  · simp

/-! ## Sources (R238 to R244) -/

theorem regionFields_ok_iff {base : Nat} {r : SrcRegion} :
    (∃ fs, regionFields base r = .ok fs) ↔ Layout.regionLegal r = true := by
  have hv : ∀ n, (∃ c, vertStrideCode n = some c) ↔ n ∈ [0, 1, 2, 4, 8, 16, 32] := by
    intro n; unfold vertStrideCode; split <;> simp_all
  have hw : ∀ n, (∃ c, widthCode n = some c) ↔ n ∈ [1, 2, 4, 8, 16] := by
    intro n; unfold widthCode; split <;> simp_all
  have hh : ∀ n, (∃ c, horzStrideCode n = some c) ↔ n ∈ [0, 1, 2, 4] := by
    intro n; unfold horzStrideCode; split <;> simp_all
  simp only [Layout.regionLegal, Bool.and_eq_true, List.contains_iff_mem, ← hv, ← hw, ← hh, regionFields_eq_ok]
  aesop

/-- The source registers that the block encodes in the two-source layout (R238 to R244, R401, R402). -/
theorem encodeSrcReg_ok_iff {cfg : Cfg} {mode : AccessMode} {region : SrcRegion} {overlay : Bool} {k : Nat}
    {s : RegOperand} :
    (∃ fs, encodeSrcReg cfg mode region overlay k s = .ok fs) ↔
      Layout.srcRegLegal cfg mode region overlay s = true := by
  rcases mode <;> cases hd : s.addressing <;>
    simp only [encodeSrcReg, Layout.srcRegLegal, Layout.srcPlaceLegal, hd, srcAlign1Direct, srcAlign1Indirect,
      srcAlign16Direct, checkSourceOverlay, bind_eq_ok, entry_eq_ok, checkRegister_eq_ok, require_eq_ok, Except.ok.injEq,
      ← regionFields_ok_iff (base := slotBase k), indirectRangeOk_eq, align16AddressOk_eq, Layout.accLegal,
      specialAccOperandOk, Bool.and_eq_true, Option.isSome_iff_exists]
  · aesop
  · aesop
  · aesop
  · simp

/-! ## Immediates (R245, R246) -/

theorem signedValue_eq_ok {n : Nat} {v : ImmValue} {b : Nat} :
    signedValue n v = .ok b ↔ ∃ i, v = .int i ∧ fitsS n i = true ∧ b = twos n i := by
  cases v <;> simp [signedValue, intValue, bind_eq_ok, eq_comm (a := b)]

theorem unsignedValue_eq_ok {n : Nat} {v : ImmValue} {b : Nat} :
    unsignedValue n v = .ok b ↔ ∃ i, v = .int i ∧ 0 ≤ i ∧ fitsU n i.toNat = true ∧ b = i.toNat := by
  cases v <;> simp [unsignedValue, intValue, bind_eq_ok, eq_comm (a := b), and_assoc]

theorem floatValue_eq_ok {e f : Nat} {v : ImmValue} {b : Nat} :
    floatValue e f v = .ok b ↔ ∃ x, v = .float x ∧ floatBits e f x = some b := by
  cases v <;> simp [floatValue]

theorem replicate16_eq_ok {x : Except Cause Nat} {b : Nat} :
    replicate16 <$> x = .ok b ↔ ∃ h, x = .ok h ∧ b = replicate16 h := by
  cases x
  · exact ⟨nofun, nofun⟩
  · simp [Functor.map, Except.map, eq_comm (a := b)]

/-- The immediates whose value their type holds exactly. -/
theorem immBits_ok_iff {i : ImmOperand} : (∃ v, immBits i = .ok v) ↔ Layout.immValueLegal i = true := by
  obtain ⟨v, wd, t⟩ := i
  cases t <;> cases v <;>
    simp [immBits, Layout.immValueLegal, replicate16_eq_ok, signedValue_eq_ok, unsignedValue_eq_ok,
      floatValue_eq_ok, fitsS, fitsU, Option.isSome_iff_exists]

/-- The immediates that the block encodes in a slot. -/
theorem encodeImm_ok_iff {cfg : Cfg} {sole : Bool} {k : Nat} {i : ImmOperand} :
    (∃ fs, encodeImm cfg sole k i = .ok fs) ↔ Layout.immLegal cfg sole k i = true := by
  simp only [encodeImm, Layout.immLegal, bind_eq_ok, require_eq_ok, entry_eq_ok, Except.ok.injEq, Bool.and_eq_true,
    ← immBits_ok_iff, Option.isSome_iff_exists]
  aesop

theorem encodeSrc_ok_iff {cfg : Cfg} {ins : Instruction} {sole : Bool} {k : Nat} {s : Operand} :
    (∃ fs, encodeSrc cfg ins sole k s = .ok fs) ↔ Layout.srcLegal cfg ins sole k s = true := by
  cases s with
  | imm i => exact encodeImm_ok_iff
  | reg r => exact encodeSrcReg_ok_iff

theorem encodeDst_ok_iff {cfg : Cfg} {ins : Instruction} {d : Operand} :
    (∃ fs, encodeDst cfg ins.body.accessMode d = .ok fs) ↔ Layout.dstOpLegal cfg ins d = true := by
  cases d with
  | imm i => simp [encodeDst, Layout.dstOpLegal]
  | reg r => exact encodeDstReg_ok_iff

/-- The operands of a OneSrc instruction that the block encodes (R192). -/
theorem encodeOneSrc_ok_iff {cfg : Cfg} {ins : Instruction} {d s0 : Operand} :
    (∃ fs, encodeOneSrc cfg ins d s0 = .ok fs) ↔
      Layout.dstOpLegal cfg ins d = true ∧ Layout.srcLegal cfg ins true 0 s0 = true := by
  simp only [encodeOneSrc, bind_eq_ok, Except.ok.injEq, ← encodeDst_ok_iff, ← encodeSrc_ok_iff]
  aesop

/-- The operands of a TwoSrc instruction that the block encodes (R194). -/
theorem encodeTwoSrc_ok_iff {cfg : Cfg} {ins : Instruction} {d s0 s1 : Operand} :
    (∃ fs, encodeTwoSrc cfg ins d s0 s1 = .ok fs) ↔
      Layout.dstOpLegal cfg ins d = true ∧ Layout.srcLegal cfg ins false 0 s0 = true ∧
        Layout.srcLegal cfg ins false 1 s1 = true := by
  simp only [encodeTwoSrc, bind_eq_ok, Except.ok.injEq, ← encodeDst_ok_iff, ← encodeSrc_ok_iff]
  aesop

/-! ## Header (R170 to R183) -/

theorem execSizeCode_ok_iff {n : Nat} : (∃ c, execSizeCode n = some c) ↔ n ∈ [1, 2, 4, 8, 16, 32] := by
  unfold execSizeCode
  split <;> simp_all

theorem predicateFields_ok_iff {cfg : Cfg} {p : Option Predicate} :
    (∃ fs, predicateFields cfg p = .ok fs) ↔ ∀ q, p = some q → q.flagReg < 2 ∧ q.flagSubreg < 2 := by
  cases p
  · simp [predicateFields]
  · simp [predicateFields, bind_eq_ok]

theorem condModFields_ok_iff {cfg : Cfg} {ins : Instruction} :
    (∃ fs, condModFields cfg ins = .ok fs) ↔
      (ins.body.conditionModifier.isNone || !(condModReused ins.opcode || ins.opcode.isControlFlow)) = true := by
  simp only [condModFields, bind_eq_ok, require_eq_ok, exists_const]
  split
  · simp
  · split <;> simp

theorem maskOffsetOk_eq (o : Nat) : maskOffsetOk o = [0, 4, 8, 12, 16, 20, 24, 28].contains o := by
  rw [Bool.eq_iff_iff]
  simp [maskOffsetOk]
  omega

/-- The headers that the block encodes (R170 to R183, R402). -/
theorem encodeHeader_ok_iff {cfg : Cfg} {opc : BitVec 7} {fmt : FormatTag} {ins : Instruction} {back : Bool} :
    (∃ fs, encodeHeader cfg opc fmt ins back = .ok fs) ↔ Layout.headerLegal fmt ins = true := by
  have hm : ∀ e : Nat, ([1, 2, 4, 8, 16, 32].contains e = true) ↔ ∃ c, execSizeCode e = some c := by
    intro e; rw [execSizeCode_ok_iff, List.contains_iff_mem]
  have hp := predicateFields_ok_iff (cfg := cfg) (p := ins.body.predicate)
  have hc := condModFields_ok_iff (cfg := cfg) (ins := ins)
  have ha : (!(needsAlign1 fmt && ins.body.accessMode == .align16)) =
      (ins.body.accessMode != .align16 || fmt == .oneSrc || fmt == .twoSrc || fmt == .threeSrcAlign16) := by
    cases fmt <;> cases ins.body.accessMode <;> rfl
  have hr : (condModReused ins.opcode || ins.opcode.isControlFlow) =
      (ins.opcode.isSendClass || ins.opcode == .math || ins.opcode.isControlFlow) := rfl
  have ht : (!(ins.opcode.isControlFlow && ins.body.threadControl != .normal)) =
      (ins.body.threadControl == .normal || !ins.opcode.isControlFlow) := by
    cases ins.opcode.isControlFlow <;> cases ins.body.threadControl <;> rfl
  cases hpred : ins.body.predicate <;> rw [hpred] at hp <;>
    simp only [Option.some.injEq, forall_eq', reduceCtorEq, false_implies, implies_true] at hp <;>
    simp only [encodeHeader, execSizeField, Layout.headerLegal, bind_eq_ok, require_eq_ok, entry_eq_ok,
      Except.ok.injEq, Bool.and_eq_true, decide_eq_true_eq, hm, ha, ht, maskOffsetOk_eq, ← hr, ← hc, hpred, ← hp]
  · aesop
  · aesop

/-! ## math (R202) -/

theorem mathPatch_eq_ok {cfg : Cfg} {fn : MathFn} {fs : List Field} :
    mathPatch cfg fn = .ok fs ↔ ∃ code, cfg.mathFc.lookup fn = some code ∧ fs = [⟨48, 4, code.toNat⟩] := by
  simp [mathPatch, bind_eq_ok, eq_comm (a := fs)]

/-! ## The first error of a list of demands (R405) -/

@[simp] theorem firstError_append (xs ys : List Layout.Demand) :
    Layout.firstError (xs ++ ys) = (Layout.firstError xs).or (Layout.firstError ys) := by
  induction xs with
  | nil => simp [Layout.firstError]
  | cons d xs ih => cases h : d.holds <;> simp [Layout.firstError, h, ih]

theorem firstError_eq_none {ds : List Layout.Demand} :
    Layout.firstError ds = none ↔ ∀ d ∈ ds, d.holds = true := by
  induction ds with
  | nil => simp [Layout.firstError]
  | cons d ds ih => cases h : d.holds <;> simp [Layout.firstError, h, ih]

/-! ## wait and call (R248, R353) -/

/-- The operands of `wait` that the block encodes. -/
theorem encodeWait_ok_iff {cfg : Cfg} {s : RegOperand} :
    (∃ fs, encodeWait cfg (.reg s) = .ok fs) ↔ Layout.waitLegal cfg s = true := by
  have hd := encodeDstReg_ok_iff (cfg := cfg) (mode := .align1)
    (d := { s with region := .align1 none none (some 1) })
  have hs := encodeSrcReg_ok_iff (cfg := cfg) (mode := .align1) (region := scalarRegion) (overlay := false)
    (k := 0) (s := s)
  have h : (∃ fs, encodeWait cfg (.reg s) = .ok fs) ↔ waitOperandOk s = true ∧
      Layout.dstLegal cfg .align1 { s with region := .align1 none none (some 1) } = true ∧
      Layout.srcRegLegal cfg .align1 scalarRegion false s = true := by
    rw [← hd, ← hs]
    simp only [encodeWait, bind_eq_ok, require_eq_ok, Except.ok.injEq]
    aesop
  have hn : decide (s.number ≤ 15) = decide (s.number < 16) := by simp [Nat.lt_succ_iff]
  rw [h, waitOperandOk, hn]
  cases ha : s.addressing
  · simp [Layout.dstLegal, Layout.srcRegLegal, Layout.srcPlaceLegal, Layout.waitLegal, Layout.accLegal,
      Layout.registerLegal, Layout.offsetInRegister, Layout.regionLegal, Layout.dstStride, Region.horzStride?,
      scalarRegion, ha]
    aesop
  · simp [Layout.waitLegal, ha]

/-- The destinations of `call` that the block encodes. -/
theorem encodeCall_ok_iff {cfg : Cfg} {d : RegOperand} :
    (∃ fs, encodeCall cfg (.reg d) = .ok fs) ↔ Layout.callLegal cfg d = true := by
  have hd := encodeDstReg_ok_iff (cfg := cfg) (mode := .align1) (d := d)
  simp only [encodeCall, bind_eq_ok, require_eq_ok, Except.ok.injEq, Layout.callLegal, Bool.and_eq_true, ← hd,
    callDestinationOk]
  aesop

/-! ## Three sources (R270 to R279) -/

theorem grfOrAccumulator_eq (r : RegOperand) :
    grfOrAccumulator r = (r.file == .grf || r.file == .arf .acc) := rfl

/-- A register destination that the Align16 three-source word takes (R272). -/
theorem dst16_ok_iff {cfg : Cfg} {d : RegOperand} :
    (∃ fs, dst16 cfg (.reg d) = .ok fs) ↔ Layout.dst16Legal cfg d = true := by
  simp only [dst16, directRegister, Layout.dst16Legal, bind_eq_ok, require_eq_ok, entry_eq_ok, checkRegister_eq_ok,
    Except.ok.injEq, grfOrAccumulator_eq, align16AddressOk_eq, Layout.accLegal, specialAccOperandOk,
    Bool.and_eq_true, Option.isSome_iff_exists]
  aesop

/-- A register source that the Align16 three-source word takes (R273). -/
theorem src16_ok_iff {cfg : Cfg} {k : Nat} {s : RegOperand} :
    (∃ fs, src16 cfg k (.reg s) = .ok fs) ↔ Layout.src16Legal cfg s = true := by
  simp only [src16, directRegister, Layout.src16Legal, bind_eq_ok, require_eq_ok, entry_eq_ok, checkRegister_eq_ok,
    Except.ok.injEq, align16AddressOk_eq, Bool.and_eq_true, Option.isSome_iff_exists]
  cases hreg : s.region <;> simp only [swizzleOf, reduceCtorEq] <;> aesop

theorem dstStride3Code_ok_iff {n : Nat} : (∃ c, dstStride3Code n = some c) ↔ [1, 2].contains n = true := by
  unfold dstStride3Code
  split <;> simp_all

/-- A register destination that the Align1 three-source word takes (R275). -/
theorem dst1_ok_iff {cfg : Cfg} {d : RegOperand} :
    (∃ fs, dst1 cfg (.reg d) = .ok fs) ↔ Layout.dst1Legal cfg d = true := by
  simp only [dst1, directRegister, Layout.dst1Legal, bind_eq_ok, require_eq_ok, entry_eq_ok, checkRegister_eq_ok,
    Except.ok.injEq, grfOrAccumulator_eq, Layout.accLegal, specialAccOperandOk, ← dstStride3Code_ok_iff,
    Layout.dstStride, Bool.and_eq_true, Option.isSome_iff_exists]
  aesop

theorem vertStride3Code_ok_iff {n : Nat} :
    (∃ c, vertStride3Code n = some c) ↔ [0, 2, 4, 8].contains n = true := by
  unfold vertStride3Code
  split <;> simp_all

theorem horzStride3Code_ok_iff {n : Nat} :
    (∃ c, horzStride3Code n = some c) ↔ [0, 1, 2, 4].contains n = true := by
  unfold horzStride3Code
  split <;> simp_all

/-- A register source that the Align1 three-source word takes (R276, R277). -/
theorem src1Reg_ok_iff {cfg : Cfg} {execSize k : Nat} {s : RegOperand} :
    (∃ fs, src1Reg cfg execSize k s = .ok fs) ↔ Layout.src1RegLegal cfg execSize k s = true := by
  simp only [src1Reg, srcFile1Ok, checkSourceOverlay, Layout.src1RegLegal, bind_eq_ok, require_eq_ok, entry_eq_ok,
    checkRegister_eq_ok, Except.ok.injEq, Layout.accLegal, specialAccOperandOk, ← vertStride3Code_ok_iff,
    ← horzStride3Code_ok_iff, Bool.and_eq_true, Option.isSome_iff_exists]
  aesop

/-- An immediate source that the Align1 three-source word takes (R278). -/
theorem src1Imm_ok_iff {cfg : Cfg} {k : Nat} {i : ImmOperand} :
    (∃ fs, src1Imm cfg k i = .ok fs) ↔ Layout.imm16Legal cfg k i = true := by
  obtain ⟨v, wd, t⟩ := i
  cases t <;> cases v <;>
    simp [src1Imm, imm16, Layout.imm16Legal, Layout.imm16ValueLegal, bind_eq_ok, signedValue_eq_ok,
      unsignedValue_eq_ok, floatValue_eq_ok, fitsS, fitsU, Option.isSome_iff_exists] <;>
    aesop

theorem src1_ok_iff {cfg : Cfg} {execSize k : Nat} {s : Operand} :
    (∃ fs, src1 cfg execSize k s = .ok fs) ↔ Layout.src1Legal cfg execSize k s = true := by
  cases s with
  | imm i => exact src1Imm_ok_iff
  | reg r => exact src1Reg_ok_iff

/-! ## Send (R300 to R312) -/

/-- The operands of a send that the block encodes (R303). -/
theorem encodeSend_ok_iff {cfg : Cfg} {ins : Instruction} {d s0 : Operand} {desc exDesc : Descriptor} :
    (∃ fs, encodeSend cfg ins d s0 desc exDesc = .ok fs) ↔ Layout.sendOperandsLegal cfg ins d s0 = true := by
  have hd := encodeDst_ok_iff (cfg := cfg) (ins := ins) (d := d)
  have hs := encodeSrc_ok_iff (cfg := cfg) (ins := ins) (sole := false) (k := 0) (s := s0)
  cases d with
  | imm i => simp [encodeSend, sendRegister, Layout.sendOperandsLegal]
  | reg rd =>
    cases s0 with
    | imm i => simp [encodeSend, sendRegister, Layout.sendOperandsLegal, bind_eq_ok]
    | reg r0 =>
      simp only [Layout.dstOpLegal] at hd
      simp only [encodeSend, sendRegister, grfOrNull, Layout.sendOperandsLegal, bind_eq_ok, require_eq_ok,
        Except.ok.injEq, Bool.and_eq_true, ← hd, ← hs]
      aesop

theorem payloadLegal_eq (cfg : Cfg) (r : RegOperand) :
    Layout.payloadLegal cfg r = (payloadRegisterOk r && registerNumberOk cfg r && r.modifier == .none &&
      r.specialAcc.isNone && !r.repCtrl) := by
  rw [Bool.eq_iff_iff]
  unfold Layout.payloadLegal payloadRegisterOk registerNumberOk
  cases r.file <;> simp [Nat.lt_succ_iff]
  tauto

theorem subregister_zero_iff (r : RegOperand) :
    (subregisterOk r && subRegField r == 0) = (r.subregister == 0) := by
  have hb : 0 < r.dataType.bytes := by cases r.dataType <;> decide
  rw [Bool.eq_iff_iff]
  simp only [subregisterOk, subRegField, byteAddr, Bool.and_eq_true, decide_eq_true_eq, beq_iff_eq,
    show (0x1F : Nat) = 2 ^ 5 - 1 from rfl, Nat.and_two_pow_sub_one_eq_mod]
  constructor
  · rintro ⟨h1, h2⟩
    have h : r.subregister * r.dataType.bytes = 0 := by omega
    rcases Nat.mul_eq_zero.mp h with h | h <;> omega
  · intro h
    simp [h]

/-- All that the destination of a split send can give (R310). -/
theorem splitDestination_eq_ok {cfg : Cfg} {r rd : RegOperand} {ty : BitVec 4} :
    splitDestination cfg (.reg r) = .ok (rd, ty) ↔
      rd = r ∧ cfg.regTypeCode r.dataType = some ty ∧ r.addressing = .direct ∧ grfOrNull r = true ∧
        r.subregister = 0 ∧ registerNumberOk cfg r = true ∧ r.repCtrl = false := by
  simp only [splitDestination, splitRegister, bind_eq_ok, require_eq_ok, entry_eq_ok, subregister_zero_iff,
    Except.ok.injEq, Prod.mk.injEq, Bool.and_eq_true]
  aesop

/-- All that a payload source of a split send can give (R310). -/
theorem splitSource_eq_ok {cfg : Cfg} {place : RegOperand → Bool} {r r' : RegOperand} :
    splitSource cfg place (.reg r) = .ok r' ↔
      r' = r ∧ place r = true ∧ r.modifier = .none ∧ Layout.registerLegal cfg r = true ∧ r.specialAcc = none ∧
        r.repCtrl = false := by
  simp only [splitSource, splitRegister, checkSplitSource, bind_eq_ok, require_eq_ok, checkRegister_eq_ok,
    Except.ok.injEq]
  aesop

/-- The operands of a split send that the block encodes (R310). -/
theorem encodeSends_ok_iff {cfg : Cfg} {rd r0 r1 : RegOperand} {desc exDesc : Descriptor} :
    (∃ fs, encodeSends cfg (.reg rd) (.reg r0) (.reg r1) desc exDesc = .ok fs) ↔
      Layout.sendsOperandsLegal cfg rd r0 r1 = true := by
  have hn : decide (rd.number < 256) = decide (rd.number ≤ 255) := by simp [Nat.lt_succ_iff]
  have h0 : r0.subregister = 0 → subregisterOk r0 = true := fun h => by simp [subregisterOk, h]
  have h1 : r1.subregister = 0 → subregisterOk r1 = true := fun h => by simp [subregisterOk, h]
  have hs : decide (Layout.offsetInRegister r1 < 32) = subregisterOk r1 := rfl
  simp only [encodeSends, bind_eq_ok, Prod.exists, splitDestination_eq_ok, splitSource_eq_ok, Except.ok.injEq,
    registerLegal_eq, hn, hs, Layout.sendsOperandsLegal, payloadLegal_eq, secondPayloadOk, payloadRegisterOk,
    grfOrNull, registerNumberOk, Bool.and_eq_true, Bool.or_eq_true, Option.isSome_iff_exists]
  cases hd : rd.file <;> cases hf : r1.file <;> simp <;> aesop

end Sys2Proof.Machine
end

