-- ==== Sys2Proof/Laws/Fields.lean ====
section
/-! SUPPORT. What the field codec does (00_scope.md R14, R15): reading after writing, in the same field and in another. -/

namespace Sys2Proof

theorem getLsbD_setField {n : Nat} (w : BitVec n) (off width v i : Nat) :
    (setField w off width v).getLsbD i =
      if off ≤ i ∧ i < off + width ∧ i < n then v.testBit (i - off) else w.getLsbD i := by
  simp only [setField, BitVec.getLsbD_or, BitVec.getLsbD_and, BitVec.getLsbD_not, BitVec.getLsbD_shiftLeft,
    BitVec.getLsbD_ofNat, Nat.testBit_two_pow_sub_one, Nat.testBit_mod_two_pow]
  by_cases hn : i < n
  · by_cases h1 : off ≤ i
    · by_cases h2 : i < off + width
      · have : i - off < width := by omega
        have : i - off < n := by omega
        have : ¬i < off := by omega
        simp [*]
      · have : ¬i - off < width := by omega
        simp [*]
    · have : i < off := by omega
      simp [*]
  · have : w.getLsbD i = false := BitVec.getLsbD_of_ge _ _ (by omega)
    simp [*]

theorem testBit_unpack {n : Nat} (w : BitVec n) (off width i : Nat) :
    (unpack w off width).testBit i = (decide (i < width) && w.getLsbD (off + i)) := by
  simp [unpack, Nat.testBit_mod_two_pow, Nat.testBit_shiftRight, BitVec.getLsbD]

theorem unpack_lt {n : Nat} (w : BitVec n) (off width : Nat) : unpack w off width < 2 ^ width :=
  Nat.mod_lt _ (by positivity)

@[simp] theorem unpack_zero {n : Nat} (off width : Nat) : unpack (0 : BitVec n) off width = 0 := by simp [unpack]

/-- Two words that agree on the bits of a field agree on the field. -/
theorem unpack_congr {n m : Nat} {w : BitVec n} {w' : BitVec m} {off width : Nat}
    (h : ∀ i, off ≤ i → i < off + width → w.getLsbD i = w'.getLsbD i) : unpack w off width = unpack w' off width := by
  apply Nat.eq_of_testBit_eq
  intro i
  rw [testBit_unpack, testBit_unpack]
  by_cases hi : i < width
  · simp [hi, h (off + i) (by omega) (by omega)]
  · simp [hi]

theorem unpack_setField_same {n : Nat} (w : BitVec n) {off width v : Nat} (hfit : off + width ≤ n)
    (hv : v < 2 ^ width) : unpack (setField w off width v) off width = v := by
  apply Nat.eq_of_testBit_eq
  intro i
  rw [testBit_unpack, getLsbD_setField]
  by_cases hi : i < width
  · have : off + i < n := by omega
    simp [*]
  · simp [hi, Nat.testBit_lt_two_pow (lt_of_lt_of_le hv (Nat.pow_le_pow_right (by omega) (by omega : width ≤ i)))]

theorem unpack_setField_disjoint {n : Nat} (w : BitVec n) {off width v off' width' : Nat}
    (h : off' + width' ≤ off ∨ off + width ≤ off') :
    unpack (setField w off width v) off' width' = unpack w off' width' := by
  apply unpack_congr
  intro i h1 h2
  rw [getLsbD_setField, if_neg (by omega)]

namespace Machine

/-- All that `pack` can answer. -/
theorem pack_cases {n : Nat} (w : BitVec n) (off width v : Nat) :
    (off + width ≤ n ∧ v < 2 ^ width ∧ pack w off width v = .ok (setField w off width v)) ∨
    (¬(off + width ≤ n ∧ v < 2 ^ width) ∧ pack w off width v = .error .fieldWidth) := by
  unfold pack
  split <;> simp_all

/-- Fields that lie in the word, with values that fit and no two of them overlapping, are packed; each then reads as its
value, and every bit of no field is unchanged. -/
theorem packFields_disjoint {n : Nat} (w : BitVec n) (fs : List Field)
    (hfit : ∀ f ∈ fs, f.off + f.width ≤ n ∧ f.value < 2 ^ f.width)
    (hdis : fs.Pairwise fun f g => f.off + f.width ≤ g.off ∨ g.off + g.width ≤ f.off) :
    ∃ w', packFields w fs = .ok w' ∧ (∀ f ∈ fs, unpack w' f.off f.width = f.value) ∧
      ∀ i, (∀ f ∈ fs, i < f.off ∨ f.off + f.width ≤ i) → w'.getLsbD i = w.getLsbD i := by
  induction fs generalizing w with
  | nil => exact ⟨w, rfl, by simp, by simp⟩
  | cons f fs ih =>
    obtain ⟨hf, hfs⟩ := List.forall_mem_cons.mp hfit
    obtain ⟨hd, hds⟩ := List.pairwise_cons.mp hdis
    obtain ⟨w', hok, hread, hframe⟩ := ih (setField w f.off f.width f.value) hfs hds
    refine ⟨w', ?_, ?_, ?_⟩
    · simp [packFields, pack, hf, hok]
    · intro g hg
      rcases List.mem_cons.mp hg with rfl | hg
      · rw [← unpack_setField_same w hf.1 hf.2]
        apply unpack_congr
        intro i h1 h2
        exact hframe i fun g' hg' => by have := hd g' hg'; omega
      · exact hread g hg
    · intro i hi
      obtain ⟨hi1, hi2⟩ := List.forall_mem_cons.mp hi
      rw [hframe i hi2, getLsbD_setField, if_neg (by omega)]

/-- Packing several lists of fields one after another. -/
theorem packFields_append {n : Nat} (w : BitVec n) (fs gs : List Field) :
    packFields w (fs ++ gs) =
      match packFields w fs with
      | .ok w' => packFields w' gs
      | .error c => .error c := by
  induction fs generalizing w with
  | nil => rfl
  | cons f fs ih =>
    simp only [List.cons_append, packFields]
    cases pack w f.off f.width f.value <;> simp [ih]

end Machine

end Sys2Proof
end

