-- ==== Sys2Proof/Laws/Memory.lean ====
section
/-! SUPPORT. The byte image (20_memory.md R51, R52): contiguous words give a memory in canonical form, and the two writes
of the image, an appended word and a rewritten word, keep it so. -/

namespace Sys2Proof.Machine

theorem totalUnits_append (ws vs : List OutWord) : totalUnits (ws ++ vs) = totalUnits ws + totalUnits vs := by
  simp [totalUnits]

/-- The addresses of a word's cells are the bytes from its base on. -/
theorem cells_keys (o : OutWord) : o.cells.map Prod.fst = List.range' (unitBytes * o.pos) (unitBytes * o.bits.units) := by
  simp [OutWord.cells, OutWord.base, OutWord.size, List.map_map, Function.comp_def, List.range'_eq_map_range]

/-- The addresses of contiguous words are the bytes from the first on, each once. -/
theorem image_keys (p : Nat) (ws : List OutWord) (h : contiguous p ws = true) :
    (ws.flatMap OutWord.cells).map Prod.fst = List.range' (unitBytes * p) (unitBytes * totalUnits ws) := by
  induction ws generalizing p with
  | nil => simp [totalUnits]
  | cons o ws ih =>
    simp only [contiguous, Bool.and_eq_true, beq_iff_eq] at h
    have hu : totalUnits (o :: ws) = o.bits.units + totalUnits ws := by simp [totalUnits]
    rw [List.flatMap_cons, List.map_append, cells_keys, ih _ h.2, h.1, hu, Nat.mul_add, Nat.mul_add,
      List.range'_append_1]

/-- Contiguous words make a memory in canonical form. -/
theorem image_wf (p : Nat) (ws : List OutWord) (h : contiguous p ws = true) :
    Memory.wf (ws.flatMap OutWord.cells) := by
  simp only [Memory.wf, image_keys p ws h]
  exact List.pairwise_lt_range'

/-- The image right after reset has the canonical form. -/
theorem reset_image_wf : Memory.wf State.reset.image := image_wf 0 [] rfl

/-- Words stay contiguous when one is appended at the position after the last. -/
theorem contiguous_append (p : Nat) (ws : List OutWord) (o : OutWord) (h : contiguous p ws = true)
    (ho : o.pos = p + totalUnits ws) : contiguous p (ws ++ [o]) = true := by
  induction ws generalizing p with
  | nil => simpa [contiguous, totalUnits] using ho
  | cons v ws ih =>
    simp only [contiguous, Bool.and_eq_true, List.cons_append] at h ⊢
    refine ⟨h.1, ih _ h.2 ?_⟩
    simp only [totalUnits, List.map_cons, List.sum_cons] at ho ⊢
    omega

/-- The word appended by an Instr command keeps the image's canonical form (R52 (a)). -/
theorem emit_image_wf (s : State) (labels : List (Label × Nat)) (tag : FormatTag) (bits : EncodedWord)
    (ins : Instruction) (pending : Bool) (h : contiguous 0 s.out = true) (hpos : s.pos = totalUnits s.out) :
    Memory.wf (s.emit labels tag bits ins pending).image :=
  image_wf 0 _ (contiguous_append 0 s.out _ h (by simpa using hpos))

@[simp] theorem length_replaceAt {α : Type} (xs : List α) (i : Nat) (a : α) :
    (replaceAt xs i a).length = xs.length := by
  induction xs generalizing i with
  | nil => rfl
  | cons x xs ih => cases i <;> simp [replaceAt, ih]

theorem getElem?_replaceAt {α : Type} (xs : List α) (i k : Nat) (a : α) :
    (replaceAt xs i a)[k]? = if k = i then xs[k]?.map fun _ => a else xs[k]? := by
  induction xs generalizing i k with
  | nil => simp [replaceAt]
  | cons x xs ih =>
    cases i <;> cases k <;> simp [replaceAt, ih]

/-- Words stay contiguous when one is replaced by a word of the same place and length. -/
theorem contiguous_replaceAt (p : Nat) (ws : List OutWord) (i : Nat) (o o' : OutWord) (h : contiguous p ws = true)
    (hi : ws[i]? = some o) (hpos : o'.pos = o.pos) (hunits : o'.bits.units = o.bits.units) :
    contiguous p (replaceAt ws i o') = true := by
  induction ws generalizing p i with
  | nil => simp at hi
  | cons v ws ih =>
    simp only [contiguous, Bool.and_eq_true] at h
    cases i with
    | zero =>
      obtain rfl : v = o := by simpa using hi
      simp only [replaceAt, contiguous, Bool.and_eq_true, hpos, hunits]
      exact h
    | succ i =>
      simp only [replaceAt, contiguous, Bool.and_eq_true]
      exact ⟨h.1, ih _ i h.2 (by simpa using hi)⟩

/-- The word rewritten by a pass-2 step keeps the image's canonical form (R52 (b)). -/
theorem replaceAt_image_wf (ws : List OutWord) (i : Nat) (o o' : OutWord) (h : contiguous 0 ws = true)
    (hi : ws[i]? = some o) (hpos : o'.pos = o.pos) (hunits : o'.bits.units = o.bits.units) :
    Memory.wf ((replaceAt ws i o').flatMap OutWord.cells) :=
  image_wf 0 _ (contiguous_replaceAt 0 ws i o o' h hi hpos hunits)

/-- The image of every state of a session has the canonical form. -/
theorem State.Inv.image_wf {s : State} (h : s.Inv) : Memory.wf s.image := Machine.image_wf 0 s.out h.layout

end Sys2Proof.Machine
end

