-- ==== Sys2Proof/Laws/PerInstr.lean ====
section
/-! SUPPORT. One lemma for each instruction: an Instr command is made again of its mnemonic, its record and its labels,
so that what the decoder puts together from a word's parts can be compared with it. -/

namespace Sys2Proof.Laws.Parts

/-- A command is determined by its parts (R38). -/
def Statement (i : Instr) : Prop := i.mnemonic.instr i.body i.defs = i

theorem illegal (b : InsBody) (defs : List Label) : Statement (.illegal b defs) := rfl

theorem nop (b : InsBody) (defs : List Label) : Statement (.nop b defs) := rfl

theorem mov (b : InsBody) (defs : List Label) : Statement (.mov b defs) := rfl

theorem not (b : InsBody) (defs : List Label) : Statement (.not b defs) := rfl

theorem sel (b : InsBody) (defs : List Label) : Statement (.sel b defs) := rfl

theorem and (b : InsBody) (defs : List Label) : Statement (.and b defs) := rfl

theorem or (b : InsBody) (defs : List Label) : Statement (.or b defs) := rfl

theorem xor (b : InsBody) (defs : List Label) : Statement (.xor b defs) := rfl

theorem ror (b : InsBody) (defs : List Label) : Statement (.ror b defs) := rfl

theorem rol (b : InsBody) (defs : List Label) : Statement (.rol b defs) := rfl

theorem cmp (b : InsBody) (defs : List Label) : Statement (.cmp b defs) := rfl

theorem add (b : InsBody) (defs : List Label) : Statement (.add b defs) := rfl

theorem mul (b : InsBody) (defs : List Label) : Statement (.mul b defs) := rfl

theorem math (b : InsBody) (defs : List Label) : Statement (.math b defs) := rfl

theorem wait (b : InsBody) (defs : List Label) : Statement (.wait b defs) := rfl

theorem mad (b : InsBody) (defs : List Label) : Statement (.mad b defs) := rfl

theorem dp4a (b : InsBody) (defs : List Label) : Statement (.dp4a b defs) := rfl

theorem send (b : InsBody) (defs : List Label) : Statement (.send b defs) := rfl

theorem sendc (b : InsBody) (defs : List Label) : Statement (.sendc b defs) := rfl

theorem sends (b : InsBody) (defs : List Label) : Statement (.sends b defs) := rfl

theorem sendsc (b : InsBody) (defs : List Label) : Statement (.sendsc b defs) := rfl

theorem jmpi (b : InsBody) (defs : List Label) : Statement (.jmpi b defs) := rfl

theorem call (b : InsBody) (defs : List Label) : Statement (.call b defs) := rfl

theorem if_ (b : InsBody) (defs : List Label) : Statement (.if_ b defs) := rfl

theorem else_ (b : InsBody) (defs : List Label) : Statement (.else_ b defs) := rfl

theorem endif (b : InsBody) (defs : List Label) : Statement (.endif b defs) := rfl

theorem while_ (b : InsBody) (defs : List Label) : Statement (.while_ b defs) := rfl

theorem break_ (b : InsBody) (defs : List Label) : Statement (.break_ b defs) := rfl

theorem cont (b : InsBody) (defs : List Label) : Statement (.cont b defs) := rfl

theorem halt (b : InsBody) (defs : List Label) : Statement (.halt b defs) := rfl

theorem goto (b : InsBody) (defs : List Label) : Statement (.goto b defs) := rfl

theorem join (b : InsBody) (defs : List Label) : Statement (.join b defs) := rfl

end Sys2Proof.Laws.Parts
end

