-- ==== Sys2Proof/Laws/State.lean ====
section
/-! SUPPORT. One lemma for each field of State and each named update, so that no proof unfolds a record update. -/

namespace Sys2Proof.Machine

/-! ## `State.raise` (R403) -/

@[simp] theorem State.raise_phase (s : State) (index : Nat) (c : Cause) : (s.raise index c).phase = c.code.phase := rfl

@[simp] theorem State.raise_pos (s : State) (index : Nat) (c : Cause) : (s.raise index c).pos = s.pos := rfl

@[simp] theorem State.raise_count (s : State) (index : Nat) (c : Cause) : (s.raise index c).count = s.count := rfl

@[simp] theorem State.raise_labels (s : State) (index : Nat) (c : Cause) : (s.raise index c).labels = s.labels := rfl

@[simp] theorem State.raise_deferred (s : State) (index : Nat) (c : Cause) :
    (s.raise index c).deferred = s.deferred := rfl

@[simp] theorem State.raise_out (s : State) (index : Nat) (c : Cause) : (s.raise index c).out = s.out := rfl

@[simp] theorem State.raise_status (s : State) (index : Nat) (c : Cause) :
    (s.raise index c).status = { code := some c.code, index := some index, detail := some c } := rfl

@[simp] theorem State.raise_cfg (s : State) (index : Nat) (c : Cause) : (s.raise index c).cfg = s.cfg := rfl

@[simp] theorem State.raise_input (s : State) (index : Nat) (c : Cause) : (s.raise index c).input = s.input := rfl

@[simp] theorem State.raise_report (s : State) (index : Nat) (c : Cause) :
    (s.raise index c).report = some (.error c.code) := rfl

/-! ## `State.refuse` (R39) -/

@[simp] theorem State.refuse_phase (s : State) : (s.refuse).phase = s.phase := rfl

@[simp] theorem State.refuse_pos (s : State) : (s.refuse).pos = s.pos := rfl

@[simp] theorem State.refuse_count (s : State) : (s.refuse).count = s.count := rfl

@[simp] theorem State.refuse_labels (s : State) : (s.refuse).labels = s.labels := rfl

@[simp] theorem State.refuse_deferred (s : State) : (s.refuse).deferred = s.deferred := rfl

@[simp] theorem State.refuse_out (s : State) : (s.refuse).out = s.out := rfl

@[simp] theorem State.refuse_status (s : State) : (s.refuse).status = s.status := rfl

@[simp] theorem State.refuse_cfg (s : State) : (s.refuse).cfg = s.cfg := rfl

@[simp] theorem State.refuse_input (s : State) : (s.refuse).input = s.input := rfl

@[simp] theorem State.refuse_report (s : State) : (s.refuse).report = some .refused := rfl

/-! ## `State.resetSession` (R430) -/

@[simp] theorem State.resetSession_phase (s : State) : (s.resetSession).phase = .scanning := rfl

@[simp] theorem State.resetSession_pos (s : State) : (s.resetSession).pos = 0 := rfl

@[simp] theorem State.resetSession_count (s : State) : (s.resetSession).count = 0 := rfl

@[simp] theorem State.resetSession_labels (s : State) : (s.resetSession).labels = [] := rfl

@[simp] theorem State.resetSession_deferred (s : State) : (s.resetSession).deferred = [] := rfl

@[simp] theorem State.resetSession_out (s : State) : (s.resetSession).out = [] := rfl

@[simp] theorem State.resetSession_status (s : State) : (s.resetSession).status = Status.empty := rfl

@[simp] theorem State.resetSession_cfg (s : State) : (s.resetSession).cfg = s.cfg := rfl

@[simp] theorem State.resetSession_input (s : State) : (s.resetSession).input = s.input := rfl

@[simp] theorem State.resetSession_report (s : State) : (s.resetSession).report = some .ok := rfl

/-! ## `State.emit` (R165) -/

@[simp] theorem State.emit_phase (s : State) (labels : List (Label × Nat)) (tag : FormatTag) (bits : EncodedWord)
    (ins : Instruction) (pending : Bool) : (s.emit labels tag bits ins pending).phase = s.phase := rfl

@[simp] theorem State.emit_pos (s : State) (labels : List (Label × Nat)) (tag : FormatTag) (bits : EncodedWord)
    (ins : Instruction) (pending : Bool) : (s.emit labels tag bits ins pending).pos = s.pos + bits.units := rfl

@[simp] theorem State.emit_count (s : State) (labels : List (Label × Nat)) (tag : FormatTag) (bits : EncodedWord)
    (ins : Instruction) (pending : Bool) : (s.emit labels tag bits ins pending).count = s.count + 1 := rfl

@[simp] theorem State.emit_labels (s : State) (labels : List (Label × Nat)) (tag : FormatTag) (bits : EncodedWord)
    (ins : Instruction) (pending : Bool) : (s.emit labels tag bits ins pending).labels = labels := rfl

@[simp] theorem State.emit_deferred (s : State) (labels : List (Label × Nat)) (tag : FormatTag) (bits : EncodedWord)
    (ins : Instruction) (pending : Bool) :
    (s.emit labels tag bits ins pending).deferred = if pending then s.deferred ++ [{ index := s.count, pos := s.pos }] else s.deferred := rfl

@[simp] theorem State.emit_out (s : State) (labels : List (Label × Nat)) (tag : FormatTag) (bits : EncodedWord)
    (ins : Instruction) (pending : Bool) :
    (s.emit labels tag bits ins pending).out = s.out ++ [{ pos := s.pos, tag := tag, bits := bits, ins := ins }] := rfl

@[simp] theorem State.emit_status (s : State) (labels : List (Label × Nat)) (tag : FormatTag) (bits : EncodedWord)
    (ins : Instruction) (pending : Bool) : (s.emit labels tag bits ins pending).status = s.status := rfl

@[simp] theorem State.emit_cfg (s : State) (labels : List (Label × Nat)) (tag : FormatTag) (bits : EncodedWord)
    (ins : Instruction) (pending : Bool) : (s.emit labels tag bits ins pending).cfg = s.cfg := rfl

@[simp] theorem State.emit_input (s : State) (labels : List (Label × Nat)) (tag : FormatTag) (bits : EncodedWord)
    (ins : Instruction) (pending : Bool) : (s.emit labels tag bits ins pending).input = s.input := rfl

@[simp] theorem State.emit_report (s : State) (labels : List (Label × Nat)) (tag : FormatTag) (bits : EncodedWord)
    (ins : Instruction) (pending : Bool) : (s.emit labels tag bits ins pending).report = some .ok := rfl

end Sys2Proof.Machine
end

