-- ==== Sys2Proof/Laws/Session.lean ====
section
/-! SUPPORT. For each shared operation of a session's steps, once, all it can do. -/

namespace Sys2Proof.Machine

/-! ## Commands -/

/-- Every Instr command is the Instr step of its record (R165). -/
theorem exec_eq_instrCommand (i : Instr) (s : State) : exec i s = instrCommand i.instruction i.defs s := by
  cases i <;> rfl

/-- All that an Instr command can do: be refused, append a word, or raise an error. -/
theorem instrCommand_cases (ins : Instruction) (defs : List Label) (s : State) :
    (s.phase ≠ .scanning ∧ instrCommand ins defs s = .next s.refuse) ∨
    (s.phase = .scanning ∧ ∃ s', encodeCommand s ins defs = .ok s' ∧ instrCommand ins defs s = .next s') ∨
    (s.phase = .scanning ∧ ∃ c, encodeCommand s ins defs = .error c ∧
      instrCommand ins defs s = .next (s.raise s.count c)) := by
  unfold instrCommand
  by_cases h : s.phase = .scanning
  · cases he : encodeCommand s ins defs <;> simp [h]
  · simp [h]

/-- What the body of an Instr command did if it found no error: its four parts in order, then the append. -/
theorem encodeCommand_ok {s s' : State} {ins : Instruction} {defs : List Label}
    (h : encodeCommand s ins defs = .ok s') :
    ∃ labels tag w bits bits' pending,
      enterLabels s.labels s.pos defs = .ok labels ∧
      encodeNative s.cfg (backward labels ins) ins = .ok (tag, w) ∧
      compact s.cfg ins.body.compactionPolicy tag w = .ok bits ∧
      resolveOrDefer s.cfg labels s.pos ins tag bits = .ok (bits', pending) ∧
      s' = s.emit labels tag bits' ins pending := by
  unfold encodeCommand at h
  cases h1 : enterLabels s.labels s.pos defs with
  | error c => simp [h1, bind, Except.bind] at h
  | ok labels =>
    cases h2 : encodeNative s.cfg (backward labels ins) ins with
    | error c => simp [h1, h2, bind, Except.bind] at h
    | ok r =>
      obtain ⟨tag, w⟩ := r
      cases h3 : compact s.cfg ins.body.compactionPolicy tag w with
      | error c => simp [h1, h2, h3, bind, Except.bind] at h
      | ok bits =>
        cases h4 : resolveOrDefer s.cfg labels s.pos ins tag bits with
        | error c => simp [h1, h2, h3, h4, bind, Except.bind] at h
        | ok r =>
          obtain ⟨bits', pending⟩ := r
          simp only [h1, h2, h3, h4, bind, Except.bind, Except.ok.injEq] at h
          exact ⟨labels, tag, w, bits, bits', pending, rfl, h2, h3, h4, h.symm⟩

/-- All that a step can do: take a pass-2 step or none where no command is given, or run the next command. -/
theorem step_cases (s : State) :
    (s.input = [] ∧ step s = quietStep s) ∨
    (∃ rest, s.input = none :: rest ∧ step s = quietStep { s with input := rest }) ∨
    (∃ c rest, s.input = some c :: rest ∧ step s = runCommand c { s with input := rest }) := by
  unfold step
  split <;> simp_all

/-! ## Labels -/

theorem labelPos_append (xs ys : List (Label × Nat)) (l : Label) :
    labelPos (xs ++ ys) l = (labelPos xs l).or (labelPos ys l) := by
  simp [labelPos, List.lookup_append]

/-- All that entering labels can do (R25, R335): enter each at the position, or meet one that is there already. -/
theorem enterLabels_cases (labels : List (Label × Nat)) (pos : Nat) (defs : List Label) :
    (Layout.labelsFresh labels defs = true ∧
      enterLabels labels pos defs = .ok (labels ++ defs.map fun l => (l, pos))) ∨
    (Layout.labelsFresh labels defs = false ∧ ∃ l ∈ defs, enterLabels labels pos defs = .error (.duplicateLabel l)) := by
  induction defs generalizing labels with
  | nil => simp [enterLabels, Layout.labelsFresh]
  | cons l ls ih =>
    cases hl : labelPos labels l with
    | some p => exact .inr ⟨by simp [Layout.labelsFresh, hl], l, by simp, by simp [enterLabels, hl]⟩
    | none =>
      have key : Layout.labelsFresh (labels ++ [(l, pos)]) ls = Layout.labelsFresh labels (l :: ls) := by
        rw [Bool.eq_iff_iff]
        simp only [Layout.labelsFresh, labelPos_append, Bool.and_eq_true, decide_eq_true_eq, List.all_eq_true,
          List.nodup_cons, List.forall_mem_cons, hl]
        constructor
        · rintro ⟨hd, ha⟩
          refine ⟨⟨fun hm => ?_, hd⟩, rfl, fun m hm => ?_⟩
          · simpa [labelPos, List.lookup] using ha l hm
          · have := ha m hm
            revert this
            cases labelPos labels m <;> simp
        · rintro ⟨⟨hn, hd⟩, -, ha⟩
          refine ⟨hd, fun m hm => ?_⟩
          have hne : m ≠ l := fun h => hn (h ▸ hm)
          have := ha m hm
          revert this
          cases labelPos labels m <;> simp [labelPos, List.lookup, beq_eq_false_iff_ne.mpr hne]
      rcases ih (labels ++ [(l, pos)]) with ⟨hf, he⟩ | ⟨hf, m, hm, he⟩
      · exact .inl ⟨key ▸ hf, by simp [enterLabels, hl, he]⟩
      · exact .inr ⟨key ▸ hf, m, by simp [hm], by simp [enterLabels, hl, he]⟩

/-! ## Compaction -/

/-- A table entry that a lookup gives is the pattern (R373). -/
theorem tableRead_of_lookup {n : Nat} {t : CompactionTable n} {g : BitVec n} {i : Fin 32}
    (h : tableLookup t g = some i) : tableRead t i = g := by
  simpa using List.find?_some h

/-- All that `Compact` can answer (R370). -/
theorem compact_cases (cfg : Cfg) (policy : CompactionPolicy) (fmt : FormatTag) (w : NativeWord) :
    (policy ≠ .must ∧ compact cfg policy fmt w = .ok (.native w)) ∨
    (policy ≠ .mustNot ∧ eligible fmt = true ∧
      ∃ c, tryCompact cfg w = some c ∧ compact cfg policy fmt w = .ok (.compact c)) ∨
    (policy = .must ∧ eligible fmt = true ∧ tryCompact cfg w = none ∧
      compact cfg policy fmt w = .error .mustNoMatch) ∨
    (policy = .must ∧ eligible fmt = false ∧ compact cfg policy fmt w = .error .mustIneligible) := by
  cases policy <;> cases he : eligible fmt <;> cases hb : isBranchFormat fmt <;>
    cases ht : tryCompact cfg w <;> simp [compact, he, hb, ht]

/-- What a compaction that succeeds found: the word's requirements and an entry of each table for its group (R380). -/
theorem tryCompact_some {cfg : Cfg} {w : NativeWord} {c : CompactWord} (h : tryCompact cfg w = some c) :
    compactable w = true ∧ ∃ ci di si xi, tableRead cfg.ctCtrl ci = groupCtrl w ∧ tableRead cfg.ctDt di = groupDt w ∧
      tableRead cfg.ctSr si = groupSr w ∧ tableRead cfg.ctSrc xi = groupSrc w ∧ c = compactWord w ci di si xi := by
  unfold tryCompact at h
  split at h
  · refine ⟨by assumption, ?_⟩
    split at h
    · exact ⟨_, _, _, _, tableRead_of_lookup ‹_›, tableRead_of_lookup ‹_›, tableRead_of_lookup ‹_›,
        tableRead_of_lookup ‹_›, by simpa using h.symm⟩
    · cases h
  · cases h

/-! ## Offsets -/

@[simp] theorem writeOffset_isCompact (bits : EncodedWord) (tag : FormatTag) (which : Target) (v : Int) :
    (writeOffset bits tag which v).isCompact = bits.isCompact := by
  unfold writeOffset
  split <;> rfl

/-- A word's length does not change with its offset (R347). -/
@[simp] theorem writeOffset_units (bits : EncodedWord) (tag : FormatTag) (which : Target) (v : Int) :
    (writeOffset bits tag which v).units = bits.units := by
  unfold writeOffset
  split <;> rfl

/-- All that placing an offset can do (R345, R346). -/
theorem placeOffset_cases (cfg : Cfg) (pos target : Nat) (tag : FormatTag) (which : Target) (bits : EncodedWord) :
    (offsetFits bits.isCompact (branchOffset cfg pos target) = true ∧
      placeOffset cfg pos target tag which bits = .ok (writeOffset bits tag which (branchOffset cfg pos target))) ∨
    (offsetFits bits.isCompact (branchOffset cfg pos target) = false ∧
      placeOffset cfg pos target tag which bits = .error .branchOffset) := by
  cases h : offsetFits bits.isCompact (branchOffset cfg pos target) <;>
    simp [placeOffset, require, h, bind, Except.bind]

/-- A patched word has the length it had (R347). -/
theorem patchTargets_units {cfg : Cfg} {labels : List (Label × Nat)} {pos : Nat} {tag : FormatTag}
    {ts : List (Target × Label)} {bits bits' : EncodedWord} (h : patchTargets cfg labels pos tag ts bits = .ok bits') :
    bits'.units = bits.units := by
  induction ts generalizing bits with
  | nil => simp only [patchTargets, Except.ok.injEq] at h; rw [← h]
  | cons t ts ih =>
    obtain ⟨which, l⟩ := t
    simp only [patchTargets] at h
    split at h
    · cases h
    · rename_i p _
      rcases placeOffset_cases cfg pos p tag which bits with ⟨-, hp⟩ | ⟨-, hp⟩
      · simp only [hp, bind, Except.bind] at h
        simpa using ih h
      · simp [hp, bind, Except.bind] at h

/-- A resolved or deferred word has the length it had (R440). -/
theorem resolveTargets_units {cfg : Cfg} {labels : List (Label × Nat)} {pos : Nat} {tag : FormatTag}
    {ts : List (Target × Label)} {bits : EncodedWord} {r : EncodedWord × Bool}
    (h : resolveTargets cfg labels pos tag ts bits = .ok r) : r.1.units = bits.units := by
  induction ts generalizing bits r with
  | nil => simp only [resolveTargets, Except.ok.injEq] at h; rw [← h]
  | cons t ts ih =>
    obtain ⟨which, l⟩ := t
    simp only [resolveTargets] at h
    split at h
    · rename_i p _
      rcases placeOffset_cases cfg pos p tag which bits with ⟨-, hp⟩ | ⟨-, hp⟩
      · simp only [hp, bind, Except.bind] at h
        simpa using ih h
      · simp [hp, bind, Except.bind] at h
    · cases hr : resolveTargets cfg labels pos tag ts bits with
      | error c => simp [hr, bind, Except.bind] at h
      | ok r' =>
        simp only [hr, bind, Except.bind, Except.ok.injEq] at h
        rw [← h]
        exact ih (r := r') hr

/-! ## Pass 2 -/

/-- All that a pass-2 step can do (R343): end the session, resolve the first entry, or raise an error; on a queue that
names no branch word of the buffer, a fault. -/
theorem pass2Step_cases (s : State) :
    (s.deferred = [] ∧ pass2Step s = .next { s with phase := .done }) ∨
    (∃ e rest o bits, s.deferred = e :: rest ∧ s.out[e.index]? = some o ∧ o.ins.body.payload.targets ≠ [] ∧
      patchTargets s.cfg s.labels e.pos o.tag o.ins.body.payload.targets o.bits = .ok bits ∧
      pass2Step s = .next { s with out := replaceAt s.out e.index { o with bits := bits }, deferred := rest }) ∨
    (∃ e rest o c, s.deferred = e :: rest ∧ s.out[e.index]? = some o ∧
      patchTargets s.cfg s.labels e.pos o.tag o.ins.body.payload.targets o.bits = .error c ∧
      pass2Step s = .next (s.raise e.index c)) ∨
    (∃ e rest, s.deferred = e :: rest ∧ (∀ o, s.out[e.index]? = some o → o.ins.body.payload.targets = []) ∧
      ∃ f, pass2Step s = .fault f) := by
  unfold pass2Step
  cases hd : s.deferred with
  | nil => simp
  | cons e rest =>
    cases ho : s.out[e.index]? with
    | none => right; right; right; exact ⟨e, rest, rfl, by simp [ho], _, by simp only [ho]; rfl⟩
    | some o =>
      cases ht : o.ins.body.payload.targets with
      | nil =>
        right; right; right
        exact ⟨e, rest, rfl, by simp [ho, ht], .deferredNotBranch e.index, by simp only [ho, ht]⟩
      | cons t ts =>
        cases hp : patchTargets s.cfg s.labels e.pos o.tag (t :: ts) o.bits with
        | ok bits =>
          right; left
          exact ⟨e, rest, o, bits, rfl, ho, by simp [ht], by rw [ht]; exact hp, by simp only [ho, ht, hp]⟩
        | error c =>
          right; right; left
          exact ⟨e, rest, o, c, rfl, ho, by rw [ht]; exact hp, by simp only [ho, ht, hp]⟩

/-- The step with no command: a pass-2 step in `Finalizing`, else none (R343, R454). -/
theorem quietStep_cases (s : State) :
    (s.phase = .finalizing ∧ quietStep s = pass2Step s) ∨ (s.phase ≠ .finalizing ∧ quietStep s = .next s) := by
  unfold quietStep
  split <;> simp_all

end Sys2Proof.Machine
end

