-- ==== Sys2Proof/Tests/Slice0.lean ====
section
/-! SUPPORT. The model's own tests. Expected words are those of spec/95_test_vectors.md (the vector is named beside each)
or are put together by hand from the layouts of 30_encoding.md; decoded records are the vectors' records with every
default written out. -/

open Sys2Proof Sys2Proof.Machine Sys2Proof.Layout

namespace Sys2Proof.Tests

/-! ## Helpers -/

/-- The default parameters with codes for `ror`, `rol` and `dp4a`, which the defaults lack, and the example compaction
tables of 95_test_vectors.md section 4.1. -/
def testCfg : Cfg :=
  { defaultCfg with
    opc := defaultOpc ++ [(.ror, 0x0E#7), (.rol, 0x0F#7), (.dp4a, 0x58#7)]
    hasRotate := true
    hasDp4a := true
    ctCtrl := ((blankTable 20).set 1 0x0C000#20).set 2 0x0C100#20
    ctDt := ((((blankTable 21).set 0 0x01D75#21).set 1 0x38515#21).set 2 0x38001#21).set 3 0x38000#21
    ctSrc := ((blankTable 24).set 0 0x11A#24).set 2 0x11A11A#24 }

def start : State := { State.reset with cfg := testCfg }

def grf (n : Nat) (t : DataType) : RegOperand := { file := .grf, number := n, dataType := t }

def arf (sel : ArfSel) (n : Nat) (t : DataType) : RegOperand := { file := .arf sel, number := n, dataType := t }

def imm (v : Int) (t : DataType) (width : ImmWidth := .w32) : Operand :=
  .imm { value := .int v, bitWidth := width, type := t }

def body (size : Nat) (d : RegOperand) (sources : List Operand) : InsBody :=
  { executionSize := size, destination := some (.reg d), sources := sources, compactionPolicy := .mustNot }

def branch (size : Nat) (jip : Label) (uip : Option Label := none) : InsBody :=
  { executionSize := size, payload := .branch jip uip, compactionPolicy := .mustNot }

/-- The word an Instr command appends to the output of `s`, as a number. -/
def emitted (i : Instr) (s : State := start) : Option Nat :=
  match exec i s with
  | .next t =>
    (t.out.drop s.out.length).head?.map fun o =>
      match o.bits with
      | .native w => w.toNat
      | .compact c => c.toNat
  | _ => none

/-- The error an Instr command ends in. -/
def failure (i : Instr) (s : State := start) : Option ErrCode :=
  match exec i s with
  | .next t => t.status.code
  | _ => none

/-- A step answers a next state with the property. -/
def answers (o : StepResult) (p : State → Bool) : Bool :=
  match o with
  | .next t => p t
  | _ => false

/-- The instruction that the 16 bytes of a word decode to. -/
def reads (w : Nat) : Option Instr :=
  match decode testCfg (toBytes 16 w) with
  | .ok (i, []) => some i
  | _ => none

/-- A destination as a word gives it back: its stride explicit. -/
def dstOf (r : RegOperand) : RegOperand := { r with region := .align1 none none (some 1) }

/-- A source as a word gives it back: its region explicit. -/
def srcOf (r : RegOperand) (v w h : Nat) : Operand := .reg { r with region := .align1 (some v) (some w) (some h) }

def a : Label := ⟨3⟩

def b : Label := ⟨6⟩

/-- The sources of `r2` and `r3` of one lane and of eight. -/
def pair (t : DataType) : List Operand := [.reg (grf 2 t), .reg (grf 3 t)]

def pair1 (t : DataType) : List Operand := [srcOf (grf 2 t) 0 1 0, srcOf (grf 3 t) 0 1 0]

def pair8 (t : DataType) : List Operand := [srcOf (grf 2 t) 8 8 1, srcOf (grf 3 t) 8 8 1]

def sendBody : InsBody :=
  { body 8 (grf 12 .ud) [.reg (grf 14 .ud)] with payload := .send (imm 0x02280004 .ud) (imm 0x0A .ud) }

def sendsBody : InsBody :=
  { body 8 (grf 20 .ud) [.reg (grf 30 .ud), .reg (grf 40 .ud)] with
    payload := .send (imm 0x04200010 .ud) (imm 0x0040000C .ud) }

def madBody (t : DataType) : InsBody := body 8 (grf 10 t) [.reg (grf 1 t), .reg (grf 2 t), .reg (grf 3 t)]

def zero : Operand := .imm { value := .float (.finite false 0 1), bitWidth := .w32, type := .f }

/-! ## One-step vectors -/

/-- H2. -/
theorem test_illegal :
    emitted (.illegal { } []) =
      some 0x00000000_00000000_00000000_00000000 := by decide

/-- H1. -/
theorem test_nop :
    emitted (.nop { } []) =
      some 0x00000000_00000000_00000000_0000007E := by decide

/-- V1-1. -/
theorem test_mov :
    emitted (.mov (body 8 (grf 10 .f) [.reg (grf 20 .f)]) []) =
      some 0x00000000_00234280_05003AE8_60400001 := by decide

/-- C-1. -/
theorem test_mov_compact :
    emitted (.mov { body 8 (grf 10 .f) [.reg (grf 20 .f)] with compactionPolicy := .normal } []) =
      some 0x00202814_00000101 := by decide

/-- V1-2. -/
theorem test_not :
    emitted (.not (body 1 (grf 1 .ud) [.reg (grf 2 .ud)]) []) =
      some 0x00000000_00000040_00800208_00400004 := by decide

/-- V1-3. -/
theorem test_sel :
    emitted (.sel { body 8 (grf 1 .f) (pair .f) with predicate := some { flagReg := 0, flagSubreg := 0 } } []) =
      some 0x00234060_3A234040_00803AE8_60410002 := by decide

/-- V1-4. -/
theorem test_and :
    emitted (.and (body 1 (grf 1 .ud) [.reg (grf 2 .ud), imm 0xFF .ud]) []) =
      some 0x000000FF_06000040_00800208_00400005 := by decide

/-- VT-1. -/
theorem test_or :
    emitted (.or (body 1 (grf 1 .ud) (pair .ud)) []) =
      some 0x00000060_02000040_00800208_00400006 := by decide

/-- VT-2. -/
theorem test_xor :
    emitted (.xor (body 8 (grf 1 .d) (pair .d)) []) =
      some 0x00234060_0A234040_00800A28_60400007 := by decide

/-- VT-1 with the opcode of `testCfg`. -/
theorem test_ror :
    emitted (.ror (body 1 (grf 1 .ud) (pair .ud)) []) =
      some 0x00000060_02000040_00800208_0040000E := by decide

/-- VT-1 with the opcode of `testCfg`. -/
theorem test_rol :
    emitted (.rol (body 1 (grf 1 .ud) (pair .ud)) []) =
      some 0x00000060_02000040_00800208_0040000F := by decide

/-- V1-6. -/
theorem test_cmp :
    emitted (.cmp { body 8 (arf .null 0 .f) [.reg (grf 2 .f), zero] with conditionModifier := some .lt } []) =
      some 0x00000000_3E234040_00053AE0_60400010 := by decide

/-- V1-5. -/
theorem test_add :
    emitted (.add (body 8 (grf 4 .d) [.reg (grf 5 .d), imm (-1) .d]) []) =
      some 0xFFFFFFFF_0E2340A0_02000A28_60400040 := by decide

/-- V1-14. -/
theorem test_mul :
    emitted (.mul { body 16 (grf 6 .f) [.reg { grf 8 .f with modifier := .abs }, .reg { grf 10 .f with modifier := .negate }] with
      saturate := true } []) =
      some 0x012C4140_3AAC4100_03003AE8_80600041 := by decide

/-- V1-7. -/
theorem test_math_one :
    emitted (.math { body 8 (grf 1 .f) [.reg (grf 2 .f)] with payload := .math .sqrt } []) =
      some 0x00000000_00234040_00843AE8_60400038 := by decide

/-- V1-8. -/
theorem test_math_two :
    emitted (.math { body 8 (grf 1 .f) [.reg (grf 2 .f), .reg (grf 4 .f)] with payload := .math .fdiv } []) =
      some 0x00234080_3A234040_00893AE8_60400038 := by decide

/-- V1-11. -/
theorem test_wait :
    emitted (.wait { sources := [.reg (arf .n 0 .ud)] } []) =
      some 0x00000000_00001200_48000000_00400030 := by decide

/-- V3-1. -/
theorem test_mad_align1 :
    emitted (.mad (madBody .f) []) =
      some 0x0A00181C_080E0207_03803BB8_6000005B := by decide

/-- V3-2. -/
theorem test_mad_align16 :
    emitted (.mad { madBody .f with
      accessMode := .align16
      sources := [.reg (grf 1 .f), .reg { grf 2 .f with repCtrl := true }, .reg { grf 3 .f with modifier := .negate }] } []) =
      some 0x01B90009_C9002E40_05004000_7BC0015B := by decide

/-- V3-1 with type D and the opcode of `testCfg`. -/
theorem test_dp4a :
    emitted (.dp4a (madBody .d) []) =
      some 0x0A00181C_080E0207_00800888_60000058 := by decide

/-- VS-1. -/
theorem test_send :
    emitted (.send sendBody []) =
      some 0x02280004_562341C0_060A0208_60400031 := by decide

/-- VT-3. -/
theorem test_sendc :
    emitted (.sendc sendBody []) =
      some 0x02280004_562341C0_060A0208_60400032 := by decide

/-- VS-2. -/
theorem test_sends :
    emitted (.sends sendsBody []) =
      some 0x04200010_0040281E_0A0C0A08_60400033 := by decide

/-- VS-3. -/
theorem test_sends_registers :
    emitted (.sends { body 16 (arf .null 0 .ud) [.reg (grf 30 .ud), .reg (arf .null 0 .ud)] with
      payload := .send (.reg (arf .a 0 .ud)) (.reg { arf .a 0 .ud with subregister := 2 }) } []) =
      some 0x00000000_0002001E_00003200_80400033 := by decide

/-- VT-4. -/
theorem test_sendsc :
    emitted (.sendsc sendsBody []) =
      some 0x04200010_0040281E_0A0C0A08_60400034 := by decide

/-- VB-1, a branch to its own labels. -/
theorem test_if :
    emitted (.if_ (branch 8 a (some b)) [a, b]) =
      some 0x00000000_00000000_00100000_60000022 := by decide

/-- VB-2, a branch to its own labels. -/
theorem test_else :
    emitted (.else_ (branch 8 a (some b)) [a, b]) =
      some 0x00000000_00000000_00100000_60000024 := by decide

/-- VB-3, a branch to its own labels. -/
theorem test_break :
    emitted (.break_ (branch 8 a (some b)) [a, b]) =
      some 0x00000000_00000000_00100000_60000028 := by decide

/-- VB-4, a branch to its own labels. -/
theorem test_cont :
    emitted (.cont (branch 8 a (some b)) [a, b]) =
      some 0x00000000_00000000_00100000_60000029 := by decide

/-- VB-5, a branch to its own labels. -/
theorem test_halt :
    emitted (.halt (branch 8 a (some b)) [a, b]) =
      some 0x00000000_00000000_00100000_6000002A := by decide

/-- VB-6, a branch to its own labels. -/
theorem test_goto :
    emitted (.goto (branch 8 a (some b)) [a, b]) =
      some 0x00000000_00000000_00100000_6000002E := by decide

/-- VB-7. -/
theorem test_endif :
    emitted (.endif (branch 8 a) [a]) =
      some 0x00000000_0E000000_00100000_60000025 := by decide

/-- VB-8. -/
theorem test_while :
    emitted (.while_ (branch 8 a) [a]) =
      some 0x00000000_0E000000_00100000_60000027 := by decide

/-- VB-9. -/
theorem test_join :
    emitted (.join (branch 8 a) [a]) =
      some 0x00000000_0E000000_00100000_6000002F := by decide

/-- VB-10. -/
theorem test_jmpi :
    emitted (.jmpi (branch 1 a) [a]) =
      some 0x00000000_0E001400_50100000_00400020 := by decide

/-- VB-11. -/
theorem test_call :
    emitted (.call { branch 1 a with destination := some (.reg (grf 1 .ud)) } [a]) =
      some 0x00000000_0E000000_00900008_0040002C := by decide

/-! ## Errors -/

/-- V1-16: no code by default. -/
theorem test_missing_opcode : failure (.ror (body 1 (grf 1 .ud) (pair .ud)) []) ({ start with cfg := defaultCfg }) = some .unsupportedOpcode := by decide

/-- V1-15. -/
theorem test_shape : failure (.mov (body 1 (grf 1 .f) (pair .f)) []) = some .unsupportedOpcode := by decide

/-- H5. -/
theorem test_execution_size : failure (.mov (body 3 (grf 1 .f) [.reg (grf 2 .f)]) []) = some .invariantViolation := by decide

/-- H6. -/
theorem test_mask_offset : failure (.mov { body 1 (grf 1 .f) [.reg (grf 2 .f)] with maskOffset := 6 } []) = some .invariantViolation := by decide

/-- O12. -/
theorem test_register_range : failure (.mov (body 1 (grf 128 .f) [.reg (grf 2 .f)]) []) = some .invariantViolation := by decide

/-- O11. -/
theorem test_immediate_type : failure (.mov (body 1 (grf 1 .b) [imm 1 .b]) []) = some .unsupportedOpcode := by decide

/-- O17. -/
theorem test_float_not_exact : failure (.mov (body 1 (grf 1 .f) [.imm { value := .float (.finite false 1 10), bitWidth := .w32, type := .f }]) []) = some .invariantViolation := by decide

/-- R230, R231: an indirect operand's register number and sub-register are checked too. -/
theorem test_indirect_register :
    failure (.mov (body 1 { grf 128 .f with addressing := .indirect 0 0 } [.reg (grf 2 .f)]) []) =
      some .invariantViolation ∧
    failure (.mov (body 1 (grf 1 .f) [.reg { grf 2 .f with addressing := .indirect 0 0, subregister := 8 }]) []) =
      some .invariantViolation := by decide

/-- R402: replicate control on a destination outside three-source Align16. -/
theorem test_replicated_destination :
    failure (.mov (body 1 { grf 1 .f with repCtrl := true } [.reg (grf 2 .f)]) []) = some .invariantViolation := by decide

/-- R405: a math function with no code is found after the operands. -/
theorem test_math_without_code :
    failure (.math { body 1 (grf 1 .f) [.reg (grf 2 .f)] with payload := .math .sqrt } [])
        { start with cfg := { testCfg with mathFc := [] } } = some .unsupportedOpcode ∧
    failure (.math { body 1 (grf 128 .f) [.reg (grf 2 .f)] with payload := .math .sqrt } [])
        { start with cfg := { testCfg with mathFc := [] } } = some .invariantViolation := by decide

/-- R273: the type code comes before the region. -/
theorem test_align16_type_first :
    failure (.mad { madBody .w with
      accessMode := .align16
      sources := [.reg { grf 1 .w with region := .align1 none none none }, .reg (grf 2 .w), .reg (grf 3 .w)]
      destination := some (.reg (grf 10 .d)) } []) = some .unsupportedOpcode := by decide

/-- V3-3. -/
theorem test_mixed_class : failure (.mad { madBody .d with sources := [.reg (grf 1 .d), .reg (grf 2 .f), .reg (grf 3 .d)] } []) = some .invariantViolation := by decide

/-- VS-4. -/
theorem test_send_without_descriptor : failure (.send { sendBody with payload := .none } []) = some .failure := by decide

/-- R405 step 7: source 0 of a split send, with a special accumulator (R401), comes before source 1, with a modifier
(R310); the destination, with a type without a code (V), before both. -/
theorem test_sends_operand_order :
    failure (.sends { sendsBody with
        sources := [.reg { grf 30 .ud with specialAcc := some .acc2 }, .reg { grf 40 .ud with modifier := .negate }] } [])
      = some .unsupportedOpcode ∧
    failure (.sends { sendsBody with
        destination := some (.reg (grf 20 .v)),
        sources := [.reg { grf 30 .ud with modifier := .negate }, .reg (grf 40 .ud)] } [])
      = some .unsupportedOpcode := by decide

/-- VS-5. -/
theorem test_send_eot : failure (.send { sendBody with payload := .send (imm 0x02280004 .ud) (imm 0x2A .ud) } []) = some .failure := by decide

/-- C-6. -/
theorem test_must_without_match : failure (.mov { body 8 (grf 10 .d) [.reg (grf 20 .d)] with compactionPolicy := .must } []) = some .invariantViolation := by decide

/-- R25. -/
theorem test_duplicate_label : failure (.nop { } [a, a]) = some .invariantViolation := by decide

/-! ## Decoding: each constructor from a word written out from its encoding -/

theorem test_decode_illegal :
    reads 0x00000000_00000000_00000000_00000000 =
      some (.illegal { compactionPolicy := .mustNot } []) := by decide

theorem test_decode_nop :
    reads 0x00000000_00000000_00000000_0000007E =
      some (.nop { compactionPolicy := .mustNot } []) := by decide

theorem test_decode_mov :
    reads 0x00000000_00234280_05003AE8_60400001 =
      some (.mov (body 8 (dstOf (grf 10 .f)) [srcOf (grf 20 .f) 8 8 1]) []) := by decide

theorem test_decode_not :
    reads 0x00000000_00000040_00800208_00400004 =
      some (.not (body 1 (dstOf (grf 1 .ud)) [srcOf (grf 2 .ud) 0 1 0]) []) := by decide

theorem test_decode_sel :
    reads 0x00234060_3A234040_00803AE8_60410002 =
      some (.sel { body 8 (dstOf (grf 1 .f)) (pair8 .f) with
        predicate := some { flagReg := 0, flagSubreg := 0 } } []) := by decide

theorem test_decode_and :
    reads 0x000000FF_06000040_00800208_00400005 =
      some (.and (body 1 (dstOf (grf 1 .ud)) [srcOf (grf 2 .ud) 0 1 0, imm 0xFF .ud]) []) := by decide

theorem test_decode_or :
    reads 0x00000060_02000040_00800208_00400006 =
      some (.or (body 1 (dstOf (grf 1 .ud)) (pair1 .ud)) []) := by decide

theorem test_decode_xor :
    reads 0x00234060_0A234040_00800A28_60400007 =
      some (.xor (body 8 (dstOf (grf 1 .d)) (pair8 .d)) []) := by decide

theorem test_decode_ror :
    reads 0x00000060_02000040_00800208_0040000E =
      some (.ror (body 1 (dstOf (grf 1 .ud)) (pair1 .ud)) []) := by decide

theorem test_decode_rol :
    reads 0x00000060_02000040_00800208_0040000F =
      some (.rol (body 1 (dstOf (grf 1 .ud)) (pair1 .ud)) []) := by decide

theorem test_decode_cmp :
    reads 0x00000000_3E234040_00053AE0_60400010 =
      some (.cmp { body 8 (dstOf (arf .null 0 .f)) [srcOf (grf 2 .f) 8 8 1, zero] with
        conditionModifier := some .lt } []) := by decide

theorem test_decode_add :
    reads 0xFFFFFFFF_0E2340A0_02000A28_60400040 =
      some (.add (body 8 (dstOf (grf 4 .d)) [srcOf (grf 5 .d) 8 8 1, imm (-1) .d]) []) := by decide

theorem test_decode_mul :
    reads 0x012C4140_3AAC4100_03003AE8_80600041 =
      some (.mul { body 16 (dstOf (grf 6 .f))
          [srcOf { grf 8 .f with modifier := .abs } 16 16 1, srcOf { grf 10 .f with modifier := .negate } 16 16 1] with
        saturate := true } []) := by decide

theorem test_decode_math :
    reads 0x00234080_3A234040_00893AE8_60400038 =
      some (.math { body 8 (dstOf (grf 1 .f)) [srcOf (grf 2 .f) 8 8 1, srcOf (grf 4 .f) 8 8 1] with
        payload := .math .fdiv } []) := by decide

theorem test_decode_wait :
    reads 0x00000000_00001200_48000000_00400030 =
      some (.wait { sources := [.reg (arf .n 0 .ud)], compactionPolicy := .mustNot } []) := by decide

theorem test_decode_mad :
    reads 0x0A00181C_080E0207_03803BB8_6000005B =
      some (.mad (body 8 (dstOf (grf 10 .f))
        ([1, 2, 3].map fun n => .reg { grf n .f with region := .align1 (some 8) none (some 1) })) []) := by decide

theorem test_decode_dp4a :
    reads 0x0A00181C_080E0207_00800888_60000058 =
      some (.dp4a (body 8 (dstOf (grf 10 .d))
        ([1, 2, 3].map fun n => .reg { grf n .d with region := .align1 (some 8) none (some 1) })) []) := by decide

theorem test_decode_send :
    reads 0x02280004_562341C0_060A0208_60400031 =
      some (.send { body 8 (dstOf (grf 12 .ud)) [srcOf (grf 14 .ud) 8 8 1] with
        payload := .send (imm 0x02280004 .ud) (imm 0x0A .ud) } []) := by decide

theorem test_decode_sendc :
    reads 0x02280004_562341C0_060A0208_60400032 =
      some (.sendc { body 8 (dstOf (grf 12 .ud)) [srcOf (grf 14 .ud) 8 8 1] with
        payload := .send (imm 0x02280004 .ud) (imm 0x0A .ud) } []) := by decide

theorem test_decode_sends :
    reads 0x04200010_0040281E_0A0C0A08_60400033 =
      some (.sends sendsBody []) := by decide

theorem test_decode_sendsc :
    reads 0x04200010_0040281E_0A0C0A08_60400034 =
      some (.sendsc sendsBody []) := by decide

theorem test_decode_if :
    reads 0x00000006_00000003_00000000_60000022 =
      some (.if_ (branch 8 a (some b)) []) := by decide

theorem test_decode_else :
    reads 0x00000006_00000003_00000000_60000024 =
      some (.else_ (branch 8 a (some b)) []) := by decide

theorem test_decode_break :
    reads 0x00000006_00000003_00000000_60000028 =
      some (.break_ (branch 8 a (some b)) []) := by decide

theorem test_decode_cont :
    reads 0x00000006_00000003_00000000_60000029 =
      some (.cont (branch 8 a (some b)) []) := by decide

theorem test_decode_halt :
    reads 0x00000006_00000003_00000000_6000002A =
      some (.halt (branch 8 a (some b)) []) := by decide

theorem test_decode_goto :
    reads 0x00000006_00000003_00000000_6000002E =
      some (.goto (branch 8 a (some b)) []) := by decide

theorem test_decode_endif :
    reads 0x00000003_0E000000_00000000_60000025 =
      some (.endif (branch 8 a) []) := by decide

theorem test_decode_while :
    reads 0x00000003_0E000000_00000000_60000027 =
      some (.while_ (branch 8 a) []) := by decide

theorem test_decode_join :
    reads 0x00000003_0E000000_00000000_6000002F =
      some (.join (branch 8 a) []) := by decide

theorem test_decode_jmpi :
    reads 0x00000003_0E001400_50000000_00400020 =
      some (.jmpi (branch 1 a) []) := by decide

theorem test_decode_call :
    reads 0x00000003_0E000000_00800008_0040002C =
      some (.call { branch 1 a with destination := some (.reg (dstOf (grf 1 .ud))) } []) := by decide

/-- C-1: a compact word is read through its expansion (R383). -/
theorem test_decode_compact :
    (match decode testCfg (toBytes 8 0x00202814_00000101) with
     | .ok (i, rest) => some (i, rest)
     | .error _ => none) =
      some (.mov { body 8 (dstOf (grf 10 .f)) [srcOf (grf 20 .f) 8 8 1] with compactionPolicy := .must } [], []) := by
  decide

/-- R130, R151: a compact word with a reserved bit set is rejected by name: bit 49, and bit 62 beside a register source 1
(C-1 has bits 52:49 and 63:62 all 0). -/
theorem test_decode_compact_reserved :
    [0x00222814_00000101, 0x40202814_00000101].map (fun c =>
      match decode testCfg (toBytes 8 c) with
      | .ok _ => none
      | .error e => some e) = [some (.reservedBits 49 4), some (.reservedBits 62 2)] := by decide

/-- R278: a three-source immediate is read back as `sext_16`: 0xFFFE of type UW in slot 0 is -2. -/
theorem test_decode_imm16 :
    (match Decoding.readImm16 .uw 0xFFFE with
     | .ok o => some o
     | .error _ => none) = some (imm (-2) .uw .w16) := by decide

/-- An opcode value with no entry is rejected by name (R151). -/
theorem test_decode_reserved_opcode :
    (match decode testCfg (toBytes 16 0x7F) with
     | .ok _ => none
     | .error e => some e) = some (.opcode 0x7F) := by decide

/-! ## WellFormed: each check refuses an ill-formed term -/

theorem test_wellFormed : (Instr.mov (body 8 (grf 10 .f) [.reg (grf 20 .f)]) []).wellFormed = true := by decide

theorem test_wellFormed_size : (Instr.nop { executionSize := 3 } []).wellFormed = false := by decide

theorem test_wellFormed_offset : (Instr.nop { maskOffset := 32 } []).wellFormed = false := by decide

theorem test_wellFormed_offset_step : (Instr.nop { maskOffset := 6 } []).wellFormed = false := by decide

theorem test_wellFormed_flags :
    (Instr.nop { predicate := some { flagReg := 2, flagSubreg := 0 } } []).wellFormed = false := by decide

theorem test_wellFormed_shape : (Instr.mov (body 1 (grf 1 .f) (pair .f)) []).wellFormed = false := by decide

theorem test_wellFormed_grf : (Instr.not (body 1 (grf 256 .ud) [.reg (grf 2 .ud)]) []).wellFormed = false := by decide

theorem test_wellFormed_arf : (Instr.wait { sources := [.reg (arf .n 16 .ud)] } []).wellFormed = false := by decide

theorem test_wellFormed_subregister :
    (Instr.mov (body 1 { grf 1 .f with subregister := 8 } [.reg (grf 2 .f)]) []).wellFormed = false := by decide

theorem test_wellFormed_indirect_number :
    (Instr.mov (body 1 { grf 256 .f with addressing := .indirect 0 0 } [.reg (grf 2 .f)]) []).wellFormed = false := by
  decide

theorem test_wellFormed_address :
    (Instr.mov (body 1 { grf 0 .f with addressing := .indirect 16 0 } [.reg (grf 2 .f)]) []).wellFormed = false := by
  decide

theorem test_wellFormed_indirect_offset :
    (Instr.mov (body 1 { grf 0 .f with addressing := .indirect 0 512 } [.reg (grf 2 .f)]) []).wellFormed = false := by
  decide

theorem test_wellFormed_immediate : (Instr.mov (body 1 (grf 1 .w) [imm 40000 .w .w16]) []).wellFormed = false := by
  decide

theorem test_wellFormed_destination :
    (Instr.mov { body 1 (grf 1 .f) [zero] with destination := some zero } []).wellFormed = false := by decide

/-! ## Witnesses: for each obligation, a state and operands that meet its hypotheses -/

def nextOf (o : StepResult) : State :=
  match o with
  | .next t => t
  | _ => start

/-- The state after a few steps, each with the given command or none. -/
def drive : List (Option Command) → State → State
  | [], s => s
  | c :: cs, s => drive cs (nextOf (step { s with input := [c] }))

def movI : Instr := .mov (body 8 (grf 10 .f) [.reg (grf 20 .f)]) []

def jump : Instr := .jmpi (branch 1 a) []

/-- One deferred branch in the queue, its label not yet defined. -/
def opened : State := drive [some (.instr jump)] start

/-- In `Finalizing`, with one entry to resolve. -/
def queued : State := drive [some (.instr (.nop { } [a])), some .finish] opened

/-- In `Finalizing`, with one entry whose label is absent. -/
def dangling : State := drive [some .finish] opened

/-- In `Finalizing`, with nothing left to resolve. -/
def resolved : State := drive [none] queued

def finished : State := drive [none] resolved

def aborted : State := drive [none] dangling

def given (s : State) (c : Command) : State := { s with input := [some c] }

theorem test_queued_inv : queued.Inv :=
  { layout := by decide, pos := by decide, count := by decide, words := by decide, labels_once := by decide
    labels_placed := by decide, deferred_branches := by decide, deferred_order := by decide
    done_resolved := by decide, healthy := by decide, stopped := by decide }

theorem test_queued_branches : queued.BranchesResolved := by
  intro k o ho _
  match k with
  | 0 => exact .inl (by decide)
  | 1 =>
    obtain rfl : o = queued.out[1]'(by decide) := by
      rw [List.getElem?_eq_getElem (by decide)] at ho
      exact (Option.some.inj ho).symm
    contradiction
  | n + 2 =>
    have : queued.out.length = 2 := by decide
    rw [List.getElem?_eq_none (by omega)] at ho
    cases ho

/-- The resolved branch: JIP is 2 units. -/
theorem test_pass2 : resolved.out[0]?.bind (·.offset .jip) = some 2 ∧ resolved.deferred = [] := by decide

theorem test_finished : finished.phase = .done ∧ finished.pos = 4 ∧ finished.imageByte 12 = some 2 := by decide

theorem test_aborted : aborted.phase = .aborted ∧ aborted.status.code = some .danglingLabel ∧ aborted.pos = 2 := by
  decide

theorem test_witness_ResetValues : (given queued .reset).input = some .reset :: [] := rfl

theorem test_witness_ResetForgets :
    (given queued .reset).cfg = (given start .reset).cfg ∧ (given queued .reset).input = (given start .reset).input ∧
      (given queued .reset).input.head? = some (some .reset) := by decide

theorem test_witness_EndFinalizes :
    (given start .finish).phase = .scanning ∧ (given start .finish).input = some .finish :: [] ∧
      (given queued .finish).phase ≠ .scanning := by decide

theorem test_witness_IllegalCommandRefused :
    queued.phase ≠ .scanning ∧ finished.phase ≠ .scanning ∧ aborted.phase ≠ .scanning := by decide

theorem test_witness_StepRunsInstr :
    (given start (.instr movI)).input = some (.instr movI) :: [] ∧
      decodeTableWord 8 0x7E = some (.nop { compactionPolicy := .mustNot } []) := by decide

theorem test_witness_PhaseTransitions :
    answers (step start) (fun t => t.phase == .scanning) = true ∧
      answers (step (given queued .reset)) (fun t => t.phase == .scanning) = true ∧
      answers (step (given start .finish)) (fun t => t.phase == .finalizing) = true ∧
      answers (step resolved) (fun t => t.phase == .done) = true ∧
      answers (step dangling) (fun t => t.phase == .aborted) = true ∧
      answers (step (given start (.instr (.send { sendBody with payload := .none } [])))) (fun t => t.phase == .failed) =
        true := by decide

theorem test_witness_PhaseTransitions_clauses :
    resolved.phase = .finalizing ∧ resolved.input.head?.join = none ∧ resolved.deferred = [] ∧
      start.phase = .scanning := by decide

theorem test_witness_InstrAppendsOneWord :
    start.phase = .scanning ∧ answers (exec movI start) (fun t => t.report == some .ok) = true ∧
      opened.phase = .scanning ∧ answers (exec jump opened) (fun t => t.report == some .ok) = true := by decide

theorem test_witness_ErrorKeepsNothing :
    answers (exec (.nop { } [a, a]) start) (fun t => t.report == some (.error .invariantViolation)) = true ∧
      dangling.phase = .finalizing ∧ answers (quietStep dangling) (fun t => t.phase == .aborted) = true ∧
      aborted.phase = .aborted := by decide

theorem test_witness_ErrorIsSticky :
    aborted.phase = .aborted ∧ (given aborted .finish).input.head? ≠ some (some .reset) ∧
      answers (step (given aborted .finish)) (fun t => t.report == some .refused) = true := by decide

theorem test_witness_ConfigurationReadOnly : answers (step queued) (fun t => t.cfg == testCfg) = true := by decide

theorem test_witness_LabelsNeverChange :
    answers (step queued) (fun _ => true) = true ∧ queued.input.head? ≠ some (some .reset) ∧
      labelPos queued.labels a = some 2 := by decide

theorem test_witness_OutputOnlyInDone : finished.phase = .done ∧ start.phase ≠ .done := by decide

theorem test_witness_InvariantKept : queued.Inv ∧ answers (step queued) (fun _ => true) = true :=
  ⟨test_queued_inv, by decide⟩

theorem test_witness_BranchesResolvedKept :
    queued.Inv ∧ queued.BranchesResolved ∧ answers (step queued) (fun _ => true) = true :=
  ⟨test_queued_inv, test_queued_branches, by decide⟩

theorem test_witness_ImageLayout :
    queued.Inv ∧ queued.out[0]?.isSome = true ∧ queued.out[0 + 1]?.isSome = true ∧ 15 < 16 :=
  ⟨test_queued_inv, by decide, by decide, by decide⟩

theorem test_witness_InstrImageFrame :
    State.reset.Inv ∧ answers (exec movI State.reset) (fun t => t.report == some .ok) = true :=
  ⟨{ layout := by decide, pos := by decide, count := by decide, words := by decide, labels_once := by decide
     labels_placed := by decide, deferred_branches := by decide, deferred_order := by decide
     done_resolved := by decide, healthy := by decide, stopped := by decide }, by decide⟩

theorem test_witness_Pass2 :
    queued.Inv ∧ queued.phase = .finalizing ∧ queued.deferred = { index := 0, pos := 0 } :: [] ∧
      (queued.out[0]?.map fun o => o.ins.body.payload.targets) = some [(.jip, a)] ∧
      (labelPos queued.labels a).isSome ∧ offsetLegal testCfg queued.labels 0 32 a = true ∧
      answers (quietStep queued) (fun t => t.phase == .finalizing) = true :=
  ⟨test_queued_inv, by decide, by decide, by decide, by decide, by decide, by decide⟩

theorem test_witness_DanglingLabelAborts :
    dangling.phase = .finalizing ∧ dangling.deferred = { index := 0, pos := 0 } :: [] ∧
      (dangling.out[0]?.map fun o => o.ins.body.payload.targets) = some ([] ++ (.jip, a) :: []) ∧
      labelPos dangling.labels a = none := by decide

/-- One entry, its label one unit beyond the last offset of 32 bits. -/
theorem test_witness_Pass2OffsetOutOfRange :
    (let s := drive [some .finish] { opened with labels := [(a, 2147483648)] }
     s.phase == .finalizing && s.deferred == [{ index := 0, pos := 0 }] &&
     (s.out[0]?.map fun o => (o.ins.body.payload.targets, o.bits.isCompact)) == some ([] ++ (.jip, a) :: [], false) &&
     !offsetLegal s.cfg s.labels 0 32 a && offsetLegal s.cfg [(a, 2147483647)] 0 32 a) = true := by decide

theorem test_witness_FinalizingTerminates :
    queued.Inv ∧ queued.phase = .finalizing ∧ ({ queued with input := [] } : State).input = [] :=
  ⟨test_queued_inv, by decide, rfl⟩

theorem test_witness_PackField : (120 + 8 ≤ 128 ∧ 255 < 2 ^ 8) ∧ ¬(120 + 8 ≤ 128 ∧ 256 < 2 ^ 8) := by decide

theorem test_witness_FieldsDisjoint :
    (match encodeFields testCfg false movI.instruction with
     | .ok r => r.1.format == .oneSrc
     | .error _ => false) = true := by decide

theorem test_witness_FloatBitsReadBack :
    (8, 23) ∈ [(5, 10), (8, 23), (11, 52)] ∧ 0x3F800000 < 2 ^ (1 + 8 + 23) := by decide

theorem test_witness_FloatExact :
    floatBits 5 10 (.finite false 3 2) = some 0x3E00 ∧ floatBits 8 23 (.finite false 1 1) = some 0x3F800000 := by decide

/-- For each instruction without labels, a record that the completion statements' hypotheses admit. -/
theorem test_witness_emitted :
    ([.illegal { } [], .nop { } [], movI, .not (body 1 (grf 1 .ud) [.reg (grf 2 .ud)]) [],
      .math { body 8 (grf 1 .f) [.reg (grf 2 .f)] with payload := .math .sqrt } [],
      .wait { sources := [.reg (arf .n 0 .ud)] } [], .mad (madBody .f) [], .dp4a (madBody .d) [], .send sendBody [],
      .sendc sendBody [], .sends sendsBody [], .sendsc sendsBody []] : List Instr).all
      (fun i => accepts start i && i.body.compactionPolicy != .must) = true := by decide

theorem test_witness_TwoSrcEmitted :
    ([.sel, .and, .or, .xor, .ror, .rol, .cmp, .add, .mul] : List Mnemonic).all
      (fun m => accepts start (m.instr (body 1 (grf 1 .ud) (pair .ud)) [])) = true := by decide

/-- Each branch, forward and to its own label. -/
theorem test_witness_BranchOneSrcEmitted :
    ([.jmpi (branch 1 a), .endif (branch 1 a), .while_ (branch 1 a), .join (branch 1 a),
      .call { branch 1 a with destination := some (.reg (grf 1 .ud)) }] : List (List Label → Instr)).all
      (fun f => [[], [a]].all fun defs => accepts start (f defs) && targetsLegal start (f defs) 32) = true := by decide

theorem test_witness_BranchTwoSrcEmitted :
    ([.if_, .else_, .break_, .cont, .halt, .goto] : List Mnemonic).all
      (fun m => [[], [a], [a, b]].all fun defs =>
        accepts start (m.instr (branch 8 a (some b)) defs) &&
        targetsLegal start (m.instr (branch 8 a (some b)) defs) 32) = true := by decide

/-- `Must` with a match and without one. -/
theorem test_witness_MustCompactsOperands :
    ([movI, .mov (body 8 (grf 10 .d) [.reg (grf 20 .d)]) []] : List Instr).all
      (fun i => accepts start (i.mnemonic.instr { i.body with compactionPolicy := .must } [])) = true := by decide

theorem test_witness_MustCompactsBranches :
    accepts start (.jmpi { branch 1 a with compactionPolicy := .must } [a]) = true ∧
      targetsLegal start (.jmpi { branch 1 a with compactionPolicy := .must } [a]) 10 = true := by decide

theorem test_witness_MustIneligibleFails :
    formatOf { opcode := .nop, body := { } } = .nop ∧
      accepts start (.nop { compactionPolicy := .must } []) = true ∧
      formatOf { opcode := .mad, body := madBody .f } = .threeSrcAlign1 ∧
      accepts start (.mad { madBody .f with compactionPolicy := .must } []) = true := by decide

theorem test_witness_DuplicateLabelFails :
    start.phase = .scanning ∧ labelsFresh start.labels (Instr.nop { } [a, a]).defs = false := by decide

theorem test_witness_OpcodeUnsupported :
    State.reset.phase = .scanning ∧ labelsFresh State.reset.labels [] = true ∧
      opcodeLegal State.reset.cfg (Instr.ror (body 1 (grf 1 .ud) (pair .ud)) []).instruction = false ∧
      opcodeLegal { defaultCfg with has3SrcAlign1 := false } (Instr.mad (madBody .f) []).instruction = false := by
  decide

theorem test_witness_ShapeMismatch :
    start.phase = .scanning ∧ labelsFresh start.labels [] = true ∧
      (let i := Instr.mov (body 1 (grf 1 .f) (pair .f)) []
       opcodeLegal start.cfg i.instruction && !i.body.shapeOk i.mnemonic.opClass && !i.mnemonic.isSendClass) = true ∧
      (let i := Instr.send { sendBody with payload := .none } []
       opcodeLegal start.cfg i.instruction && !i.body.shapeOk i.mnemonic.opClass && i.mnemonic.isSendClass) = true := by
  decide

theorem test_witness_MalformedSendFails :
    start.phase = .scanning ∧ labelsFresh start.labels [] = true ∧
      (let i := Instr.send { sendBody with payload := .send (imm 0x02280004 .ud) (imm 0x2A .ud) } []
       opcodeLegal start.cfg i.instruction && i.mnemonic.isSendClass &&
       i.body.payload == .send (imm 0x02280004 .ud) (imm 0x2A .ud) &&
       !descriptorsLegal (i.mnemonic.opClass == .sends) (imm 0x02280004 .ud) (imm 0x2A .ud)) = true := by decide

theorem test_witness_HeaderViolation :
    start.phase = .scanning ∧ labelsFresh start.labels [] = true ∧
      (let i := Instr.nop { maskOffset := 6 } []
       opcodeLegal start.cfg i.instruction && i.body.shapeOk i.mnemonic.opClass && i.body.payload == .none &&
       !headerLegal (formatOf i.instruction) i.instruction) = true ∧
      (let i := Instr.math { body 1 (grf 1 .f) [.reg (grf 2 .f)] with
          payload := .math .cos, conditionModifier := some .eq } []
       opcodeLegal start.cfg i.instruction && i.body.shapeOk i.mnemonic.opClass &&
       !headerLegal (formatOf i.instruction) i.instruction) = true := by decide

theorem test_witness_MixedClassFails :
    start.phase = .scanning ∧ labelsFresh start.labels [] = true ∧
      (let i := Instr.mad { madBody .d with sources := [.reg (grf 1 .d), .reg (grf 2 .f), .reg (grf 3 .d)] } []
       opcodeLegal start.cfg i.instruction && i.mnemonic.opClass == .threeSrc && i.body.payload == .none &&
       i.body.destination == some (.reg (grf 10 .d)) && headerLegal (formatOf i.instruction) i.instruction) = true ∧
      ¬∃ c : TypeClass, DataType.typeClass .d = c ∧ DataType.typeClass .f = c := by
  refine ⟨by decide, by decide, by decide, ?_⟩
  rintro ⟨_, rfl, h⟩
  cases h

theorem test_witness_OffsetOutOfRange :
    ({ opened with labels := [(a, 1024)] } : State).phase = .scanning ∧
      targetsLegal { opened with labels := [(a, 1024)] } (.jmpi { branch 1 a with compactionPolicy := .must } []) 10 =
        false ∧
      accepts { opened with labels := [(a, 1024)] } (.jmpi { branch 1 a with compactionPolicy := .must } []) = true := by
  decide

theorem test_witness_EncodedIsWellFormed :
    (match encodeNative testCfg false movI.instruction with
     | .ok _ => true
     | .error _ => false) = true := by decide

/-- Records that end in each error by themselves, and one that ends in none. -/
theorem test_witness_RecordErrors :
    start.phase = .scanning ∧ labelsFresh start.labels [] = true ∧
      recordError start.cfg (Instr.mov (body 1 (grf 1 .v) [.reg (grf 2 .f)]) []).instruction =
        some .unsupportedOpcode ∧
      recordError start.cfg (Instr.mov (body 1 (grf 128 .f) [.reg (grf 2 .f)]) []).instruction =
        some .invariantViolation ∧
      recordError start.cfg (Instr.send { sendBody with payload := .none } []).instruction = some .failure ∧
      recordError start.cfg movI.instruction = none := by decide

theorem test_witness_OutcomeCodes :
    start.phase = .scanning ∧ answers (exec movI start) (fun t => t.report.bind CommandReport.number == some 0) = true ∧
      answers (exec (.nop { } [a, a]) start) (fun t => t.report.bind CommandReport.number == some 2) = true := by decide

theorem test_witness_ExpandUndoesCompaction :
    tryCompact testCfg 0x00000000_00234280_05003AE8_60400001#128 = some 0x00202814_00000101#64 := by decide

theorem test_witness_readable : testCfg.readable = true := by decide

/-- A canonical record of each instruction without a destination, for the round trips. -/
theorem test_witness_RoundTripBare :
    ([.illegal, .nop] : List Mnemonic).all (fun m =>
        recordLegal testCfg (m.instr { compactionPolicy := .mustNot } []).instruction &&
        (m.instr { compactionPolicy := .mustNot } []).canonical testCfg) = true ∧
      ([.jmpi, .endif, .while_, .join] : List Mnemonic).all (fun m =>
        recordLegal testCfg (m.instr (branch 1 a) []).instruction && (m.instr (branch 1 a) []).canonical testCfg) =
          true ∧
      ([.if_, .else_, .break_, .cont, .halt, .goto] : List Mnemonic).all (fun m =>
        recordLegal testCfg (m.instr (branch 8 a (some b)) []).instruction &&
        (m.instr (branch 8 a (some b)) []).canonical testCfg) = true := by decide

theorem test_witness_RoundTripOperands :
    ([.mov (body 8 (dstOf (grf 10 .f)) [srcOf (grf 20 .f) 8 8 1]) [],
      .not (body 8 (dstOf (grf 10 .d)) [srcOf (grf 20 .d) 8 8 1]) [],
      .math { body 8 (dstOf (grf 10 .f)) [srcOf (grf 20 .f) 8 8 1] with payload := .math .cos } [],
      .wait { sources := [.reg (arf .n 0 .ud)], compactionPolicy := .mustNot } [],
      .call { branch 1 a with destination := some (.reg (dstOf (grf 1 .ud))) } []] : List Instr).all
      (fun i => recordLegal testCfg i.instruction && i.canonical testCfg) = true ∧
      ([.sel, .and, .or, .xor, .ror, .rol, .cmp, .add, .mul] : List Mnemonic).all (fun m =>
        recordLegal testCfg (m.instr (body 1 (dstOf (grf 1 .ud)) (pair1 .ud)) []).instruction &&
        (m.instr (body 1 (dstOf (grf 1 .ud)) (pair1 .ud)) []).canonical testCfg) = true := by decide

theorem test_witness_RoundTripThreeSrc :
    ([.mad, .dp4a] : List Mnemonic).all (fun m =>
      let i := m.instr (body 8 (dstOf (grf 10 .d))
        ([1, 2, 3].map fun n => .reg { grf n .d with region := .align1 (some 8) none (some 1) })) []
      recordLegal testCfg i.instruction && i.canonical testCfg) = true := by decide

theorem test_witness_RoundTripSend :
    ([.send, .sendc] : List Mnemonic).all (fun m =>
      let i := m.instr { sendBody with
        destination := some (.reg (dstOf (grf 12 .ud))), sources := [srcOf (grf 14 .ud) 8 8 1] } []
      recordLegal testCfg i.instruction && i.canonical testCfg) = true ∧
    ([.sends, .sendsc] : List Mnemonic).all (fun m =>
      recordLegal testCfg (m.instr sendsBody []).instruction && (m.instr sendsBody []).canonical testCfg) = true := by
  decide

end Sys2Proof.Tests
end

section
/-! PROOFS. The field codec (00_scope.md R14, R15) and the running of the next command (R8, R38). -/

namespace Sys2Proof.Machine

/-! ## `pack` -/

theorem pack_of_fits {n : Nat} (w : BitVec n) {off width v : Nat} (hoff : off + width ≤ n) (hv : v < 2 ^ width) :
    pack w off width v = .ok (setField w off width v) := by
  obtain ⟨-, -, hpack⟩ | ⟨hbad, -⟩ := pack_cases w off width v
  · exact hpack
  · exact absurd ⟨hoff, hv⟩ hbad

theorem pack_of_not_fits {n : Nat} (w : BitVec n) {off width v : Nat} (hbad : ¬(off + width ≤ n ∧ v < 2 ^ width)) :
    pack w off width v = .error .fieldWidth := by
  obtain ⟨hoff, hv, -⟩ | ⟨-, hpack⟩ := pack_cases w off width v
  · exact absurd ⟨hoff, hv⟩ hbad
  · exact hpack

/-- The frame of `setField`. -/
theorem getLsbD_setField_outside {n : Nat} (w : BitVec n) {off width v k : Nat} (hk : k < off ∨ off + width ≤ k) :
    (setField w off width v).getLsbD k = w.getLsbD k := by
  rw [getLsbD_setField, if_neg (by omega)]

/-- Settles O26: the word `pack` answers is `setField`'s, which reads back as the value and keeps every other bit; the
only error is `fieldWidth`, whose class is `InvariantViolation`. -/
theorem packField : Obligations.PackField := by
  intro n w off width v
  constructor
  · intro hoff hv
    exact ⟨setField w off width v, pack_of_fits w hoff hv, unpack_setField_same w hoff hv,
      fun k hk => getLsbD_setField_outside w hk⟩
  · intro hbad
    exact ⟨.fieldWidth, pack_of_not_fits w hbad, rfl⟩

/-! ## The next command -/

/-- A command at the head of the input stream is consumed and run (R8). -/
theorem step_eq_runCommand {s : State} {c : Command} {rest : List (Option Command)}
    (hin : s.input = some c :: rest) : step s = runCommand c { s with input := rest } := by
  obtain ⟨hnil, -⟩ | ⟨rest', hnone, -⟩ | ⟨c', rest', hsome, hstep⟩ := step_cases s
  · simp [hin] at hnil
  · simp [hin] at hnone
  · obtain ⟨rfl, rfl⟩ : c = c' ∧ rest = rest' := by simpa [hin] using hsome
    exact hstep

@[simp] theorem runCommand_instr (i : Instr) (s : State) : runCommand (.instr i) s = exec i s := rfl

theorem step_instr {s : State} {i : Instr} {rest : List (Option Command)}
    (hin : s.input = some (.instr i) :: rest) : step s = exec i { s with input := rest } := by
  rw [step_eq_runCommand hin, runCommand_instr]

/-- A word that the decoder reads is put in front of the input stream as its instruction (assumption 6). -/
theorem State.withFetchWord_of_decode {nbits w : Nat} {i : Instr} (s : State)
    (hdec : decodeTableWord nbits w = some i) :
    s.withFetchWord nbits w = { s with input := some (.instr i) :: s.input } := by
  simp only [State.withFetchWord, hdec]

/-- Settles O5: both halves are the step of an Instr command; for a decoded word, consuming the command that
`withFetchWord` put in front gives `s` back. -/
theorem stepRunsInstr : Obligations.StepRunsInstr := by
  constructor
  · intro i s rest hin
    exact step_instr hin
  · intro nbits w i s hdec
    rw [s.withFetchWord_of_decode hdec]
    exact step_instr rfl

end Sys2Proof.Machine
end

section
/-! PROOFS. The word of a record: its format and shape (40_header_dispatch.md R163, R164), and bit 53, which tells its
length (30_encoding.md R150), through encoding, compaction and the writing of offsets. -/

namespace Sys2Proof.Machine

/-! ## The format selector -/

/-- The destination operand that a shape holds. -/
@[simp] def Shape.destination : Shape → Option Operand
  | .one d _ | .two d _ _ | .mathOne _ d _ | .mathTwo _ d _ _ | .three _ d _ _ _ | .send d _ _ _ | .sends d _ _ _ _
  | .call d => some d
  | .bare _ | .wait _ | .branchOne | .branchTwo | .jmpi => none

/-- The source operands that a shape holds. -/
@[simp] def Shape.sources : Shape → List Operand
  | .one _ s0 | .mathOne _ _ s0 | .wait s0 | .send _ s0 _ _ => [s0]
  | .two _ s0 s1 | .mathTwo _ _ s0 s1 | .sends _ s0 s1 _ _ => [s0, s1]
  | .three _ _ s0 s1 s2 => [s0, s1, s2]
  | .bare _ | .branchOne | .branchTwo | .jmpi | .call _ => []

/-- What a selected shape has of its record: the format of the class (R163), the class's operand shape (R164), and the
record's operands. -/
structure Shape.Fits (shape : Shape) (ins : Instruction) : Prop where
  format : shape.format = Layout.formatOf ins
  shapeOk : ins.body.shapeOk ins.opcode.opClass = true
  destination : ins.body.destination = shape.destination
  sources : ins.body.sources = shape.sources

theorem bareShape_eq_ok {fmt : FormatTag} {b : InsBody} {shape : Shape} (h : bareShape fmt b = .ok shape) :
    shape = .bare fmt ∧ b.destination = none ∧ b.sources = [] ∧ b.payload = .none := by
  unfold bareShape at h
  split at h <;> simp_all

theorem mathShape_eq_ok {b : InsBody} {shape : Shape} (h : mathShape b = .ok shape) :
    ∃ fn d, b.payload = .math fn ∧ b.destination = some d ∧
      ((∃ s0, fn.sources = 1 ∧ b.sources = [s0] ∧ shape = .mathOne fn d s0) ∨
       (∃ s0 s1, fn.sources = 2 ∧ b.sources = [s0, s1] ∧ shape = .mathTwo fn d s0 s1)) := by
  unfold mathShape at h
  split at h
  · split at h <;> simp_all
  · simp at h

theorem branchShape_eq_ok {b : InsBody} {wantUip : Bool} {shape shape' : Shape}
    (h : branchShape b wantUip shape = .ok shape') :
    shape' = shape ∧ b.destination = none ∧ b.sources = [] ∧
      ∃ jip uip, b.payload = .branch jip uip ∧ uip.isSome = wantUip := by
  unfold branchShape at h
  split at h
  · split at h <;> simp_all
  · simp at h

theorem sendSources_eq_ok {b : InsBody} {n : Nat} {d : Operand} {srcs : List Operand}
    (h : sendSources b n = .ok (d, srcs)) : b.destination = some d ∧ b.sources = srcs := by
  unfold sendSources at h
  split at h
  · split_ifs at h
    simp_all
  · simp at h

theorem payload_of_sendDescriptors {b : InsBody} {split : Bool} {r : Descriptor × Descriptor}
    (h : sendDescriptors b split = .ok r) : ∃ desc exDesc, b.payload = .send desc exDesc := by
  unfold sendDescriptors at h
  split at h
  · exact ⟨_, _, ‹_›⟩
  · simp at h

theorem sendShape_eq_ok {b : InsBody} {split : Bool} {shape : Shape} (h : sendShape b split = .ok shape) :
    ∃ desc exDesc d dv xv, b.payload = .send desc exDesc ∧ b.destination = some d ∧
      ((∃ s0, split = false ∧ b.sources = [s0] ∧ shape = .send d s0 dv xv) ∨
       (∃ s0 s1, split = true ∧ b.sources = [s0, s1] ∧ shape = .sends d s0 s1 dv xv)) := by
  simp only [sendShape, bind_eq_ok, Prod.exists] at h
  obtain ⟨d, srcs, hsrcs, dv, xv, hdesc, h⟩ := h
  obtain ⟨hd, rfl⟩ := sendSources_eq_ok hsrcs
  obtain ⟨desc, exDesc, hp⟩ := payload_of_sendDescriptors hdesc
  refine ⟨desc, exDesc, d, dv, xv, hp, hd, ?_⟩
  split at h <;> simp_all

/-- All that the selector can answer: a shape that fits the record (R163, R164). -/
theorem select_fits {ins : Instruction} {shape : Shape} (h : select ins = .ok shape) : shape.Fits ins := by
  obtain ⟨opcode, b⟩ := ins
  cases hc : opcode.opClass <;> simp only [select, hc] at h
  case illegal | nop =>
    obtain ⟨rfl, hd, hs, hp⟩ := bareShape_eq_ok h
    constructor <;> simp [Shape.format, Layout.formatOf, InsBody.shapeOk, hc, hd, hs, hp]
  case oneSrc | twoSrc | threeSrc | wait | call =>
    split at h
    · cases h
      constructor <;> simp_all [Shape.format, Layout.formatOf, InsBody.shapeOk]
    · simp at h
  case math =>
    obtain ⟨fn, d, hp, hd, ⟨s0, hn, hs, rfl⟩ | ⟨s0, s1, hn, hs, rfl⟩⟩ := mathShape_eq_ok h <;>
      constructor <;> simp [Shape.format, Layout.formatOf, InsBody.shapeOk, hc, hd, hs, hp, hn]
  case send =>
    obtain ⟨desc, exDesc, d, dv, xv, hp, hd, ⟨s0, -, hs, rfl⟩ | ⟨_, _, hn, -⟩⟩ := sendShape_eq_ok h
    · constructor <;> simp [Shape.format, Layout.formatOf, InsBody.shapeOk, hc, hd, hs, hp]
    · cases hn
  case sends =>
    obtain ⟨desc, exDesc, d, dv, xv, hp, hd, ⟨_, hn, -⟩ | ⟨s0, s1, -, hs, rfl⟩⟩ := sendShape_eq_ok h
    · cases hn
    · constructor <;> simp [Shape.format, Layout.formatOf, InsBody.shapeOk, hc, hd, hs, hp]
  case branchOneSrc | branchTwoSrc | jmpi =>
    obtain ⟨rfl, hd, hs, jip, uip, hp, hu⟩ := branchShape_eq_ok h
    cases uip <;> cases hu
    constructor <;> simp [Shape.format, Layout.formatOf, InsBody.shapeOk, hc, hd, hs, hp]

/-! ## Encoders that spare a bit -/

/-- Packing the field leaves bit `k` at 0 where it is 0. -/
def Spares (k : Nat) (f : Field) : Prop := k < f.off ∨ f.off + f.width ≤ k ∨ f.value = 0

/-- The fields that an encoder answers, if it answers any, spare bit `k`. -/
def FieldsSpare (k : Nat) (x : Except Cause (List Field)) : Prop := ∀ fs, x = .ok fs → ∀ f ∈ fs, Spares k f

@[simp] theorem fieldsSpare_ok {k : Nat} {fs : List Field} : FieldsSpare k (.ok fs) ↔ ∀ f ∈ fs, Spares k f := by
  simp [FieldsSpare]

@[simp] theorem fieldsSpare_error {k : Nat} {c : Cause} : FieldsSpare k (.error c) := by simp [FieldsSpare]

@[simp] theorem fieldsSpare_bind {α : Type} {k : Nat} {x : Except Cause α} {g : α → Except Cause (List Field)} :
    FieldsSpare k (x >>= g) ↔ ∀ a, x = .ok a → FieldsSpare k (g a) := by
  cases x <;> simp

theorem pack_getLsbD_of_spares {n : Nat} {w w' : BitVec n} {f : Field} {k : Nat} (hf : Spares k f)
    (h : pack w f.off f.width f.value = .ok w') (hw : w.getLsbD k = false) : w'.getLsbD k = false := by
  obtain ⟨-, -, hpack⟩ | ⟨-, hpack⟩ := pack_cases w f.off f.width f.value
  · obtain rfl : setField w f.off f.width f.value = w' := by simpa [hpack] using h
    rw [getLsbD_setField]
    split_ifs with hin
    · obtain hhi | hlo | hv := hf
      · omega
      · omega
      · simp [hv]
    · exact hw
  · simp [hpack] at h

theorem packFields_getLsbD_of_spares {n : Nat} {w w' : BitVec n} {fs : List Field} {k : Nat}
    (hfs : ∀ f ∈ fs, Spares k f) (h : packFields w fs = .ok w') (hw : w.getLsbD k = false) :
    w'.getLsbD k = false := by
  induction fs generalizing w with
  | nil => simpa [← show w = w' by simpa [packFields] using h] using hw
  | cons f fs ih =>
    obtain ⟨hf, hfs⟩ := List.forall_mem_cons.mp hfs
    cases hp : pack w f.off f.width f.value with
    | error c => simp [packFields, hp] at h
    | ok v => exact ih hfs (by simpa [packFields, hp] using h) (pack_getLsbD_of_spares hf hp hw)

/-! ## Bit 53 of a native word (R181)

No encoder packs a field there but the header, which packs 0. -/

theorem predicateFields_spare (cfg : Cfg) (p : Option Predicate) : FieldsSpare 53 (predicateFields cfg p) := by
  cases p <;> simp [predicateFields, Spares]

theorem condModFields_spare (cfg : Cfg) (ins : Instruction) : FieldsSpare 53 (condModFields cfg ins) := by
  simp only [condModFields, fieldsSpare_bind]
  split
  · simp
  · split <;> simp [Spares]

theorem encodeHeader_spare (cfg : Cfg) (opc : BitVec 7) (fmt : FormatTag) (ins : Instruction) (back : Bool) :
    FieldsSpare 53 (encodeHeader cfg opc fmt ins back) := by
  simp only [encodeHeader, fieldsSpare_bind, fieldsSpare_ok, List.forall_mem_append]
  intro _ _ _ _ _ _ flags hflags cond hcond _ _
  exact ⟨⟨by simp [Spares], predicateFields_spare _ _ _ hflags⟩, condModFields_spare _ _ _ hcond⟩

theorem encodeDstReg_spare (cfg : Cfg) (mode : AccessMode) (d : RegOperand) :
    FieldsSpare 53 (encodeDstReg cfg mode d) := by
  cases mode <;> cases hd : d.addressing <;>
    simp +contextual [encodeDstReg, hd, dstAlign1Direct, dstAlign1Indirect, dstAlign16Direct, Spares]

theorem encodeDst_spare (cfg : Cfg) (mode : AccessMode) (d : Operand) : FieldsSpare 53 (encodeDst cfg mode d) := by
  cases d with
  | imm i => exact fieldsSpare_error
  | reg r => exact encodeDstReg_spare cfg mode r

/-- The source slots lie in the upper half of the word. -/
theorem lt_slotBase_add (k n : Nat) : 53 < slotBase k + n := by
  unfold slotBase
  omega

theorem spares_rfPos (k v : Nat) : Spares 53 ⟨rfPos k, 2, v⟩ := by
  unfold rfPos
  split <;> simp [Spares]

theorem spares_tyPos (k v : Nat) : Spares 53 ⟨tyPos k, 4, v⟩ := by
  unfold tyPos
  split <;> simp [Spares]

theorem spares_slotBase (k n width v : Nat) : Spares 53 ⟨slotBase k + n, width, v⟩ := .inl (lt_slotBase_add k n)

theorem encodeSrcReg_spare (cfg : Cfg) (mode : AccessMode) (region : SrcRegion) (overlay : Bool) (k : Nat)
    (s : RegOperand) : FieldsSpare 53 (encodeSrcReg cfg mode region overlay k s) := by
  have h0 (width v : Nat) : Spares 53 ⟨slotBase k, width, v⟩ := spares_slotBase k 0 width v
  cases mode <;> cases hs : s.addressing <;>
    simp +contextual [encodeSrcReg, hs, srcAlign1Direct, srcAlign1Indirect, srcAlign16Direct, regionFields_eq_ok,
      spares_rfPos, spares_tyPos, spares_slotBase, h0]

theorem encodeImm_spare (cfg : Cfg) (sole : Bool) (k : Nat) (i : ImmOperand) :
    FieldsSpare 53 (encodeImm cfg sole k i) := by
  simp only [encodeImm, fieldsSpare_bind, fieldsSpare_ok, List.forall_mem_cons, spares_rfPos, spares_tyPos]
  intros
  split <;> simp [Spares]

theorem encodeSrc_spare (cfg : Cfg) (ins : Instruction) (sole : Bool) (k : Nat) (s : Operand) :
    FieldsSpare 53 (encodeSrc cfg ins sole k s) := by
  cases s with
  | imm i => exact encodeImm_spare cfg sole k i
  | reg r => exact encodeSrcReg_spare cfg _ _ _ k r

theorem encodeOneSrc_spare (cfg : Cfg) (ins : Instruction) (d s0 : Operand) :
    FieldsSpare 53 (encodeOneSrc cfg ins d s0) := by
  simp only [encodeOneSrc, fieldsSpare_bind, fieldsSpare_ok, List.forall_mem_append]
  intro fd hd f0 h0
  exact ⟨encodeDst_spare _ _ _ fd hd, encodeSrc_spare _ _ _ _ _ f0 h0⟩

theorem encodeTwoSrc_spare (cfg : Cfg) (ins : Instruction) (d s0 s1 : Operand) :
    FieldsSpare 53 (encodeTwoSrc cfg ins d s0 s1) := by
  simp only [encodeTwoSrc, fieldsSpare_bind, fieldsSpare_ok, List.forall_mem_append]
  intro fd hd f0 h0 f1 h1
  exact ⟨⟨encodeDst_spare _ _ _ fd hd, encodeSrc_spare _ _ _ _ _ f0 h0⟩, encodeSrc_spare _ _ _ _ _ f1 h1⟩

theorem mathPatch_spare (cfg : Cfg) (fn : MathFn) : FieldsSpare 53 (mathPatch cfg fn) := by
  simp [mathPatch, Spares]

theorem encodeWait_spare (cfg : Cfg) (s : Operand) : FieldsSpare 53 (encodeWait cfg s) := by
  cases s with
  | imm i => exact fieldsSpare_error
  | reg r =>
    simp only [encodeWait, fieldsSpare_bind, fieldsSpare_ok, List.forall_mem_append]
    intro _ _ fd hd fs hs
    exact ⟨encodeDstReg_spare _ _ _ fd hd, encodeSrcReg_spare _ _ _ _ _ _ fs hs⟩

theorem encodeCall_spare (cfg : Cfg) (d : Operand) : FieldsSpare 53 (encodeCall cfg d) := by
  cases d with
  | imm i => exact fieldsSpare_error
  | reg r =>
    simp only [encodeCall, fieldsSpare_bind, fieldsSpare_ok, List.forall_mem_append]
    intro _ _ fd hd
    exact ⟨⟨encodeDstReg_spare _ _ _ fd hd, by simp [noSrc0Fields, Spares]⟩, by simp [jipOperandFields, Spares]⟩

theorem encodeSend_spare (cfg : Cfg) (ins : Instruction) (d s0 : Operand) (desc exDesc : Descriptor) :
    FieldsSpare 53 (encodeSend cfg ins d s0 desc exDesc) := by
  simp only [encodeSend, fieldsSpare_bind, fieldsSpare_ok, List.forall_mem_append]
  intro _ _ _ _ fd hd _ _ _ _ _ _ f0 h0
  refine ⟨⟨⟨encodeDst_spare _ _ _ fd hd, encodeSrc_spare _ _ _ _ _ f0 h0⟩, by simp [Spares]⟩, ?_⟩
  cases desc <;> simp [Spares]

theorem encodeSends_spare (cfg : Cfg) (d s0 s1 : Operand) (desc exDesc : Descriptor) :
    FieldsSpare 53 (encodeSends cfg d s0 s1 desc exDesc) := by
  simp only [encodeSends, fieldsSpare_bind, fieldsSpare_ok, List.forall_mem_append]
  intro _ _ _ _ _ _
  refine ⟨⟨by simp [Spares], ?_⟩, ?_⟩
  · cases desc <;> simp [Spares]
  · cases exDesc <;> simp [exDescFields, Spares]

/-! ### Three sources -/

theorem dst16_spare (cfg : Cfg) (d : Operand) : FieldsSpare 53 (dst16 cfg d) := by
  simp [dst16, Spares]

theorem src16_spare (cfg : Cfg) (k : Nat) (s : Operand) : FieldsSpare 53 (src16 cfg k s) := by
  unfold src16 slot16
  split <;> simp [Spares]

theorem dst1_spare (cfg : Cfg) (d : Operand) : FieldsSpare 53 (dst1 cfg d) := by
  simp [dst1, Spares]

theorem src1_spare (cfg : Cfg) (execSize k : Nat) (s : Operand) : FieldsSpare 53 (src1 cfg execSize k s) := by
  cases s with
  | imm i =>
    simp only [src1, src1Imm, slot1]
    split <;> simp [Spares]
  | reg r =>
    simp only [src1, src1Reg, slot1]
    split <;> simp [Spares]

theorem encodeThreeSrc_spare (cfg : Cfg) (ins : Instruction) (d s0 s1 s2 : Operand) :
    FieldsSpare 53 (encodeThreeSrc cfg ins d s0 s1 s2) := by
  rw [encodeThreeSrc, fieldsSpare_bind]
  intro _ _
  split <;> simp only [fieldsSpare_bind, fieldsSpare_ok, List.forall_mem_append] <;> intro fd hd f0 h0 f1 h1 f2 h2
  · exact ⟨⟨⟨dst16_spare _ _ fd hd, src16_spare _ _ _ f0 h0⟩, src16_spare _ _ _ f1 h1⟩, src16_spare _ _ _ f2 h2⟩
  · exact ⟨⟨⟨dst1_spare _ _ fd hd, src1_spare _ _ _ _ f0 h0⟩, src1_spare _ _ _ _ f1 h1⟩, src1_spare _ _ _ _ f2 h2⟩

/-! ### The whole word -/

theorem encodeOperands_spare (cfg : Cfg) (ins : Instruction) (shape : Shape) :
    FieldsSpare 53 (encodeOperands cfg ins shape) := by
  cases shape with
  | bare fmt => simp [encodeOperands]
  | one d s0 => exact encodeOneSrc_spare cfg ins d s0
  | two d s0 s1 => exact encodeTwoSrc_spare cfg ins d s0 s1
  | mathOne fn d s0 =>
    simp only [encodeOperands, fieldsSpare_bind, fieldsSpare_ok, List.forall_mem_append]
    intro fs hs fm hm
    exact ⟨encodeOneSrc_spare _ _ _ _ fs hs, mathPatch_spare _ _ fm hm⟩
  | mathTwo fn d s0 s1 =>
    simp only [encodeOperands, fieldsSpare_bind, fieldsSpare_ok, List.forall_mem_append]
    intro fs hs fm hm
    exact ⟨encodeTwoSrc_spare _ _ _ _ _ fs hs, mathPatch_spare _ _ fm hm⟩
  | three fmt d s0 s1 s2 => exact encodeThreeSrc_spare cfg ins d s0 s1 s2
  | wait s0 => exact encodeWait_spare cfg s0
  | send d s0 desc exDesc => exact encodeSend_spare cfg ins d s0 desc exDesc
  | sends d s0 s1 desc exDesc =>
    simp only [encodeOperands, fieldsSpare_bind, fieldsSpare_ok]
    intro fs hs
    split
    · exact encodeSends_spare _ _ _ _ _ _ fs hs
    · rw [List.forall_mem_append]
      exact ⟨encodeSends_spare _ _ _ _ _ _ fs hs, by simp [Spares]⟩
  | branchOne => simp [encodeOperands, branchOneSrcFields, noDstFields, noSrc0Fields, jipOperandFields, Spares]
  | branchTwo => simp [encodeOperands]
  | jmpi => simp [encodeOperands, jmpiFields, jipOperandFields, Spares]
  | call d => exact encodeCall_spare cfg d

theorem applySendsPatch_getLsbD (cfg : Cfg) (shape : Shape) (w : NativeWord) {k : Nat} (hk : k ≠ 45) :
    (applySendsPatch cfg shape w).getLsbD k = w.getLsbD k := by
  unfold applySendsPatch
  split
  · split
    · rw [sendsPatch, getLsbD_setField, if_neg (by omega)]
    · rfl
  · rfl

/-- What the encoder did if it found no error: opcode, shape, header and operands, then the packing (R165). -/
theorem encodeNative_eq_ok {cfg : Cfg} {back : Bool} {ins : Instruction} {tag : FormatTag} {w : NativeWord}
    (h : encodeNative cfg back ins = .ok (tag, w)) :
    ∃ opc shape header operands w', checkOpcode cfg ins = .ok opc ∧ select ins = .ok shape ∧
      encodeHeader cfg opc shape.format ins back = .ok header ∧ encodeOperands cfg ins shape = .ok operands ∧
      packFields (0 : NativeWord) (header ++ operands) = .ok w' ∧ tag = shape.format ∧
      w = applySendsPatch cfg shape w' := by
  simp only [encodeNative, encodeFields, bind_eq_ok, Except.ok.injEq, Prod.exists, Prod.mk.injEq] at h
  obtain ⟨_, _, hfields, w', hw', rfl, rfl⟩ := h
  obtain ⟨opc, hopc, shape, hshape, header, hheader, operands, hoperands, rfl, rfl⟩ := hfields
  exact ⟨opc, shape, header, operands, w', hopc, hshape, hheader, hoperands, hw', rfl, rfl⟩

/-- A native word has bit 53 at 0 (R150, R181). -/
theorem encodeNative_lengthBit {cfg : Cfg} {back : Bool} {ins : Instruction} {tag : FormatTag} {w : NativeWord}
    (h : encodeNative cfg back ins = .ok (tag, w)) : w.getLsbD 53 = false := by
  obtain ⟨opc, shape, header, operands, w', -, -, hheader, hoperands, hw', -, rfl⟩ := encodeNative_eq_ok h
  rw [applySendsPatch_getLsbD _ _ _ (by decide)]
  refine packFields_getLsbD_of_spares (List.forall_mem_append.mpr ⟨?_, ?_⟩) hw' (by simp)
  · exact encodeHeader_spare _ _ _ _ _ header hheader
  · exact encodeOperands_spare _ _ _ operands hoperands

/-- An encoded record has its class's format and shape (R163, R164). -/
theorem encodeNative_fits {cfg : Cfg} {back : Bool} {ins : Instruction} {tag : FormatTag} {w : NativeWord}
    (h : encodeNative cfg back ins = .ok (tag, w)) :
    tag = Layout.formatOf ins ∧ ins.body.shapeOk ins.opcode.opClass = true := by
  obtain ⟨opc, shape, header, operands, w', -, hshape, -, -, -, rfl, -⟩ := encodeNative_eq_ok h
  exact ⟨(select_fits hshape).format, (select_fits hshape).shapeOk⟩

/-! ## Compaction and offsets keep what bit 53 tells (R150, R347) -/

theorem compactWord_lengthBit (w : NativeWord) (ci di si xi : Fin 32) :
    (compactWord w ci di si xi).getLsbD 53 = true := by
  unfold compactWord
  split <;> simp [getLsbD_setField]

/-- A word that the compaction engine answers tells its length, and is compact in an eligible format only (R371). -/
theorem compact_lengthBit {cfg : Cfg} {policy : CompactionPolicy} {tag : FormatTag} {w : NativeWord}
    {bits : EncodedWord} (hw : w.getLsbD 53 = false) (h : compact cfg policy tag w = .ok bits) :
    (bits.isCompact = true → eligible tag = true) ∧ bits.lengthBit = bits.isCompact := by
  obtain ⟨-, hc⟩ | ⟨-, helig, c, hc', hc⟩ | ⟨-, -, -, hc⟩ | ⟨-, -, hc⟩ := compact_cases cfg policy tag w
  · obtain rfl : EncodedWord.native w = bits := by simpa [hc] using h
    exact ⟨nofun, hw⟩
  · obtain rfl : EncodedWord.compact c = bits := by simpa [hc] using h
    obtain ⟨-, ci, di, si, xi, -, -, -, -, rfl⟩ := tryCompact_some hc'
    exact ⟨fun _ => helig, compactWord_lengthBit w ci di si xi⟩
  · simp [hc] at h
  · simp [hc] at h

theorem writeOffset_lengthBit (bits : EncodedWord) (tag : FormatTag) (which : Target) (v : Int) :
    (writeOffset bits tag which v).lengthBit = bits.lengthBit := by
  unfold writeOffset
  split <;> simp only [EncodedWord.lengthBit, getLsbD_setField] <;> simp

/-- The word that placing an offset answers is `writeOffset`'s (R346). -/
theorem eq_of_placeOffset_ok {cfg : Cfg} {pos target : Nat} {tag : FormatTag} {which : Target}
    {bits bits' : EncodedWord} (h : placeOffset cfg pos target tag which bits = .ok bits') :
    writeOffset bits tag which (branchOffset cfg pos target) = bits' := by
  obtain ⟨-, hp⟩ | ⟨-, hp⟩ := placeOffset_cases cfg pos target tag which bits
  · simpa [hp] using h
  · simp [hp] at h

/-- What an offset keeps wherever it is written, pass 1 keeps (R340). -/
theorem resolveTargets_keeps {P : EncodedWord → Prop} {cfg : Cfg} {labels : List (Label × Nat)} {pos : Nat}
    {tag : FormatTag} (hP : ∀ bits which v, P bits → P (writeOffset bits tag which v))
    {ts : List (Target × Label)} {bits : EncodedWord} {r : EncodedWord × Bool} (hbits : P bits)
    (h : resolveTargets cfg labels pos tag ts bits = .ok r) : P r.1 := by
  induction ts generalizing bits r with
  | nil =>
    obtain rfl : (bits, false) = r := by simpa [resolveTargets] using h
    exact hbits
  | cons t ts ih =>
    obtain ⟨which, l⟩ := t
    cases hl : labelPos labels l with
    | some p =>
      simp only [resolveTargets, hl, bind_eq_ok] at h
      obtain ⟨bits', hplace, h⟩ := h
      obtain rfl := eq_of_placeOffset_ok hplace
      exact ih (hP _ _ _ hbits) h
    | none =>
      simp only [resolveTargets, hl, bind_eq_ok] at h
      obtain ⟨r', hr', h⟩ := h
      obtain rfl : (r'.1, true) = r := by simpa using h
      exact ih (r := r') hbits hr'

/-- What an offset keeps wherever it is written, pass 2 keeps (R343). -/
theorem patchTargets_keeps {P : EncodedWord → Prop} {cfg : Cfg} {labels : List (Label × Nat)} {pos : Nat}
    {tag : FormatTag} (hP : ∀ bits which v, P bits → P (writeOffset bits tag which v))
    {ts : List (Target × Label)} {bits bits' : EncodedWord} (hbits : P bits)
    (h : patchTargets cfg labels pos tag ts bits = .ok bits') : P bits' := by
  induction ts generalizing bits with
  | nil =>
    obtain rfl : bits = bits' := by simpa [patchTargets] using h
    exact hbits
  | cons t ts ih =>
    obtain ⟨which, l⟩ := t
    cases hl : labelPos labels l with
    | some p =>
      simp only [patchTargets, hl, bind_eq_ok] at h
      obtain ⟨bits'', hplace, h⟩ := h
      obtain rfl := eq_of_placeOffset_ok hplace
      exact ih (hP _ _ _ hbits) h
    | none => simp [patchTargets, hl] at h

/-- The two errors of pass 2 are of Fatal classes (R344, R345). -/
theorem patchTargets_error_ne_failure {cfg : Cfg} {labels : List (Label × Nat)} {pos : Nat} {tag : FormatTag}
    {ts : List (Target × Label)} {bits : EncodedWord} {c : Cause}
    (h : patchTargets cfg labels pos tag ts bits = .error c) : c.code ≠ .failure := by
  induction ts generalizing bits with
  | nil => simp [patchTargets] at h
  | cons t ts ih =>
    obtain ⟨which, l⟩ := t
    cases hl : labelPos labels l with
    | some p =>
      obtain ⟨-, hp⟩ | ⟨-, hp⟩ := placeOffset_cases cfg pos p tag which bits
      · exact ih (by simpa [patchTargets, hl, hp] using h)
      · obtain rfl : Cause.branchOffset = c := by simpa [patchTargets, hl, hp] using h
        decide
    | none =>
      obtain rfl : Cause.danglingLabel l = c := by simpa [patchTargets, hl] using h
      nofun

/-- Two words of one length, with the same bit 53. -/
def SameLength (bits bits' : EncodedWord) : Prop :=
  bits'.isCompact = bits.isCompact ∧ bits'.lengthBit = bits.lengthBit

theorem sameLength_writeOffset {bits bits' : EncodedWord} (tag : FormatTag) (which : Target) (v : Int)
    (h : SameLength bits bits') : SameLength bits (writeOffset bits' tag which v) :=
  ⟨by rw [writeOffset_isCompact, h.1], by rw [writeOffset_lengthBit, h.2]⟩

theorem resolveOrDefer_sameLength {cfg : Cfg} {labels : List (Label × Nat)} {pos : Nat} {ins : Instruction}
    {tag : FormatTag} {bits bits' : EncodedWord} {pending : Bool}
    (h : resolveOrDefer cfg labels pos ins tag bits = .ok (bits', pending)) :
    SameLength bits bits' ∧ (pending = true → ins.opcode.isControlFlow = true) := by
  unfold resolveOrDefer at h
  split at h
  · exact ⟨resolveTargets_keeps (P := SameLength bits) (fun _ _ _ => sameLength_writeOffset tag _ _) ⟨rfl, rfl⟩ h,
      fun _ => ‹_›⟩
  · obtain ⟨rfl, rfl⟩ : bits = bits' ∧ false = pending := by simpa using h
    exact ⟨⟨rfl, rfl⟩, nofun⟩

theorem patchTargets_sameLength {cfg : Cfg} {labels : List (Label × Nat)} {pos : Nat} {tag : FormatTag}
    {ts : List (Target × Label)} {bits bits' : EncodedWord} (h : patchTargets cfg labels pos tag ts bits = .ok bits') :
    SameLength bits bits' :=
  patchTargets_keeps (P := SameLength bits) (fun _ _ _ => sameLength_writeOffset tag _ _) ⟨rfl, rfl⟩ h

/-! ## Words of the buffer -/

theorem OutWord.wordOk_iff (o : OutWord) :
    o.wordOk = true ↔ o.tag = Layout.formatOf o.ins ∧ o.ins.body.shapeOk o.ins.opcode.opClass = true ∧
      (o.bits.isCompact = true → eligible o.tag = true) ∧ o.bits.lengthBit = o.bits.isCompact := by
  simp only [OutWord.wordOk, Bool.and_eq_true, beq_iff_eq, and_assoc]
  cases o.bits.isCompact <;> simp

/-- A word of its record's format stays so when its bits change and its length does not. -/
theorem OutWord.wordOk_of_sameLength {o : OutWord} {bits : EncodedWord} (h : o.wordOk = true)
    (hbits : SameLength o.bits bits) : { o with bits := bits }.wordOk = true := by
  rw [OutWord.wordOk_iff] at h ⊢
  rw [hbits.1, hbits.2]
  exact h

/-- A branch word of its record's shape names a label (R164). -/
theorem targets_ne_nil {o : OutWord} (h : o.wordOk = true) (hbranch : o.ins.opcode.isControlFlow = true) :
    o.ins.body.payload.targets ≠ [] := by
  obtain ⟨-, hshape, -⟩ := (OutWord.wordOk_iff o).mp h
  revert hshape hbranch
  cases o.ins.opcode <;> cases hp : o.ins.body.payload with
    | branch jip uip => cases uip <;> simp [Payload.targets]
    | _ => simp [Mnemonic.isControlFlow, Mnemonic.opClass, InsBody.shapeOk, hp]

/-- An Instr command that finds no error has fresh labels, enters them at its position, and appends a word of its
record's format, which it queues only if it is a branch (R165). -/
theorem encodeCommand_emits {s s' : State} {ins : Instruction} {defs : List Label}
    (h : encodeCommand s ins defs = .ok s') :
    Layout.labelsFresh s.labels defs = true ∧ ∃ tag bits pending,
      s' = s.emit (Layout.labelsAfter s defs) tag bits ins pending ∧
      OutWord.wordOk { pos := s.pos, tag := tag, bits := bits, ins := ins } = true ∧
      (pending = true → ins.opcode.isControlFlow = true) := by
  obtain ⟨labels, tag, w, bits, bits', pending, hlabels, hnative, hcompact, hresolve, rfl⟩ := encodeCommand_ok h
  obtain ⟨hfresh, henter⟩ | ⟨-, l, -, henter⟩ := enterLabels_cases s.labels s.pos defs
  · obtain rfl : Layout.labelsAfter s defs = labels := by simpa [henter, Layout.labelsAfter] using hlabels
    obtain ⟨htag, hshape⟩ := encodeNative_fits hnative
    obtain ⟨helig, hlength⟩ := compact_lengthBit (encodeNative_lengthBit hnative) hcompact
    obtain ⟨⟨hisCompact, hbit⟩, hpending⟩ := resolveOrDefer_sameLength hresolve
    refine ⟨hfresh, tag, bits', pending, rfl, ?_, hpending⟩
    rw [OutWord.wordOk_iff, hisCompact, hbit]
    exact ⟨htag, hshape, helig, hlength⟩
  · simp [henter] at hlabels

theorem EncodedWord.units_eq (bits : EncodedWord) : bits.units = if bits.isCompact then 1 else 2 := by
  cases bits <;> rfl

end Sys2Proof.Machine
end

section
/-! PROOFS. All that a step of the block does, and the invariant of the session (10_state.md R20 to R30),
with the statements about phases, commands, the appended word, the output and the end of a session (R39, R40, R42, R335,
R343). -/

namespace Sys2Proof.Machine

/-! ## One step -/

/-- The state with the next entry of the input stream consumed (R38). -/
def State.consume (s : State) : State := { s with input := s.input.tail }

@[simp] theorem State.consume_phase (s : State) : s.consume.phase = s.phase := rfl

@[simp] theorem State.consume_pos (s : State) : s.consume.pos = s.pos := rfl

@[simp] theorem State.consume_count (s : State) : s.consume.count = s.count := rfl

@[simp] theorem State.consume_labels (s : State) : s.consume.labels = s.labels := rfl

@[simp] theorem State.consume_deferred (s : State) : s.consume.deferred = s.deferred := rfl

@[simp] theorem State.consume_out (s : State) : s.consume.out = s.out := rfl

@[simp] theorem State.consume_status (s : State) : s.consume.status = s.status := rfl

@[simp] theorem State.consume_cfg (s : State) : s.consume.cfg = s.cfg := rfl

@[simp] theorem State.consume_input (s : State) : s.consume.input = s.input.tail := rfl

theorem State.consume_of_nil {s : State} (hin : s.input = []) : s.consume = s := by
  rw [State.consume, hin, List.tail_nil, ← hin]

theorem State.consume_of_cons {s : State} {c : Option Command} {rest : List (Option Command)}
    (hin : s.input = c :: rest) : s.consume = { s with input := rest } := by
  rw [State.consume, hin, List.tail_cons]

/-- The word of a deferred entry patched and the entry taken off the queue (R343). -/
def State.resolveFirst (s : State) (e : DeferredEntry) (rest : List DeferredEntry) (o : OutWord) (bits : EncodedWord) :
    State :=
  { s with out := replaceAt s.out e.index { o with bits := bits }, deferred := rest }

/-- The ways in which an Instr command can end (R39, R165, R403). -/
inductive InstrEnds (i : Instr) (s : State) : State → Prop
  | refused (hphase : s.phase ≠ .scanning) : InstrEnds i s s.refuse
  | emitted {tag : FormatTag} {bits : EncodedWord} {pending : Bool} (hphase : s.phase = .scanning)
      (hcommand : encodeCommand s i.instruction i.defs =
        .ok (s.emit (Layout.labelsAfter s i.defs) tag bits i.instruction pending))
      (hfresh : Layout.labelsFresh s.labels i.defs = true)
      (hword : OutWord.wordOk { pos := s.pos, tag := tag, bits := bits, ins := i.instruction } = true)
      (hpending : pending = true → i.instruction.opcode.isControlFlow = true) :
      InstrEnds i s (s.emit (Layout.labelsAfter s i.defs) tag bits i.instruction pending)
  | raised {c : Cause} (hphase : s.phase = .scanning)
      (hcommand : encodeCommand s i.instruction i.defs = .error c) : InstrEnds i s (s.raise s.count c)

/-- Every Instr command that does not stop ends in one of these ways. -/
theorem exec_ends {i : Instr} {s t : State} (h : exec i s = .next t) : InstrEnds i s t := by
  rw [exec_eq_instrCommand] at h
  obtain ⟨hphase, hi⟩ | ⟨hphase, s', hs', hi⟩ | ⟨hphase, c, hc, hi⟩ := instrCommand_cases i.instruction i.defs s
  · obtain rfl : s.refuse = t := by simpa [hi] using h
    exact .refused hphase
  · obtain rfl : s' = t := by simpa [hi] using h
    obtain ⟨hfresh, tag, bits, pending, rfl, hword, hpending⟩ := encodeCommand_emits hs'
    exact .emitted hphase hs' hfresh hword hpending
  · obtain rfl : s.raise s.count c = t := by simpa [hi] using h
    exact .raised hphase hc

/-- The ways in which a step can end, the input already consumed, at which no command is given (R343, R454). -/
inductive QuietEnds (s : State) : State → Prop
  | held (hphase : s.phase ≠ .finalizing) : QuietEnds s s
  | done (hphase : s.phase = .finalizing) (hqueue : s.deferred = []) : QuietEnds s { s with phase := .done }
  | resolved {e : DeferredEntry} {rest : List DeferredEntry} {o : OutWord} {bits : EncodedWord}
      (hphase : s.phase = .finalizing) (hqueue : s.deferred = e :: rest) (hword : s.out[e.index]? = some o)
      (hpatch : patchTargets s.cfg s.labels e.pos o.tag o.ins.body.payload.targets o.bits = .ok bits) :
      QuietEnds s (s.resolveFirst e rest o bits)
  | raised {e : DeferredEntry} {rest : List DeferredEntry} {o : OutWord} {c : Cause} (hphase : s.phase = .finalizing)
      (hqueue : s.deferred = e :: rest) (hword : s.out[e.index]? = some o)
      (hpatch : patchTargets s.cfg s.labels e.pos o.tag o.ins.body.payload.targets o.bits = .error c) :
      QuietEnds s (s.raise e.index c)

/-- A step with no command that does not stop ends in one of these ways. -/
theorem quietStep_ends {s t : State} (h : quietStep s = .next t) : QuietEnds s t := by
  obtain ⟨hphase, hq⟩ | ⟨hphase, hq⟩ := quietStep_cases s <;> rw [hq] at h
  · obtain ⟨hqueue, hp⟩ | ⟨e, rest, o, bits, hqueue, hword, -, hpatch, hp⟩ | ⟨e, rest, o, c, hqueue, hword, hpatch, hp⟩ |
      ⟨e, rest, -, -, f, hp⟩ := pass2Step_cases s <;> rw [hp] at h
    · cases h
      exact .done hphase hqueue
    · cases h
      exact .resolved hphase hqueue hword hpatch
    · cases h
      exact .raised hphase hqueue hword hpatch
    · cases h
  · cases h
    exact .held hphase

/-- The ways in which a step can end (R8, R38). -/
inductive StepEnds (s : State) : State → Prop
  | quiet {t : State} (hin : s.input.head?.join = none) (hends : QuietEnds s.consume t) : StepEnds s t
  | reset (hin : s.input.head? = some (some .reset)) : StepEnds s s.consume.resetSession
  | finalizing (hin : s.input.head? = some (some .finish)) (hphase : s.phase = .scanning) :
      StepEnds s { s.consume with phase := .finalizing, report := some .ok }
  | endRefused (hin : s.input.head? = some (some .finish)) (hphase : s.phase ≠ .scanning) : StepEnds s s.consume.refuse
  | instr {i : Instr} {t : State} (hin : s.input.head? = some (some (.instr i))) (hends : InstrEnds i s.consume t) :
      StepEnds s t

theorem endCommand_scanning {s : State} (h : s.phase = .scanning) :
    endCommand s = .next { s with phase := .finalizing, report := some .ok } := if_pos h

theorem endCommand_refused {s : State} (h : s.phase ≠ .scanning) : endCommand s = .next s.refuse := if_neg h

/-- A step at which no command is given (R343, R454). -/
theorem step_quiet {s : State} (hin : s.input.head?.join = none) : step s = quietStep s.consume := by
  obtain ⟨hnil, hs⟩ | ⟨rest, hnone, hs⟩ | ⟨c, rest, hsome, -⟩ := step_cases s
  · rw [hs, State.consume_of_nil hnil]
  · rw [hs, State.consume_of_cons hnone]
  · simp [hsome] at hin

/-- Every step that does not stop ends in one of these ways. -/
theorem step_ends {s t : State} (h : step s = .next t) : StepEnds s t := by
  obtain ⟨hin, -⟩ | ⟨rest, hin, -⟩ | ⟨c, rest, hin, hs⟩ := step_cases s
  · have hquiet : s.input.head?.join = none := by simp [hin]
    exact .quiet hquiet (quietStep_ends ((step_quiet hquiet).symm.trans h))
  · have hquiet : s.input.head?.join = none := by simp [hin]
    exact .quiet hquiet (quietStep_ends ((step_quiet hquiet).symm.trans h))
  · rw [hs, ← State.consume_of_cons hin] at h
    cases c with
    | reset =>
      cases h
      exact .reset (by simp [hin])
    | instr i => exact .instr (by simp [hin]) (exec_ends h)
    | finish =>
      by_cases hphase : s.phase = .scanning
      · cases (endCommand_scanning (s := s.consume) hphase).symm.trans h
        exact .finalizing (by simp [hin]) hphase
      · cases (endCommand_refused (s := s.consume) hphase).symm.trans h
        exact .endRefused (by simp [hin]) hphase

/-! ## The invariant, one operation at a time -/

/-- What a replaced entry has in common with the old one stays in the list. -/
theorem map_replaceAt {α β : Type} {f : α → β} {xs : List α} {i : Nat} {a a' : α} (hi : xs[i]? = some a)
    (hf : f a' = f a) : (replaceAt xs i a').map f = xs.map f := by
  induction xs generalizing i with
  | nil => rfl
  | cons x xs ih =>
    cases i with
    | zero =>
      obtain rfl : x = a := by simpa using hi
      simp [replaceAt, hf]
    | succ i => simpa [replaceAt] using ih (by simpa using hi)

theorem totalUnits_replaceAt {ws : List OutWord} {i : Nat} {o o' : OutWord} (hi : ws[i]? = some o)
    (hunits : o'.bits.units = o.bits.units) : totalUnits (replaceAt ws i o') = totalUnits ws := by
  rw [totalUnits, totalUnits, map_replaceAt hi hunits]

theorem mem_replaceAt {α : Type} {xs : List α} {i : Nat} {a x : α} (h : x ∈ replaceAt xs i a) : x = a ∨ x ∈ xs := by
  obtain ⟨k, hk⟩ := List.mem_iff_getElem?.mp h
  rw [getElem?_replaceAt] at hk
  split at hk
  · obtain ⟨_, -, rfl⟩ := Option.map_eq_some_iff.mp hk
    exact .inl rfl
  · exact .inr (List.mem_of_getElem? hk)

theorem entryOk_iff {out : List OutWord} {e : DeferredEntry} :
    entryOk out e = true ↔ ∃ o, out[e.index]? = some o ∧ o.pos = e.pos ∧ o.ins.opcode.isControlFlow = true := by
  unfold entryOk
  cases out[e.index]? <;> simp

theorem index_lt_of_entryOk {out : List OutWord} {e : DeferredEntry} (h : entryOk out e = true) :
    e.index < out.length := by
  obtain ⟨o, ho, -⟩ := entryOk_iff.mp h
  exact (List.getElem?_eq_some_iff.mp ho).1

theorem entryOk_append {out : List OutWord} {e : DeferredEntry} (h : entryOk out e = true) (o : OutWord) :
    entryOk (out ++ [o]) e = true := by
  rwa [entryOk, List.getElem?_append_left (index_lt_of_entryOk h), ← entryOk]

theorem entryOk_concat {out : List OutWord} {o : OutWord} (hbranch : o.ins.opcode.isControlFlow = true) :
    entryOk (out ++ [o]) { index := out.length, pos := o.pos } = true :=
  entryOk_iff.mpr ⟨o, List.getElem?_concat_length, rfl, hbranch⟩

/-- An entry keeps naming a branch word when a word is replaced by one of its place and record. -/
theorem entryOk_replaceAt {out : List OutWord} {e : DeferredEntry} {i : Nat} {o : OutWord} (hi : out[i]? = some o)
    (h : entryOk out e = true) (bits : EncodedWord) : entryOk (replaceAt out i { o with bits := bits }) e = true := by
  obtain ⟨v, hv, hpos, hbranch⟩ := entryOk_iff.mp h
  rw [entryOk_iff, getElem?_replaceAt]
  split
  · obtain rfl : o = v := by simp_all
    exact ⟨{ o with bits := bits }, by simp [hv], hpos, hbranch⟩
  · exact ⟨v, hv, hpos, hbranch⟩

/-- Fresh labels entered beside labels that are there once are there once (R25). -/
theorem nodup_labelsAfter {s : State} {defs : List Label} (hnodup : (s.labels.map Prod.fst).Nodup)
    (hfresh : Layout.labelsFresh s.labels defs = true) : ((Layout.labelsAfter s defs).map Prod.fst).Nodup := by
  simp only [Layout.labelsFresh, Bool.and_eq_true, decide_eq_true_eq, List.all_eq_true, Option.isNone_iff_eq_none,
    labelPos, List.lookup_eq_none_iff] at hfresh
  obtain ⟨hdefs, habsent⟩ := hfresh
  simp only [Layout.labelsAfter, List.map_append, List.map_map, Function.comp_def, List.map_id']
  refine hnodup.append hdefs fun l hl hl' => ?_
  obtain ⟨e, he, rfl⟩ := List.mem_map.mp hl
  simpa using habsent _ hl' e he

/-- An error leads to one of two phases (R400). -/
theorem ErrCode.phase_cases (c : ErrCode) : c.phase = .aborted ∨ c.phase = .failed := by
  cases c <;> simp [ErrCode.phase]

section
variable {s : State} (h : s.Inv)
include h

theorem State.Inv.consume : s.consume.Inv := { h with }

theorem State.Inv.refuse : s.refuse.Inv := { h with }

theorem State.Inv.raise (index : Nat) (c : Cause) : (s.raise index c).Inv :=
  { h with
    done_resolved := fun hdone => by
      obtain hphase | hphase := c.code.phase_cases <;> simp [hphase] at hdone
    healthy := fun haborted hfailed => (c.code.phase_cases.elim haborted hfailed).elim
    stopped := fun _ => ⟨c.code, rfl, rfl⟩ }

/-- A phase that is neither `Done` nor an error's is taken with the status as it is. -/
theorem State.Inv.finalizing (hphase : s.phase = .scanning) (r : Option CommandReport) :
    { s with phase := .finalizing, report := r }.Inv :=
  { h with
    done_resolved := nofun
    healthy := fun _ _ => h.healthy (by simp [hphase]) (by simp [hphase])
    stopped := nofun }

theorem State.Inv.done (hphase : s.phase = .finalizing) (hqueue : s.deferred = []) : { s with phase := .done }.Inv :=
  { h with
    done_resolved := fun _ => hqueue
    healthy := fun _ _ => h.healthy (by simp [hphase]) (by simp [hphase])
    stopped := nofun }

theorem State.Inv.index_lt {e : DeferredEntry} (he : e ∈ s.deferred) : e.index < s.count :=
  h.count ▸ index_lt_of_entryOk (h.deferred_branches e he)

theorem State.Inv.resolveFirst {e : DeferredEntry} {rest : List DeferredEntry} {o : OutWord} {bits : EncodedWord}
    (hphase : s.phase = .finalizing) (hqueue : s.deferred = e :: rest) (hword : s.out[e.index]? = some o)
    (hbits : SameLength o.bits bits) : (s.resolveFirst e rest o bits).Inv := by
  have hunits : bits.units = o.bits.units := by rw [EncodedWord.units_eq, EncodedWord.units_eq, hbits.1]
  have horder := h.deferred_order
  rw [hqueue, List.map_cons, List.pairwise_cons] at horder
  exact
  { h with
    layout := contiguous_replaceAt 0 _ _ _ _ h.layout hword rfl hunits
    pos := h.pos.trans (totalUnits_replaceAt hword hunits).symm
    count := h.count.trans (length_replaceAt _ _ _).symm
    words := fun v hv => by
      obtain rfl | hv := mem_replaceAt hv
      · exact OutWord.wordOk_of_sameLength (h.words o (List.mem_of_getElem? hword)) hbits
      · exact h.words v hv
    labels_placed := fun l hl => by
      have hold : l.2 ∈ s.out.map OutWord.pos := List.mem_map.mpr (h.labels_placed l hl)
      rw [← map_replaceAt hword (a' := { o with bits := bits }) rfl] at hold
      exact List.mem_map.mp hold
    deferred_branches := fun v hv =>
      entryOk_replaceAt hword (h.deferred_branches v (hqueue ▸ List.mem_cons_of_mem e hv)) bits
    deferred_order := horder.2
    done_resolved := fun hdone => by simp [State.resolveFirst, hphase] at hdone }

theorem State.Inv.emit {i : Instr} {tag : FormatTag} {bits : EncodedWord} {pending : Bool}
    (hphase : s.phase = .scanning) (hfresh : Layout.labelsFresh s.labels i.defs = true)
    (hword : OutWord.wordOk { pos := s.pos, tag := tag, bits := bits, ins := i.instruction } = true)
    (hpending : pending = true → i.instruction.opcode.isControlFlow = true) :
    (s.emit (Layout.labelsAfter s i.defs) tag bits i.instruction pending).Inv :=
  { layout := contiguous_append 0 _ _ h.layout (by simpa using h.pos)
    pos := by rw [State.emit_out, totalUnits_append, ← h.pos]; rfl
    count := by simp [h.count]
    words := fun o ho => by
      obtain ho | rfl : o ∈ s.out ∨ o = _ := by simpa using ho
      · exact h.words o ho
      · exact hword
    labels_once := nodup_labelsAfter h.labels_once hfresh
    labels_placed := fun l hl => by
      obtain hl | hl := List.mem_append.mp hl
      · obtain ⟨o, ho, hpos⟩ := h.labels_placed l hl
        exact ⟨o, List.mem_append_left _ ho, hpos⟩
      · obtain ⟨_, -, rfl⟩ := List.mem_map.mp hl
        exact ⟨_, List.mem_append_right _ (List.mem_singleton_self _), rfl⟩
    deferred_branches := fun e he => by
      cases pending with
      | false => exact entryOk_append (h.deferred_branches e he) _
      | true =>
        obtain he | rfl : e ∈ s.deferred ∨ e = _ := by simpa using he
        · exact entryOk_append (h.deferred_branches e he) _
        · exact h.count ▸ entryOk_concat (o := { pos := s.pos, tag, bits, ins := i.instruction }) (hpending rfl)
    deferred_order := by
      cases pending with
      | false => exact h.deferred_order
      | true =>
        rw [State.emit_deferred, if_pos rfl, List.map_append, List.pairwise_append]
        exact ⟨h.deferred_order, List.pairwise_singleton _ _, by simpa using fun e he => h.index_lt he⟩
    done_resolved := fun hdone => by simp [hphase] at hdone
    healthy := h.healthy
    stopped := h.stopped }

end

/-- The state after power-on satisfies the invariant (R42). -/
theorem State.Inv.reset : State.reset.Inv where
  layout := rfl
  pos := rfl
  count := rfl
  words := by simp [State.reset]
  labels_once := .nil
  labels_placed := by simp [State.reset]
  deferred_branches := by simp [State.reset]
  deferred_order := .nil
  done_resolved := by simp [State.reset]
  healthy := by simp [State.reset]
  stopped := by simp [State.reset]

theorem State.Inv.resetSession (s : State) : s.resetSession.Inv := { State.Inv.reset with }

/-- Settles O16, over the ways in which a step can end. -/
theorem invariantKept : Obligations.InvariantKept := by
  intro s t h hstep
  cases step_ends hstep with
  | quiet _ hends =>
    cases hends with
    | held => exact h.consume
    | done hphase hqueue => exact h.consume.done hphase hqueue
    | resolved hphase hqueue hword hpatch =>
      exact h.consume.resolveFirst hphase hqueue hword (patchTargets_sameLength hpatch)
    | raised => exact h.consume.raise _ _
  | reset => exact .resetSession _
  | finalizing _ hphase => exact h.consume.finalizing hphase _
  | endRefused => exact h.consume.refuse
  | instr _ hends =>
    cases hends with
    | refused => exact h.consume.refuse
    | emitted hphase _ hfresh hword hpending => exact h.consume.emit hphase hfresh hword hpending
    | raised => exact h.consume.raise _ _

/-- Settles O15: the state after power-on holds no word. -/
theorem invariantsAtReset : Obligations.InvariantsAtReset :=
  ⟨State.Inv.reset, fun k o ho => by simp [State.reset] at ho⟩

/-! ## Commands -/

/-- Settles O1. -/
theorem resetValues : Obligations.ResetValues := by
  refine ⟨rfl, rfl, rfl, fun _ => rfl, rfl, rfl, rfl, rfl, fun s rest hin => ⟨some .ok, ?_⟩⟩
  rw [step_eq_runCommand hin]
  rfl

theorem exec_refused {s : State} (hphase : s.phase ≠ .scanning) (i : Instr) : exec i s = .next s.refuse := by
  rw [exec_eq_instrCommand]
  exact if_neg hphase

/-- Settles O4. -/
theorem illegalCommandRefused : Obligations.IllegalCommandRefused :=
  fun _ hphase => ⟨exec_refused hphase, endCommand_refused hphase⟩

/-- Settles O12, over the ways in which a step can end. -/
theorem configurationReadOnly : Obligations.ConfigurationReadOnly := by
  intro s t hstep
  cases step_ends hstep with
  | quiet _ hends => cases hends <;> rfl
  | reset | finalizing | endRefused => rfl
  | instr _ hends => cases hends <;> rfl

/-- Settles O14. -/
theorem outputOnlyInDone : Obligations.OutputOnlyInDone :=
  fun _ => ⟨fun hdone => if_pos hdone, fun hother => if_neg hother⟩

/-! ## Phases -/

theorem ErrCode.phase_eq_aborted {c : ErrCode} (hc : c ≠ .failure) : c.phase = .aborted := by
  cases c <;> simp_all [ErrCode.phase]

/-- The final pass-2 step (R343). -/
theorem quietStep_done {s : State} (hphase : s.phase = .finalizing) (hqueue : s.deferred = []) :
    quietStep s = .next { s with phase := .done } := by
  rw [quietStep, if_pos hphase, pass2Step, hqueue]

/-- The transitions of R22, each with its cause. -/
theorem phase_of_step {s t : State} (hstep : step s = .next t) :
    t.phase = s.phase ∨
    (s.input.head? = some (some .reset) ∧ t.phase = .scanning) ∨
    (s.phase = .scanning ∧ s.input.head? = some (some .finish) ∧ t.phase = .finalizing) ∨
    (s.phase = .finalizing ∧ s.input.head?.join = none ∧ s.deferred = [] ∧ t.phase = .done) ∨
    ((s.phase = .scanning ∨ s.phase = .finalizing) ∧ t.phase = .aborted ∧
      ∃ c, t.status.code = some c ∧ c ≠ .failure) ∨
    (s.phase = .scanning ∧ t.phase = .failed ∧ t.status.code = some .failure) := by
  cases step_ends hstep with
  | quiet hin hends =>
    cases hends with
    | held | resolved => exact .inl rfl
    | done hphase hqueue => exact .inr (.inr (.inr (.inl ⟨hphase, hin, hqueue, rfl⟩)))
    | raised hphase _ _ hpatch =>
      have hcode := patchTargets_error_ne_failure hpatch
      exact .inr (.inr (.inr (.inr (.inl ⟨.inr hphase, ErrCode.phase_eq_aborted hcode, _, rfl, hcode⟩))))
  | reset hin => exact .inr (.inl ⟨hin, rfl⟩)
  | finalizing hin hphase => exact .inr (.inr (.inl ⟨hphase, hin, rfl⟩))
  | endRefused => exact .inl rfl
  | instr _ hends =>
    cases hends with
    | refused | emitted => exact .inl rfl
    | @raised c hphase =>
      by_cases hcode : c.code = .failure
      · exact .inr (.inr (.inr (.inr (.inr ⟨hphase, by simp [hcode, ErrCode.phase], by simp [hcode]⟩))))
      · exact .inr (.inr (.inr (.inr (.inl ⟨.inl hphase, ErrCode.phase_eq_aborted hcode, _, rfl, hcode⟩))))

/-- Settles O8: the transitions over the ways in which a step can end, then each listed one by its own step. -/
theorem phaseTransitions : Obligations.PhaseTransitions := by
  refine ⟨fun s t => phase_of_step, ?_, ?_, ?_, ?_⟩
  · intro s rest hin
    exact ⟨_, step_eq_runCommand hin, rfl⟩
  · intro s rest hin hphase
    exact ⟨_, (step_eq_runCommand hin).trans (endCommand_scanning hphase), rfl⟩
  · intro s hphase hin hqueue
    exact (step_quiet hin).trans (quietStep_done (s := s.consume) hphase hqueue)
  · intro i s t hphase hexec
    cases exec_ends hexec with
    | refused hphase' => exact absurd hphase hphase'
    | emitted => exact .inl ⟨rfl, hphase⟩
    | raised => exact .inr ⟨_, rfl, rfl⟩

/-! ## Instr commands -/

/-- Settles O9: the only end of an Instr command in `Scanning` that reports OK is the append. -/
theorem instrAppendsOneWord : Obligations.InstrAppendsOneWord := by
  intro i s t hphase hexec hreport
  cases exec_ends hexec with
  | refused hphase' => exact absurd hphase hphase'
  | raised => cases hreport
  | @emitted tag bits pending =>
    refine ⟨tag, bits, if pending then [{ index := s.count, pos := s.pos }] else [], by cases pending <;> simp, ?_⟩
    rw [State.emit, EncodedWord.units_eq]
    cases pending <;> simp [Layout.labelsAfter]

/-- Settles O44: entering the labels is the first part of the command (R405 step 1). -/
theorem duplicateLabelFails : Obligations.DuplicateLabelFails := by
  intro i s hphase hdup
  obtain ⟨hfresh, -⟩ | ⟨-, l, -, henter⟩ := enterLabels_cases s.labels s.pos i.defs
  · simp [hdup] at hfresh
  · refine ⟨.duplicateLabel l, rfl, ?_⟩
    rw [exec_eq_instrCommand, instrCommand, if_pos hphase, encodeCommand, henter]
    rfl

/-! ## The end of a session -/

/-- Under the invariant the first deferred entry names a branch word, so that a step with no command does not stop
(R408). -/
theorem State.Inv.quietStep_next {s : State} (h : s.Inv) : ∃ t, quietStep s = .next t := by
  obtain ⟨-, hq⟩ | ⟨-, hq⟩ := quietStep_cases s
  · rw [hq]
    obtain ⟨-, hp⟩ | ⟨_, _, _, _, -, -, -, -, hp⟩ | ⟨_, _, _, _, -, -, -, hp⟩ | ⟨e, rest, hqueue, htargets, -⟩ :=
      pass2Step_cases s
    · exact ⟨_, hp⟩
    · exact ⟨_, hp⟩
    · exact ⟨_, hp⟩
    · obtain ⟨o, ho, -, hbranch⟩ := entryOk_iff.mp (h.deferred_branches e (by simp [hqueue]))
      exact absurd (htargets o ho) (targets_ne_nil (h.words o (List.mem_of_getElem? ho)) hbranch)
  · exact ⟨_, hq⟩

theorem run_of_step {s t : State} (hstep : step s = .next t) (k : Nat) :
    Host.Core.run Sys2Proof.core (k + 1) s = Host.Core.run Sys2Proof.core k t := by
  have hcore : Sys2Proof.core.step s = .next t := hstep
  simp only [Host.Core.run, hcore]

/-- With no command given, a state out of `Finalizing` stays (R454). -/
theorem run_held {s : State} (hphase : s.phase ≠ .finalizing) (hin : s.input = []) (k : Nat) :
    Host.Core.run Sys2Proof.core k s = .next s := by
  have hstep : step s = .next s := by
    rw [step_quiet (by simp [hin]), State.consume_of_nil hin]
    exact if_neg hphase
  induction k with
  | zero => rfl
  | succ k ih => exact (run_of_step hstep k).trans ih

/-- Settles O25, by induction on the queue: a pass-2 step takes one entry off it, ends the session or raises an error. -/
theorem finalizingTerminates : Obligations.FinalizingTerminates := by
  intro s
  generalize hq : s.deferred = queue
  induction queue generalizing s with
  | nil =>
    intro h hphase hin
    have hstep : step s = .next { s with phase := .done } := by
      rw [step_quiet (by simp [hin]), State.consume_of_nil hin, quietStep_done hphase hq]
    exact ⟨_, run_of_step hstep 0, .inl ⟨rfl, hq⟩⟩
  | cons e rest ih =>
    intro h hphase hin
    obtain ⟨t, ht⟩ := h.quietStep_next
    have hstep : step s = .next t := by rw [step_quiet (by simp [hin]), State.consume_of_nil hin, ht]
    have hinv : t.Inv := invariantKept s t h hstep
    rw [List.length_cons, run_of_step hstep]
    cases quietStep_ends ht with
    | held hphase' => exact absurd hphase hphase'
    | done _ hqueue => simp [hq] at hqueue
    | resolved _ hqueue =>
      obtain ⟨rfl, rfl⟩ := List.cons.inj (hq.symm.trans hqueue)
      exact ih _ rfl hinv hphase hin
    | @raised e' _ _ c _ _ _ hpatch =>
      have haborted : (s.raise e'.index c).phase = .aborted :=
        ErrCode.phase_eq_aborted (patchTargets_error_ne_failure hpatch)
      exact ⟨_, run_held (s := s.raise e'.index c) (by rw [haborted]; nofun) hin _, .inr haborted⟩

end Sys2Proof.Machine
end

section
/-! PROOFS. The ranges of the records that the block encodes (10_state.md R32 to R36, 41_operands.md R230 to R234). -/

namespace Sys2Proof.Machine

/-! ## Operands -/

/-- A register operand that R230, R231 and R234 allow is in its ranges. -/
theorem wellFormed_of_registerLegal {cfg : Cfg} {r : RegOperand} (hreg : Layout.registerLegal cfg r = true)
    (hind : ∀ a o, r.addressing = .indirect a o → Layout.indirectLegal a o = true) : r.wellFormed = true := by
  have hnumber : r.numberOk = true := by
    unfold Layout.registerLegal at hreg
    unfold RegOperand.numberOk
    cases hf : r.file <;> simp [hf] at hreg ⊢ <;> omega
  have hoffset : r.subregister * r.dataType.bytes < 32 := offset_lt hreg
  cases ha : r.addressing with
  | direct => simp [RegOperand.wellFormed, hnumber, hoffset, ha]
  | indirect a o =>
    have hrange := hind a o ha
    simp only [Layout.indirectLegal, Bool.and_eq_true, decide_eq_true_eq] at hrange
    simp [RegOperand.wellFormed, hnumber, hoffset, ha]
    omega

theorem wellFormed_of_direct {cfg : Cfg} {r : RegOperand} (hreg : Layout.registerLegal cfg r = true)
    (hdirect : r.addressing = .direct) : r.wellFormed = true :=
  wellFormed_of_registerLegal hreg fun a o hind => by simp [hdirect] at hind

theorem wellFormed_of_dstLegal {cfg : Cfg} {mode : AccessMode} {d : RegOperand}
    (h : Layout.dstLegal cfg mode d = true) : d.wellFormed = true := by
  simp only [Layout.dstLegal, Bool.and_eq_true] at h
  obtain ⟨⟨⟨⟨-, hreg⟩, -⟩, -⟩, hcase⟩ := h
  refine wellFormed_of_registerLegal hreg fun a o hind => ?_
  cases mode <;> simp [hind] at hcase
  exact hcase.1

theorem wellFormed_of_srcRegLegal {cfg : Cfg} {mode : AccessMode} {region : SrcRegion} {overlay : Bool}
    {s : RegOperand} (h : Layout.srcRegLegal cfg mode region overlay s = true) : s.wellFormed = true := by
  simp only [Layout.srcRegLegal, Layout.srcPlaceLegal, Bool.and_eq_true] at h
  obtain ⟨-, hreg, hcase⟩ := h
  refine wellFormed_of_registerLegal hreg fun a o hind => ?_
  cases mode <;> simp [hind] at hcase
  exact hcase.1

/-- A float that has a bit pattern is a value of a float type (R96). -/
theorem wellFormed_of_floatBits {e f : Nat} {v : FloatValue} {width : ImmWidth} {t : DataType}
    (ht : t.typeClass = .float) (h : (floatBits e f v).isSome = true) :
    ImmOperand.wellFormed { value := .float v, bitWidth := width, type := t } = true := by
  cases v with
  | finite neg num den =>
    have hden : den ≠ 0 := by
      rintro rfl
      simp [floatBits] at h
    cases t <;> simp_all [ImmOperand.wellFormed, DataType.typeClass]
  | infinity neg => cases t <;> simp_all [ImmOperand.wellFormed, DataType.typeClass]
  | nan neg payload =>
    have hpayload : payload ≠ 0 := by
      rintro rfl
      simp [floatBits] at h
    cases t <;> simp_all [ImmOperand.wellFormed, DataType.typeClass]

theorem wellFormed_of_immValueLegal {i : ImmOperand} (h : Layout.immValueLegal i = true) : i.wellFormed = true := by
  obtain ⟨v, width, t⟩ := i
  cases v with
  | int v => cases t <;> simp_all [Layout.immValueLegal, ImmOperand.wellFormed]
  | float v =>
    cases t
    case hf | f | df => exact wellFormed_of_floatBits rfl h
    all_goals cases h

theorem wellFormed_of_imm16ValueLegal {i : ImmOperand} (h : Layout.imm16ValueLegal i = true) :
    i.wellFormed = true := by
  obtain ⟨v, width, t⟩ := i
  cases v with
  | int v =>
    cases t <;> simp [Layout.imm16ValueLegal] at h <;> simp [ImmOperand.wellFormed] <;> omega
  | float v =>
    cases t
    case hf => exact wellFormed_of_floatBits rfl h
    all_goals cases h

theorem destinationOk_of_dstOpLegal {cfg : Cfg} {ins : Instruction} {d : Operand}
    (h : Layout.dstOpLegal cfg ins d = true) : d.destinationOk = true := by
  cases d with
  | imm i => cases h
  | reg r => exact wellFormed_of_dstLegal h

theorem wellFormed_of_srcLegal {cfg : Cfg} {ins : Instruction} {sole : Bool} {k : Nat} {s : Operand}
    (h : Layout.srcLegal cfg ins sole k s = true) : s.wellFormed = true := by
  cases s with
  | imm i =>
    simp only [Layout.srcLegal, Layout.immLegal, Bool.and_eq_true] at h
    exact wellFormed_of_immValueLegal h.2
  | reg r => exact wellFormed_of_srcRegLegal h

/-! ## Three sources -/

theorem destinationOk_of_dst16 {cfg : Cfg} {d : Operand} {fs : List Field} (h : dst16 cfg d = .ok fs) :
    d.destinationOk = true := by
  cases d with
  | imm i => cases h
  | reg r =>
    have hlegal := dst16_ok_iff.mp ⟨fs, h⟩
    simp only [Layout.dst16Legal, Bool.and_eq_true, beq_iff_eq] at hlegal
    obtain ⟨⟨⟨⟨⟨hdirect, -⟩, -⟩, hreg⟩, -⟩, -⟩ := hlegal
    exact wellFormed_of_direct hreg hdirect

theorem wellFormed_of_src16 {cfg : Cfg} {k : Nat} {s : Operand} {fs : List Field} (h : src16 cfg k s = .ok fs) :
    s.wellFormed = true := by
  cases s with
  | imm i => cases h
  | reg r =>
    have hlegal := src16_ok_iff.mp ⟨fs, h⟩
    simp only [Layout.src16Legal, Bool.and_eq_true, beq_iff_eq] at hlegal
    obtain ⟨⟨⟨⟨⟨⟨hdirect, -⟩, -⟩, hreg⟩, -⟩, -⟩, -⟩ := hlegal
    exact wellFormed_of_direct hreg hdirect

theorem destinationOk_of_dst1 {cfg : Cfg} {d : Operand} {fs : List Field} (h : dst1 cfg d = .ok fs) :
    d.destinationOk = true := by
  cases d with
  | imm i => cases h
  | reg r =>
    have hlegal := dst1_ok_iff.mp ⟨fs, h⟩
    simp only [Layout.dst1Legal, Bool.and_eq_true, beq_iff_eq] at hlegal
    obtain ⟨⟨⟨⟨⟨⟨hdirect, -⟩, -⟩, hreg⟩, -⟩, -⟩, -⟩ := hlegal
    exact wellFormed_of_direct hreg hdirect

theorem wellFormed_of_src1 {cfg : Cfg} {execSize k : Nat} {s : Operand} {fs : List Field}
    (h : src1 cfg execSize k s = .ok fs) : s.wellFormed = true := by
  have hlegal := src1_ok_iff.mp ⟨fs, h⟩
  cases s with
  | imm i =>
    simp only [Layout.src1Legal, Layout.imm16Legal, Bool.and_eq_true] at hlegal
    exact wellFormed_of_imm16ValueLegal hlegal.2
  | reg r =>
    simp only [Layout.src1Legal, Layout.src1RegLegal, Bool.and_eq_true, beq_iff_eq] at hlegal
    obtain ⟨⟨⟨⟨⟨⟨⟨⟨hdirect, -⟩, -⟩, hreg⟩, -⟩, -⟩, -⟩, -⟩, -⟩ := hlegal
    exact wellFormed_of_direct hreg hdirect

/-! ## Split sends -/

theorem registerLegal_of_parts {cfg : Cfg} {r : RegOperand} (hnumber : registerNumberOk cfg r = true)
    (hsub : r.subregister = 0) : Layout.registerLegal cfg r = true := by
  simp [registerLegal_eq, hnumber, subregisterOk, hsub]

theorem destinationOk_of_splitDestination {cfg : Cfg} {d : Operand} {r : RegOperand × BitVec 4}
    (h : splitDestination cfg d = .ok r) : d.destinationOk = true := by
  cases d with
  | imm i => cases h
  | reg rd =>
    obtain ⟨-, -, hdirect, -, hsub, hnumber, -⟩ := splitDestination_eq_ok (rd := r.1) (ty := r.2) |>.mp h
    exact wellFormed_of_direct (registerLegal_of_parts hnumber hsub) hdirect

theorem wellFormed_of_splitSource {cfg : Cfg} {place : RegOperand → Bool}
    (hplace : ∀ r, place r = true → r.addressing = .direct) {s : Operand} {r : RegOperand}
    (h : splitSource cfg place s = .ok r) : s.wellFormed = true := by
  cases s with
  | imm i => cases h
  | reg r0 =>
    obtain ⟨-, hp, -, hreg, -⟩ := splitSource_eq_ok.mp h
    exact wellFormed_of_direct hreg (hplace r0 hp)

theorem direct_of_payloadRegisterOk {r : RegOperand} (h : payloadRegisterOk r = true) : r.addressing = .direct := by
  simp only [payloadRegisterOk, Bool.and_eq_true, beq_iff_eq] at h
  exact h.1.1

theorem direct_of_secondPayloadOk {r : RegOperand} (h : secondPayloadOk r = true) : r.addressing = .direct := by
  simp only [secondPayloadOk, Bool.or_eq_true, Bool.and_eq_true, beq_iff_eq] at h
  obtain h | ⟨⟨hdirect, -⟩, -⟩ := h
  · exact direct_of_payloadRegisterOk h
  · exact hdirect

/-! ## Records -/

/-- The operands of a shape are in their ranges. -/
def Shape.operandsOk (shape : Shape) : Prop :=
  (∀ d, shape.destination = some d → d.destinationOk = true) ∧ ∀ s ∈ shape.sources, s.wellFormed = true

theorem encodeOneSrc_operandsOk {cfg : Cfg} {ins : Instruction} {d s0 : Operand} {fs : List Field}
    (h : encodeOneSrc cfg ins d s0 = .ok fs) : d.destinationOk = true ∧ s0.wellFormed = true := by
  obtain ⟨hd, h0⟩ := encodeOneSrc_ok_iff.mp ⟨fs, h⟩
  exact ⟨destinationOk_of_dstOpLegal hd, wellFormed_of_srcLegal h0⟩

theorem encodeTwoSrc_operandsOk {cfg : Cfg} {ins : Instruction} {d s0 s1 : Operand} {fs : List Field}
    (h : encodeTwoSrc cfg ins d s0 s1 = .ok fs) :
    d.destinationOk = true ∧ s0.wellFormed = true ∧ s1.wellFormed = true := by
  obtain ⟨hd, h0, h1⟩ := encodeTwoSrc_ok_iff.mp ⟨fs, h⟩
  exact ⟨destinationOk_of_dstOpLegal hd, wellFormed_of_srcLegal h0, wellFormed_of_srcLegal h1⟩

theorem encodeThreeSrc_operandsOk {cfg : Cfg} {ins : Instruction} {d s0 s1 s2 : Operand} {fs : List Field}
    (h : encodeThreeSrc cfg ins d s0 s1 s2 = .ok fs) :
    d.destinationOk = true ∧ s0.wellFormed = true ∧ s1.wellFormed = true ∧ s2.wellFormed = true := by
  cases hmode : ins.body.accessMode <;> simp only [encodeThreeSrc, hmode, bind_eq_ok] at h
  case align1 =>
    obtain ⟨_, -, fd, hd, f0, h0, f1, h1, f2, h2, -⟩ := h
    exact ⟨destinationOk_of_dst1 hd, wellFormed_of_src1 h0, wellFormed_of_src1 h1, wellFormed_of_src1 h2⟩
  case align16 =>
    obtain ⟨_, -, fd, hd, f0, h0, f1, h1, f2, h2, -⟩ := h
    exact ⟨destinationOk_of_dst16 hd, wellFormed_of_src16 h0, wellFormed_of_src16 h1, wellFormed_of_src16 h2⟩

theorem encodeWait_operandsOk {cfg : Cfg} {s0 : Operand} {fs : List Field} (h : encodeWait cfg s0 = .ok fs) :
    s0.wellFormed = true := by
  cases s0 with
  | imm i => cases h
  | reg r =>
    have hlegal := encodeWait_ok_iff.mp ⟨fs, h⟩
    simp only [Layout.waitLegal, Bool.and_eq_true, beq_iff_eq] at hlegal
    obtain ⟨⟨⟨⟨⟨-, hdirect⟩, hreg⟩, -⟩, -⟩, -⟩ := hlegal
    exact wellFormed_of_direct hreg hdirect

theorem encodeCall_operandsOk {cfg : Cfg} {d : Operand} {fs : List Field} (h : encodeCall cfg d = .ok fs) :
    d.destinationOk = true := by
  cases d with
  | imm i => cases h
  | reg r =>
    have hlegal := encodeCall_ok_iff.mp ⟨fs, h⟩
    simp only [Layout.callLegal, Bool.and_eq_true] at hlegal
    exact wellFormed_of_dstLegal hlegal.2

theorem encodeSend_operandsOk {cfg : Cfg} {ins : Instruction} {d s0 : Operand} {desc exDesc : Descriptor}
    {fs : List Field} (h : encodeSend cfg ins d s0 desc exDesc = .ok fs) :
    d.destinationOk = true ∧ s0.wellFormed = true := by
  simp only [encodeSend, bind_eq_ok] at h
  obtain ⟨_, -, _, -, fd, hd, _, -, _, -, _, -, f0, h0, -⟩ := h
  exact ⟨destinationOk_of_dstOpLegal (encodeDst_ok_iff.mp ⟨fd, hd⟩),
    wellFormed_of_srcLegal (encodeSrc_ok_iff.mp ⟨f0, h0⟩)⟩

theorem encodeSends_operandsOk {cfg : Cfg} {d s0 s1 : Operand} {desc exDesc : Descriptor}
    {fs : List Field} (h : encodeSends cfg d s0 s1 desc exDesc = .ok fs) :
    d.destinationOk = true ∧ s0.wellFormed = true ∧ s1.wellFormed = true := by
  simp only [encodeSends, bind_eq_ok] at h
  obtain ⟨rd, hd, r0, h0, r1, h1, -⟩ := h
  exact ⟨destinationOk_of_splitDestination hd, wellFormed_of_splitSource (fun _ => direct_of_payloadRegisterOk) h0,
    wellFormed_of_splitSource (fun _ => direct_of_secondPayloadOk) h1⟩

/-- The operands that the encoder packs are in their ranges. -/
theorem encodeOperands_operandsOk {cfg : Cfg} {ins : Instruction} {shape : Shape} {fs : List Field}
    (h : encodeOperands cfg ins shape = .ok fs) : shape.operandsOk := by
  cases shape <;> simp only [encodeOperands, bind_eq_ok] at h <;>
    simp only [Shape.operandsOk, Shape.destination, Shape.sources, List.forall_mem_cons, List.not_mem_nil, false_implies,
      implies_true, and_true, true_and, reduceCtorEq, Option.some.injEq, forall_eq']
  case one => exact encodeOneSrc_operandsOk h
  case two => exact encodeTwoSrc_operandsOk h
  case mathOne =>
    obtain ⟨fs', hfs, -⟩ := h
    exact encodeOneSrc_operandsOk hfs
  case mathTwo =>
    obtain ⟨fs', hfs, -⟩ := h
    exact encodeTwoSrc_operandsOk hfs
  case three => exact encodeThreeSrc_operandsOk h
  case wait => exact encodeWait_operandsOk h
  case send => exact encodeSend_operandsOk h
  case sends =>
    obtain ⟨fs', hfs, -⟩ := h
    exact encodeSends_operandsOk hfs
  case call => exact encodeCall_operandsOk h

/-- A header that the block encodes has its size, mask offset and flag numbers in their ranges (R34, R36, R174). -/
theorem ranges_of_headerLegal {fmt : FormatTag} {ins : Instruction} (h : Layout.headerLegal fmt ins = true) :
    ins.body.sizeOk = true ∧ ins.body.offsetOk = true ∧ ins.body.flagsOk = true := by
  simp only [Layout.headerLegal, Bool.and_eq_true] at h
  obtain ⟨⟨⟨⟨⟨⟨-, hoffset⟩, -⟩, hflags⟩, -⟩, hsize⟩, -⟩ := h
  refine ⟨?_, ?_, ?_⟩
  · rw [InsBody.sizeOk, Option.isSome_iff_exists, execSizeCode_ok_iff]
    exact List.contains_iff_mem.mp hsize
  · rw [← maskOffsetOk_eq, maskOffsetOk, Bool.and_eq_true, decide_eq_true_eq, decide_eq_true_eq] at hoffset
    simp only [InsBody.offsetOk, Bool.and_eq_true, decide_eq_true_eq, beq_iff_eq]
    omega
  · unfold InsBody.flagsOk
    cases hp : ins.body.predicate <;> simp_all

theorem insBody_operandsOk_iff {b : InsBody} :
    b.operandsOk = true ↔
      (∀ d, b.destination = some d → d.destinationOk = true) ∧ ∀ s ∈ b.sources, s.wellFormed = true := by
  unfold InsBody.operandsOk
  cases b.destination <;> simp

/-- Settles O54, over the parts of the encoder: shape, header, operands. -/
theorem encodedIsWellFormed : Obligations.EncodedIsWellFormed := by
  rintro cfg back i ⟨⟨tag, w⟩, h⟩
  obtain ⟨opc, shape, header, operands, w', -, hshape, hheader, hoperands, -, -, -⟩ := encodeNative_eq_ok h
  have hfits := select_fits hshape
  obtain ⟨hsize, hoffset, hflags⟩ := ranges_of_headerLegal (encodeHeader_ok_iff.mp ⟨header, hheader⟩)
  have hops : i.instruction.body.operandsOk = true := by
    rw [insBody_operandsOk_iff, hfits.destination, hfits.sources]
    exact encodeOperands_operandsOk hoperands
  simp only [Instr.wellFormed, Bool.and_eq_true]
  exact ⟨⟨⟨⟨hsize, hoffset⟩, hflags⟩, hfits.shapeOk⟩, hops⟩

end Sys2Proof.Machine
end

section
/-! PROOFS. The byte image (20_memory.md R51 to R53, R57, R58): what a memory in canonical form reads, where the words
of the buffer stand, and what an Instr command leaves as it was. -/

namespace Sys2Proof

/-! ## Reading a memory -/

/-- A memory in canonical form reads exactly its cells. -/
theorem Memory.read_eq_some_iff {m : Memory} (hwf : m.wf) {a : Nat} {b : Byte} :
    m.read a = some b ↔ (a, b) ∈ m := by
  rw [Memory.read]
  induction m with
  | nil => simp
  | cons c m ih =>
    obtain ⟨k, v⟩ := c
    obtain ⟨hfirst, hrest⟩ := List.pairwise_cons.mp hwf
    by_cases ha : a = k
    · subst ha
      have habsent : (a, b) ∉ m := fun hm => (hfirst _ (List.mem_map_of_mem hm)).false
      simp [habsent, eq_comm]
    · have hne : (a == k) = false := beq_eq_false_iff_ne.mpr ha
      simp [List.lookup_cons, hne, ih hrest, ha]

/-- An address that is not listed holds nothing (R433). -/
theorem Memory.read_eq_none_iff {m : Memory} {a : Nat} : m.read a = none ↔ a ∉ m.map Prod.fst := by
  simp only [Memory.read, List.lookup_eq_none_iff, bne_iff_ne, List.mem_map, not_exists, not_and]
  exact forall₂_congr fun c _ => ne_comm

/-- Cells appended to a memory are read at their own addresses only. -/
theorem Memory.read_append_of_not_mem (m : Memory) {cells : Memory} {a : Nat} (ha : a ∉ cells.map Prod.fst) :
    Memory.read (m ++ cells) a = m.read a := by
  have hnone : cells.lookup a = none := Memory.read_eq_none_iff.mpr ha
  rw [Memory.read, List.lookup_append, hnone, Option.or_none, Memory.read]

/-! ## The bytes of a word -/

/-- A field as a bit vector is the extract of its bits (R14). -/
theorem ofNat_unpack {n : Nat} (w : BitVec n) (off width : Nat) :
    BitVec.ofNat width (unpack w off width) = w.extractLsb' off width := by
  apply BitVec.eq_of_toNat_eq
  simp [unpack]

/-- Byte `j` of a word is its bits 8j+7..8j (R53). -/
theorem EncodedWord.byte_native (w : NativeWord) (j : Nat) :
    (EncodedWord.native w).byte j = w.extractLsb' (8 * j) 8 := ofNat_unpack w (8 * j) 8

theorem EncodedWord.byte_compact (c : CompactWord) (j : Nat) :
    (EncodedWord.compact c).byte j = c.extractLsb' (8 * j) 8 := ofNat_unpack c (8 * j) 8

namespace Machine

/-! ## The words of the buffer -/

/-- A word of the buffer has 16 bytes, or 8 if it is compact (R51). -/
theorem OutWord.size_eq (o : OutWord) : o.size = if o.bits.isCompact then 8 else 16 := by
  rw [OutWord.size, EncodedWord.units_eq]
  cases o.bits.isCompact <;> rfl

/-- The first of contiguous words is at the first position (R51). -/
theorem pos_of_contiguous_head {p : Nat} {ws : List OutWord} {o : OutWord} (h : contiguous p ws = true)
    (ho : ws[0]? = some o) : o.pos = p := by
  cases ws with
  | nil => simp at ho
  | cons v ws =>
    obtain rfl : v = o := by simpa using ho
    simp only [contiguous, Bool.and_eq_true, beq_iff_eq] at h
    exact h.1

/-- Of contiguous words each is followed by the next after its own units (R51). -/
theorem pos_of_contiguous_next {p k : Nat} {ws : List OutWord} {o o' : OutWord} (h : contiguous p ws = true)
    (ho : ws[k]? = some o) (ho' : ws[k + 1]? = some o') : o'.pos = o.pos + o.bits.units := by
  induction ws generalizing p k with
  | nil => simp at ho
  | cons v ws ih =>
    simp only [contiguous, Bool.and_eq_true, beq_iff_eq] at h
    obtain ⟨hpos, htail⟩ := h
    cases k with
    | zero =>
      obtain rfl : v = o := by simpa using ho
      rw [hpos]
      exact pos_of_contiguous_head htail (by simpa using ho')
    | succ k => exact ih htail (by simpa using ho) (by simpa using ho')

/-! ## The image -/

/-- The addresses of a word's cells are those from its position to the position after it (R51). -/
theorem mem_cells_keys_iff {o : OutWord} {a : Nat} :
    a ∈ o.cells.map Prod.fst ↔ 8 * o.pos ≤ a ∧ a < 8 * (o.pos + o.bits.units) := by
  rw [cells_keys, List.mem_range'_1, unitBytes]
  omega

theorem State.imageByte_congr {s t : State} (h : t.out = s.out) (a : Nat) : t.imageByte a = s.imageByte a := by
  simp only [State.imageByte, State.image, h]

/-- The word that an Instr command appends is read at its own addresses only (R52 (a)). -/
theorem State.imageByte_emit_outside (s : State) (labels : List (Label × Nat)) (tag : FormatTag) (bits : EncodedWord)
    (ins : Instruction) (pending : Bool) {a : Nat} (ha : a < 8 * s.pos ∨ 8 * (s.pos + bits.units) ≤ a) :
    (s.emit labels tag bits ins pending).imageByte a = s.imageByte a := by
  have houtside : a ∉ (OutWord.cells { pos := s.pos, tag := tag, bits := bits, ins := ins }).map Prod.fst := by
    simp only [mem_cells_keys_iff]
    omega
  simpa [State.imageByte, State.image] using Memory.read_append_of_not_mem s.image houtside

section
variable {s : State} (h : s.Inv)
include h

/-- The image lists the bytes below `8 * pos`, each once (R51). -/
theorem State.Inv.image_keys : s.image.map Prod.fst = List.range (8 * s.pos) := by
  rw [State.image, Machine.image_keys 0 s.out h.layout, ← h.pos, unitBytes, Nat.mul_zero, List.range_eq_range']

theorem State.Inv.length_image : s.image.length = 8 * s.pos := by
  rw [← List.length_map (f := Prod.fst), h.image_keys, List.length_range]

theorem State.Inv.imageByte_beyond {a : Nat} (ha : 8 * s.pos ≤ a) : s.imageByte a = none := by
  rw [State.imageByte, Memory.read_eq_none_iff, h.image_keys, List.mem_range]
  omega

/-- The image reads each word of the buffer at its position (R51). -/
theorem State.Inv.imageByte_word {o : OutWord} {j : Nat} (ho : o ∈ s.out) (hj : j < o.size) :
    s.imageByte (8 * o.pos + j) = some (o.bits.byte j) := by
  have hcell : (8 * o.pos + j, o.bits.byte j) ∈ o.cells := List.mem_map.mpr ⟨j, List.mem_range.mpr hj, rfl⟩
  exact (Memory.read_eq_some_iff h.image_wf).mpr (List.mem_flatMap.mpr ⟨o, ho, hcell⟩)

end

/-- Settles O19: the image is in canonical form, so that it reads exactly the cells of the contiguous words. -/
theorem imageLayout : Obligations.ImageLayout := by
  intro s h
  refine ⟨?_, fun a => h.imageByte_beyond, h.length_image, fun o => pos_of_contiguous_head h.layout, ?_⟩
  · intro k o j ho hj
    rw [h.imageByte_word (List.mem_of_getElem? ho) (o.size_eq ▸ hj)]
    cases o.bits with
    | native w => exact congrArg some (EncodedWord.byte_native w j)
    | compact c => exact congrArg some (EncodedWord.byte_compact c j)
  · intro k o o' ho ho'
    rw [← EncodedWord.units_eq]
    exact pos_of_contiguous_next h.layout ho ho'

/-- Settles O20, over the ways in which an Instr command can end: only the append, which reports OK, stores bytes. -/
theorem instrImageFrame : Obligations.InstrImageFrame := by
  intro i s t _ hexec
  cases exec_ends hexec with
  | refused => exact ⟨fun a _ => s.imageByte_congr rfl a, fun _ a => s.imageByte_congr rfl a⟩
  | raised => exact ⟨fun a _ => s.imageByte_congr rfl a, fun _ a => s.imageByte_congr rfl a⟩
  | emitted => exact ⟨fun a ha => s.imageByte_emit_outside _ _ _ _ _ ha, fun hreport => absurd rfl hreport⟩

end Machine

end Sys2Proof
end

section
/-! PROOFS. Every field that an encoder answers lies in the native word and holds its value (00_scope.md R15,
30_encoding.md R95), so that the packing of a record's fields finds no error. -/

namespace Sys2Proof.Machine

/-! ## Fields in the word -/

/-- The field lies in the native word, and its value in the field. -/
@[reducible] def InWord (f : Field) : Prop := f.off + f.width ≤ 128 ∧ f.value < 2 ^ f.width

@[simp] theorem inWord_iff {off width v : Nat} : InWord ⟨off, width, v⟩ ↔ off + width ≤ 128 ∧ v < 2 ^ width := Iff.rfl

/-- The fields that an encoder answers, if it answers any, lie in the word with their values. -/
def FieldsInWord (x : Except Cause (List Field)) : Prop := ∀ fs, x = .ok fs → ∀ f ∈ fs, InWord f

@[simp] theorem fieldsInWord_ok {fs : List Field} : FieldsInWord (.ok fs) ↔ ∀ f ∈ fs, InWord f := by
  simp [FieldsInWord]

@[simp] theorem fieldsInWord_error {c : Cause} : FieldsInWord (.error c) := by simp [FieldsInWord]

@[simp] theorem fieldsInWord_bind {α : Type} {x : Except Cause α} {g : α → Except Cause (List Field)} :
    FieldsInWord (x >>= g) ↔ ∀ a, x = .ok a → FieldsInWord (g a) := by
  cases x <;> simp

/-- Fields that lie in the word are packed without an error (R15). -/
theorem packFields_of_inWord (w : NativeWord) {fs : List Field} (h : ∀ f ∈ fs, InWord f) :
    ∃ w', packFields w fs = .ok w' := by
  induction fs generalizing w with
  | nil => exact ⟨w, rfl⟩
  | cons f fs ih =>
    obtain ⟨⟨hoff, hv⟩, hfs⟩ := List.forall_mem_cons.mp h
    simpa [packFields, pack_of_fits w hoff hv] using ih _ hfs

/-! ## Values of fields -/

theorem code3_lt (c : BitVec 3) : c.toNat < 8 := c.isLt

theorem code4_lt (c : BitVec 4) : c.toNat < 16 := c.isLt

theorem code7_lt (c : BitVec 7) : c.toNat < 128 := c.isLt

theorem fileCode_lt (f : RegFile) : f.code < 4 := by cases f <;> simp [RegFile.code]

theorem modifierCode_lt (m : SrcMod) : m.code < 4 := by cases m <;> decide

theorem channelCode_lt (c : Channel) : c.code < 4 := by cases c <;> decide

theorem channelPair_lt (c c' : Channel) : c.code ||| c'.code <<< 2 < 16 := by
  cases c <;> cases c' <;> decide

theorem accessModeCode_le (m : AccessMode) : m.code ≤ 1 := by cases m <;> decide

theorem threadControlCode_lt (t : ThreadControl) : t.code < 4 := by cases t <;> decide

theorem maskControlCode_le (m : MaskControl) : m.code ≤ 1 := by cases m <;> decide

theorem execSizeCode_lt {n c : Nat} (h : execSizeCode n = some c) : c < 8 := by
  unfold execSizeCode at h
  split at h <;> cases h <;> decide

theorem horzStrideCode_lt {n c : Nat} (h : horzStrideCode n = some c) : c < 4 := by
  unfold horzStrideCode at h
  split at h <;> cases h <;> decide

theorem widthCode_lt {n c : Nat} (h : widthCode n = some c) : c < 8 := by
  unfold widthCode at h
  split at h <;> cases h <;> decide

theorem vertStrideCode_lt {n c : Nat} (h : vertStrideCode n = some c) : c < 16 := by
  unfold vertStrideCode at h
  split at h <;> cases h <;> decide

theorem vertStride3Code_lt {n c : Nat} (h : vertStride3Code n = some c) : c < 4 := by
  unfold vertStride3Code at h
  split at h <;> cases h <;> decide

theorem horzStride3Code_lt {n c : Nat} (h : horzStride3Code n = some c) : c < 4 := by
  unfold horzStride3Code at h
  split at h <;> cases h <;> decide

theorem dstStride3Code_le {n c : Nat} (h : dstStride3Code n = some c) : c ≤ 1 := by
  unfold dstStride3Code at h
  split at h <;> cases h <;> decide

theorem subRegOrAcc_lt {cfg : Cfg} {r : RegOperand} (h : Layout.registerLegal cfg r = true) :
    Layout.subRegOrAcc cfg r < 32 := by
  unfold Layout.subRegOrAcc
  split
  next a _ => exact Nat.lt_trans (code4_lt _) (by decide)
  next => exact offset_lt h

theorem offset_div_le {cfg : Cfg} {r : RegOperand} (h : Layout.registerLegal cfg r = true) :
    Layout.offsetInRegister r / 16 ≤ 1 := by
  have ho := offset_lt h
  omega

theorem and_low_lt (v n : Nat) : v &&& (2 ^ n - 1) < 2 ^ n := by
  rw [Nat.and_two_pow_sub_one_eq_mod]
  exact Nat.mod_lt _ (Nat.two_pow_pos n)

theorem twos_lt (n : Nat) (v : Int) : twos n v < 2 ^ n := by
  have hpos : (0 : Int) < 2 ^ n := by positivity
  have hlt := Int.emod_lt_of_pos v hpos
  zify [twos]
  rwa [Int.toNat_of_nonneg (Int.emod_nonneg v hpos.ne')]

theorem and31_lt (v : Nat) : v &&& 0x7FFFFFFF < 2147483648 := and_low_lt v 31

/-- An ARF selector as the upper half of a register number (R230). -/
theorem selectorField_lt (c : BitVec 4) : c.toNat <<< 4 < 256 := by
  have := code4_lt c
  rw [Nat.shiftLeft_eq]
  omega

/-- The two fields of a 10-bit offset (R234, R241). -/
theorem offsetFields_range (o : Int) : twos 10 o &&& 0x1FF < 512 ∧ twos 10 o >>> 9 ≤ 1 := by
  have h := twos_lt 10 o
  refine ⟨and_low_lt _ 9, ?_⟩
  rw [Nat.shiftRight_eq_div_pow]
  omega

/-! ## Header (R170 to R183) -/

theorem predicateFields_inWord (cfg : Cfg) (p : Option Predicate) : FieldsInWord (predicateFields cfg p) := by
  cases p with
  | none => simp [predicateFields]
  | some p =>
    simp only [predicateFields, fieldsInWord_bind, fieldsInWord_ok, require_eq_ok, Bool.and_eq_true, decide_eq_true_eq]
    rintro - ⟨hreg, hsub⟩
    cases hcontrol : p.control <;> simp [code4_lt, Bool.toNat_le] <;> omega

theorem condModFields_inWord (cfg : Cfg) (ins : Instruction) : FieldsInWord (condModFields cfg ins) := by
  simp only [condModFields, fieldsInWord_bind]
  intro _ _
  split
  · simp
  · split <;> simp [code4_lt]

/-- The fields of the header but those of the predicate and bits 51:48 (R171 to R183). -/
def headerFields (opc : BitVec 7) (ins : Instruction) (back : Bool) (size : Nat) : List Field :=
  [⟨0, 7, opc.toNat⟩, ⟨8, 1, ins.body.accessMode.code⟩, ⟨9, 1, ins.body.depControl.noDDClr.toNat⟩,
   ⟨10, 1, ins.body.depControl.noDDChk.toNat⟩, ⟨11, 1, ins.body.maskOffset / 4 % 2⟩, ⟨12, 2, ins.body.maskOffset / 8⟩,
   ⟨14, 2, ins.body.threadControl.code⟩, ⟨21, 1, ins.body.saturate.toNat⟩, ⟨29, 3, size⟩,
   ⟨34, 1, ins.body.maskControl.code⟩, ⟨52, 1, (ins.body.accWriteControl || back).toNat⟩, ⟨53, 1, 0⟩,
   ⟨54, 1, ins.body.debugBreakpoint.toNat⟩]

/-- All that the header encoder can give (R170). -/
theorem encodeHeader_parts {cfg : Cfg} {opc : BitVec 7} {fmt : FormatTag} {ins : Instruction} {back : Bool}
    {fs : List Field} (h : encodeHeader cfg opc fmt ins back = .ok fs) :
    ∃ flags cond size, predicateFields cfg ins.body.predicate = .ok flags ∧ condModFields cfg ins = .ok cond ∧
      execSizeCode ins.body.executionSize = some size ∧ fs = headerFields opc ins back size ++ flags ++ cond := by
  simp only [encodeHeader, execSizeField, bind_eq_ok, entry_eq_ok, Except.ok.injEq] at h
  obtain ⟨_, -, _, -, _, -, flags, hflags, cond, hcond, _, ⟨size, hsize, _, -, rfl⟩, rfl⟩ := h
  exact ⟨flags, cond, size, hflags, hcond, hsize, rfl⟩

theorem encodeHeader_inWord (cfg : Cfg) (opc : BitVec 7) (fmt : FormatTag) (ins : Instruction) (back : Bool) :
    FieldsInWord (encodeHeader cfg opc fmt ins back) := by
  intro fs h
  have hlegal := encodeHeader_ok_iff.mp ⟨fs, h⟩
  obtain ⟨-, hoffset, -⟩ := ranges_of_headerLegal hlegal
  simp only [InsBody.offsetOk, Bool.and_eq_true, decide_eq_true_eq] at hoffset
  obtain ⟨flags, cond, size, hflags, hcond, hsize, rfl⟩ := encodeHeader_parts h
  refine List.forall_mem_append.mpr ⟨List.forall_mem_append.mpr ⟨?_, predicateFields_inWord _ _ _ hflags⟩,
    condModFields_inWord _ _ _ hcond⟩
  simp [headerFields, code7_lt, Bool.toNat_le, accessModeCode_le, threadControlCode_lt, maskControlCode_le,
    execSizeCode_lt hsize]
  omega

/-! ## Two-source layout (R232 to R247) -/

/-- All that a destination register can give in the two-source layout: its file, its type, and the fields of its case
(R232). -/
theorem encodeDstReg_parts {cfg : Cfg} {mode : AccessMode} {d : RegOperand} {fs : List Field}
    (h : encodeDstReg cfg mode d = .ok fs) :
    ∃ ty rest, cfg.regTypeCode d.dataType = some ty ∧ fs = ⟨35, 2, d.file.code⟩ :: ⟨37, 4, ty.toNat⟩ :: rest ∧
      ((mode = .align1 ∧ d.addressing = .direct ∧ dstAlign1Direct cfg d = .ok rest) ∨
       (∃ a o, mode = .align1 ∧ d.addressing = .indirect a o ∧ dstAlign1Indirect cfg d a o = .ok rest) ∨
       (mode = .align16 ∧ d.addressing = .direct ∧ dstAlign16Direct cfg d = .ok rest)) := by
  simp only [encodeDstReg, bind_eq_ok, entry_eq_ok] at h
  obtain ⟨ty, hty, h⟩ := h
  cases mode <;> cases hd : d.addressing <;>
    simp only [hd, bind_eq_ok, require_eq_ok, Except.ok.injEq, reduceCtorEq, false_and, exists_false] at h
  all_goals
    obtain ⟨rest, hrest, -, -, rfl⟩ := h
    exact ⟨ty, rest, hty, rfl, by simp [hrest]⟩

/-- All that a source register can give in the two-source layout: its file, its type, its modifier, and the fields of
its case (R238, R244). -/
theorem encodeSrcReg_parts {cfg : Cfg} {mode : AccessMode} {region : SrcRegion} {overlay : Bool} {k : Nat}
    {s : RegOperand} {fs : List Field} (h : encodeSrcReg cfg mode region overlay k s = .ok fs) :
    ∃ ty rest, cfg.regTypeCode s.dataType = some ty ∧
      fs = ⟨rfPos k, 2, s.file.code⟩ :: ⟨tyPos k, 4, ty.toNat⟩ :: ⟨slotBase k + 23, 2, s.modifier.code⟩ :: rest ∧
      ((mode = .align1 ∧ s.addressing = .direct ∧ srcAlign1Direct cfg (slotBase k) region overlay s = .ok rest) ∨
       (∃ a o, mode = .align1 ∧ s.addressing = .indirect a o ∧
         srcAlign1Indirect cfg (slotBase k) region overlay s a o = .ok rest) ∨
       (mode = .align16 ∧ s.addressing = .direct ∧ srcAlign16Direct cfg (slotBase k) overlay s = .ok rest)) := by
  simp only [encodeSrcReg, bind_eq_ok, entry_eq_ok] at h
  obtain ⟨ty, hty, h⟩ := h
  cases mode <;> cases hs : s.addressing <;>
    simp only [hs, bind_eq_ok, require_eq_ok, Except.ok.injEq, reduceCtorEq, false_and, exists_false] at h
  all_goals
    obtain ⟨rest, hrest, -, -, rfl⟩ := h
    exact ⟨ty, rest, hty, rfl, by simp [hrest]⟩

theorem encodeDstReg_inWord (cfg : Cfg) (mode : AccessMode) (d : RegOperand) :
    FieldsInWord (encodeDstReg cfg mode d) := by
  intro fs h
  obtain ⟨ty, rest, -, rfl, ⟨-, hd, h⟩ | ⟨a, o, -, -, h⟩ | ⟨-, hd, h⟩⟩ := encodeDstReg_parts h
  · obtain ⟨hreg, -, hs, hhs, rfl⟩ := (dstAlign1Direct_eq_ok hd).mp h
    simp [fileCode_lt, code4_lt, registerNumber_lt hreg, subRegOrAcc_lt hreg,
      horzStrideCode_lt (destinationStride_eq_ok.mp hhs).2]
  · obtain ⟨-, hrange, -, hs, hhs, rfl⟩ := dstAlign1Indirect_eq_ok.mp h
    simp only [Layout.indirectLegal, Bool.and_eq_true, decide_eq_true_eq] at hrange
    simp [fileCode_lt, code4_lt, offsetFields_range, horzStrideCode_lt (destinationStride_eq_ok.mp hhs).2,
      hrange]
  · obtain ⟨hreg, -, -, rfl⟩ := (dstAlign16Direct_eq_ok hd).mp h
    cases hacc : d.specialAcc <;>
      simp [fileCode_lt, code4_lt, registerNumber_lt hreg, offset_div_le hreg]

theorem encodeDst_inWord (cfg : Cfg) (mode : AccessMode) (d : Operand) : FieldsInWord (encodeDst cfg mode d) := by
  cases d with
  | imm i => exact fieldsInWord_error
  | reg r => exact encodeDstReg_inWord cfg mode r

/-- The two slots lie in the upper half of the word (R238). -/
theorem slotBase_le {k : Nat} (hk : k ≤ 1) : slotBase k ≤ 96 := by
  unfold slotBase
  omega

theorem inWord_rfPos (k : Nat) {v : Nat} (hv : v < 4) : InWord ⟨rfPos k, 2, v⟩ := by
  refine ⟨?_, hv⟩
  dsimp only [rfPos]
  split <;> decide

theorem inWord_tyPos (k : Nat) (c : BitVec 4) : InWord ⟨tyPos k, 4, c.toNat⟩ := by
  refine ⟨?_, code4_lt c⟩
  dsimp only [tyPos]
  split <;> decide

theorem regionFields_inWord {base : Nat} (hbase : base ≤ 96) (r : SrcRegion) : FieldsInWord (regionFields base r) := by
  intro fs h
  obtain ⟨v, w, h, hv, hw, hh, rfl⟩ := regionFields_eq_ok.mp h
  simp [vertStrideCode_lt hv, widthCode_lt hw, horzStrideCode_lt hh]
  omega

/-- A direct Align1 source: where it is legal, its fields (R240, R243). -/
theorem srcAlign1Direct_ok {cfg : Cfg} {base : Nat} {region : SrcRegion} {overlay : Bool} {s : RegOperand}
    {fs : List Field} (h : srcAlign1Direct cfg base region overlay s = .ok fs) :
    Layout.registerLegal cfg s = true ∧ ∃ rs, regionFields base region = .ok rs ∧
      fs = [⟨base + 13, 1, 0⟩, ⟨base + 5, 8, Layout.registerNumber cfg s⟩, ⟨base, 5, Layout.subRegOrAcc cfg s⟩] ++
        rs := by
  simp only [srcAlign1Direct, bind_eq_ok, checkRegister_eq_ok, exists_const, Except.ok.injEq] at h
  obtain ⟨hreg, rs, hrs, _, -, rfl⟩ := h
  rw [regNumField_eq hreg, subRegField_eq hreg]
  exact ⟨hreg, rs, hrs, rfl⟩

/-- An indirect source: where it is legal, its fields (R241). -/
theorem srcAlign1Indirect_ok {cfg : Cfg} {base : Nat} {region : SrcRegion} {overlay : Bool} {s : RegOperand} {a : Nat}
    {o : Int} {fs : List Field} (h : srcAlign1Indirect cfg base region overlay s a o = .ok fs) :
    Layout.indirectLegal a o = true ∧ ∃ rs, regionFields base region = .ok rs ∧
      fs = [⟨base + 13, 1, 1⟩, ⟨base + 9, 4, a⟩, ⟨base, 9, twos 10 o &&& 0x1FF⟩, ⟨base + 31, 1, twos 10 o >>> 9⟩] ++
        rs := by
  simp only [srcAlign1Indirect, bind_eq_ok, require_eq_ok, indirectRangeOk_eq, exists_const, Except.ok.injEq] at h
  obtain ⟨_, -, hrange, rs, hrs, _, -, rfl⟩ := h
  exact ⟨hrange, rs, hrs, rfl⟩

theorem encodeSrcReg_inWord (cfg : Cfg) (mode : AccessMode) (region : SrcRegion) (overlay : Bool) {k : Nat}
    (hk : k ≤ 1) (s : RegOperand) : FieldsInWord (encodeSrcReg cfg mode region overlay k s) := by
  intro fs h
  have hbase := slotBase_le hk
  have hregion (rs : List Field) (hrs : regionFields (slotBase k) region = .ok rs) := regionFields_inWord hbase _ rs hrs
  obtain ⟨ty, rest, -, rfl, hcase⟩ := encodeSrcReg_parts h
  simp only [List.forall_mem_cons]
  refine ⟨inWord_rfPos k (fileCode_lt _), inWord_tyPos k ty, ⟨by dsimp only; omega, modifierCode_lt _⟩, ?_⟩
  obtain ⟨-, hs, h⟩ | ⟨a, o, -, -, h⟩ | ⟨-, hs, h⟩ := hcase
  · obtain ⟨hreg, rs, hrs, rfl⟩ := srcAlign1Direct_ok h
    refine List.forall_mem_append.mpr ⟨?_, hregion rs hrs⟩
    simp [registerNumber_lt hreg, subRegOrAcc_lt hreg]
    omega
  · obtain ⟨hrange, rs, hrs, rfl⟩ := srcAlign1Indirect_ok h
    refine List.forall_mem_append.mpr ⟨?_, hregion rs hrs⟩
    simp only [Layout.indirectLegal, Bool.and_eq_true, decide_eq_true_eq] at hrange
    simp [offsetFields_range, hrange]
    omega
  · simp only [srcAlign16Direct, bind_eq_ok, checkRegister_eq_ok, exists_const, Except.ok.injEq] at h
    obtain ⟨hreg, -, -, -, -, rfl⟩ := h
    rw [regNumField_eq hreg, subRegHighBit_eq hreg]
    cases s.specialAcc <;>
      simp [registerNumber_lt hreg, offset_div_le hreg, code4_lt, channelCode_lt, channelPair_lt] <;> omega

/-! ## Immediates (R245, R246, R278) -/

/-- The pattern of a float value has the bits of its format (R96). -/
theorem floatBits_lt {e f : Nat} {v : FloatValue} {b : Nat} (h : floatBits e f v = some b) : b < 2 ^ (1 + e + f) := by
  have hsign (neg : Bool) : neg.toNat <<< (e + f) < 2 ^ (1 + e + f) := by
    rw [Nat.shiftLeft_eq, show 1 + e + f = 1 + (e + f) by omega, Nat.pow_add 2 1]
    exact Nat.mul_lt_mul_of_pos_right neg.toNat_lt (Nat.two_pow_pos _)
  have hexp (x : Nat) (hx : x < 2 ^ e) : x <<< f < 2 ^ (1 + e + f) := by
    have : x <<< f < 2 ^ (e + f) := by
      rw [Nat.shiftLeft_eq, Nat.pow_add]
      exact Nat.mul_lt_mul_of_pos_right hx (Nat.two_pow_pos _)
    exact this.trans_le (Nat.pow_le_pow_right (by decide) (by omega))
  have hfrac (x : Nat) (hx : x < 2 ^ f) : x < 2 ^ (1 + e + f) :=
    hx.trans_le (Nat.pow_le_pow_right (by decide) (by omega))
  have hones : 2 ^ e - 1 < 2 ^ e := Nat.sub_lt (Nat.two_pow_pos e) (by decide)
  cases v with
  | infinity neg =>
    simp only [floatBits, Option.some.injEq] at h
    exact h ▸ Nat.or_lt_two_pow (hsign neg) (hexp _ hones)
  | nan neg payload =>
    simp only [floatBits, fitsU, Option.ite_none_right_eq_some, Bool.and_eq_true, decide_eq_true_eq,
      Option.some.injEq] at h
    obtain ⟨⟨-, hpayload⟩, rfl⟩ := h
    exact Nat.or_lt_two_pow (Nat.or_lt_two_pow (hsign neg) (hexp _ hones)) (hfrac _ hpayload)
  | finite neg num den =>
    simp only [floatBits, Option.ite_none_left_eq_some] at h
    obtain ⟨-, h⟩ := h
    generalize num * 2 ^ (2 ^ (e - 1) + f - 2) / den = n at h
    split at h
    next hn =>
      obtain rfl := Option.some.inj h
      exact Nat.or_lt_two_pow (hsign neg) (hfrac n hn)
    next hn =>
      simp only [Option.ite_none_left_eq_some, Bool.or_eq_true, decide_eq_true_eq, not_or, Option.some.injEq] at h
      obtain ⟨⟨-, hshift⟩, rfl⟩ := h
      have hlog : n < 2 ^ (n.log2 + 1) := Nat.lt_log2_self
      have hf : f ≤ n.log2 := (Nat.le_log2 (by have := Nat.two_pow_pos f; omega)).mpr (by omega)
      have hmant : n >>> (n.log2 - f) < 2 ^ (f + 1) := by
        rw [Nat.shiftRight_eq_div_pow, Nat.div_lt_iff_lt_mul (Nat.two_pow_pos _), ← Nat.pow_add]
        rwa [show f + 1 + (n.log2 - f) = n.log2 + 1 by omega]
      refine Nat.or_lt_two_pow (Nat.or_lt_two_pow (hsign neg) (hexp _ (by omega))) (hfrac _ ?_)
      rw [Nat.pow_succ] at hmant
      have := Nat.two_pow_pos f
      omega

theorem signedValue_lt {n : Nat} {v : ImmValue} {b : Nat} (h : signedValue n v = .ok b) : b < 2 ^ n := by
  obtain ⟨i, -, -, rfl⟩ := signedValue_eq_ok.mp h
  exact twos_lt n i

theorem unsignedValue_lt {n : Nat} {v : ImmValue} {b : Nat} (h : unsignedValue n v = .ok b) : b < 2 ^ n := by
  obtain ⟨i, -, -, hfits, rfl⟩ := unsignedValue_eq_ok.mp h
  simpa [fitsU] using hfits

theorem floatValue_lt {e f : Nat} {v : ImmValue} {b : Nat} (h : floatValue e f v = .ok b) : b < 2 ^ (1 + e + f) := by
  obtain ⟨x, -, hx⟩ := floatValue_eq_ok.mp h
  exact floatBits_lt hx

theorem replicate16_lt {x : Except Cause Nat} {b : Nat} (hx : ∀ v, x = .ok v → v < 2 ^ 16)
    (h : replicate16 <$> x = .ok b) : b < 2 ^ 32 := by
  obtain ⟨v, hok, rfl⟩ := replicate16_eq_ok.mp h
  have := hx v hok
  refine Nat.or_lt_two_pow ?_ (by omega)
  rw [Nat.shiftLeft_eq]
  omega

/-- The bits of an immediate fill its field, of 32 bits or of 64 (R245, R246). -/
theorem immBits_lt {i : ImmOperand} {v : Nat} (h : immBits i = .ok v) : v < 2 ^ (if i.type.is64 then 64 else 32) := by
  unfold immBits at h
  split at h <;> simp only [*, DataType.is64, if_true, if_false, Bool.false_eq_true]
  next => exact signedValue_lt h
  next => exact unsignedValue_lt h
  next => exact floatValue_lt h
  next => exact replicate16_lt (fun _ => signedValue_lt) h
  next => exact replicate16_lt (fun _ => unsignedValue_lt) h
  next => exact replicate16_lt (fun _ => floatValue_lt) h
  next => exact floatValue_lt h
  next => exact signedValue_lt h
  next => exact unsignedValue_lt h
  all_goals cases h

theorem encodeImm_inWord (cfg : Cfg) (sole : Bool) (k : Nat) (i : ImmOperand) :
    FieldsInWord (encodeImm cfg sole k i) := by
  simp only [encodeImm, fieldsInWord_bind, fieldsInWord_ok, List.forall_mem_cons]
  intro _ _ ty _ _ _ _ _ v hv
  refine ⟨inWord_rfPos k (by decide), inWord_tyPos k ty, ?_, by simp⟩
  have hlt := immBits_lt hv
  split
  next h64 => exact ⟨Nat.le_refl 128, by simpa [h64] using hlt⟩
  next h64 => exact ⟨Nat.le_refl 128, by simpa [h64] using hlt⟩

theorem encodeSrc_inWord (cfg : Cfg) (ins : Instruction) (sole : Bool) {k : Nat} (hk : k ≤ 1) (s : Operand) :
    FieldsInWord (encodeSrc cfg ins sole k s) := by
  cases s with
  | imm i => exact encodeImm_inWord cfg sole k i
  | reg r => exact encodeSrcReg_inWord cfg _ _ _ hk r

theorem encodeOneSrc_inWord (cfg : Cfg) (ins : Instruction) (d s0 : Operand) :
    FieldsInWord (encodeOneSrc cfg ins d s0) := by
  simp only [encodeOneSrc, fieldsInWord_bind, fieldsInWord_ok, List.forall_mem_append]
  intro fd hd f0 h0
  exact ⟨encodeDst_inWord _ _ _ fd hd, encodeSrc_inWord _ _ _ (by decide) _ f0 h0⟩

theorem encodeTwoSrc_inWord (cfg : Cfg) (ins : Instruction) (d s0 s1 : Operand) :
    FieldsInWord (encodeTwoSrc cfg ins d s0 s1) := by
  simp only [encodeTwoSrc, fieldsInWord_bind, fieldsInWord_ok, List.forall_mem_append]
  intro fd hd f0 h0 f1 h1
  exact ⟨⟨encodeDst_inWord _ _ _ fd hd, encodeSrc_inWord _ _ _ (by decide) _ f0 h0⟩,
    encodeSrc_inWord _ _ _ (by decide) _ f1 h1⟩

theorem mathPatch_inWord (cfg : Cfg) (fn : MathFn) : FieldsInWord (mathPatch cfg fn) := by
  simp [mathPatch, InWord, code4_lt]

theorem encodeWait_inWord (cfg : Cfg) (s : Operand) : FieldsInWord (encodeWait cfg s) := by
  cases s with
  | imm i => exact fieldsInWord_error
  | reg r =>
    simp only [encodeWait, fieldsInWord_bind, fieldsInWord_ok, List.forall_mem_append]
    intro _ _ fd hd fs hs
    exact ⟨encodeDstReg_inWord _ _ _ fd hd, encodeSrcReg_inWord _ _ _ _ (by decide) _ fs hs⟩

/-! ## Branches (R351 to R353) -/

theorem encodeCall_inWord (cfg : Cfg) (d : Operand) : FieldsInWord (encodeCall cfg d) := by
  cases d with
  | imm i => exact fieldsInWord_error
  | reg r =>
    simp only [encodeCall, fieldsInWord_bind, fieldsInWord_ok, List.forall_mem_append]
    intro _ _ fd hd
    exact ⟨⟨encodeDstReg_inWord _ _ _ fd hd, by decide⟩, by decide⟩

/-! ## Sends (R302 to R312) -/

/-- A descriptor as the block reads it from an operand: 32 bits, or an address sub-register (R300). -/
def Descriptor.InRange : Descriptor → Prop
  | .imm x => x < 2 ^ 32
  | .reg n => n ≤ 15

theorem descriptorOf_inRange {o : Operand} {d : Descriptor} (h : descriptorOf o = some d) : d.InRange := by
  unfold descriptorOf at h
  split at h
  next v _ =>
    obtain rfl := Option.some.inj h
    exact twos_lt 32 v
  next =>
    obtain ⟨n, hn, rfl⟩ := Option.map_eq_some_iff.mp h
    unfold addressRegister at hn
    split at hn
    · cases hn
    · simp only [Option.ite_none_right_eq_some, Bool.and_eq_true, decide_eq_true_eq, Option.some.injEq] at hn
      obtain ⟨⟨-, hle⟩, rfl⟩ := hn
      exact hle

theorem eotBit_le (x : Descriptor) : eotBit x ≤ 1 := by
  cases x with
  | imm v => exact Nat.le_of_lt_succ (and_low_lt (v >>> 5) 1)
  | reg n => exact Nat.zero_le 1

theorem sfid_lt (x : Descriptor) : sfid x < 16 := by
  cases x with
  | imm v => exact and_low_lt v 4
  | reg n => exact Nat.zero_lt_succ 15

theorem encodeSend_inWord (cfg : Cfg) (ins : Instruction) (d s0 : Operand) (desc exDesc : Descriptor) :
    FieldsInWord (encodeSend cfg ins d s0 desc exDesc) := by
  simp only [encodeSend, fieldsInWord_bind, fieldsInWord_ok, List.forall_mem_append]
  intro _ _ _ _ fd hd _ _ _ _ _ _ f0 h0
  refine ⟨⟨⟨encodeDst_inWord _ _ _ fd hd, encodeSrc_inWord _ _ _ (by decide) _ f0 h0⟩, ?_⟩, ?_⟩
  · simp [sfid_lt, eotBit_le]
  · cases desc with
    | imm x => simp [immFileCode, and31_lt]
    | reg n => simp [selectorField_lt]

theorem exDescFields_inWord {exDesc : Descriptor} (h : exDesc.InRange) : ∀ f ∈ exDescFields exDesc, InWord f := by
  cases exDesc with
  | imm x =>
    have hhigh : x >>> 16 < 65536 := by
      have hx : x < 2 ^ 32 := h
      rw [Nat.shiftRight_eq_div_pow]
      omega
    have hsfid : x &&& 0xF < 16 := and_low_lt x 4
    have heot : x >>> 5 % 2 ≤ 1 := by omega
    simp [exDescFields, hhigh, hsfid, heot]
  | reg n =>
    have hn : n < 16 := Nat.lt_succ_of_le h
    simp [exDescFields, hn]

theorem grfNumber_lt {cfg : Cfg} {r : RegOperand} (h : Layout.registerLegal cfg r = true) (hf : r.file = .grf) :
    byteAddr r >>> 5 < 256 := by
  have := regNumField_eq h ▸ registerNumber_lt h
  simpa [regNumField, hf] using this

theorem file_of_payloadRegisterOk {r : RegOperand} (h : payloadRegisterOk r = true) : r.file = .grf := by
  simp only [payloadRegisterOk, Bool.and_eq_true, beq_iff_eq] at h
  obtain ⟨⟨-, hfile⟩, -⟩ := h
  exact hfile

theorem encodeSends_inWord (cfg : Cfg) (d s0 s1 : Operand) (desc : Descriptor) {exDesc : Descriptor}
    (hx : exDesc.InRange) : FieldsInWord (encodeSends cfg d s0 s1 desc exDesc) := by
  simp only [encodeSends, fieldsInWord_bind, fieldsInWord_ok, List.forall_mem_append]
  rintro ⟨rd, ty⟩ hd r0 h0 r1 h1
  cases d with
  | imm i => cases hd
  | reg r =>
  cases s0 with
  | imm i => cases h0
  | reg s0 =>
  cases s1 with
  | imm i => cases h1
  | reg s1 =>
  obtain ⟨rfl, -, -, -, hsub, hnumber, -⟩ := splitDestination_eq_ok.mp hd
  obtain ⟨rfl, hplace, -, hreg0, -⟩ := splitSource_eq_ok.mp h0
  obtain ⟨rfl, -, -, hreg1, -⟩ := splitSource_eq_ok.mp h1
  have hreg := registerLegal_of_parts hnumber hsub
  have hnum1 : (if r1.file = .grf then byteAddr r1 >>> 5 else 0) < 256 := by
    split
    next hf => exact grfNumber_lt hreg1 hf
    next => decide
  refine ⟨⟨?_, ?_⟩, exDescFields_inWord hx⟩
  · simp [regNumField_eq hreg, registerNumber_lt hreg, fileCode_lt, code4_lt, Bool.toNat_le,
      grfNumber_lt hreg0 (file_of_payloadRegisterOk hplace), hnum1]
  · cases desc with
    | imm x => simp [and31_lt]
    | reg n => simp

/-! ## Three sources (R270 to R279) -/

/-- The channel enables of an Align16 destination, which a special accumulator replaces (R237, R272). -/
def channelEnables (cfg : Cfg) (d : RegOperand) : Nat :=
  match d.specialAcc with
  | some a => (cfg.specialAcc.code a).toNat
  | none => d.writeMask.toNat

theorem channelEnables_lt (cfg : Cfg) (d : RegOperand) : channelEnables cfg d < 16 := by
  unfold channelEnables
  split <;> exact code4_lt _

theorem regFileBit_le (r : RegOperand) : regFileBit r ≤ 1 := by
  unfold regFileBit
  split <;> decide

/-- An Align16 three-source destination: where it is encoded, its six fields (R272). -/
theorem dst16_ok {cfg : Cfg} {r : RegOperand} {fs : List Field} (h : dst16 cfg (.reg r) = .ok fs) :
    Layout.registerLegal cfg r = true ∧ ∃ ty, cfg.type3Code r.dataType = some ty ∧
      fs = [⟨38, 1, regFileBit r⟩, ⟨35, 3, ty.toNat⟩, ⟨55, 8, Layout.registerNumber cfg r⟩,
        ⟨26, 1, Layout.offsetInRegister r / 16⟩, ⟨22, 4, channelEnables cfg r⟩, ⟨27, 2, 3⟩] := by
  simp only [dst16, directRegister, bind_eq_ok, require_eq_ok, entry_eq_ok, checkRegister_eq_ok, exists_const,
    Except.ok.injEq] at h
  obtain ⟨_, ⟨-, rfl⟩, -, ty, hty, hreg, -, -, rfl⟩ := h
  rw [regNumField_eq hreg, subRegHighBit_eq hreg]
  exact ⟨hreg, ty, hty, rfl⟩

/-- A swizzle is its four channels, two bits each (R273). -/
theorem swizzle_eq (c : ChannelSelect) :
    swizzle c = c.c0.code + 4 * c.c1.code + 16 * c.c2.code + 64 * c.c3.code := by
  have h0 := channelCode_lt c.c0
  have h1 := channelCode_lt c.c1
  have h2 := channelCode_lt c.c2
  have hor (a b n : Nat) (ha : a < 2 ^ n) : a ||| b <<< n = a + b * 2 ^ n := by
    rw [Nat.or_comm, ← Nat.shiftLeft_add_eq_or_of_lt ha, Nat.shiftLeft_eq, Nat.add_comm]
  rw [swizzle, hor _ _ 2 (by omega), hor _ _ 4 (by omega), hor _ _ 6 (by omega)]
  omega

theorem swizzle_lt (c : ChannelSelect) : swizzle c < 256 := by
  have h0 := channelCode_lt c.c0
  have h1 := channelCode_lt c.c1
  have h2 := channelCode_lt c.c2
  have h3 := channelCode_lt c.c3
  rw [swizzle_eq]
  omega

/-- An Align16 three-source source: where it is encoded, its six fields (R273). -/
theorem src16_ok {cfg : Cfg} {k : Nat} {r : RegOperand} {fs : List Field} (h : src16 cfg k (.reg r) = .ok fs) :
    r.number < 256 ∧ Layout.offsetInRegister r / 16 ≤ 1 ∧ ∃ ty, cfg.type3Code r.dataType = some ty ∧
      fs = [⟨(slot16 k).type, 3, ty.toNat⟩, ⟨(slot16 k).rep, 1, r.repCtrl.toNat⟩,
        ⟨(slot16 k).swizzle, 8, swizzle (Layout.swizzleChannels r)⟩,
        ⟨(slot16 k).sub, 1, Layout.offsetInRegister r / 16⟩, ⟨(slot16 k).regnum, 8, r.number⟩,
        ⟨(slot16 k).srcmod, 2, r.modifier.code⟩] := by
  simp only [src16, directRegister, bind_eq_ok, require_eq_ok, entry_eq_ok, checkRegister_eq_ok, exists_const,
    Except.ok.injEq, beq_iff_eq] at h
  obtain ⟨_, ⟨-, rfl⟩, hfile, -, hreg, -, ty, hty, c, hc, rfl⟩ := h
  have hnumber : byteAddr r >>> 5 = r.number := by
    simpa [regNumField, Layout.registerNumber, hfile] using regNumField_eq hreg
  have hchannels : Layout.swizzleChannels r = c := by
    cases hregion : r.region <;>
      simp_all [swizzleOf, Layout.swizzleChannels, Region.channelSelect?]
  rw [hnumber, hchannels, subRegHighBit_eq hreg]
  exact ⟨hnumber ▸ grfNumber_lt hreg hfile, offset_div_le hreg, ty, hty, rfl⟩

/-- An Align1 three-source destination: where it is encoded, its five fields (R275). -/
theorem dst1_ok {cfg : Cfg} {r : RegOperand} {fs : List Field} (h : dst1 cfg (.reg r) = .ok fs) :
    Layout.registerLegal cfg r = true ∧ ∃ ty hs, cfg.regTypeCode r.dataType = some ty ∧
      dstStride3Code (Layout.dstStride r) = some hs ∧
      fs = [⟨26, 1, regFileBit r⟩, ⟨35, 4, ty.toNat⟩, ⟨120, 8, Layout.registerNumber cfg r⟩,
        ⟨115, 5, Layout.subRegOrAcc cfg r⟩, ⟨22, 1, hs⟩] := by
  simp only [dst1, directRegister, bind_eq_ok, require_eq_ok, entry_eq_ok, checkRegister_eq_ok, exists_const,
    Except.ok.injEq] at h
  obtain ⟨_, ⟨-, rfl⟩, -, ty, hty, hreg, -, hs, hhs, -, rfl⟩ := h
  rw [regNumField_eq hreg, subRegField_eq hreg]
  exact ⟨hreg, ty, hs, hty, hhs, rfl⟩

/-- A register source of an Align1 three-source word: where it is encoded, its seven fields (R276, R277). -/
theorem src1Reg_ok {cfg : Cfg} {execSize k : Nat} {r : RegOperand} {fs : List Field}
    (h : src1Reg cfg execSize k r = .ok fs) :
    Layout.registerLegal cfg r = true ∧ ∃ ty vs hs, cfg.regTypeCode r.dataType = some ty ∧
      vertStride3Code (sourceRegion3 execSize r).1 = some vs ∧ horzStride3Code (sourceRegion3 execSize r).2 = some hs ∧
      fs = [⟨(slot1 k).regfile, 1, regFileBit r⟩, ⟨(slot1 k).type, 4, ty.toNat⟩,
        ⟨(slot1 k).srcmod, 2, r.modifier.code⟩, ⟨(slot1 k).vstride, 2, vs⟩, ⟨(slot1 k).hstride, 2, hs⟩,
        ⟨(slot1 k).regnum, 8, Layout.registerNumber cfg r⟩, ⟨(slot1 k).subreg, 5, Layout.subRegOrAcc cfg r⟩] := by
  simp only [src1Reg, bind_eq_ok, require_eq_ok, entry_eq_ok, checkRegister_eq_ok, Except.ok.injEq, exists_const] at h
  obtain ⟨-, -, ty, hty, vs, hvs, hs, hhs, hreg, _, -, -, rfl⟩ := h
  rw [regNumField_eq hreg, subRegField_eq hreg]
  exact ⟨hreg, ty, vs, hs, hty, hvs, hhs, rfl⟩

/-- The two's complement of a value that fits is read back as the value (R13, R95). -/
theorem signed_twos16 {x : Int} (h : fitsS 16 x = true) : signed 16 (twos 16 x) = x := by
  simp only [fitsS, Bool.and_eq_true, decide_eq_true_eq] at h
  unfold signed twos
  split <;> omega

theorem signed_toNat16 {x : Int} (hx : 0 ≤ x) (h : fitsU 15 x.toNat = true) : signed 16 x.toNat = x := by
  rw [fitsU, decide_eq_true_eq] at h
  rw [signed, if_pos h]
  exact Int.toNat_of_nonneg hx

/-- What the 16-bit field of an immediate holds: its value, signed, or its binary16 pattern (R278). -/
def Imm16Holds (value : ImmValue) (v : Nat) : Prop :=
  match value with
  | .int x => signed 16 v = x
  | .float x => floatBits 5 10 x = some v

theorem imm16_ok {i : ImmOperand} {v : Nat} (h : imm16 i = .ok v) : v < 65536 ∧ Imm16Holds i.value v := by
  unfold imm16 at h
  split at h
  case h_1 | h_2 =>
    obtain ⟨x, hx, hfits, rfl⟩ := signedValue_eq_ok.mp h
    exact ⟨twos_lt 16 x, hx ▸ signed_twos16 hfits⟩
  case h_3 | h_4 =>
    obtain ⟨x, hx, hpos, hfits, rfl⟩ := unsignedValue_eq_ok.mp h
    exact ⟨(unsignedValue_lt h).trans (by decide), hx ▸ signed_toNat16 hpos hfits⟩
  case h_5 =>
    obtain ⟨x, hx, hbits⟩ := floatValue_eq_ok.mp h
    exact ⟨floatBits_lt hbits, hx ▸ hbits⟩
  case h_6 => cases h

theorem src1Imm_ok {cfg : Cfg} {k : Nat} {i : ImmOperand} {fs : List Field} (h : src1Imm cfg k i = .ok fs) :
    ∃ v ty, imm16 i = .ok v ∧ cfg.regTypeCode i.type = some ty ∧
      fs = [⟨(slot1 k).regfile, 1, 1⟩, ⟨(slot1 k).type, 4, ty.toNat⟩, ⟨(slot1 k).vstride, 16, v⟩,
        ⟨(slot1 k).vstride + 16, 1, 0⟩, ⟨(slot1 k).srcmod, 2, 0⟩] := by
  simp only [src1Imm, bind_eq_ok, require_eq_ok, entry_eq_ok, Except.ok.injEq] at h
  obtain ⟨_, -, v, hv, ty, hty, rfl⟩ := h
  exact ⟨v, ty, hv, hty, rfl⟩

theorem dst16_inWord (cfg : Cfg) (d : Operand) : FieldsInWord (dst16 cfg d) := by
  intro fs h
  cases d with
  | imm i => cases h
  | reg r =>
    obtain ⟨hreg, ty, -, rfl⟩ := dst16_ok h
    simp [regFileBit_le, code3_lt, registerNumber_lt hreg, offset_div_le hreg, channelEnables_lt]

theorem src16_inWord (cfg : Cfg) (k : Nat) (s : Operand) : FieldsInWord (src16 cfg k s) := by
  intro fs h
  cases s with
  | imm i => cases h
  | reg r =>
    obtain ⟨hnumber, hsub, ty, -, rfl⟩ := src16_ok h
    unfold slot16
    split <;> simp [code3_lt, Bool.toNat_le, swizzle_lt, hnumber, hsub, modifierCode_lt]

theorem dst1_inWord (cfg : Cfg) (d : Operand) : FieldsInWord (dst1 cfg d) := by
  intro fs h
  cases d with
  | imm i => cases h
  | reg r =>
    obtain ⟨hreg, ty, hs, -, hhs, rfl⟩ := dst1_ok h
    simp [regFileBit_le, code4_lt, registerNumber_lt hreg, subRegOrAcc_lt hreg, dstStride3Code_le hhs]

theorem src1_inWord (cfg : Cfg) (execSize k : Nat) (s : Operand) : FieldsInWord (src1 cfg execSize k s) := by
  intro fs h
  cases s with
  | imm i =>
    obtain ⟨v, ty, hv, -, rfl⟩ := src1Imm_ok h
    obtain ⟨hlt, -⟩ := imm16_ok hv
    unfold slot1
    split <;> simp [code4_lt, hlt]
  | reg r =>
    obtain ⟨hreg, ty, vs, hs, -, hvs, hhs, rfl⟩ := src1Reg_ok h
    unfold slot1
    split <;> simp [regFileBit_le, code4_lt, modifierCode_lt, vertStride3Code_lt hvs, horzStride3Code_lt hhs,
      registerNumber_lt hreg, subRegOrAcc_lt hreg]

theorem encodeThreeSrc_inWord (cfg : Cfg) (ins : Instruction) (d s0 s1 s2 : Operand) :
    FieldsInWord (encodeThreeSrc cfg ins d s0 s1 s2) := by
  rw [encodeThreeSrc, fieldsInWord_bind]
  intro _ _
  split <;> simp only [fieldsInWord_bind, fieldsInWord_ok, List.forall_mem_append] <;> intro fd hd f0 h0 f1 h1 f2 h2
  · exact ⟨⟨⟨dst16_inWord _ _ fd hd, src16_inWord _ _ _ f0 h0⟩, src16_inWord _ _ _ f1 h1⟩, src16_inWord _ _ _ f2 h2⟩
  · exact ⟨⟨⟨dst1_inWord _ _ fd hd, src1_inWord _ _ _ _ f0 h0⟩, src1_inWord _ _ _ _ f1 h1⟩, src1_inWord _ _ _ _ f2 h2⟩

/-! ## The whole record -/

theorem sendDescriptors_inRange {b : InsBody} {split : Bool} {r : Descriptor × Descriptor}
    (h : sendDescriptors b split = .ok r) : r.2.InRange := by
  unfold sendDescriptors at h
  split at h
  · simp only [bind_eq_ok, entry_eq_ok, Except.ok.injEq] at h
    obtain ⟨d, -, _, -, x, hx, _, -, _, -, _, -, rfl⟩ := h
    exact descriptorOf_inRange hx
  · cases h

theorem class_of_format_sends {ins : Instruction} (h : Layout.formatOf ins = .sends) : ins.opcode.opClass = .sends := by
  cases hc : ins.opcode.opClass <;> simp only [Layout.formatOf, hc, reduceCtorEq] at h ⊢
  all_goals split_ifs at h

/-- The extended descriptor of a selected split send is one that the block reads from its payload (R300). -/
theorem exDesc_inRange_of_select {ins : Instruction} {d s0 s1 : Operand} {desc exDesc : Descriptor}
    (h : select ins = .ok (.sends d s0 s1 desc exDesc)) : exDesc.InRange := by
  have hclass := class_of_format_sends (select_fits h).format.symm
  simp only [select, hclass, sendShape, bind_eq_ok, Prod.exists] at h
  obtain ⟨_, srcs, -, _, x, hdesc, h⟩ := h
  split at h <;> cases h
  exact sendDescriptors_inRange hdesc

theorem encodeOperands_inWord {cfg : Cfg} {ins : Instruction} {shape : Shape} (hsel : select ins = .ok shape) :
    FieldsInWord (encodeOperands cfg ins shape) := by
  cases shape with
  | bare fmt => simp [encodeOperands]
  | one d s0 => exact encodeOneSrc_inWord cfg ins d s0
  | two d s0 s1 => exact encodeTwoSrc_inWord cfg ins d s0 s1
  | mathOne fn d s0 =>
    simp only [encodeOperands, fieldsInWord_bind, fieldsInWord_ok, List.forall_mem_append]
    intro fs hs fm hm
    exact ⟨encodeOneSrc_inWord _ _ _ _ fs hs, mathPatch_inWord _ _ fm hm⟩
  | mathTwo fn d s0 s1 =>
    simp only [encodeOperands, fieldsInWord_bind, fieldsInWord_ok, List.forall_mem_append]
    intro fs hs fm hm
    exact ⟨encodeTwoSrc_inWord _ _ _ _ _ fs hs, mathPatch_inWord _ _ fm hm⟩
  | three fmt d s0 s1 s2 => exact encodeThreeSrc_inWord cfg ins d s0 s1 s2
  | wait s0 => exact encodeWait_inWord cfg s0
  | send d s0 desc exDesc => exact encodeSend_inWord cfg ins d s0 desc exDesc
  | sends d s0 s1 desc exDesc =>
    simp only [encodeOperands, fieldsInWord_bind, fieldsInWord_ok]
    intro fs hs
    have hfs := encodeSends_inWord _ _ _ _ _ (exDesc_inRange_of_select hsel) fs hs
    split
    · exact hfs
    · refine List.forall_mem_append.mpr ⟨hfs, ?_⟩
      cases exDesc <;> simp [exDescRegBit]
  | branchOne => simp [encodeOperands, branchOneSrcFields, noDstFields, noSrc0Fields, jipOperandFields, immFileCode]
  | branchTwo => simp [encodeOperands]
  | jmpi => simp [encodeOperands, jmpiFields, jipOperandFields, immFileCode, ipField, selectorField_lt]
  | call d => exact encodeCall_inWord cfg d

/-- Every field of a record lies in the native word and holds its value (R95). -/
theorem encodeFields_inWord {cfg : Cfg} {back : Bool} {ins : Instruction} {shape : Shape} {fields : List Field}
    (h : encodeFields cfg back ins = .ok (shape, fields)) : ∀ f ∈ fields, InWord f := by
  simp only [encodeFields, bind_eq_ok, Except.ok.injEq, Prod.mk.injEq] at h
  obtain ⟨opc, -, shape, hsel, header, hheader, operands, hoperands, rfl, rfl⟩ := h
  exact List.forall_mem_append.mpr
    ⟨encodeHeader_inWord _ _ _ _ _ header hheader, encodeOperands_inWord hsel operands hoperands⟩

/-- A record whose fields the encoders give has a native word (R165). -/
theorem encodeNative_of_encodeFields {cfg : Cfg} {back : Bool} {ins : Instruction} {shape : Shape} {fields : List Field}
    (h : encodeFields cfg back ins = .ok (shape, fields)) :
    ∃ w, packFields (0 : NativeWord) fields = .ok w ∧
      encodeNative cfg back ins = .ok (shape.format, applySendsPatch cfg shape w) := by
  obtain ⟨w, hw⟩ := packFields_of_inWord 0 (encodeFields_inWord h)
  exact ⟨w, hw, by simp only [encodeNative, h, hw, ok_bind]⟩

end Sys2Proof.Machine
end

section
/-! PROOFS. The legal records encode: the checks of Sys2Proof/Machine/Layout.lean, which the statements name, find no
cause of R401, R402 or R300 just where the block finds none, so that a legal record has a native word. -/

namespace Sys2Proof.Machine

/-! ## Opcode (R161) -/

theorem featuresPresent_of_legal {cfg : Cfg} {ins : Instruction} (h : Layout.opcodeLegal cfg ins = true) :
    featuresPresent cfg ins = true := by
  simp only [Layout.opcodeLegal, Bool.and_eq_true] at h
  obtain ⟨-, h⟩ := h
  unfold featuresPresent
  cases hop : ins.opcode <;> simp_all

theorem checkOpcode_of_legal {cfg : Cfg} {ins : Instruction} (h : Layout.opcodeLegal cfg ins = true) :
    ∃ opc, cfg.opcode ins.opcode = some opc ∧ checkOpcode cfg ins = .ok opc := by
  have hfeatures := featuresPresent_of_legal h
  simp only [Layout.opcodeLegal, Bool.and_eq_true] at h
  obtain ⟨hcode, -⟩ := h
  obtain ⟨opc, hopc⟩ := Option.isSome_iff_exists.mp hcode
  exact ⟨opc, hopc, by simp [checkOpcode, hopc, hfeatures]⟩

/-! ## Three sources (R270, R291) -/

theorem checkClasses_eq_ok {m : Mnemonic} {d s0 s1 s2 : Operand} {u : Unit} :
    checkClasses m d s0 s1 s2 = .ok u ↔ Layout.classesLegal m d s0 s1 s2 = true := by
  simp only [checkClasses, sameClass, Layout.classesLegal, bind_eq_ok, require_eq_ok, exists_const]
  cases hd : (operandType d).typeClass <;> simp [hd, and_assoc, and_comm]

theorem encodeThreeSrc_ok_iff {cfg : Cfg} {ins : Instruction} {d s0 s1 s2 : Operand} :
    (∃ fs, encodeThreeSrc cfg ins d s0 s1 s2 = .ok fs) ↔ Layout.threeLegal cfg ins d s0 s1 s2 = true := by
  cases hmode : ins.body.accessMode <;>
    simp only [encodeThreeSrc, Layout.threeLegal, hmode, bind_eq_ok, checkClasses_eq_ok, exists_const,
      Except.ok.injEq, Bool.and_eq_true, exists_and_left]
  all_goals refine and_congr_right fun _ => ?_
  case align1 =>
    cases d with
    | imm i => simp [dst1, directRegister]
    | reg d =>
      simp only [← dst1_ok_iff, ← src1_ok_iff, Bool.and_eq_true]
      aesop
  case align16 =>
    cases d with
    | imm i => simp [dst16, directRegister]
    | reg d =>
    cases s0 with
    | imm i => simp [src16, directRegister]
    | reg s0 =>
    cases s1 with
    | imm i => simp [src16, directRegister]
    | reg s1 =>
    cases s2 with
    | imm i => simp [src16, directRegister]
    | reg s2 =>
      simp only [← dst16_ok_iff, ← src16_ok_iff (k := 0) (s := s0), ← src16_ok_iff (k := 1) (s := s1),
        ← src16_ok_iff (k := 2) (s := s2), Bool.and_eq_true]
      aesop

/-! ## Descriptors (R300) -/

/-- The lower half of R300 case 6: bits 3:0 and 5. -/
theorem and_lowBits : ∀ x < 64, x / 16 % 2 = 0 → x &&& 0x2F = x := by decide

/-- R300 case 6, as the block checks it, from the ranges of bits that it names. -/
theorem exDescBitsOk_of_ranges {split : Bool} {x : Nat} (hx : x < 2 ^ 32) (hmid : x % 65536 / 64 = 0)
    (h4 : x / 16 % 2 = 0) (hhigh : (split || x / 65536 == 0) = true) : exDescBitsOk split (.imm x) = true := by
  have hlow : x % 65536 &&& 0x2F = x % 65536 := and_lowBits _ (by omega) (by omega)
  have hupper : x / 65536 &&& exDescMask split / 65536 = x / 65536 := by
    cases split with
    | false =>
      have hzero : x / 65536 = 0 := by simpa using hhigh
      rw [hzero, Nat.zero_and]
    | true =>
      rw [show exDescMask true / 65536 = 2 ^ 16 - 1 from rfl, Nat.and_two_pow_sub_one_eq_mod]
      omega
  have hmask : exDescMask split % 65536 = 0x2F := by cases split <;> rfl
  rw [exDescBitsOk, beq_iff_eq, ← Nat.div_add_mod (x &&& _) (2 ^ 16), Nat.and_div_two_pow, Nat.and_mod_two_pow, hupper,
    hmask, hlow]
  exact Nat.div_add_mod x 65536

/-- R300 case 7, as the block checks it. -/
theorem eotBit_imm (x : Nat) : eotBit (.imm x) = x / 32 % 2 := by
  rw [eotBit, Nat.shiftRight_eq_div_pow, Nat.and_one_is_mod]

/-- What a legal descriptor operand is to the block: a value of 32 bits, or an address sub-register (R300). -/
inductive DescriptorIs (regAllowed : Nat → Bool) (o : Operand) : Descriptor → Prop
  | imm {x : Nat} (hvalue : Layout.descValue o = some x) (hx : x < 2 ^ 32) : DescriptorIs regAllowed o (.imm x)
  | reg {n : Nat} (hvalue : Layout.descValue o = none) (hn : regAllowed n = true) : DescriptorIs regAllowed o (.reg n)

theorem descriptorOf_of_legal {o : Operand} {regAllowed : Nat → Bool} (hle : ∀ n, regAllowed n = true → n ≤ 15)
    (h : Layout.descLegal o regAllowed = true) :
    descRangeOk o = true ∧ ∃ d, descriptorOf o = some d ∧ DescriptorIs regAllowed o d := by
  unfold Layout.descLegal at h
  split at h
  next v _ t =>
    simp only [Bool.and_eq_true, decide_eq_true_eq] at h
    obtain ⟨⟨ht, hlo⟩, hhi⟩ := h
    have himm : descImmediate (.imm ⟨.int v, ‹_›, t⟩) = some v := by simp only [descImmediate, ht, if_true]
    refine ⟨by simp [descRangeOk, himm, hlo, hhi], .imm (twos 32 v), by simp [descriptorOf, himm], ?_⟩
    exact .imm rfl (twos_lt 32 v)
  next => cases h
  next r =>
    simp only [Bool.and_eq_true] at h
    obtain ⟨hfile, hn⟩ := h
    have hreg : addressRegister (.reg r) = some r.subregister := by simp [addressRegister, hfile, hle _ hn]
    exact ⟨rfl, .reg r.subregister, by simp [descriptorOf, descImmediate, hreg], .reg rfl hn⟩

theorem sendDescriptors_of_legal {b : InsBody} {split : Bool} {desc exDesc : Operand}
    (hp : b.payload = .send desc exDesc) (h : Layout.descriptorsLegal split desc exDesc = true) :
    ∃ r, sendDescriptors b split = .ok r := by
  simp only [Layout.descriptorsLegal, Bool.and_eq_true] at h
  obtain ⟨⟨⟨hdesc, hexDesc⟩, hbits⟩, heot⟩ := h
  obtain ⟨hrange, d, hd, hdIs⟩ := descriptorOf_of_legal (by simp) hdesc
  obtain ⟨hxrange, x, hx, hxIs⟩ := descriptorOf_of_legal (by simp; omega) hexDesc
  have hxBits : exDescBitsOk split x = true := by
    cases hxIs with
    | imm hvalue hlt =>
      simp only [hvalue, Bool.and_eq_true, beq_iff_eq] at hbits
      obtain ⟨⟨hmid, h4⟩, hhigh⟩ := hbits
      exact exDescBitsOk_of_ranges hlt hmid h4 hhigh
    | reg => rfl
  have heotOf : Layout.eotOf exDesc = eotBit x := by
    cases hxIs with
    | imm hvalue hlt => simp [Layout.eotOf, hvalue, eotBit_imm]
    | reg hvalue => simp [Layout.eotOf, hvalue, eotBit]
  have hagrees : eotAgrees d x = true := by
    cases hdIs with
    | @imm v hvalue hlt =>
      simp only [hvalue, beq_iff_eq] at heot
      rw [eotAgrees, beq_iff_eq, ← heotOf, ← heot, Nat.shiftRight_eq_div_pow, Nat.and_one_is_mod]
      omega
    | reg => rfl
  have hdReg (n : Nat) (hn : d = .reg n) : n = 0 := by
    subst hn
    cases hdIs with | reg _ hn => exact beq_iff_eq.mp hn
  have hxReg (n : Nat) (hn : x = .reg n) : split = true := by
    subst hn
    cases hxIs with | reg _ hn => exact (Bool.and_eq_true_iff.mp hn).1
  refine ⟨(d, x), ?_⟩
  simp only [sendDescriptors, hp, hd, hx, hrange, hxrange, hxBits, hagrees, entry_some, ok_bind]
  cases d <;> cases x <;> simp [hdReg, hxReg]

/-! ## Shape and operands (R164) -/

theorem select_of_legal {cfg : Cfg} {ins : Instruction} (h : Layout.operandsLegal cfg ins = true) :
    ∃ shape operands, select ins = .ok shape ∧ encodeOperands cfg ins shape = .ok operands := by
  simp only [Layout.operandsLegal] at h
  split at h
  next hc hd hs hp => exact ⟨.bare .illegal, [], by simp [select, bareShape, hc, hd, hs, hp], rfl⟩
  next hc hd hs hp => exact ⟨.bare .nop, [], by simp [select, bareShape, hc, hd, hs, hp], rfl⟩
  next d s0 hc hd hs hp =>
    obtain ⟨fs, hfs⟩ := encodeOneSrc_ok_iff.mpr (by simpa using h)
    exact ⟨.one d s0, fs, by simp [select, hc, hd, hs, hp], hfs⟩
  next d s0 s1 hc hd hs hp =>
    obtain ⟨fs, hfs⟩ := encodeTwoSrc_ok_iff.mpr (by simpa [and_assoc] using h)
    exact ⟨.two d s0 s1, fs, by simp [select, hc, hd, hs, hp], hfs⟩
  next d s0 fn hc hd hs hp =>
    simp only [Bool.and_eq_true, beq_iff_eq, Option.isSome_iff_exists] at h
    obtain ⟨⟨⟨⟨code, hcode⟩, hn⟩, hdst⟩, hsrc⟩ := h
    obtain ⟨fs, hfs⟩ := encodeOneSrc_ok_iff.mpr ⟨hdst, hsrc⟩
    exact ⟨.mathOne fn d s0, fs ++ [⟨48, 4, code.toNat⟩], by simp [select, mathShape, hc, hd, hs, hp, hn],
      by simp [encodeOperands, hfs, mathPatch, hcode]⟩
  next d s0 s1 fn hc hd hs hp =>
    simp only [Bool.and_eq_true, beq_iff_eq, Option.isSome_iff_exists] at h
    obtain ⟨⟨⟨⟨⟨code, hcode⟩, hn⟩, hdst⟩, hsrc0⟩, hsrc1⟩ := h
    obtain ⟨fs, hfs⟩ := encodeTwoSrc_ok_iff.mpr ⟨hdst, hsrc0, hsrc1⟩
    exact ⟨.mathTwo fn d s0 s1, fs ++ [⟨48, 4, code.toNat⟩], by simp [select, mathShape, hc, hd, hs, hp, hn],
      by simp [encodeOperands, hfs, mathPatch, hcode]⟩
  next d s0 s1 s2 hc hd hs hp =>
    obtain ⟨fs, hfs⟩ := encodeThreeSrc_ok_iff.mpr h
    exact ⟨.three _ d s0 s1 s2, fs, by simp [select, hc, hd, hs, hp]; rfl, hfs⟩
  next s0 hc hd hs hp =>
    obtain ⟨fs, hfs⟩ := encodeWait_ok_iff.mpr h
    exact ⟨.wait (.reg s0), fs, by simp [select, hc, hd, hs, hp], hfs⟩
  next d s0 desc exDesc hc hd hs hp =>
    obtain ⟨hdescs, hoperands⟩ := Bool.and_eq_true_iff.mp h
    obtain ⟨⟨dv, xv⟩, hdesc⟩ := sendDescriptors_of_legal hp hdescs
    obtain ⟨fs, hfs⟩ := encodeSend_ok_iff.mpr hoperands
    exact ⟨.send d s0 dv xv, fs, by simp [select, sendShape, sendSources, hc, hd, hs, hdesc], hfs⟩
  next rd r0 r1 desc exDesc hc hd hs hp =>
    obtain ⟨hdescs, hoperands⟩ := Bool.and_eq_true_iff.mp h
    obtain ⟨⟨dv, xv⟩, hdesc⟩ := sendDescriptors_of_legal hp hdescs
    obtain ⟨fs, hfs⟩ := encodeSends_ok_iff (desc := dv) (exDesc := xv).mpr hoperands
    exact ⟨.sends (.reg rd) (.reg r0) (.reg r1) dv xv, _,
      by simp [select, sendShape, sendSources, hc, hd, hs, hdesc], by rw [encodeOperands, hfs, ok_bind]⟩
  next hc hd hs hp =>
    exact ⟨.branchOne, branchOneSrcFields, by simp [select, branchShape, hc, hd, hs, hp], rfl⟩
  next hc hd hs hp => exact ⟨.jmpi, jmpiFields cfg, by simp [select, branchShape, hc, hd, hs, hp], rfl⟩
  next hc hd hs hp => exact ⟨.branchTwo, [], by simp [select, branchShape, hc, hd, hs, hp], rfl⟩
  next d jip hc hd hs hp =>
    obtain ⟨fs, hfs⟩ := encodeCall_ok_iff.mpr h
    exact ⟨.call (.reg d), fs, by simp [select, hc, hd, hs, hp], hfs⟩
  next => cases h

/-- A legal record has its fields (R165, R401, R402, R300). -/
theorem encodeFields_of_legal {cfg : Cfg} (back : Bool) {ins : Instruction} (h : Layout.recordLegal cfg ins = true) :
    ∃ shape fields, encodeFields cfg back ins = .ok (shape, fields) := by
  simp only [Layout.recordLegal, Bool.and_eq_true] at h
  obtain ⟨⟨hopcode, hheader⟩, hoperands⟩ := h
  obtain ⟨opc, -, hopc⟩ := checkOpcode_of_legal hopcode
  obtain ⟨shape, operands, hsel, hops⟩ := select_of_legal hoperands
  rw [← (select_fits hsel).format] at hheader
  obtain ⟨header, hhead⟩ := encodeHeader_ok_iff (cfg := cfg) (opc := opc) (back := back).mpr hheader
  exact ⟨shape, header ++ operands, by simp [encodeFields, hopc, hsel, hhead, hops]⟩

/-- A legal record has a native word, of its class's format (R163, R165). -/
theorem encodeNative_of_legal {cfg : Cfg} (back : Bool) {ins : Instruction} (h : Layout.recordLegal cfg ins = true) :
    ∃ w, encodeNative cfg back ins = .ok (Layout.formatOf ins, w) := by
  obtain ⟨shape, fields, hfields⟩ := encodeFields_of_legal back h
  obtain ⟨w, -, hnative⟩ := encodeNative_of_encodeFields hfields
  exact ⟨_, (encodeNative_fits hnative).1 ▸ hnative⟩

end Sys2Proof.Machine
end

section
/-! PROOFS. How an Instr command ends, from what its record's native word is: an error of the encoder, an ineligible
format under policy `Must`, or the appended word (40_header_dispatch.md R165, 45_compaction.md R370). With the statements
about policy `Must` on an ineligible format and about mixed type classes. -/

namespace Sys2Proof.Machine

/-! ## Instr commands in `Scanning` with fresh labels -/

theorem enterLabels_fresh {s : State} {defs : List Label} (h : Layout.labelsFresh s.labels defs = true) :
    enterLabels s.labels s.pos defs = .ok (Layout.labelsAfter s defs) := by
  obtain ⟨-, henter⟩ | ⟨hdup, -⟩ := enterLabels_cases s.labels s.pos defs
  · exact henter
  · simp [h] at hdup

/-- A command whose body finds an error ends with its class (R403). -/
theorem instrFails_of_encodeCommand {s : State} {i : Instr} {c : Cause} (hphase : s.phase = .scanning)
    (h : encodeCommand s i.instruction i.defs = .error c) : s.instrFails i c.code := by
  refine ⟨c, rfl, ?_⟩
  rw [exec_eq_instrCommand, instrCommand, if_pos hphase, h]
  rfl

/-- A command whose record does not encode ends with the encoder's error (R405). -/
theorem instrFails_of_encodeFields {s : State} {i : Instr} {c : Cause} (hphase : s.phase = .scanning)
    (hfresh : Layout.labelsFresh s.labels i.defs = true)
    (h : ∀ back, encodeFields s.cfg back i.instruction = .error c) : s.instrFails i c.code := by
  refine instrFails_of_encodeCommand hphase ?_
  rw [encodeCommand, enterLabels_fresh hfresh, ok_bind, encodeNative, h, error_bind, error_bind]

theorem accepts_iff {s : State} {i : Instr} :
    Layout.accepts s i = true ↔ s.phase = .scanning ∧ Layout.labelsFresh s.labels i.defs = true ∧
      Layout.recordLegal s.cfg i.instruction = true := by
  simp [Layout.accepts, and_assoc]

/-! ## Formats that are never compacted (R371) -/

/-- An accepted command of an ineligible format that is no branch appends its native word (R165, R370). -/
theorem instrEmits_native {s : State} {i : Instr} {w : NativeWord} (haccepts : Layout.accepts s i = true)
    (hpolicy : i.body.compactionPolicy ≠ .must) (hineligible : eligible (Layout.formatOf i.instruction) = false)
    (hbranch : i.mnemonic.isControlFlow = false)
    (hnative : encodeNative s.cfg false i.instruction = .ok (Layout.formatOf i.instruction, w)) :
    s.instrEmits i (.native w) false := by
  obtain ⟨hphase, hfresh, -⟩ := accepts_iff.mp haccepts
  have hback : backward (Layout.labelsAfter s i.defs) i.instruction = false := by
    simp [backward, Instr.instruction, hbranch]
  have hcompact : compact s.cfg i.instruction.body.compactionPolicy (Layout.formatOf i.instruction) w =
      .ok (.native w) := by
    obtain ⟨-, h⟩ | ⟨-, helig, -⟩ | ⟨hmust, -⟩ | ⟨hmust, -⟩ :=
      compact_cases s.cfg i.body.compactionPolicy (Layout.formatOf i.instruction) w
    · exact h
    · simp [hineligible] at helig
    · exact absurd hmust hpolicy
    · exact absurd hmust hpolicy
  have hresolve : resolveOrDefer s.cfg (Layout.labelsAfter s i.defs) s.pos i.instruction
      (Layout.formatOf i.instruction) (.native w) = .ok (.native w, false) := by
    simp [resolveOrDefer, Instr.instruction, hbranch]
  have hcommand : encodeCommand s i.instruction i.defs =
      .ok (s.emit (Layout.labelsAfter s i.defs) (Layout.formatOf i.instruction) (.native w) i.instruction false) := by
    simp only [encodeCommand, enterLabels_fresh hfresh, hback, hnative, hcompact, hresolve, ok_bind]
  rw [State.instrEmits, exec_eq_instrCommand, instrCommand, if_pos hphase, hcommand]
  rfl

/-! ## Policy `Must` (R370) -/

theorem compact_must_ineligible (cfg : Cfg) {fmt : FormatTag} (w : NativeWord) (h : eligible fmt = false) :
    compact cfg .must fmt w = .error .mustIneligible := by
  simp [compact, h]

/-- Settles O43: an accepted record has a native word, and `Must` refuses it for its format. -/
theorem mustIneligibleFails : Obligations.MustIneligibleFails := by
  intro i s hformat haccepts hpolicy
  obtain ⟨hphase, hfresh, hlegal⟩ := accepts_iff.mp haccepts
  have hineligible : eligible (Layout.formatOf i.instruction) = false := by
    generalize Layout.formatOf i.instruction = fmt at hformat
    revert hformat
    cases fmt <;> decide
  obtain ⟨w, hnative⟩ := encodeNative_of_legal (backward (Layout.labelsAfter s i.defs) i.instruction) hlegal
  have hcompact : compact s.cfg i.instruction.body.compactionPolicy (Layout.formatOf i.instruction) w =
      .error .mustIneligible := hpolicy ▸ compact_must_ineligible s.cfg w hineligible
  refine instrFails_of_encodeCommand (c := .mustIneligible) hphase ?_
  simp only [encodeCommand, enterLabels_fresh hfresh, hnative, hcompact, ok_bind, error_bind]

/-! ## Mixed type classes (R270) -/

theorem select_three {ins : Instruction} {d s0 s1 s2 : Operand} (hclass : ins.opcode.opClass = .threeSrc)
    (hpayload : ins.body.payload = .none) (hdst : ins.body.destination = some d)
    (hsrcs : ins.body.sources = [s0, s1, s2]) :
    select ins = .ok (.three (Layout.formatOf ins) d s0 s1 s2) := by
  simp [select, Layout.formatOf, hclass, hpayload, hdst, hsrcs]

theorem encodeThreeSrc_mixedClass {cfg : Cfg} {ins : Instruction} {d s0 s1 s2 : Operand}
    (h : ¬∃ c, ∀ o ∈ [d, s0, s1, s2], (operandType o).typeClass = c) :
    encodeThreeSrc cfg ins d s0 s1 s2 = .error .mixedClass := by
  have hmixed : sameClass d s0 s1 s2 = false := by
    by_contra hsame
    simp only [sameClass, Bool.not_eq_false, Bool.and_eq_true, beq_iff_eq] at hsame
    obtain ⟨⟨h0, h1⟩, h2⟩ := hsame
    exact h ⟨(operandType d).typeClass, by simp [h0, h1, h2]⟩
  rw [encodeThreeSrc, checkClasses, hmixed, require_false, error_bind, error_bind]

/-- Settles O49: the type classes are the first check on the operands of a three-source record (R405). -/
theorem mixedClassFails : Obligations.MixedClassFails := by
  intro i s d s0 s1 s2 hphase hfresh hopcode hclass hpayload hdst hsrcs hheader hmixed
  have hfails (back : Bool) : encodeFields s.cfg back i.instruction = .error .mixedClass := by
    obtain ⟨opc, -, hopc⟩ := checkOpcode_of_legal hopcode
    obtain ⟨header, hhead⟩ := encodeHeader_ok_iff (cfg := s.cfg) (opc := opc) (back := back).mpr hheader
    have hsel : select i.instruction = .ok (.three (Layout.formatOf i.instruction) d s0 s1 s2) :=
      select_three hclass hpayload hdst hsrcs
    simp only [encodeFields, hopc, hsel, Shape.format, hhead, encodeOperands, encodeThreeSrc_mixedClass hmixed, ok_bind,
      error_bind]
  exact instrFails_of_encodeFields hphase hfresh hfails

end Sys2Proof.Machine
end

section
/-! PROOFS. What a native word holds (30_encoding.md R71, R72): fields that lie apart read as their values and every
other bit is 0. With the statement about the words of `mad` and `dp4a`, whose layouts are R100, R110 and R111. -/

namespace Sys2Proof.Machine

/-! ## The word of a list of fields -/

/-- The place of a field: its first bit and its width. -/
def span (f : Field) : Nat × Nat := (f.off, f.width)

/-- Two places have no bit in common. -/
@[reducible] def Apart (p q : Nat × Nat) : Prop := p.1 + p.2 ≤ q.1 ∨ q.1 + q.2 ≤ p.1

/-- Each field of the word reads as its value. -/
def Holds (w : NativeWord) (fs : List Field) : Prop := ∀ f ∈ fs, unpack w f.off f.width = f.value

@[simp] theorem holds_nil (w : NativeWord) : Holds w [] := by simp [Holds]

@[simp] theorem holds_cons {w : NativeWord} {f : Field} {fs : List Field} :
    Holds w (f :: fs) ↔ unpack w f.off f.width = f.value ∧ Holds w fs := by simp [Holds]

@[simp] theorem holds_append {w : NativeWord} {fs gs : List Field} :
    Holds w (fs ++ gs) ↔ Holds w fs ∧ Holds w gs := by simp [Holds, or_imp, forall_and]

/-- The word that holds the fields, and 0 everywhere else (R71, R72). -/
structure WordOf (w : NativeWord) (fs : List Field) : Prop where
  holds : Holds w fs
  blank : ∀ i, (∀ f ∈ fs, i < f.off ∨ f.off + f.width ≤ i) → w.getLsbD i = false

/-- Fields of the word with no two of them at one place are packed into their word. -/
theorem packFields_wordOf {fs : List Field} (hin : ∀ f ∈ fs, InWord f) (hapart : (fs.map span).Pairwise Apart) :
    ∃ w, packFields (0 : NativeWord) fs = .ok w ∧ WordOf w fs := by
  obtain ⟨w, hok, hholds, hframe⟩ := packFields_disjoint (0 : NativeWord) fs hin (List.pairwise_map.mp hapart)
  exact ⟨w, hok, hholds, fun i hi => (hframe i hi).trans BitVec.getLsbD_zero⟩

/-- A place apart from every field reads as 0. -/
theorem WordOf.unpack_eq_zero {w : NativeWord} {fs : List Field} (h : WordOf w fs) {off width : Nat}
    (hfree : ∀ p ∈ fs.map span, Apart p (off, width)) : unpack w off width = 0 := by
  rw [← unpack_zero (n := 128) off width]
  refine unpack_congr fun i hlo hhi => (h.blank i fun f hf => ?_).trans BitVec.getLsbD_zero.symm
  have := hfree _ (List.mem_map_of_mem hf)
  simp only [span] at this
  omega

/-- The word of an encoded record that is no split send: that of its fields, where they lie apart. -/
theorem encodeNative_wordOf {cfg : Cfg} {back : Bool} {ins : Instruction} {shape : Shape} {fields : List Field}
    (h : encodeFields cfg back ins = .ok (shape, fields)) (hpatch : ∀ w, applySendsPatch cfg shape w = w)
    (hapart : (fields.map span).Pairwise Apart) :
    ∃ w, encodeNative cfg back ins = .ok (shape.format, w) ∧ WordOf w fields := by
  obtain ⟨w, hw, hword⟩ := packFields_wordOf (encodeFields_inWord h) hapart
  exact ⟨w, by simp only [encodeNative, h, hw, ok_bind, hpatch], hword⟩

/-! ## Header (R100) -/

/-- The places of the header's fields, bits 51:48 apart. -/
def headerSpans : List (Nat × Nat) :=
  [(0, 7), (8, 1), (9, 1), (10, 1), (11, 1), (12, 2), (14, 2), (21, 1), (29, 3), (34, 1), (52, 1), (53, 1), (54, 1),
   (16, 4), (20, 1), (32, 1), (33, 1)]

theorem predicateFields_spans {cfg : Cfg} {p : Option Predicate} {fs : List Field}
    (h : predicateFields cfg p = .ok fs) : fs.map span = [(16, 4), (20, 1), (32, 1), (33, 1)] := by
  cases p with
  | none => cases h; rfl
  | some p =>
    simp only [predicateFields, bind_eq_ok, Except.ok.injEq] at h
    obtain ⟨_, -, rfl⟩ := h
    rfl

theorem predicateReads_of_holds {cfg : Cfg} {p : Option Predicate} {fs : List Field} {w : NativeWord}
    (h : predicateFields cfg p = .ok fs) (hw : Holds w fs) : Layout.predicateReads cfg p w = true := by
  cases p with
  | none =>
    cases h
    simpa [Layout.predicateReads, Layout.reads, and_assoc] using hw
  | some p =>
    simp only [predicateFields, bind_eq_ok, Except.ok.injEq] at h
    obtain ⟨_, -, rfl⟩ := h
    cases hc : p.control <;> simpa [Layout.predicateReads, Layout.reads, and_assoc, hc] using hw

/-- Bits 51:48 of a format whose condition modifier they hold (R180). -/
theorem condModFields_ok {cfg : Cfg} {ins : Instruction} {fs : List Field}
    (hreused : condModReused ins.opcode = false) (h : condModFields cfg ins = .ok fs) :
    ∃ v, fs = [⟨48, 4, v⟩] ∧ ∀ w, Layout.condModReads cfg ins w = (unpack w 48 4 == v) := by
  simp only [condModFields, hreused, bind_eq_ok] at h
  obtain ⟨_, -, h⟩ := h
  unfold Layout.condModReads
  cases hm : ins.body.conditionModifier <;> simp only [hm, Bool.false_eq_true, if_false, Except.ok.injEq] at h <;>
    exact ⟨_, h.symm, fun w => rfl⟩

theorem encodeHeader_spans {cfg : Cfg} {opc : BitVec 7} {fmt : FormatTag} {ins : Instruction} {back : Bool}
    {fs : List Field} (hreused : condModReused ins.opcode = false) (h : encodeHeader cfg opc fmt ins back = .ok fs) :
    fs.map span = headerSpans ++ [(48, 4)] := by
  obtain ⟨flags, cond, size, hflags, hcond, -, rfl⟩ := encodeHeader_parts h
  obtain ⟨v, rfl, -⟩ := condModFields_ok hreused hcond
  rw [List.map_append, List.map_append, predicateFields_spans hflags]
  rfl

/-- The header of a word that holds the header's fields (R100, R171 to R183). -/
theorem headerReads_of_holds {cfg : Cfg} {opc : BitVec 7} {fmt : FormatTag} {ins : Instruction} {back : Bool}
    {fs : List Field} {w : NativeWord} (hopc : cfg.opcode ins.opcode = some opc)
    (h : encodeHeader cfg opc fmt ins back = .ok fs) (hw : Holds w fs) (hreserved : unpack w 7 1 = 0) :
    Layout.headerReads cfg ins back w = true := by
  obtain ⟨flags, cond, size, hflags, hcond, hsize, rfl⟩ := encodeHeader_parts h
  rw [holds_append, holds_append] at hw
  obtain ⟨⟨hfixed, hpred⟩, -⟩ := hw
  have hmode : ins.body.accessMode.code = if ins.body.accessMode = .align16 then 1 else 0 := by
    cases ins.body.accessMode <;> rfl
  have hmask : ins.body.maskControl.code = if ins.body.maskControl = .noMask then 1 else 0 := by
    cases ins.body.maskControl <;> rfl
  simp only [headerFields, holds_cons, hmode, hmask] at hfixed
  simp [Layout.headerReads, Layout.reads, Layout.readsCode, Layout.readsNat, hopc, hsize, hfixed, hreserved,
    predicateReads_of_holds hflags hpred]

/-! ## Three sources: places (R110, R111) -/

/-- Whether an operand is an immediate. -/
def isImmediate : Operand → Bool
  | .imm _ => true
  | .reg _ => false

/-- The places of an Align16 source (R273). -/
def src16Spans (k : Nat) : List (Nat × Nat) :=
  [((slot16 k).type, 3), ((slot16 k).rep, 1), ((slot16 k).swizzle, 8), ((slot16 k).sub, 1), ((slot16 k).regnum, 8),
   ((slot16 k).srcmod, 2)]

/-- The places of an Align1 source, by whether it is an immediate (R276, R278). -/
def src1Spans (k : Nat) : Bool → List (Nat × Nat)
  | true =>
    [((slot1 k).regfile, 1), ((slot1 k).type, 4), ((slot1 k).vstride, 16), ((slot1 k).vstride + 16, 1),
     ((slot1 k).srcmod, 2)]
  | false =>
    [((slot1 k).regfile, 1), ((slot1 k).type, 4), ((slot1 k).srcmod, 2), ((slot1 k).vstride, 2), ((slot1 k).hstride, 2),
     ((slot1 k).regnum, 8), ((slot1 k).subreg, 5)]

/-- The places of the operand fields of a three-source word, by access mode and by which sources are immediates. -/
def threeSpans (imm0 imm1 imm2 : Bool) : AccessMode → List (Nat × Nat)
  | .align16 =>
    [(38, 1), (35, 3), (55, 8), (26, 1), (22, 4), (27, 2)] ++ src16Spans 0 ++ src16Spans 1 ++ src16Spans 2
  | .align1 =>
    [(26, 1), (35, 4), (120, 8), (115, 5), (22, 1)] ++ src1Spans 0 imm0 ++ src1Spans 1 imm1 ++ src1Spans 2 imm2

theorem src16_spans {cfg : Cfg} {k : Nat} {r : RegOperand} {fs : List Field} (h : src16 cfg k (.reg r) = .ok fs) :
    fs.map span = src16Spans k := by
  obtain ⟨-, -, ty, -, rfl⟩ := src16_ok h
  rfl

theorem src1_spans {cfg : Cfg} {execSize k : Nat} {s : Operand} {fs : List Field}
    (h : src1 cfg execSize k s = .ok fs) : fs.map span = src1Spans k (isImmediate s) := by
  cases s with
  | imm i =>
    obtain ⟨v, ty, -, -, rfl⟩ := src1Imm_ok h
    rfl
  | reg r =>
    obtain ⟨-, ty, vs, hs, -, -, -, rfl⟩ := src1Reg_ok h
    rfl

/-- All that the three-source encoder can give, by access mode (R271). -/
theorem encodeThreeSrc_parts {cfg : Cfg} {ins : Instruction} {d s0 s1 s2 : Operand} {fs : List Field}
    (h : encodeThreeSrc cfg ins d s0 s1 s2 = .ok fs) :
    ∃ r fd f0 f1 f2, d = .reg r ∧ fs = fd ++ f0 ++ f1 ++ f2 ∧
      ((∃ r0 r1 r2, ins.body.accessMode = .align16 ∧ s0 = .reg r0 ∧ s1 = .reg r1 ∧ s2 = .reg r2 ∧
        dst16 cfg (.reg r) = .ok fd ∧ src16 cfg 0 (.reg r0) = .ok f0 ∧ src16 cfg 1 (.reg r1) = .ok f1 ∧
        src16 cfg 2 (.reg r2) = .ok f2) ∨
       (ins.body.accessMode = .align1 ∧ dst1 cfg (.reg r) = .ok fd ∧ src1 cfg ins.body.executionSize 0 s0 = .ok f0 ∧
        src1 cfg ins.body.executionSize 1 s1 = .ok f1 ∧ src1 cfg ins.body.executionSize 2 s2 = .ok f2)) := by
  cases hmode : ins.body.accessMode <;> simp only [encodeThreeSrc, hmode, bind_eq_ok, Except.ok.injEq] at h <;>
    obtain ⟨_, -, fd, hd, f0, h0, f1, h1, f2, h2, rfl⟩ := h
  case align1 =>
    cases d with
    | imm i => cases hd
    | reg r => exact ⟨r, fd, f0, f1, f2, rfl, rfl, .inr ⟨rfl, hd, h0, h1, h2⟩⟩
  case align16 =>
    cases d with
    | imm i => cases hd
    | reg r =>
    cases s0 with
    | imm i => cases h0
    | reg r0 =>
    cases s1 with
    | imm i => cases h1
    | reg r1 =>
    cases s2 with
    | imm i => cases h2
    | reg r2 => exact ⟨r, fd, f0, f1, f2, rfl, rfl, .inl ⟨r0, r1, r2, rfl, rfl, rfl, rfl, hd, h0, h1, h2⟩⟩

theorem encodeThreeSrc_spans {cfg : Cfg} {ins : Instruction} {d s0 s1 s2 : Operand} {fs : List Field}
    (h : encodeThreeSrc cfg ins d s0 s1 s2 = .ok fs) :
    fs.map span = threeSpans (isImmediate s0) (isImmediate s1) (isImmediate s2) ins.body.accessMode := by
  obtain ⟨r, fd, f0, f1, f2, rfl, rfl, ⟨r0, r1, r2, hmode, rfl, rfl, rfl, hd, h0, h1, h2⟩ | ⟨hmode, hd, h0, h1, h2⟩⟩ :=
    encodeThreeSrc_parts h
  · obtain ⟨-, ty, -, rfl⟩ := dst16_ok hd
    rw [hmode, List.map_append, List.map_append, List.map_append, src16_spans h0, src16_spans h1, src16_spans h2]
    rfl
  · obtain ⟨-, ty, hs, -, -, rfl⟩ := dst1_ok hd
    rw [hmode, List.map_append, List.map_append, List.map_append, src1_spans h0, src1_spans h1, src1_spans h2]
    rfl

/-- No two fields of a three-source word overlap (R72). -/
theorem threeSpans_apart (imm0 imm1 imm2 : Bool) (mode : AccessMode) :
    (headerSpans ++ [(48, 4)] ++ threeSpans imm0 imm1 imm2 mode).Pairwise Apart := by
  cases mode <;> revert imm0 imm1 imm2 <;> decide

/-- The reserved bits of a three-source word are bits of no field (R110, R111). -/
theorem threeSpans_reserved (imm0 imm1 imm2 : Bool) (mode : AccessMode) :
    (∀ q ∈ [(7, 1), (47, 1), (63, 1)], ∀ p ∈ headerSpans ++ [(48, 4)] ++ threeSpans imm0 imm1 imm2 mode, Apart p q) ∧
    (mode = .align16 →
      ∀ q ∈ [(39, 2), (127, 1)], ∀ p ∈ headerSpans ++ [(48, 4)] ++ threeSpans imm0 imm1 imm2 mode, Apart p q) := by
  cases mode <;> revert imm0 imm1 imm2 <;> decide

/-! ## Three sources: what the fields read (R270 to R279) -/

theorem regFileBit_eq (r : RegOperand) : regFileBit r = if r.file = .grf then 0 else 1 := by
  unfold regFileBit
  cases r.file <;> simp

/-- A part of a field. -/
theorem unpack_part {n : Nat} (w : BitVec n) (off : Nat) {width a b : Nat} (h : a + b ≤ width) :
    unpack w (off + a) b = unpack w off width / 2 ^ a % 2 ^ b := by
  apply Nat.eq_of_testBit_eq
  intro i
  rw [Nat.testBit_mod_two_pow, Nat.testBit_div_two_pow, testBit_unpack, testBit_unpack, Nat.add_assoc, Nat.add_comm i a]
  by_cases hi : i < b
  · have : a + i < width := by omega
    simp [*]
  · simp [hi]

theorem dst16Reads_of_holds {cfg : Cfg} {r : RegOperand} {fs : List Field} {w : NativeWord}
    (h : dst16 cfg (.reg r) = .ok fs) (hw : Holds w fs) : Layout.dst16Reads cfg r w = true := by
  obtain ⟨-, ty, hty, rfl⟩ := dst16_ok h
  simp only [holds_cons, regFileBit_eq, channelEnables] at hw
  cases hacc : r.specialAcc <;> simp [Layout.dst16Reads, Layout.reads, Layout.readsCode, hty, hw, hacc]

theorem src16Reads_of_holds {cfg : Cfg} {k : Nat} {r : RegOperand} {fs : List Field} {w : NativeWord}
    (h : src16 cfg k (.reg r) = .ok fs) (hw : Holds w fs) : Layout.src16Reads cfg k r w = true := by
  obtain ⟨-, -, ty, hty, rfl⟩ := src16_ok h
  simp only [holds_cons] at hw
  obtain ⟨htype, hrep, hswizzle, hsub, hnum, hmod, -⟩ := hw
  have hc := swizzle_eq (Layout.swizzleChannels r)
  have h0 := channelCode_lt (Layout.swizzleChannels r).c0
  have h1 := channelCode_lt (Layout.swizzleChannels r).c1
  have h2 := channelCode_lt (Layout.swizzleChannels r).c2
  have h3 := channelCode_lt (Layout.swizzleChannels r).c3
  have hpart (a : Nat) (ha : a + 2 ≤ 8) :
      unpack w ((slot16 k).swizzle + a) 2 = swizzle (Layout.swizzleChannels r) / 2 ^ a % 2 ^ 2 :=
    hswizzle ▸ unpack_part w _ ha
  have hpart0 : unpack w (slot16 k).swizzle 2 = swizzle (Layout.swizzleChannels r) / 2 ^ 0 % 2 ^ 2 :=
    hpart 0 (by decide)
  simp [Layout.src16Reads, Layout.reads, Layout.readsCode, hty, htype, hrep, hsub, hnum, hmod, hpart, hpart0, hc]
  omega

theorem dst1Reads_of_holds {cfg : Cfg} {r : RegOperand} {fs : List Field} {w : NativeWord}
    (h : dst1 cfg (.reg r) = .ok fs) (hw : Holds w fs) : Layout.dst1Reads cfg r w = true := by
  obtain ⟨-, ty, hs, hty, hhs, rfl⟩ := dst1_ok h
  have hstride : hs = Layout.dstStride r - 1 := by
    unfold dstStride3Code at hhs
    split at hhs <;> cases hhs <;> simp [*]
  simp only [holds_cons, regFileBit_eq] at hw
  simp [Layout.dst1Reads, Layout.reads, Layout.readsCode, hty, hw, hstride]

theorem src1Reads_of_holds {cfg : Cfg} {execSize k : Nat} {s : Operand} {fs : List Field} {w : NativeWord}
    (h : src1 cfg execSize k s = .ok fs) (hw : Holds w fs) : Layout.src1Reads cfg execSize k s w = true := by
  cases s with
  | imm i =>
    obtain ⟨v, ty, hv, hty, rfl⟩ := src1Imm_ok h
    obtain ⟨-, hholds⟩ := imm16_ok hv
    simp only [holds_cons] at hw
    simp only [Imm16Holds] at hholds
    cases hvalue : i.value <;> simp only [hvalue] at hholds <;>
      simp [Layout.src1Reads, Layout.imm16Reads, Layout.reads, Layout.readsCode, hty, hw, hvalue, hholds]
  | reg r =>
    obtain ⟨-, ty, vs, hs, hty, hvs, hhs, rfl⟩ := src1Reg_ok h
    simp only [holds_cons, regFileBit_eq] at hw
    simp [Layout.src1Reads, Layout.src1RegReads, Layout.reads, Layout.readsCode, Layout.readsNat, hty, hvs, hhs, hw]

/-- The operands of a word that holds their fields and 0 in the reserved bits (R110, R111). -/
theorem threeReads_of_holds {cfg : Cfg} {ins : Instruction} {d s0 s1 s2 : Operand} {fs : List Field} {w : NativeWord}
    (h : encodeThreeSrc cfg ins d s0 s1 s2 = .ok fs) (hw : Holds w fs) (h47 : unpack w 47 1 = 0)
    (h63 : unpack w 63 1 = 0)
    (h16 : ins.body.accessMode = .align16 → unpack w 39 2 = 0 ∧ unpack w 127 1 = 0) :
    Layout.threeReads cfg ins d s0 s1 s2 w = true := by
  obtain ⟨r, fd, f0, f1, f2, rfl, rfl, hcase⟩ := encodeThreeSrc_parts h
  simp only [holds_append] at hw
  obtain ⟨⟨⟨hwd, hw0⟩, hw1⟩, hw2⟩ := hw
  obtain ⟨r0, r1, r2, hmode, rfl, rfl, rfl, hd, h0, h1, h2⟩ | ⟨hmode, hd, h0, h1, h2⟩ := hcase
  · simp [Layout.threeReads, hmode, Layout.reads, dst16Reads_of_holds hd hwd, src16Reads_of_holds h0 hw0,
      src16Reads_of_holds h1 hw1, src16Reads_of_holds h2 hw2, h47, h63, h16 hmode]
  · simp [Layout.threeReads, hmode, Layout.reads, dst1Reads_of_holds hd hwd, src1Reads_of_holds h0 hw0,
      src1Reads_of_holds h1 hw1, src1Reads_of_holds h2 hw2, h47, h63]

/-! ## mad and dp4a (R290, R291) -/

/-- A legal three-source record: its shape (R164). -/
theorem three_of_legal {cfg : Cfg} {ins : Instruction} (hclass : ins.opcode.opClass = .threeSrc)
    (h : Layout.operandsLegal cfg ins = true) :
    ∃ d s0 s1 s2, ins.body.destination = some d ∧ ins.body.sources = [s0, s1, s2] ∧ ins.body.payload = .none ∧
      Layout.threeLegal cfg ins d s0 s1 s2 = true := by
  simp only [Layout.operandsLegal, hclass] at h
  split at h <;> simp_all

/-- A three-source word holds the condition modifier, and is no branch (R180). -/
theorem plain_of_three {m : Mnemonic} (h : m.opClass = .threeSrc) :
    condModReused m = false ∧ m.isControlFlow = false := by
  revert h
  cases m <;> decide

/-- The word of a legal three-source record: its header's fields, its operands' fields, and 0 in the reserved bits
(R110, R111). -/
theorem three_wordReads {cfg : Cfg} {ins : Instruction} (back : Bool) (hclass : ins.opcode.opClass = .threeSrc)
    (hlegal : Layout.recordLegal cfg ins = true) :
    ∃ w, encodeNative cfg back ins = .ok (Layout.formatOf ins, w) ∧ Layout.headerReads cfg ins back w = true ∧
      Layout.operandsRead cfg ins w = true := by
  simp only [Layout.recordLegal, Bool.and_eq_true] at hlegal
  obtain ⟨⟨hopcode, hheader⟩, hoperands⟩ := hlegal
  obtain ⟨d, s0, s1, s2, hdst, hsrcs, hpayload, hthree⟩ := three_of_legal hclass hoperands
  obtain ⟨opc, hopc, hcheck⟩ := checkOpcode_of_legal hopcode
  obtain ⟨header, hhead⟩ := encodeHeader_ok_iff (cfg := cfg) (opc := opc) (back := back).mpr hheader
  obtain ⟨operands, hops⟩ := encodeThreeSrc_ok_iff.mpr hthree
  have hsel := select_three hclass hpayload hdst hsrcs
  have hfields : encodeFields cfg back ins = .ok (.three (Layout.formatOf ins) d s0 s1 s2, header ++ operands) := by
    simp only [encodeFields, hcheck, hsel, Shape.format, hhead, encodeOperands, hops, ok_bind]
  have hreused := (plain_of_three hclass).1
  have hspans : (header ++ operands).map span = headerSpans ++ [(48, 4)] ++
      threeSpans (isImmediate s0) (isImmediate s1) (isImmediate s2) ins.body.accessMode := by
    rw [List.map_append, encodeHeader_spans hreused hhead, encodeThreeSrc_spans hops]
  obtain ⟨w, hnative, hword⟩ := encodeNative_wordOf hfields (fun _ => rfl) (hspans ▸ threeSpans_apart _ _ _ _)
  obtain ⟨hwh, hwo⟩ := holds_append.mp hword.holds
  obtain ⟨hreserved, hreserved16⟩ :=
    hspans ▸ threeSpans_reserved (isImmediate s0) (isImmediate s1) (isImmediate s2) ins.body.accessMode
  have hcond : Layout.condModReads cfg ins w = true := by
    obtain ⟨flags, cond, size, -, hcond, -, rfl⟩ := encodeHeader_parts hhead
    obtain ⟨v, rfl, hreads⟩ := condModFields_ok hreused hcond
    simp only [holds_append, holds_cons] at hwh
    rw [hreads, beq_iff_eq]
    exact hwh.2.1
  have hthreeReads : Layout.threeReads cfg ins d s0 s1 s2 w = true :=
    threeReads_of_holds hops hwo (hword.unpack_eq_zero (hreserved (47, 1) (by decide)))
      (hword.unpack_eq_zero (hreserved (63, 1) (by decide)))
      fun hmode => ⟨hword.unpack_eq_zero (hreserved16 hmode (39, 2) (by decide)),
        hword.unpack_eq_zero (hreserved16 hmode (127, 1) (by decide))⟩
  refine ⟨w, hnative, headerReads_of_holds hopc hhead hwh (hword.unpack_eq_zero (hreserved (7, 1) (by decide))), ?_⟩
  simp [Layout.operandsRead, hclass, hdst, hsrcs, hcond, hthreeReads]

theorem formatOf_three_ineligible {ins : Instruction} (h : ins.opcode.opClass = .threeSrc) :
    eligible (Layout.formatOf ins) = false := by
  simp only [Layout.formatOf, h]
  split <;> rfl

/-- Settles O36: the word of a legal record holds the fields of its layout, and its format is never compacted (R280). -/
theorem threeSrcEmitted : Obligations.ThreeSrcEmitted := by
  intro i s hmnemonic haccepts hpolicy
  have hclass : i.instruction.opcode.opClass = .threeSrc := by
    change i.mnemonic.opClass = .threeSrc
    generalize i.mnemonic = m at hmnemonic
    revert hmnemonic
    cases m <;> decide
  obtain ⟨-, -, hlegal⟩ := accepts_iff.mp haccepts
  obtain ⟨w, hnative, hheader, hoperands⟩ := three_wordReads false hclass hlegal
  have hemits : s.instrEmits i (.native w) false :=
    instrEmits_native haccepts hpolicy (formatOf_three_ineligible hclass) (plain_of_three hclass).2 hnative
  refine ⟨w, hemits, ?_⟩
  rw [Layout.wordReads, hheader, hoperands, Bool.and_self]

end Sys2Proof.Machine
end

section
/-! PROOFS. The descriptors of the send class (43_send.md R300): what the block reads from a descriptor operand, and
that it accepts only the descriptors that the checks of Sys2Proof/Machine/Layout.lean call well formed. With the statement
about malformed descriptors. -/

namespace Sys2Proof.Machine

/-! ## What a descriptor operand gives -/

theorem addressRegister_eq_some {r : RegOperand} {n : Nat} :
    addressRegister (.reg r) = some n ↔
      r.file = .arf .a ∧ r.number = 0 ∧ r.addressing = .direct ∧ r.subregister ≤ 15 ∧ n = r.subregister := by
  simp [addressRegister, and_assoc, eq_comm (a := n)]

theorem descImmediate_eq_some {i : ImmOperand} {v : Int} :
    descImmediate (.imm i) = some v ↔ (i.type = .ud ∨ i.type = .d) ∧ i.value = .int v := by
  cases hv : i.value <;> simp [descImmediate, hv]

/-- All that a descriptor operand can be: an integer of type UD or D, or a direct register `a0.n` (R300). -/
theorem descriptorOf_cases {o : Operand} {d : Descriptor} (h : descriptorOf o = some d) :
    (∃ i v, o = .imm i ∧ descImmediate o = some v ∧ Layout.descValue o = some (twos 32 v) ∧ d = .imm (twos 32 v)) ∨
    (∃ r, o = .reg r ∧ addressRegister o = some r.subregister ∧ d = .reg r.subregister) := by
  cases o with
  | imm i =>
    cases hv : descImmediate (.imm i) with
    | none => simp [descriptorOf, hv, addressRegister] at h
    | some v =>
      obtain ⟨value, width, type⟩ := i
      obtain ⟨-, rfl⟩ := descImmediate_eq_some.mp hv
      exact .inl ⟨_, v, rfl, rfl, rfl, by simpa [descriptorOf, hv, eq_comm] using h⟩
  | reg r =>
    simp only [descriptorOf, descImmediate, Option.map_eq_some_iff] at h
    obtain ⟨n, hn, rfl⟩ := h
    obtain ⟨-, -, -, -, rfl⟩ := addressRegister_eq_some.mp hn
    exact .inr ⟨r, rfl, hn, rfl⟩

/-- The 32-bit value that gives SFID and EOT, 0 for a register (R302, R311). -/
theorem eotBit_eq {o : Operand} {x : Descriptor} (h : descriptorOf o = some x) :
    eotBit x = (Layout.descValue o).getD 0 / 32 % 2 := by
  obtain ⟨i, v, -, -, hvalue, rfl⟩ | ⟨r, rfl, -, rfl⟩ := descriptorOf_cases h
  · rw [hvalue, eotBit_imm, Option.getD_some]
  · simp [eotBit, Layout.descValue]

theorem sfid_eq {o : Operand} {x : Descriptor} (h : descriptorOf o = some x) :
    sfid x = (Layout.descValue o).getD 0 % 16 := by
  obtain ⟨i, v, -, -, hvalue, rfl⟩ | ⟨r, rfl, -, rfl⟩ := descriptorOf_cases h
  · rw [hvalue, Option.getD_some]
    exact Nat.and_two_pow_sub_one_eq_mod _ 4
  · rfl

theorem eotOf_eq (o : Operand) : Layout.eotOf o = (Layout.descValue o).getD 0 / 32 % 2 := by
  cases hvalue : Layout.descValue o <;> simp [Layout.eotOf, hvalue]

/-! ## The checks of R300 cases 3 to 7 -/

/-- What the checks of R300 cases 3 to 7 establish of the two descriptors they answer. -/
structure DescriptorsAre (split : Bool) (desc exDesc : Operand) (d x : Descriptor) : Prop where
  desc_is : descriptorOf desc = some d
  desc_reg : ∀ n, d = .reg n → n = 0
  desc_range : descRangeOk desc = true
  exDesc_is : descriptorOf exDesc = some x
  exDesc_reg : ∀ n, x = .reg n → split = true
  exDesc_range : descRangeOk exDesc = true
  exDesc_bits : exDescBitsOk split x = true
  eot : eotAgrees d x = true

theorem sendDescriptors_eq_ok {b : InsBody} {split : Bool} {desc exDesc : Operand} {d x : Descriptor}
    (hp : b.payload = .send desc exDesc) (h : sendDescriptors b split = .ok (d, x)) :
    DescriptorsAre split desc exDesc d x := by
  simp only [sendDescriptors, hp, bind_eq_ok, entry_eq_ok, require_eq_ok, Bool.and_eq_true, Except.ok.injEq,
    Prod.mk.injEq] at h
  obtain ⟨d', hd, _, hdReg, x', hx, _, hxReg, _, ⟨⟨hdRange, hxRange⟩, hbits⟩, _, heot, rfl, rfl⟩ := h
  refine ⟨hd, ?_, hdRange, hx, ?_, hxRange, hbits, heot⟩
  · rintro n rfl
    exact beq_iff_eq.mp hdReg
  · rintro n rfl
    exact hxReg

/-- A descriptor that the block reads, in its range and of an allowed sub-register, is well formed. -/
theorem descLegal_of_descriptorOf {o : Operand} {d : Descriptor} {regAllowed : Nat → Bool}
    (h : descriptorOf o = some d) (hrange : descRangeOk o = true)
    (hreg : ∀ n, n ≤ 15 → d = .reg n → regAllowed n = true) :
    Layout.descLegal o regAllowed = true := by
  obtain ⟨⟨value, width, type⟩, v, rfl, hv, -, -⟩ | ⟨r, rfl, hr, rfl⟩ := descriptorOf_cases h
  · obtain ⟨htype, rfl⟩ := descImmediate_eq_some.mp hv
    simp only [descRangeOk, hv] at hrange
    simpa [Layout.descLegal, and_assoc] using ⟨htype, by simpa using hrange⟩
  · obtain ⟨hfile, hnumber, hdirect, hle, -⟩ := addressRegister_eq_some.mp hr
    simp [Layout.descLegal, hfile, hnumber, hdirect, hreg _ hle rfl]

theorem mid_of_lowBits : ∀ x < 64, x &&& 0x2F = x → x / 16 % 2 = 0 := by decide

/-- R300 case 6 as ranges of bits, from the mask that the block checks. -/
theorem ranges_of_exDescBitsOk {split : Bool} {x : Nat} (h : exDescBitsOk split (.imm x) = true) :
    x % 65536 / 64 = 0 ∧ x / 16 % 2 = 0 ∧ (split || x / 65536 == 0) = true := by
  have hx : x &&& exDescMask split = x := by simpa [exDescBitsOk] using h
  have hlow : x % 65536 &&& 0x2F = x % 65536 := by
    have hmask : exDescMask split % 2 ^ 16 = 0x2F := by cases split <;> rfl
    rw [show 65536 = 2 ^ 16 from rfl, ← hmask, ← Nat.and_mod_two_pow, hx]
  have hle : x % 65536 ≤ 0x2F := hlow ▸ Nat.and_le_right
  have h4 := mid_of_lowBits (x % 65536) (by omega) hlow
  refine ⟨by omega, by omega, ?_⟩
  cases split with
  | true => rfl
  | false =>
    have hsmall : x ≤ 0x2F := hx ▸ Nat.and_le_right
    simp only [Bool.false_or, beq_iff_eq]
    omega

/-- R300 case 7 on an immediate descriptor, as the block checks it. -/
theorem eotAgrees_imm {v : Nat} (hv : v < 2 ^ 32) (x : Descriptor) :
    eotAgrees (.imm v) x = (v / 2147483648 == eotBit x) := by
  rw [eotAgrees, Nat.shiftRight_eq_div_pow, Nat.and_one_is_mod, Nat.mod_eq_of_lt (by omega)]

/-- The block accepts only well-formed descriptors (R300 cases 3 to 7). -/
theorem descriptorsLegal_of_checked {split : Bool} {desc exDesc : Operand} {d x : Descriptor}
    (h : DescriptorsAre split desc exDesc d x) : Layout.descriptorsLegal split desc exDesc = true := by
  have hdesc : Layout.descLegal desc (· == 0) = true :=
    descLegal_of_descriptorOf h.desc_is h.desc_range fun n _ hn => beq_iff_eq.mpr (h.desc_reg n hn)
  have hexDesc : Layout.descLegal exDesc (fun n => split && decide (n < 16)) = true :=
    descLegal_of_descriptorOf h.exDesc_is h.exDesc_range fun n hle hn => by simp [h.exDesc_reg n hn]; omega
  simp only [Layout.descriptorsLegal, hdesc, hexDesc, Bool.true_and, Bool.and_eq_true]
  constructor
  · obtain ⟨i, v, -, -, hvalue, rfl⟩ | ⟨r, rfl, -, rfl⟩ := descriptorOf_cases h.exDesc_is
    · obtain ⟨hmid, h4, hhigh⟩ := ranges_of_exDescBitsOk h.exDesc_bits
      simp only [hvalue, hmid, h4, hhigh, beq_self_eq_true, Bool.and_self]
    · rfl
  · obtain ⟨i, v, -, -, hvalue, rfl⟩ | ⟨r, rfl, -, rfl⟩ := descriptorOf_cases h.desc_is
    · simp only [hvalue, eotOf_eq, ← eotBit_eq h.exDesc_is, ← eotAgrees_imm (twos_lt 32 v), h.eot]
    · rfl

/-! ## FAILURE (R300, R301) -/

/-- Every error that a check can end in is of class `e`. -/
def ErrorsAre {α : Type} (e : ErrCode) (x : Except Cause α) : Prop := ∀ c, x = .error c → c.code = e

@[simp] theorem errorsAre_ok {α : Type} {e : ErrCode} (a : α) : ErrorsAre e (.ok a : Except Cause α) := by
  simp [ErrorsAre]

@[simp] theorem errorsAre_error {α : Type} {e : ErrCode} {c : Cause} :
    ErrorsAre e (.error c : Except Cause α) ↔ c.code = e := by
  simp [ErrorsAre]

@[simp] theorem errorsAre_bind {α β : Type} {e : ErrCode} {x : Except Cause α} {f : α → Except Cause β} :
    ErrorsAre e (x >>= f) ↔ ErrorsAre e x ∧ ∀ a, x = .ok a → ErrorsAre e (f a) := by
  cases x <;> simp

theorem code_sendDescriptor (n : Nat) : (Cause.sendDescriptor n).code = .failure := rfl

@[simp] theorem require_sendDescriptor_errors (b : Bool) (n : Nat) :
    ErrorsAre .failure (require b (.sendDescriptor n)) := by
  cases b <;> simp [code_sendDescriptor]

@[simp] theorem entry_sendDescriptor_errors {α : Type} (o : Option α) (n : Nat) :
    ErrorsAre .failure (entry o (.sendDescriptor n)) := by
  cases o <;> simp [code_sendDescriptor]

theorem sendSources_errors (b : InsBody) (n : Nat) : ErrorsAre .failure (sendSources b n) := by
  unfold sendSources
  split
  · split <;> simp [code_sendDescriptor]
  · simp [code_sendDescriptor]

theorem sendDescriptors_errors (b : InsBody) (split : Bool) : ErrorsAre .failure (sendDescriptors b split) := by
  unfold sendDescriptors
  split
  · simp
  · simp [code_sendDescriptor]

/-- A send-class record without the operand shape of its class is a FAILURE in every case of R300. -/
theorem sendShape_errors (b : InsBody) (split : Bool) : ErrorsAre .failure (sendShape b split) := by
  simp only [sendShape, errorsAre_bind]
  refine ⟨sendSources_errors _ _, fun _ _ => ⟨sendDescriptors_errors _ _, fun _ _ => ?_⟩⟩
  split <;> simp [code_sendDescriptor]

/-- A send-class record selects its shape by whether it is a split send (R163). -/
theorem select_sendClass {ins : Instruction} (h : ins.opcode.isSendClass = true) :
    select ins = sendShape ins.body (ins.opcode.opClass == .sends) := by
  obtain ⟨m, b⟩ := ins
  cases m <;> cases h <;> rfl

theorem select_malformed {ins : Instruction} {desc exDesc : Operand} (hsend : ins.opcode.isSendClass = true)
    (hp : ins.body.payload = .send desc exDesc)
    (hbad : Layout.descriptorsLegal (ins.opcode.opClass == .sends) desc exDesc = false) :
    ∃ c, select ins = .error c ∧ c.code = .failure := by
  rw [select_sendClass hsend]
  cases hshape : sendShape ins.body (ins.opcode.opClass == .sends) with
  | error c => exact ⟨c, rfl, sendShape_errors _ _ c hshape⟩
  | ok shape =>
    simp only [sendShape, bind_eq_ok, Prod.exists] at hshape
    obtain ⟨_, _, -, d, x, hdescs, -⟩ := hshape
    simp [descriptorsLegal_of_checked (sendDescriptors_eq_ok hp hdescs)] at hbad

/-- Settles O47: the descriptors are checked with the shape, before header and operands (R405), and every error of that
check is FAILURE. -/
theorem malformedSendFails : Obligations.MalformedSendFails := by
  intro i s desc exDesc hphase hfresh hopcode hsend hp hbad
  obtain ⟨opc, -, hopc⟩ := checkOpcode_of_legal hopcode
  obtain ⟨c, hselect, hcode⟩ : ∃ c, select i.instruction = .error c ∧ c.code = .failure :=
    select_malformed hsend hp hbad
  have hfails (back : Bool) : encodeFields s.cfg back i.instruction = .error c := by
    simp only [encodeFields, hopc, hselect, ok_bind, error_bind]
  exact hcode ▸ instrFails_of_encodeFields hphase hfresh hfails

end Sys2Proof.Machine
end

section
/-! PROOFS. The words of `send` and `sendc` (30_encoding.md R100 to R102 and R115, 43_send.md R302 and R303): a direct
Align1 destination and source 0 of the two-source layout, and the two descriptors. With the statement about them. -/

namespace Sys2Proof.Machine

/-! ## Direct Align1 operands of the two-source layout (R233, R240) -/

theorem fileCode_eq (f : RegFile) : f.code = if f = .grf then 1 else 0 := by
  cases f <;> simp [RegFile.code]

/-- The places of a direct Align1 destination (R101, R233). -/
def dstDirectSpans : List (Nat × Nat) := [(35, 2), (37, 4), (47, 1), (55, 8), (24, 5), (22, 2)]

/-- The places of a direct Align1 source 0 (R102, R240). -/
def src0DirectSpans : List (Nat × Nat) :=
  [(41, 2), (43, 4), (87, 2), (77, 1), (69, 8), (64, 5), (83, 4), (80, 3), (78, 2)]

/-- All that a direct Align1 destination can give (R233, R237). -/
theorem encodeDstReg_direct {cfg : Cfg} {d : RegOperand} {fs : List Field} (hd : d.addressing = .direct)
    (h : encodeDstReg cfg .align1 d = .ok fs) :
    ∃ ty hs, cfg.regTypeCode d.dataType = some ty ∧ horzStrideCode (Layout.dstStride d) = some hs ∧
      fs = [⟨35, 2, d.file.code⟩, ⟨37, 4, ty.toNat⟩, ⟨47, 1, 0⟩, ⟨55, 8, Layout.registerNumber cfg d⟩,
        ⟨24, 5, Layout.subRegOrAcc cfg d⟩, ⟨22, 2, hs⟩] := by
  obtain ⟨ty, rest, hty, rfl, ⟨-, -, h⟩ | ⟨a, o, -, hindirect, -⟩ | ⟨hmode, -⟩⟩ := encodeDstReg_parts h
  · obtain ⟨-, -, hs, hhs, rfl⟩ := (dstAlign1Direct_eq_ok hd).mp h
    exact ⟨ty, hs, hty, (destinationStride_eq_ok.mp hhs).2, rfl⟩
  · simp [hd] at hindirect
  · cases hmode

/-- All that a direct Align1 source 0 can give (R240, R243). -/
theorem encodeSrcReg_direct {cfg : Cfg} {region : SrcRegion} {overlay : Bool} {s : RegOperand} {fs : List Field}
    (hs : s.addressing = .direct) (h : encodeSrcReg cfg .align1 region overlay 0 s = .ok fs) :
    ∃ ty vs wd hz, cfg.regTypeCode s.dataType = some ty ∧ vertStrideCode region.vertStride = some vs ∧
      widthCode region.width = some wd ∧ horzStrideCode region.horzStride = some hz ∧
      fs = [⟨41, 2, s.file.code⟩, ⟨43, 4, ty.toNat⟩, ⟨87, 2, s.modifier.code⟩, ⟨77, 1, 0⟩,
        ⟨69, 8, Layout.registerNumber cfg s⟩, ⟨64, 5, Layout.subRegOrAcc cfg s⟩, ⟨83, 4, vs⟩, ⟨80, 3, wd⟩,
        ⟨78, 2, hz⟩] := by
  obtain ⟨ty, rest, hty, rfl, ⟨-, -, h⟩ | ⟨a, o, -, hindirect, -⟩ | ⟨hmode, -⟩⟩ := encodeSrcReg_parts h
  · obtain ⟨-, rs, hrs, rfl⟩ := srcAlign1Direct_ok h
    obtain ⟨vs, wd, hz, hvs, hwd, hhz, rfl⟩ := regionFields_eq_ok.mp hrs
    exact ⟨ty, vs, wd, hz, hty, hvs, hwd, hhz, rfl⟩
  · simp [hs] at hindirect
  · cases hmode

theorem encodeDstReg_direct_spans {cfg : Cfg} {d : RegOperand} {fs : List Field} (hd : d.addressing = .direct)
    (h : encodeDstReg cfg .align1 d = .ok fs) : fs.map span = dstDirectSpans := by
  obtain ⟨ty, hs, -, -, rfl⟩ := encodeDstReg_direct hd h
  rfl

theorem encodeSrcReg_direct_spans {cfg : Cfg} {region : SrcRegion} {overlay : Bool} {s : RegOperand} {fs : List Field}
    (hs : s.addressing = .direct) (h : encodeSrcReg cfg .align1 region overlay 0 s = .ok fs) :
    fs.map span = src0DirectSpans := by
  obtain ⟨ty, vs, wd, hz, -, -, -, -, rfl⟩ := encodeSrcReg_direct hs h
  rfl

theorem dstReads_of_holds_direct {cfg : Cfg} {d : RegOperand} {fs : List Field} {w : NativeWord}
    (hd : d.addressing = .direct) (h : encodeDstReg cfg .align1 d = .ok fs) (hw : Holds w fs)
    (h63 : unpack w 63 1 = 0) : Layout.dstReads cfg .align1 d w = true := by
  obtain ⟨ty, hs, hty, hhs, rfl⟩ := encodeDstReg_direct hd h
  simp only [holds_cons, fileCode_eq] at hw
  simp [Layout.dstReads, Layout.reads, Layout.readsCode, Layout.readsNat, hd, hty, hhs, hw, h63]

theorem srcRegReads_of_holds_direct {cfg : Cfg} {region : SrcRegion} {overlay : Bool} {s : RegOperand}
    {fs : List Field} {w : NativeWord} (hs : s.addressing = .direct)
    (h : encodeSrcReg cfg .align1 region overlay 0 s = .ok fs) (hw : Holds w fs) :
    Layout.srcRegReads cfg .align1 region 0 s w = true := by
  obtain ⟨ty, vs, wd, hz, hty, hvs, hwd, hhz, rfl⟩ := encodeSrcReg_direct hs h
  simp only [holds_cons, fileCode_eq] at hw
  simp [Layout.srcRegReads, Layout.regionReads, Layout.reads, Layout.readsCode, Layout.readsNat, hs, hty, hvs, hwd, hhz,
    hw]

/-! ## Header of the send class (R180) -/

/-- A send-class word holds no condition modifier, and is no branch (R162, R180). -/
theorem plain_of_sendClass {m : Mnemonic} (h : m.isSendClass = true) :
    condModReused m = true ∧ m.isControlFlow = false := by
  revert h
  cases m <;> decide

theorem encodeHeader_spans_reused {cfg : Cfg} {opc : BitVec 7} {fmt : FormatTag} {ins : Instruction} {back : Bool}
    {fs : List Field} (hreused : condModReused ins.opcode = true) (h : encodeHeader cfg opc fmt ins back = .ok fs) :
    fs.map span = headerSpans := by
  obtain ⟨flags, cond, size, hflags, hcond, -, rfl⟩ := encodeHeader_parts h
  simp only [condModFields, hreused, if_true, bind_eq_ok, Except.ok.injEq] at hcond
  obtain ⟨_, -, rfl⟩ := hcond
  rw [List.append_nil, List.map_append, predicateFields_spans hflags]
  rfl

/-! ## The fields of a send word (R302, R303) -/

/-- The fields of the extended descriptor in a Send word (R302). -/
def sendMessageFields (exDesc : Descriptor) : List Field :=
  [⟨48, 4, sfid exDesc⟩, ⟨91, 4, sfid exDesc⟩, ⟨95, 1, eotBit exDesc⟩, ⟨127, 1, eotBit exDesc⟩]

/-- The fields of the descriptor in a Send word: its value or its address register (R302). -/
def sendDescFields (cfg : Cfg) : Descriptor → List Field
  | .imm x => [⟨89, 2, immFileCode⟩, ⟨96, 31, x &&& 0x7FFFFFFF⟩]
  | .reg _ =>
    [⟨89, 2, 0⟩, ⟨101, 8, (cfg.arfSel.code .a).toNat <<< 4 ||| 0⟩, ⟨96, 5, 0⟩, ⟨115, 4, 0⟩, ⟨112, 3, 0⟩, ⟨110, 2, 0⟩]

/-- Whether the descriptor is in an address register. -/
def Descriptor.inRegister : Descriptor → Bool
  | .imm _ => false
  | .reg _ => true

/-- The places of the descriptor in a Send word, by whether it is in a register (R115). -/
def sendDescSpans : Bool → List (Nat × Nat)
  | false => [(89, 2), (96, 31)]
  | true => [(89, 2), (101, 8), (96, 5), (115, 4), (112, 3), (110, 2)]

/-- The places of the operand fields of a Send word (R115). -/
def sendSpans (descInRegister : Bool) : List (Nat × Nat) :=
  dstDirectSpans ++ src0DirectSpans ++ [(48, 4), (91, 4), (95, 1), (127, 1)] ++ sendDescSpans descInRegister

/-- All that the send encoder can give in access mode Align1: a direct destination, a direct source 0, and the
descriptors (R302, R303). -/
theorem encodeSend_parts {cfg : Cfg} {ins : Instruction} {d s0 : Operand} {desc exDesc : Descriptor} {fs : List Field}
    (hmode : ins.body.accessMode = .align1) (h : encodeSend cfg ins d s0 desc exDesc = .ok fs) :
    ∃ rd r0 fd f0, d = .reg rd ∧ s0 = .reg r0 ∧ rd.addressing = .direct ∧ r0.addressing = .direct ∧
      encodeDstReg cfg .align1 rd = .ok fd ∧
      encodeSrcReg cfg .align1 (sourceRegion ins.body.executionSize r0) (sourceOverlayLegal cfg ins) 0 r0 = .ok f0 ∧
      fs = fd ++ f0 ++ sendMessageFields exDesc ++ sendDescFields cfg desc := by
  cases d with
  | imm i => cases h
  | reg rd =>
  cases s0 with
  | imm i => simp [encodeSend, sendRegister, bind_eq_ok] at h
  | reg r0 =>
    simp only [encodeSend, sendRegister, encodeDst, encodeSrc, hmode, bind_eq_ok, require_eq_ok, beq_iff_eq,
      Except.ok.injEq] at h
    obtain ⟨_, ⟨_, hd, rfl⟩, _, -, fd, hfd, _, ⟨_, h0, rfl⟩, _, -, _, -, f0, hf0, rfl⟩ := h
    refine ⟨_, _, fd, f0, rfl, rfl, hd, h0, hfd, hf0, ?_⟩
    cases desc <;> rfl

theorem encodeSend_spans {cfg : Cfg} {ins : Instruction} {d s0 : Operand} {desc exDesc : Descriptor} {fs : List Field}
    (hmode : ins.body.accessMode = .align1) (h : encodeSend cfg ins d s0 desc exDesc = .ok fs) :
    fs.map span = sendSpans desc.inRegister := by
  obtain ⟨rd, r0, fd, f0, rfl, rfl, hd, h0, hfd, hf0, rfl⟩ := encodeSend_parts hmode h
  rw [List.map_append, List.map_append, List.map_append, encodeDstReg_direct_spans hd hfd,
    encodeSrcReg_direct_spans h0 hf0]
  cases desc <;> rfl

/-- No two fields of a Send word overlap (R72). -/
theorem sendSpans_apart (descInRegister : Bool) : (headerSpans ++ sendSpans descInRegister).Pairwise Apart := by
  cases descInRegister <;> decide

/-- The reserved bits of a Send word are bits of no field; with a register descriptor, bits 109 and 126:119 are
(R115). -/
theorem sendSpans_reserved (descInRegister : Bool) :
    (∀ q ∈ [(7, 1), (63, 1)], ∀ p ∈ headerSpans ++ sendSpans descInRegister, Apart p q) ∧
    (descInRegister = true →
      ∀ q ∈ [(109, 1), (119, 8)], ∀ p ∈ headerSpans ++ sendSpans descInRegister, Apart p q) := by
  cases descInRegister <;> decide

/-- A field is 0 where its lower and its upper part are. -/
theorem unpack_eq_zero_of_parts {n : Nat} {w : BitVec n} {off a b : Nat} (hlow : unpack w off a = 0)
    (hhigh : unpack w (off + a) b = 0) : unpack w off (a + b) = 0 := by
  apply Nat.eq_of_testBit_eq
  intro i
  rw [testBit_unpack, Nat.zero_testBit]
  by_cases hi : i < a
  · have hbit : (unpack w off a).testBit i = false := by rw [hlow, Nat.zero_testBit]
    rw [testBit_unpack] at hbit
    simp_all
  · have hbit : (unpack w (off + a) b).testBit (i - a) = false := by rw [hhigh, Nat.zero_testBit]
    rw [testBit_unpack, show off + a + (i - a) = off + i by omega] at hbit
    by_cases hb : i < a + b
    · have : i - a < b := by omega
      simp_all
    · simp [hb]

theorem and31_eq_mod (v : Nat) : v &&& 0x7FFFFFFF = v % 2147483648 := Nat.and_two_pow_sub_one_eq_mod v 31

/-- The descriptors of a word that holds their fields and 0 in the bits around an address register (R302). -/
theorem sendDescReads_of_holds {cfg : Cfg} {desc exDesc : Operand} {d x : Descriptor} {w : NativeWord}
    (hd : descriptorOf desc = some d) (hx : descriptorOf exDesc = some x) (hwx : Holds w (sendMessageFields x))
    (hwd : Holds w (sendDescFields cfg d))
    (hreserved : d.inRegister = true → unpack w 109 1 = 0 ∧ unpack w 119 8 = 0) :
    Layout.sendDescReads cfg desc exDesc w = true := by
  simp only [sendMessageFields, holds_cons, sfid_eq hx, eotBit_eq hx] at hwx
  obtain ⟨i, v, -, -, hvalue, rfl⟩ | ⟨r, rfl, -, rfl⟩ := descriptorOf_cases hd
  · simp only [sendDescFields, holds_cons, and31_eq_mod, immFileCode] at hwd
    simp [Layout.sendDescReads, Layout.reads, hvalue, hwx, hwd]
  · obtain ⟨h109, h119⟩ := hreserved rfl
    simp only [sendDescFields, holds_cons, Nat.or_zero, Nat.shiftLeft_eq] at hwd
    obtain ⟨hfile, hnumber, hsub, h115, h112, h110, -⟩ := hwd
    have harea : unpack w 109 (1 + (2 + (3 + (4 + 8)))) = 0 :=
      unpack_eq_zero_of_parts h109 <| unpack_eq_zero_of_parts h110 <| unpack_eq_zero_of_parts h112 <|
        unpack_eq_zero_of_parts h115 h119
    simp [Layout.sendDescReads, Layout.reads, Layout.descValue, hwx, hfile, hnumber, hsub, harea, Nat.mul_comm]

/-! ## send and sendc (R320, R321) -/

/-- A legal send record: its shape (R164). -/
theorem send_of_legal {cfg : Cfg} {ins : Instruction} (hclass : ins.opcode.opClass = .send)
    (h : Layout.operandsLegal cfg ins = true) :
    ∃ d s0 desc exDesc, ins.body.destination = some d ∧ ins.body.sources = [s0] ∧
      ins.body.payload = .send desc exDesc ∧ Layout.descriptorsLegal false desc exDesc = true ∧
      Layout.sendOperandsLegal cfg ins d s0 = true := by
  simp only [Layout.operandsLegal, hclass] at h
  split at h <;> simp_all

theorem accessMode_of_send {ins : Instruction} (h : Layout.headerLegal .send ins = true) :
    ins.body.accessMode = .align1 := by
  cases hmode : ins.body.accessMode
  · rfl
  · simp [Layout.headerLegal, hmode] at h

/-- The word of a legal send record: its header's fields, its operands' fields, and 0 in the reserved bits (R115). -/
theorem send_wordReads {cfg : Cfg} {ins : Instruction} (back : Bool) (hclass : ins.opcode.opClass = .send)
    (hsend : ins.opcode.isSendClass = true) (hlegal : Layout.recordLegal cfg ins = true) :
    ∃ w, encodeNative cfg back ins = .ok (.send, w) ∧ Layout.headerReads cfg ins back w = true ∧
      Layout.operandsRead cfg ins w = true := by
  have hformat : Layout.formatOf ins = .send := by simp [Layout.formatOf, hclass]
  simp only [Layout.recordLegal, hformat, Bool.and_eq_true] at hlegal
  obtain ⟨⟨hopcode, hheader⟩, hoperands⟩ := hlegal
  have hmode := accessMode_of_send hheader
  obtain ⟨d, s0, desc, exDesc, hdst, hsrcs, hpayload, hdescs, hsendLegal⟩ := send_of_legal hclass hoperands
  obtain ⟨⟨dv, xv⟩, hchecked⟩ := sendDescriptors_of_legal hpayload hdescs
  have hare := sendDescriptors_eq_ok hpayload hchecked
  obtain ⟨opc, hopc, hcheck⟩ := checkOpcode_of_legal hopcode
  obtain ⟨header, hhead⟩ := encodeHeader_ok_iff (cfg := cfg) (opc := opc) (back := back).mpr hheader
  obtain ⟨operands, hops⟩ := encodeSend_ok_iff (desc := dv) (exDesc := xv).mpr hsendLegal
  have hsel : select ins = .ok (.send d s0 dv xv) := by
    simp [select, sendShape, sendSources, hclass, hdst, hsrcs, hchecked]
  have hfields : encodeFields cfg back ins = .ok (.send d s0 dv xv, header ++ operands) := by
    simp only [encodeFields, hcheck, hsel, Shape.format, hhead, encodeOperands, hops, ok_bind]
  have hspans : (header ++ operands).map span = headerSpans ++ sendSpans dv.inRegister := by
    rw [List.map_append, encodeHeader_spans_reused (plain_of_sendClass hsend).1 hhead, encodeSend_spans hmode hops]
  obtain ⟨w, hnative, hword⟩ := encodeNative_wordOf hfields (fun _ => rfl) (hspans ▸ sendSpans_apart dv.inRegister)
  obtain ⟨hwh, hwo⟩ := holds_append.mp hword.holds
  obtain ⟨hreserved, hreservedReg⟩ := hspans ▸ sendSpans_reserved dv.inRegister
  obtain ⟨rd, r0, fd, f0, rfl, rfl, hd, h0, hfd, hf0, rfl⟩ := encodeSend_parts hmode hops
  simp only [holds_append] at hwo
  obtain ⟨⟨⟨hwd, hw0⟩, hwx⟩, hwdesc⟩ := hwo
  have hdstReads := dstReads_of_holds_direct hd hfd hwd (hword.unpack_eq_zero (hreserved (63, 1) (by decide)))
  have hsrcReads := srcRegReads_of_holds_direct h0 hf0 hw0
  have hdescReads : Layout.sendDescReads cfg desc exDesc w = true :=
    sendDescReads_of_holds hare.desc_is hare.exDesc_is hwx hwdesc fun hreg =>
      ⟨hword.unpack_eq_zero (hreservedReg hreg (109, 1) (by decide)),
        hword.unpack_eq_zero (hreservedReg hreg (119, 8) (by decide))⟩
  refine ⟨w, hnative, headerReads_of_holds hopc hhead hwh (hword.unpack_eq_zero (hreserved (7, 1) (by decide))), ?_⟩
  simp [Layout.operandsRead, Layout.dstOpReads, Layout.srcReads, hclass, hdst, hsrcs, hpayload, hmode, hdstReads,
    hsrcReads, hdescReads]

/-- An accepted send-class command whose word reads as its record emits that word: neither format is ever compacted
(R371), and no send is a branch. -/
theorem sendClass_emitted {s : State} {i : Instr} (hsend : i.mnemonic.isSendClass = true)
    (haccepts : Layout.accepts s i = true) (hpolicy : i.body.compactionPolicy ≠ .must)
    (hineligible : eligible (Layout.formatOf i.instruction) = false)
    (hword : ∃ w, encodeNative s.cfg false i.instruction = .ok (Layout.formatOf i.instruction, w) ∧
      Layout.headerReads s.cfg i.instruction false w = true ∧ Layout.operandsRead s.cfg i.instruction w = true) :
    ∃ w : NativeWord, s.instrEmits i (.native w) false ∧ Layout.wordReads s.cfg i false w = true := by
  obtain ⟨w, hnative, hheader, hoperands⟩ := hword
  refine ⟨w, instrEmits_native haccepts hpolicy hineligible (plain_of_sendClass hsend).2 hnative, ?_⟩
  rw [Layout.wordReads, hheader, hoperands, Bool.and_self]

theorem sendClass_of_class {m : Mnemonic} (h : m.opClass = .send ∨ m.opClass = .sends) : m.isSendClass = true := by
  revert h
  cases m <;> decide

/-- Settles O37: the word of a legal record holds the fields of its layout, and its format is never compacted (R371). -/
theorem sendEmitted : Obligations.SendEmitted := by
  intro i s hmnemonic haccepts hpolicy
  have hclass : i.instruction.opcode.opClass = .send := by
    change i.mnemonic.opClass = .send
    generalize i.mnemonic = m at hmnemonic
    revert hmnemonic
    cases m <;> decide
  have hformat : Layout.formatOf i.instruction = .send := by simp [Layout.formatOf, hclass]
  obtain ⟨-, -, hlegal⟩ := accepts_iff.mp haccepts
  have hsend : i.mnemonic.isSendClass = true := sendClass_of_class (.inl hclass)
  exact sendClass_emitted hsend haccepts hpolicy (hformat ▸ rfl) (hformat ▸ send_wordReads false hclass hsend hlegal)

end Sys2Proof.Machine
end

section
/-! PROOFS. The words of `sends` and `sendsc` (30_encoding.md R116, 43_send.md R310 to R312): bit 45 is the same whether
the platform packs it as a field or patches the finished word. With the statement about them. -/

namespace Sys2Proof.Machine

/-! ## The fields of a split send (R310) -/

theorem grfNumber_eq {cfg : Cfg} {r : RegOperand} (h : Layout.registerLegal cfg r = true) (hf : r.file = .grf) :
    byteAddr r >>> 5 = r.number := by
  simpa [regNumField, Layout.registerNumber, hf] using regNumField_eq h

/-- The operand fields of a Sends word that are no descriptor's (R310). -/
def splitOperandFields (cfg : Cfg) (rd r0 r1 : RegOperand) (ty : BitVec 4) : List Field :=
  [⟨22, 2, 1⟩, ⟨24, 5, 0⟩, ⟨35, 2, rd.file.code⟩, ⟨37, 4, ty.toNat⟩, ⟨41, 2, 1⟩, ⟨43, 1, (r1.file == .grf).toNat⟩,
   ⟨47, 1, 0⟩, ⟨55, 8, Layout.registerNumber cfg rd⟩, ⟨64, 8, r0.number⟩,
   ⟨72, 8, if r1.file = .grf then r1.number else 0⟩]

/-- The fields of the descriptor in a Sends word (R310). -/
def splitDescFields : Descriptor → List Field
  | .imm x => [⟨44, 1, 0⟩, ⟨96, 31, x &&& 0x7FFFFFFF⟩]
  | .reg _ => [⟨44, 1, 1⟩, ⟨96, 31, 0⟩]

/-- All that the split-send encoder can give (R310). -/
theorem encodeSends_parts {cfg : Cfg} {rd r0 r1 : RegOperand} {desc exDesc : Descriptor} {fs : List Field}
    (h : encodeSends cfg (.reg rd) (.reg r0) (.reg r1) desc exDesc = .ok fs) :
    ∃ ty, cfg.regTypeCode rd.dataType = some ty ∧
      fs = splitOperandFields cfg rd r0 r1 ty ++ splitDescFields desc ++ exDescFields exDesc := by
  simp only [encodeSends, bind_eq_ok, Prod.exists, Except.ok.injEq] at h
  obtain ⟨rd, ty, hd, r0, h0, r1, h1, rfl⟩ := h
  obtain ⟨rfl, hty, -, -, hsub, hnumber, -⟩ := splitDestination_eq_ok.mp hd
  obtain ⟨rfl, hplace, -, hreg0, -⟩ := splitSource_eq_ok.mp h0
  obtain ⟨rfl, -, -, hreg1, -⟩ := splitSource_eq_ok.mp h1
  have hnum1 : (if r1.file = .grf then byteAddr r1 >>> 5 else 0) = if r1.file = .grf then r1.number else 0 := by
    split
    next hf => exact grfNumber_eq hreg1 hf
    next => rfl
  refine ⟨ty, hty, ?_⟩
  rw [regNumField_eq (registerLegal_of_parts hnumber hsub), grfNumber_eq hreg0 (file_of_payloadRegisterOk hplace)]
  cases desc <;> simp [splitOperandFields, splitDescFields, hnum1]

/-- The places of the extended descriptor in a Sends word, by whether it is in a register (R116). -/
def exDescSpans : Bool → List (Nat × Nat)
  | false => [(48, 4), (80, 16), (127, 1)]
  | true => [(48, 4), (80, 4), (84, 12), (127, 1)]

/-- Bit 45 as a field (R312). -/
def exDescRegField (exDesc : Descriptor) : Field := ⟨45, 1, exDescRegBit exDesc⟩

theorem exDescRegField_inWord (exDesc : Descriptor) : InWord (exDescRegField exDesc) := by
  cases exDesc <;> simp [exDescRegField, exDescRegBit]

/-- The places of the operand fields of a Sends word, bit 45 among them (R116). -/
def splitSpans (exDescInRegister : Bool) : List (Nat × Nat) :=
  [(22, 2), (24, 5), (35, 2), (37, 4), (41, 2), (43, 1), (47, 1), (55, 8), (64, 8), (72, 8), (44, 1), (96, 31)] ++
    exDescSpans exDescInRegister ++ [(45, 1)]

theorem encodeSends_spans {cfg : Cfg} {rd r0 r1 : RegOperand} {desc exDesc : Descriptor} {fs : List Field}
    (h : encodeSends cfg (.reg rd) (.reg r0) (.reg r1) desc exDesc = .ok fs) :
    (fs ++ [exDescRegField exDesc]).map span = splitSpans exDesc.inRegister := by
  obtain ⟨ty, -, rfl⟩ := encodeSends_parts h
  cases desc <;> cases exDesc <;> rfl

/-- No two fields of a Sends word overlap (R72). -/
theorem splitSpans_apart (exDescInRegister : Bool) : (headerSpans ++ splitSpans exDescInRegister).Pairwise Apart := by
  cases exDescInRegister <;> decide

/-- The reserved bits of a Sends word are bits of no field (R116). -/
theorem splitSpans_reserved (exDescInRegister : Bool) :
    ∀ q ∈ [(7, 1), (46, 1), (63, 1)], ∀ p ∈ headerSpans ++ splitSpans exDescInRegister, Apart p q := by
  cases exDescInRegister <;> decide

/-- The word of a split send whose bit 45 reads as the extended descriptor's register bit. -/
theorem sendsReads_of_holds {cfg : Cfg} {rd r0 r1 : RegOperand} {desc exDesc : Operand} {d x : Descriptor}
    {fs : List Field} {w : NativeWord} (hd : descriptorOf desc = some d) (hx : descriptorOf exDesc = some x)
    (h : encodeSends cfg (.reg rd) (.reg r0) (.reg r1) d x = .ok fs) (hw : Holds w fs)
    (h45 : unpack w 45 1 = exDescRegBit x) (h46 : unpack w 46 1 = 0) (h63 : unpack w 63 1 = 0) :
    Layout.sendsReads cfg rd r0 r1 desc exDesc w = true := by
  obtain ⟨ty, hty, rfl⟩ := encodeSends_parts h
  have hfile1 : (r1.file == .grf).toNat = if r1.file = .grf then 1 else 0 := by cases r1.file <;> simp
  simp only [holds_append, splitOperandFields, holds_cons, fileCode_eq, hfile1] at hw
  obtain ⟨⟨hops, hwd⟩, hwx⟩ := hw
  simp only [Layout.sendsReads, Bool.and_eq_true]
  refine ⟨⟨?_, ?_⟩, ?_⟩
  · simp [Layout.reads, Layout.readsCode, hty, hops, h46, h63]
  · obtain ⟨i, v, -, -, hvalue, rfl⟩ | ⟨r, rfl, -, rfl⟩ := descriptorOf_cases hd
    · simp only [splitDescFields, holds_cons, and31_eq_mod] at hwd
      simp [Layout.reads, hvalue, hwd]
    · simp only [splitDescFields, holds_cons] at hwd
      simp [Layout.reads, Layout.descValue, hwd]
  · obtain ⟨i, v, rfl, -, hvalue, rfl⟩ | ⟨r, rfl, -, rfl⟩ := descriptorOf_cases hx
    · have hsfid : twos 32 v &&& 0xF = twos 32 v % 16 := Nat.and_two_pow_sub_one_eq_mod _ 4
      simp only [exDescFields, holds_cons, hsfid, Nat.shiftRight_eq_div_pow, Nat.and_one_is_mod] at hwx
      simp [Layout.reads, hvalue, hwx, h45, exDescRegBit]
    · simp only [exDescFields, holds_cons] at hwx
      simp [Layout.reads, hwx, h45, exDescRegBit]

/-! ## Bit 45 (R312) -/

/-- Packing one field more. -/
theorem packFields_concat {w w'' : NativeWord} {fs : List Field} {f : Field}
    (h : packFields w (fs ++ [f]) = .ok w'') :
    ∃ w', packFields w fs = .ok w' ∧ pack w' f.off f.width f.value = .ok w'' := by
  rw [packFields_append] at h
  cases hfs : packFields w fs with
  | error c => simp [hfs] at h
  | ok w' =>
    refine ⟨w', rfl, ?_⟩
    simp only [hfs, packFields] at h
    split at h <;> simp_all

theorem pack_exDescRegField (w : NativeWord) (x : Descriptor) :
    pack w (exDescRegField x).off (exDescRegField x).width (exDescRegField x).value = .ok (sendsPatch w x) :=
  pack_of_fits w (exDescRegField_inWord x).1 (exDescRegField_inWord x).2

/-- The word of a split send is that of its fields with bit 45 among them, whichever way the platform writes the bit. -/
theorem encodeNative_sends_wordOf {cfg : Cfg} {back : Bool} {ins : Instruction} {opc : BitVec 7} {d s0 s1 : Operand}
    {desc exDesc : Descriptor} {header operands : List Field} (hcheck : checkOpcode cfg ins = .ok opc)
    (hsel : select ins = .ok (.sends d s0 s1 desc exDesc)) (hhead : encodeHeader cfg opc .sends ins back = .ok header)
    (hops : encodeSends cfg d s0 s1 desc exDesc = .ok operands)
    (hapart : ((header ++ (operands ++ [exDescRegField exDesc])).map span).Pairwise Apart) :
    ∃ w, encodeNative cfg back ins = .ok (.sends, w) ∧
      WordOf w (header ++ (operands ++ [exDescRegField exDesc])) := by
  have hin : ∀ f ∈ header ++ (operands ++ [exDescRegField exDesc]), InWord f := by
    simp only [List.forall_mem_append, List.forall_mem_singleton]
    exact ⟨encodeHeader_inWord _ _ _ _ _ header hhead,
      encodeSends_inWord _ _ _ _ _ (exDesc_inRange_of_select hsel) operands hops,
      exDescRegField_inWord exDesc⟩
  obtain ⟨w, hw, hword⟩ := packFields_wordOf hin hapart
  refine ⟨w, ?_, hword⟩
  cases hpatch : cfg.sendsExDescPatch with
  | false =>
    rw [exDescRegField] at hw
    simp only [encodeNative, encodeFields, hcheck, hsel, Shape.format, hhead, encodeOperands, hops, hpatch,
      applySendsPatch, Bool.false_eq_true, if_false, hw, ok_bind]
  | true =>
    rw [← List.append_assoc] at hw
    obtain ⟨w', hw', hlast⟩ := packFields_concat hw
    obtain rfl : sendsPatch w' exDesc = w := by simpa [pack_exDescRegField] using hlast
    simp only [encodeNative, encodeFields, hcheck, hsel, Shape.format, hhead, encodeOperands, hops, hpatch,
      applySendsPatch, if_true, hw', ok_bind]

/-! ## sends and sendsc (R322, R323) -/

/-- A legal split-send record: its shape (R164). -/
theorem sends_of_legal {cfg : Cfg} {ins : Instruction} (hclass : ins.opcode.opClass = .sends)
    (h : Layout.operandsLegal cfg ins = true) :
    ∃ rd r0 r1 desc exDesc, ins.body.destination = some (.reg rd) ∧ ins.body.sources = [.reg r0, .reg r1] ∧
      ins.body.payload = .send desc exDesc ∧ Layout.descriptorsLegal true desc exDesc = true ∧
      Layout.sendsOperandsLegal cfg rd r0 r1 = true := by
  simp only [Layout.operandsLegal, hclass] at h
  split at h <;> simp_all

/-- The word of a legal split-send record: its header's fields, its operands' fields, bit 45, and 0 in the reserved bits
(R116, R312). -/
theorem sends_wordReads {cfg : Cfg} {ins : Instruction} (back : Bool) (hclass : ins.opcode.opClass = .sends)
    (hsend : ins.opcode.isSendClass = true) (hlegal : Layout.recordLegal cfg ins = true) :
    ∃ w, encodeNative cfg back ins = .ok (.sends, w) ∧ Layout.headerReads cfg ins back w = true ∧
      Layout.operandsRead cfg ins w = true := by
  have hformat : Layout.formatOf ins = .sends := by simp [Layout.formatOf, hclass]
  simp only [Layout.recordLegal, hformat, Bool.and_eq_true] at hlegal
  obtain ⟨⟨hopcode, hheader⟩, hoperands⟩ := hlegal
  obtain ⟨rd, r0, r1, desc, exDesc, hdst, hsrcs, hpayload, hdescs, hsendsLegal⟩ := sends_of_legal hclass hoperands
  obtain ⟨⟨dv, xv⟩, hchecked⟩ := sendDescriptors_of_legal hpayload hdescs
  have hare := sendDescriptors_eq_ok hpayload hchecked
  obtain ⟨opc, hopc, hcheck⟩ := checkOpcode_of_legal hopcode
  obtain ⟨header, hhead⟩ := encodeHeader_ok_iff (cfg := cfg) (opc := opc) (back := back).mpr hheader
  obtain ⟨operands, hops⟩ := encodeSends_ok_iff (desc := dv) (exDesc := xv).mpr hsendsLegal
  have hsel : select ins = .ok (.sends (.reg rd) (.reg r0) (.reg r1) dv xv) := by
    simp [select, sendShape, sendSources, hclass, hdst, hsrcs, hchecked]
  have hspans : (header ++ (operands ++ [exDescRegField xv])).map span =
      headerSpans ++ splitSpans xv.inRegister := by
    rw [List.map_append, encodeHeader_spans_reused (plain_of_sendClass hsend).1 hhead, encodeSends_spans hops]
  obtain ⟨w, hnative, hword⟩ :=
    encodeNative_sends_wordOf hcheck hsel hhead hops (hspans ▸ splitSpans_apart xv.inRegister)
  have hreserved := hspans ▸ splitSpans_reserved xv.inRegister
  have hholds := hword.holds
  simp only [holds_append, holds_cons] at hholds
  obtain ⟨hwh, hwo, h45, -⟩ := hholds
  have hsendsReads : Layout.sendsReads cfg rd r0 r1 desc exDesc w = true :=
    sendsReads_of_holds hare.desc_is hare.exDesc_is hops hwo h45
      (hword.unpack_eq_zero (hreserved (46, 1) (by decide))) (hword.unpack_eq_zero (hreserved (63, 1) (by decide)))
  refine ⟨w, hnative, headerReads_of_holds hopc hhead hwh (hword.unpack_eq_zero (hreserved (7, 1) (by decide))), ?_⟩
  simp [Layout.operandsRead, hclass, hdst, hsrcs, hpayload, hsendsReads]

/-- Settles O38: the word of a legal record holds the fields of its layout and bit 45, under both values of
`SENDS_EXDESC_PATCH`, and its format is never compacted (R371). -/
theorem sendsEmitted : Obligations.SendsEmitted := by
  intro i s hmnemonic haccepts hpolicy
  have hclass : i.instruction.opcode.opClass = .sends := by
    change i.mnemonic.opClass = .sends
    generalize i.mnemonic = m at hmnemonic
    revert hmnemonic
    cases m <;> decide
  have hformat : Layout.formatOf i.instruction = .sends := by simp [Layout.formatOf, hclass]
  obtain ⟨-, -, hlegal⟩ := accepts_iff.mp haccepts
  have hsend : i.mnemonic.isSendClass = true := sendClass_of_class (.inr hclass)
  exact sendClass_emitted hsend haccepts hpolicy (hformat ▸ rfl) (hformat ▸ sends_wordReads false hclass hsend hlegal)

end Sys2Proof.Machine
end

section
/-! PROOFS. What the two passes write in the offset fields of a branch word (44_branch.md R332, R340, R343, R345, R346):
the offsets of the labels that have a position, and nothing else. -/

namespace Sys2Proof.Machine

/-! ## Two's complement (R13, R95) -/

theorem signed_twos {n : Nat} {v : Int} (hn : 0 < n) (h : fitsS n v = true) : signed n (twos n v) = v := by
  obtain ⟨m, rfl⟩ : ∃ m, n = m + 1 := ⟨n - 1, by omega⟩
  simp only [fitsS, Nat.add_sub_cancel, Bool.and_eq_true, decide_eq_true_eq] at h
  obtain ⟨hlo, hhi⟩ := h
  have hcast : ((2 ^ m : Nat) : Int) = 2 ^ m := by simp
  simp only [signed, twos, Nat.add_sub_cancel, pow_succ]
  generalize (2 ^ m : Int) = half at hlo hhi hcast ⊢
  generalize 2 ^ m = halfNat at hcast ⊢
  obtain hv | hv := lt_or_ge v 0
  · have hmod : v % (half * 2) = v + half * 2 := by
      rw [← Int.add_emod_right, Int.emod_eq_of_lt (by omega) (by omega)]
    rw [hmod]
    split <;> omega
  · rw [Int.emod_eq_of_lt hv (by omega)]
    split <;> omega

/-! ## One offset -/

@[simp] theorem offsetLegal_of_absent {cfg : Cfg} {labels : List (Label × Nat)} {l : Label}
    (h : labelPos labels l = none) (pos bits : Nat) : Layout.offsetLegal cfg labels pos bits l = true := by
  simp only [Layout.offsetLegal, h]

/-- The check of R345 that the statements name is the block's. -/
theorem offsetLegal_of_known {cfg : Cfg} {labels : List (Label × Nat)} {l : Label} {p : Nat}
    (h : labelPos labels l = some p) (pos : Nat) (compact : Bool) :
    Layout.offsetLegal cfg labels pos (if compact then 10 else 32) l =
      offsetFits compact (branchOffset cfg pos p) := by
  simp only [Layout.offsetLegal, h]
  cases compact <;> rfl

/-- The offset that is written is the one that the field then holds (R346). -/
theorem offset_writeOffset_same {o : OutWord} {which : Target} {v : Int} (hfield : (o.offset which).isSome = true)
    (hfits : offsetFits o.bits.isCompact v = true) :
    { o with bits := writeOffset o.bits o.tag which v }.offset which = some v := by
  obtain ⟨pos, tag, bits, ins⟩ := o
  cases bits with
  | native w =>
    have hread (off : Nat) (hoff : off + 32 ≤ 128) :
        signed 32 (unpack (setField w off 32 (twos 32 v)) off 32) = v := by
      rw [unpack_setField_same w hoff (twos_lt 32 v)]
      exact signed_twos (by decide) hfits
    cases tag <;> cases which <;> simp [OutWord.offset] at hfield <;> simp [OutWord.offset, writeOffset, hread]
  | compact c =>
    have hread : signed 10 (unpack (setField c 54 10 (twos 10 v)) 54 10) = v := by
      rw [unpack_setField_same c (by decide) (twos_lt 10 v)]
      exact signed_twos (by decide) hfits
    cases tag <;> cases which <;> simp [OutWord.offset] at hfield
    simp [OutWord.offset, writeOffset, hread]

/-- The two offset fields of a word do not overlap. -/
theorem offset_writeOffset_other (o : OutWord) {which other : Target} (v : Int) (hne : other ≠ which) :
    { o with bits := writeOffset o.bits o.tag which v }.offset other = o.offset other := by
  obtain ⟨pos, tag, bits, ins⟩ := o
  cases bits <;> cases tag <;> cases which <;> cases other <;>
    simp [OutWord.offset, writeOffset, unpack_setField_disjoint] at hne ⊢

/-! ## The offsets of a branch -/

/-- The offsets of the labels that have a position, written one after another. -/
def writeKnown (cfg : Cfg) (labels : List (Label × Nat)) (pos : Nat) (tag : FormatTag) :
    List (Target × Label) → EncodedWord → EncodedWord
  | [], bits => bits
  | (which, l) :: ts, bits =>
    match labelPos labels l with
    | some p => writeKnown cfg labels pos tag ts (writeOffset bits tag which (branchOffset cfg pos p))
    | none => writeKnown cfg labels pos tag ts bits

section
variable {cfg : Cfg} {labels : List (Label × Nat)} {pos : Nat} {tag : FormatTag}

@[simp] theorem writeKnown_nil (bits : EncodedWord) : writeKnown cfg labels pos tag [] bits = bits := rfl

@[simp] theorem writeKnown_cons_known {which : Target} {l : Label} {p : Nat} (h : labelPos labels l = some p)
    (ts : List (Target × Label)) (bits : EncodedWord) :
    writeKnown cfg labels pos tag ((which, l) :: ts) bits =
      writeKnown cfg labels pos tag ts (writeOffset bits tag which (branchOffset cfg pos p)) := by
  simp only [writeKnown, h]

@[simp] theorem writeKnown_cons_absent {which : Target} {l : Label} (h : labelPos labels l = none)
    (ts : List (Target × Label)) (bits : EncodedWord) :
    writeKnown cfg labels pos tag ((which, l) :: ts) bits = writeKnown cfg labels pos tag ts bits := by
  simp only [writeKnown, h]

@[simp] theorem writeKnown_isCompact (ts : List (Target × Label)) (bits : EncodedWord) :
    (writeKnown cfg labels pos tag ts bits).isCompact = bits.isCompact := by
  induction ts generalizing bits with
  | nil => rfl
  | cons t ts ih =>
    obtain ⟨which, l⟩ := t
    cases h : labelPos labels l <;> simp [h, ih]

/-- All that pass 1 can do with the labels of a branch (R340, R345): write the offsets that are known, each of which
fits, or meet one that does not fit. -/
theorem resolveTargets_cases (cfg : Cfg) (labels : List (Label × Nat)) (pos : Nat) (tag : FormatTag)
    (ts : List (Target × Label)) (bits : EncodedWord) :
    ((ts.all fun t => Layout.offsetLegal cfg labels pos (if bits.isCompact then 10 else 32) t.2) = true ∧
      resolveTargets cfg labels pos tag ts bits =
        .ok (writeKnown cfg labels pos tag ts bits, ts.any fun t => (labelPos labels t.2).isNone)) ∨
    ((ts.all fun t => Layout.offsetLegal cfg labels pos (if bits.isCompact then 10 else 32) t.2) = false ∧
      resolveTargets cfg labels pos tag ts bits = .error .branchOffset) := by
  induction ts generalizing bits with
  | nil => exact .inl ⟨rfl, rfl⟩
  | cons t ts ih =>
    obtain ⟨which, l⟩ := t
    cases hl : labelPos labels l with
    | none =>
      obtain ⟨hall, hr⟩ | ⟨hall, hr⟩ := ih bits
      · exact .inl (by simp [resolveTargets, hl, hr, hall])
      · exact .inr (by simp [resolveTargets, hl, hr, hall])
    | some p =>
      obtain ⟨hfits, hplace⟩ | ⟨hfits, hplace⟩ := placeOffset_cases cfg pos p tag which bits
      · obtain ⟨hall, hr⟩ | ⟨hall, hr⟩ := ih (writeOffset bits tag which (branchOffset cfg pos p)) <;>
          rw [writeOffset_isCompact] at hall
        · exact .inl (by simp [resolveTargets, hl, hplace, hr, hall, offsetLegal_of_known, hfits])
        · exact .inr (by simp [resolveTargets, hl, hplace, hr, hall])
      · exact .inr (by simp [resolveTargets, hl, hplace, offsetLegal_of_known, hfits])

/-- The labels in front that have a position, at an offset that fits, are resolved first (R343). -/
theorem patchTargets_append {before : List (Target × Label)} (after : List (Target × Label)) {bits : EncodedWord}
    (h : ∀ t ∈ before, (labelPos labels t.2).isSome = true ∧
      Layout.offsetLegal cfg labels pos (if bits.isCompact then 10 else 32) t.2 = true) :
    patchTargets cfg labels pos tag (before ++ after) bits =
      patchTargets cfg labels pos tag after (writeKnown cfg labels pos tag before bits) := by
  induction before generalizing bits with
  | nil => rfl
  | cons t before ih =>
    obtain ⟨which, l⟩ := t
    obtain ⟨⟨hsome, hlegal⟩, hrest⟩ := List.forall_mem_cons.mp h
    obtain ⟨p, hl⟩ := Option.isSome_iff_exists.mp hsome
    rw [offsetLegal_of_known hl] at hlegal
    obtain ⟨-, hplace⟩ | ⟨hfits, -⟩ := placeOffset_cases cfg pos p tag which bits
    · simp only [List.cons_append, patchTargets, hl, hplace, ok_bind, writeKnown_cons_known hl]
      exact ih (by simpa using hrest)
    · simp [hlegal] at hfits

/-- Pass 2 resolves a word just where each of its labels has a position, at an offset that fits (R343, R345). -/
theorem patchTargets_eq_ok {ts : List (Target × Label)} {bits bits' : EncodedWord} :
    patchTargets cfg labels pos tag ts bits = .ok bits' ↔
      (∀ t ∈ ts, (labelPos labels t.2).isSome = true ∧
        Layout.offsetLegal cfg labels pos (if bits.isCompact then 10 else 32) t.2 = true) ∧
      writeKnown cfg labels pos tag ts bits = bits' := by
  constructor
  · intro h
    induction ts generalizing bits with
    | nil => exact ⟨by simp, by simpa [patchTargets] using h⟩
    | cons t ts ih =>
      obtain ⟨which, l⟩ := t
      cases hl : labelPos labels l with
      | none => simp [patchTargets, hl] at h
      | some p =>
        obtain ⟨hfits, hplace⟩ | ⟨-, hplace⟩ := placeOffset_cases cfg pos p tag which bits
        · obtain ⟨hall, hbits⟩ := ih (by simpa [patchTargets, hl, hplace] using h)
          rw [writeOffset_isCompact] at hall
          exact ⟨List.forall_mem_cons.mpr ⟨⟨by simp [hl], by rw [offsetLegal_of_known hl, hfits]⟩, hall⟩,
            by rw [writeKnown_cons_known hl, hbits]⟩
        · simp [patchTargets, hl, hplace] at h
  · rintro ⟨hall, rfl⟩
    simpa [patchTargets] using patchTargets_append [] hall

/-- An offset field that no label is written in stays as it is. -/
theorem offset_writeKnown_of_not_mem (o : OutWord) {ts : List (Target × Label)} {which : Target}
    (h : which ∉ ts.map Prod.fst) :
    { o with bits := writeKnown cfg labels pos o.tag ts o.bits }.offset which = o.offset which := by
  induction ts generalizing o with
  | nil => rfl
  | cons t ts ih =>
    obtain ⟨other, l⟩ := t
    obtain ⟨hne, hrest⟩ : which ≠ other ∧ which ∉ ts.map Prod.fst := by simpa using h
    cases hl : labelPos labels l with
    | none => simpa only [writeKnown_cons_absent hl] using ih o hrest
    | some p =>
      rw [writeKnown_cons_known hl, ← offset_writeOffset_other o (branchOffset cfg pos p) hne]
      exact ih { o with bits := writeOffset o.bits o.tag other (branchOffset cfg pos p) } hrest

/-- The field of a label that has a position holds the offset to it (R332, R346). -/
theorem offset_writeKnown {o : OutWord} {ts : List (Target × Label)} (hnodup : (ts.map Prod.fst).Nodup)
    (hfields : ∀ t ∈ ts, (o.offset t.1).isSome = true)
    (hlegal : ∀ t ∈ ts, Layout.offsetLegal cfg labels pos (if o.bits.isCompact then 10 else 32) t.2 = true)
    {t : Target × Label} (ht : t ∈ ts) {p : Nat} (hp : labelPos labels t.2 = some p) :
    { o with bits := writeKnown cfg labels pos o.tag ts o.bits }.offset t.1 = some (branchOffset cfg pos p) := by
  induction ts generalizing o with
  | nil => simp at ht
  | cons x ts ih =>
    obtain ⟨which, l⟩ := x
    obtain ⟨hnew, hnodup⟩ : which ∉ ts.map Prod.fst ∧ (ts.map Prod.fst).Nodup := by
      simpa only [List.map_cons, List.nodup_cons] using hnodup
    obtain ⟨hfield, hfields⟩ := List.forall_mem_cons.mp hfields
    obtain ⟨hfits, hlegal⟩ := List.forall_mem_cons.mp hlegal
    have hrest (o' : OutWord) (htag : o'.tag = o.tag) (hcompact : o'.bits.isCompact = o.bits.isCompact)
        (hoffset : ∀ other ≠ which, o'.offset other = o.offset other) (ht : t ∈ ts) :
        { o' with bits := writeKnown cfg labels pos o'.tag ts o'.bits }.offset t.1 =
          some (branchOffset cfg pos p) := by
      refine ih hnodup (fun x hx => ?_) (fun x hx => by rw [hcompact]; exact hlegal x hx) ht
      rw [hoffset x.1 fun heq => hnew (heq ▸ List.mem_map_of_mem hx)]
      exact hfields x hx
    cases hl : labelPos labels l with
    | none =>
      obtain rfl | ht := List.mem_cons.mp ht
      · simp [hl] at hp
      · simpa only [writeKnown_cons_absent hl] using hrest o rfl rfl (fun _ _ => rfl) ht
    | some q =>
      rw [writeKnown_cons_known hl]
      obtain rfl | ht := List.mem_cons.mp ht
      · obtain rfl : q = p := by simpa [hl] using hp
        rw [offsetLegal_of_known hl] at hfits
        rw [← offset_writeOffset_same hfield hfits]
        exact offset_writeKnown_of_not_mem
          { o with bits := writeOffset o.bits o.tag which (branchOffset cfg pos q) } hnew
      · exact hrest { o with bits := writeOffset o.bits o.tag which (branchOffset cfg pos q) } rfl
          (writeOffset_isCompact _ _ _ _) (fun other hne => offset_writeOffset_other o _ hne) ht

end

end Sys2Proof.Machine
end

section
/-! PROOFS. The session's steps on branches (44_branch.md R332 to R347): every branch word outside the queue is
resolved, the pass-2 step and its two errors, labels that stay, and the End command. -/

namespace Sys2Proof.Machine

/-! ## Labels (R334) -/

theorem labelPos_labelsAfter {s : State} {l : Label} {p : Nat} (h : labelPos s.labels l = some p) (defs : List Label) :
    labelPos (Layout.labelsAfter s defs) l = some p := by
  rw [Layout.labelsAfter, labelPos_append, h, Option.some_or]

/-- Settles O13, over the ways in which a step can end: only an appended word brings labels, after those there are. -/
theorem labelsNeverChange : Obligations.LabelsNeverChange := by
  intro s t l p hstep hreset hl
  cases step_ends hstep with
  | quiet _ hends => cases hends <;> exact hl
  | reset hin => exact absurd hin hreset
  | finalizing | endRefused => exact hl
  | instr _ hends =>
    cases hends with
    | refused | raised => exact hl
    | emitted => exact labelPos_labelsAfter (s := s.consume) hl _

/-! ## Branch words (R332, R346) -/

/-- A resolved word stays so while its labels keep their positions. -/
theorem OutWord.resolved.mono {cfg : Cfg} {labels labels' : List (Label × Nat)} {o : OutWord}
    (h : o.resolved cfg labels) (hkept : ∀ l p, labelPos labels l = some p → labelPos labels' l = some p) :
    o.resolved cfg labels' := by
  intro t ht
  obtain ⟨p, hp, hoffset⟩ := h t ht
  exact ⟨p, hkept _ _ hp, hoffset⟩

theorem targets_nodup (p : Payload) : (p.targets.map Prod.fst).Nodup := by
  cases p with
  | branch jip uip => cases uip <;> simp [Payload.targets]
  | _ => simp [Payload.targets]

/-- The format of a branch word tells how many offsets it has (R163, R164). -/
theorem formatOf_branch {ins : Instruction} {jip : Label} {uip : Option Label}
    (h : ins.body.shapeOk ins.opcode.opClass = true) (hpayload : ins.body.payload = .branch jip uip) :
    Layout.formatOf ins = if uip.isSome then .branchTwoSrc else .branchOneSrc := by
  cases uip <;> cases hclass : ins.opcode.opClass <;> simp [InsBody.shapeOk, hclass, hpayload] at h <;>
    simp [Layout.formatOf, hclass]

/-- A word of its record's format has an offset field for each label of the record (R333, R346). -/
theorem offset_isSome_of_wordOk {o : OutWord} (h : o.wordOk = true) {t : Target × Label}
    (ht : t ∈ o.ins.body.payload.targets) : (o.offset t.1).isSome = true := by
  obtain ⟨htag, hshape, helig, -⟩ := (OutWord.wordOk_iff o).mp h
  obtain ⟨pos, tag, bits, ins⟩ := o
  cases hp : ins.body.payload with
  | branch jip uip =>
    rw [formatOf_branch hshape hp] at htag
    cases uip with
    | none =>
      obtain rfl : t = (.jip, jip) := by simpa [hp, Payload.targets] using ht
      obtain rfl : tag = .branchOneSrc := htag
      cases bits <;> rfl
    | some uip =>
      obtain rfl : tag = .branchTwoSrc := htag
      cases bits with
      | native w =>
        obtain rfl | rfl : t = (.jip, jip) ∨ t = (.uip, uip) := by simpa [hp, Payload.targets] using ht
        · rfl
        · rfl
      | compact c => cases helig rfl
  | _ => simp [Payload.targets, hp] at ht

/-- A word of its record's format, each label known at an offset that fits, is resolved by writing the offsets. -/
theorem resolved_writeKnown {cfg : Cfg} {labels : List (Label × Nat)} {o : OutWord} (h : o.wordOk = true)
    (hready : ∀ t ∈ o.ins.body.payload.targets, (labelPos labels t.2).isSome = true ∧
      Layout.offsetLegal cfg labels o.pos (if o.bits.isCompact then 10 else 32) t.2 = true) :
    { o with bits := writeKnown cfg labels o.pos o.tag o.ins.body.payload.targets o.bits }.resolved cfg labels := by
  intro t ht
  obtain ⟨p, hp⟩ := Option.isSome_iff_exists.mp (hready t ht).1
  exact ⟨p, hp, offset_writeKnown (targets_nodup _) (fun _ => offset_isSome_of_wordOk h) (fun x hx => (hready x hx).2)
    ht hp⟩

/-! ## Pass 1 (R340) -/

/-- Pass 1 of a branch is the loop over its labels (R340). -/
theorem resolveOrDefer_branch {cfg : Cfg} {labels : List (Label × Nat)} {pos : Nat} {ins : Instruction}
    {tag : FormatTag} {bits : EncodedWord} (hbranch : ins.opcode.isControlFlow = true) :
    resolveOrDefer cfg labels pos ins tag bits = resolveTargets cfg labels pos tag ins.body.payload.targets bits :=
  if_pos hbranch

/-- The word that an Instr command appends, before and after pass 1 (R165). -/
theorem encodeCommand_resolves {s s' : State} {ins : Instruction} {defs : List Label}
    (h : encodeCommand s ins defs = .ok s') :
    ∃ tag bits bits' pending, s' = s.emit (Layout.labelsAfter s defs) tag bits' ins pending ∧
      OutWord.wordOk { pos := s.pos, tag := tag, bits := bits, ins := ins } = true ∧
      resolveOrDefer s.cfg (Layout.labelsAfter s defs) s.pos ins tag bits = .ok (bits', pending) := by
  obtain ⟨labels, tag, w, bits, bits', pending, hlabels, hnative, hcompact, hresolve, rfl⟩ := encodeCommand_ok h
  obtain ⟨-, henter⟩ | ⟨-, l, -, henter⟩ := enterLabels_cases s.labels s.pos defs
  · obtain rfl : Layout.labelsAfter s defs = labels := by simpa [henter, Layout.labelsAfter] using hlabels
    obtain ⟨htag, hshape⟩ := encodeNative_fits hnative
    obtain ⟨helig, hlength⟩ := compact_lengthBit (encodeNative_lengthBit hnative) hcompact
    exact ⟨tag, bits, bits', pending, rfl, (OutWord.wordOk_iff _).mpr ⟨htag, hshape, helig, hlength⟩, hresolve⟩
  · simp [henter] at hlabels

/-- A branch word that pass 1 does not queue is resolved (R340). -/
theorem resolved_of_resolveOrDefer {cfg : Cfg} {labels : List (Label × Nat)} {o : OutWord} {bits' : EncodedWord}
    (hword : o.wordOk = true) (hbranch : o.ins.opcode.isControlFlow = true)
    (h : resolveOrDefer cfg labels o.pos o.ins o.tag o.bits = .ok (bits', false)) :
    { o with bits := bits' }.resolved cfg labels := by
  rw [resolveOrDefer_branch hbranch] at h
  obtain ⟨hlegal, hr⟩ | ⟨-, hr⟩ := resolveTargets_cases cfg labels o.pos o.tag o.ins.body.payload.targets o.bits
  · obtain ⟨rfl, hknown⟩ := Prod.mk.inj (Except.ok.inj (hr.symm.trans h))
    rw [List.all_eq_true] at hlegal
    rw [List.any_eq_false] at hknown
    exact resolved_writeKnown hword fun t ht => ⟨by simpa [Option.isSome_iff_ne_none] using hknown t ht, hlegal t ht⟩
  · simp [hr] at h

/-- An appended word keeps every branch word outside the queue resolved: the labels of the others stay, and the new word
is queued unless pass 1 resolves it (R334, R340). -/
theorem State.BranchesResolved.encodeCommand {s s' : State} {ins : Instruction} {defs : List Label} (hinv : s.Inv)
    (h : s.BranchesResolved) (hcommand : encodeCommand s ins defs = .ok s') : s'.BranchesResolved := by
  obtain ⟨tag, bits, bits', pending, rfl, hword, hresolve⟩ := encodeCommand_resolves hcommand
  intro k o ho hbranch
  simp only [State.emit_out, State.emit_deferred, State.emit_cfg, State.emit_labels] at ho ⊢
  obtain hk | rfl | hk := lt_trichotomy k s.out.length
  · rw [List.getElem?_append_left hk] at ho
    obtain ⟨e, he, hindex⟩ | hresolved := h k o ho hbranch
    · exact .inl ⟨e, by cases pending <;> simp [he], hindex⟩
    · exact .inr (hresolved.mono fun l p hl => labelPos_labelsAfter hl defs)
  · obtain rfl : ({ pos := s.pos, tag, bits := bits', ins } : OutWord) = o := by simpa using ho
    cases pending with
    | true => exact .inl ⟨{ index := s.count, pos := s.pos }, by simp, hinv.count⟩
    | false => exact .inr (resolved_of_resolveOrDefer hword hbranch hresolve)
  · rw [List.getElem?_eq_none (by simpa using hk)] at ho
    cases ho

/-! ## Pass 2 (R343) -/

/-- A deferred entry holds the position of its word (R26). -/
theorem State.Inv.entry_pos {s : State} (h : s.Inv) {e : DeferredEntry} {o : OutWord} (he : e ∈ s.deferred)
    (ho : s.out[e.index]? = some o) : e.pos = o.pos := by
  obtain ⟨v, hv, hpos, -⟩ := entryOk_iff.mp (h.deferred_branches e he)
  obtain rfl : v = o := Option.some.inj (hv.symm.trans ho)
  exact hpos.symm

/-- A pass-2 step keeps every branch word outside the queue resolved: the entry it takes off the queue names the word
that it resolves (R343). -/
theorem State.BranchesResolved.resolveFirst {s : State} {e : DeferredEntry} {rest : List DeferredEntry} {o : OutWord}
    {bits : EncodedWord} (hinv : s.Inv) (h : s.BranchesResolved) (hqueue : s.deferred = e :: rest)
    (hword : s.out[e.index]? = some o)
    (hpatch : patchTargets s.cfg s.labels e.pos o.tag o.ins.body.payload.targets o.bits = .ok bits) :
    (s.resolveFirst e rest o bits).BranchesResolved := by
  rw [hinv.entry_pos (hqueue ▸ List.mem_cons_self) hword] at hpatch
  obtain ⟨hready, rfl⟩ := patchTargets_eq_ok.mp hpatch
  intro k v hv hbranch
  simp only [State.resolveFirst, getElem?_replaceAt] at hv ⊢
  split at hv
  next hk =>
    obtain ⟨_, -, rfl⟩ := Option.map_eq_some_iff.mp hv
    exact .inr (resolved_writeKnown (hinv.words o (List.mem_of_getElem? hword)) hready)
  next hk =>
    obtain ⟨e', he', hindex⟩ | hresolved := h k v hv hbranch
    · obtain rfl | he' := List.mem_cons.mp (hqueue ▸ he')
      · exact absurd hindex.symm hk
      · exact .inl ⟨e', he', hindex⟩
    · exact .inr hresolved

/-- Settles O17, over the ways in which a step can end: the two that write words are an appended word and a pass-2 step
that resolves one. -/
theorem branchesResolvedKept : Obligations.BranchesResolvedKept := by
  intro s t hinv h hstep
  have h : s.consume.BranchesResolved := h
  cases step_ends hstep with
  | quiet _ hends =>
    cases hends with
    | held | done | raised => exact h
    | resolved _ hqueue hword hpatch => exact h.resolveFirst hinv.consume hqueue hword hpatch
  | reset => exact fun k o ho => by simp at ho
  | finalizing | endRefused => exact h
  | instr _ hends =>
    cases hends with
    | refused | raised => exact h
    | emitted _ hcommand => exact h.encodeCommand hinv.consume hcommand

/-! ### The step on the first entry -/

section
variable {s : State} {e : DeferredEntry} {rest : List DeferredEntry} {o : OutWord} (hphase : s.phase = .finalizing)
  (hqueue : s.deferred = e :: rest) (hword : s.out[e.index]? = some o) (htargets : o.ins.body.payload.targets ≠ [])
include hphase hqueue hword htargets

theorem quietStep_resolves {bits : EncodedWord}
    (hpatch : patchTargets s.cfg s.labels e.pos o.tag o.ins.body.payload.targets o.bits = .ok bits) :
    quietStep s = .next (s.resolveFirst e rest o bits) := by
  obtain ⟨t, ts, hts⟩ := List.exists_cons_of_ne_nil htargets
  rw [hts] at hpatch
  simp only [quietStep, if_pos hphase, pass2Step, hqueue, hword, hts, hpatch, State.resolveFirst]

theorem quietStep_raises {c : Cause}
    (hpatch : patchTargets s.cfg s.labels e.pos o.tag o.ins.body.payload.targets o.bits = .error c) :
    quietStep s = .next (s.raise e.index c) := by
  obtain ⟨t, ts, hts⟩ := List.exists_cons_of_ne_nil htargets
  rw [hts] at hpatch
  simp only [quietStep, if_pos hphase, pass2Step, hqueue, hword, hts, hpatch]

end

/-- The words that agree on every bit but those of the offset fields (R346). -/
def AgreesOutsideOffsets (tag : FormatTag) (bits bits' : EncodedWord) : Prop :=
  match bits, bits' with
  | .native w, .native w' => ∀ k, k < 64 ∨ (tag = .branchOneSrc ∧ k < 96) → w'.getLsbD k = w.getLsbD k
  | .compact c, .compact c' => ∀ k, k < 54 → c'.getLsbD k = c.getLsbD k
  | _, _ => False

theorem AgreesOutsideOffsets.refl (tag : FormatTag) (bits : EncodedWord) : AgreesOutsideOffsets tag bits bits := by
  cases bits <;> exact fun _ _ => rfl

theorem AgreesOutsideOffsets.setNative {tag : FormatTag} {bits : EncodedWord} {w : NativeWord}
    (h : AgreesOutsideOffsets tag bits (.native w)) {off : Nat} (hupper : 64 ≤ off)
    (hone : tag = .branchOneSrc → 96 ≤ off) (v : Nat) :
    AgreesOutsideOffsets tag bits (.native (setField w off 32 v)) := by
  cases bits with
  | compact c => exact h.elim
  | native w₀ =>
    intro k hk
    have hlow : k < off := by
      obtain hk | ⟨htag, hk⟩ := hk
      · omega
      · exact hk.trans_le (hone htag)
    rw [getLsbD_setField_outside w (.inl hlow)]
    exact h k hk

theorem AgreesOutsideOffsets.setCompact {tag : FormatTag} {bits : EncodedWord} {c : CompactWord}
    (h : AgreesOutsideOffsets tag bits (.compact c)) (v : Nat) :
    AgreesOutsideOffsets tag bits (.compact (setField c 54 10 v)) := by
  cases bits with
  | native w => exact h.elim
  | compact c₀ =>
    intro k hk
    rw [getLsbD_setField_outside c (.inl hk)]
    exact h k hk

theorem AgreesOutsideOffsets.writeOffset {tag : FormatTag} {bits bits' : EncodedWord}
    (h : AgreesOutsideOffsets tag bits bits') (which : Target) (v : Int) :
    AgreesOutsideOffsets tag bits (writeOffset bits' tag which v) := by
  unfold Machine.writeOffset
  split
  · exact h.setNative (by decide) (by decide) _
  · exact h.setNative (by decide) (by decide) _
  · exact h.setNative (by decide) (by decide) _
  · exact h.setCompact _
  · exact h

/-- Settles O21: of the ways in which a step with no command can end, only the one that resolves a word stays in
`Finalizing`, and no offset is written outside its field. -/
theorem pass2ChangesOffsetsOnly : Obligations.Pass2ChangesOffsetsOnly := by
  intro s t e rest o hphase hqueue hword hstep hstays
  cases quietStep_ends hstep with
  | held hphase' => exact absurd hphase hphase'
  | done => cases hstays
  | @raised _ _ _ c =>
    obtain hc | hc := c.code.phase_cases <;> simp [hc] at hstays
  | @resolved e' rest' o' bits _ hqueue' hword' hpatch =>
    obtain ⟨rfl, rfl⟩ := List.cons.inj (hqueue.symm.trans hqueue')
    obtain rfl := Option.some.inj (hword.symm.trans hword')
    have hagrees : AgreesOutsideOffsets o.tag o.bits bits :=
      patchTargets_keeps (P := AgreesOutsideOffsets o.tag o.bits) (fun _ _ _ h => h.writeOffset _ _) (.refl _ _) hpatch
    refine ⟨bits, rfl, length_replaceAt _ _ _, ?_, fun k hk => ?_, hagrees⟩
    · simp [State.resolveFirst, getElem?_replaceAt, hword]
    · simp [State.resolveFirst, getElem?_replaceAt, hk]

/-- Settles O22: the offsets of known labels are what the pass-2 step writes, and the entry's position is its word's. -/
theorem pass2Resolves : Obligations.Pass2Resolves := by
  intro s e rest o hinv hphase hqueue hword hready
  have he : e ∈ s.deferred := hqueue ▸ List.mem_cons_self
  have hok : o.wordOk = true := hinv.words o (List.mem_of_getElem? hword)
  have htargets : o.ins.body.payload.targets ≠ [] := by
    obtain ⟨v, hv, -, hbranch⟩ := entryOk_iff.mp (hinv.deferred_branches e he)
    obtain rfl : v = o := Option.some.inj (hv.symm.trans hword)
    exact targets_ne_nil hok hbranch
  have hpatch := patchTargets_eq_ok (tag := o.tag).mpr ⟨hready, rfl⟩
  have hstep := quietStep_resolves hphase hqueue hword htargets hpatch
  rw [hinv.entry_pos he hword] at hready hstep
  refine ⟨_, { o with bits := writeKnown s.cfg s.labels o.pos o.tag o.ins.body.payload.targets o.bits }, hstep, hphase,
    rfl, ?_, rfl, rfl, resolved_writeKnown hok hready⟩
  simp [State.resolveFirst, getElem?_replaceAt, hword]

/-- Settles O23: the labels in front of the absent one are resolved first. -/
theorem danglingLabelAborts : Obligations.DanglingLabelAborts := by
  intro s e rest o before after which l hphase hqueue hword htargets hready habsent
  have hpatch : patchTargets s.cfg s.labels e.pos o.tag o.ins.body.payload.targets o.bits =
      .error (.danglingLabel l) := by
    rw [htargets, patchTargets_append _ hready]
    simp only [patchTargets, habsent]
  exact quietStep_raises hphase hqueue hword (by simp [htargets]) hpatch

/-- Settles O24: the labels in front of the one whose offset does not fit are resolved first. -/
theorem pass2OffsetOutOfRange : Obligations.Pass2OffsetOutOfRange := by
  intro s e rest o before after which l hphase hqueue hword htargets hready hrange
  have hpatch : patchTargets s.cfg s.labels e.pos o.tag o.ins.body.payload.targets o.bits = .error .branchOffset := by
    rw [htargets, patchTargets_append _ hready]
    cases hl : labelPos s.labels l with
    | none => simp [hl] at hrange
    | some p =>
      rw [offsetLegal_of_known hl] at hrange
      obtain ⟨hfits, -⟩ | ⟨-, hplace⟩ := placeOffset_cases s.cfg e.pos p o.tag which
        (writeKnown s.cfg s.labels e.pos o.tag before o.bits)
      · simp [hrange] at hfits
      · simp only [patchTargets, hl, hplace, error_bind]
  refine ⟨.branchOffset, rfl, ?_⟩
  exact quietStep_raises hphase hqueue hword (by simp [htargets]) hpatch

/-! ## No step stops (R408) -/

/-- Every Instr command ends in a next state (R400). -/
theorem exec_next (i : Instr) (s : State) : ∃ t, exec i s = .next t := by
  rw [exec_eq_instrCommand]
  obtain ⟨-, h⟩ | ⟨-, t, -, h⟩ | ⟨-, c, -, h⟩ := instrCommand_cases i.instruction i.defs s <;> exact ⟨_, h⟩

theorem runCommand_next (c : Command) (s : State) : ∃ t, runCommand c s = .next t := by
  cases c with
  | reset => exact ⟨_, rfl⟩
  | instr i => exact exec_next i s
  | finish =>
    by_cases hphase : s.phase = .scanning
    · exact ⟨_, endCommand_scanning hphase⟩
    · exact ⟨_, endCommand_refused hphase⟩

/-- Settles O18: commands never stop, and the first deferred entry names a branch word. -/
theorem stepNeverStops : Obligations.StepNeverStops := by
  intro s hinv
  rw [State.Safe]
  obtain ⟨hin, -⟩ | ⟨rest, hin, -⟩ | ⟨c, rest, -, hstep⟩ := step_cases s
  · rw [step_quiet (by simp [hin])]
    exact hinv.consume.quietStep_next
  · rw [step_quiet (by simp [hin])]
    exact hinv.consume.quietStep_next
  · rw [hstep]
    exact runCommand_next c _

/-! ## End (R342) -/

/-- Settles O3. -/
theorem endFinalizes : Obligations.EndFinalizes := by
  intro s rest hin
  rw [step_eq_runCommand hin]
  exact ⟨fun hphase => ⟨_, endCommand_scanning hphase⟩, fun hphase => ⟨_, endCommand_refused hphase⟩⟩

end Sys2Proof.Machine
end

section
/-! PROOFS. The words that branches emit (30_encoding.md R120, R121, 44_branch.md R350 to R353): header and operand
fields as packed, and each offset field the offset of its label or the placeholder 0. With the statements about them and about
an offset that does not fit (R345). -/

namespace Sys2Proof.Machine

/-! ## Branch commands (R162, R340) -/

theorem isBranchFormat_of_controlFlow {ins : Instruction} (h : ins.opcode.isControlFlow = true) :
    isBranchFormat (Layout.formatOf ins) = true := by
  obtain ⟨opcode, b⟩ := ins
  revert h
  cases opcode <;> simp [Mnemonic.isControlFlow, Layout.formatOf, Mnemonic.opClass, isBranchFormat]

/-- A branch is compacted under policy `Must` only (R372). -/
theorem compact_branch (cfg : Cfg) {policy : CompactionPolicy} {fmt : FormatTag} (w : NativeWord)
    (hpolicy : policy ≠ .must) (hfmt : isBranchFormat fmt = true) : compact cfg policy fmt w = .ok (.native w) := by
  cases policy <;> simp_all [compact]

theorem backward_eq_isBackward (s : State) (i : Instr) :
    backward (Layout.labelsAfter s i.defs) i.instruction = Layout.isBackward s i := by
  cases hp : i.body.payload <;> simp [backward, Layout.isBackward, Instr.instruction, hp]

section
variable {s : State} {i : Instr} {w : NativeWord} {bits : EncodedWord} (haccepts : Layout.accepts s i = true)
  (hbranch : i.mnemonic.isControlFlow = true)
  (hnative : encodeNative s.cfg (Layout.isBackward s i) i.instruction = .ok (Layout.formatOf i.instruction, w))
include haccepts hbranch hnative

theorem encodeCommand_branch :
    encodeCommand s i.instruction i.defs =
      (compact s.cfg i.body.compactionPolicy (Layout.formatOf i.instruction) w >>= fun bits =>
        resolveTargets s.cfg (Layout.labelsAfter s i.defs) s.pos (Layout.formatOf i.instruction)
          i.body.payload.targets bits >>= fun r =>
        .ok (s.emit (Layout.labelsAfter s i.defs) (Layout.formatOf i.instruction) r.1 i.instruction r.2)) := by
  obtain ⟨-, hfresh, -⟩ := accepts_iff.mp haccepts
  simp only [encodeCommand, enterLabels_fresh hfresh, backward_eq_isBackward, hnative, ok_bind,
    resolveOrDefer_branch (ins := i.instruction) hbranch]
  rfl

/-- An accepted branch whose known offsets fit appends its word with these offsets, and queues it if a label is still
absent (R340). -/
theorem instrEmits_branch
    (hcompact : compact s.cfg i.body.compactionPolicy (Layout.formatOf i.instruction) w = .ok bits)
    (hlegal : Layout.targetsLegal s i (if bits.isCompact then 10 else 32) = true) :
    s.instrEmits i (writeKnown s.cfg (Layout.labelsAfter s i.defs) s.pos (Layout.formatOf i.instruction)
      i.body.payload.targets bits) (Layout.targetsPending s i) := by
  have hcommand := encodeCommand_branch haccepts hbranch hnative
  obtain ⟨-, hresolve⟩ | ⟨hillegal, -⟩ := resolveTargets_cases s.cfg (Layout.labelsAfter s i.defs) s.pos
    (Layout.formatOf i.instruction) i.body.payload.targets bits
  · simp only [hcompact, hresolve, ok_bind] at hcommand
    rw [State.instrEmits, exec_eq_instrCommand, instrCommand, if_pos (accepts_iff.mp haccepts).1, hcommand,
      ← EncodedWord.units_eq]
    rfl
  · cases hlegal.symm.trans hillegal

/-- An accepted branch with a known offset that does not fit ends in an error (R345). -/
theorem instrFails_branch
    (hcompact : compact s.cfg i.body.compactionPolicy (Layout.formatOf i.instruction) w = .ok bits)
    (hillegal : Layout.targetsLegal s i (if bits.isCompact then 10 else 32) = false) :
    s.instrFails i .invariantViolation := by
  refine instrFails_of_encodeCommand (c := .branchOffset) (accepts_iff.mp haccepts).1 ?_
  obtain ⟨hlegal, -⟩ | ⟨-, hresolve⟩ := resolveTargets_cases s.cfg (Layout.labelsAfter s i.defs) s.pos
    (Layout.formatOf i.instruction) i.body.payload.targets bits
  · cases hlegal.symm.trans hillegal
  · rw [encodeCommand_branch haccepts hbranch hnative, hcompact, ok_bind, hresolve, error_bind]

/-- A branch that the compaction engine refuses ends in an error of the same class (R370). -/
theorem instrFails_of_compact {c : Cause}
    (hcompact : compact s.cfg i.body.compactionPolicy (Layout.formatOf i.instruction) w = .error c) :
    s.instrFails i c.code := by
  refine instrFails_of_encodeCommand (accepts_iff.mp haccepts).1 ?_
  rw [encodeCommand_branch haccepts hbranch hnative, hcompact, error_bind]

end

/-- Settles O50: the word is native but under `Must`, where it is compact or, if the tables have none, refused with an
error of the same class. -/
theorem offsetOutOfRange : Obligations.OffsetOutOfRange := by
  intro i s hbranch haccepts hillegal
  obtain ⟨-, -, hlegal⟩ := accepts_iff.mp haccepts
  obtain ⟨w, hnative⟩ := encodeNative_of_legal (Layout.isBackward s i) hlegal
  obtain ⟨hpolicy, hcompact⟩ | ⟨hpolicy, helig, c, -, hcompact⟩ | ⟨-, -, -, hcompact⟩ | ⟨-, -, hcompact⟩ :=
    compact_cases s.cfg i.body.compactionPolicy (Layout.formatOf i.instruction) w
  · rw [if_neg hpolicy] at hillegal
    exact instrFails_branch haccepts hbranch hnative hcompact hillegal
  · have hmust : i.body.compactionPolicy = .must := by
      by_contra hnot
      simp [compact_branch s.cfg w hnot (isBranchFormat_of_controlFlow (ins := i.instruction) hbranch)] at hcompact
    rw [if_pos hmust] at hillegal
    exact instrFails_branch haccepts hbranch hnative hcompact hillegal
  · exact instrFails_of_compact haccepts hbranch hnative hcompact
  · exact instrFails_of_compact haccepts hbranch hnative hcompact

/-! ## Fields written after the packing (R346) -/

theorem WordOf.append_setField {w : NativeWord} {fs : List Field} (h : WordOf w fs) {off width v : Nat}
    (hfree : ∀ p ∈ fs.map span, Apart p (off, width)) (hoff : off + width ≤ 128) (hv : v < 2 ^ width) :
    WordOf (setField w off width v) (fs ++ [⟨off, width, v⟩]) where
  holds := holds_append.mpr
    ⟨fun f hf => (unpack_setField_disjoint w (hfree _ (List.mem_map_of_mem hf))).trans (h.holds f hf),
      by simpa using unpack_setField_same w hoff hv⟩
  blank i hi := by
    rw [List.forall_mem_append, List.forall_mem_singleton] at hi
    rw [getLsbD_setField_outside w hi.2, h.blank i hi.1]

theorem WordOf.append_blank {w : NativeWord} {fs : List Field} (h : WordOf w fs) {off width : Nat}
    (hfree : ∀ p ∈ fs.map span, Apart p (off, width)) : WordOf w (fs ++ [⟨off, width, 0⟩]) where
  holds := holds_append.mpr ⟨h.holds, by simpa using h.unpack_eq_zero hfree⟩
  blank i hi := h.blank i (List.forall_mem_append.mp hi).1

/-- An area of a word reads as 0 where every field that reaches into it is 0. -/
theorem WordOf.unpack_eq_zero_of_fields {w : NativeWord} {fs : List Field} (h : WordOf w fs) {off width : Nat}
    (hfields : ∀ f ∈ fs, f.value = 0 ∨ Apart (span f) (off, width)) : unpack w off width = 0 := by
  rw [← unpack_zero (n := 128) off width]
  refine unpack_congr fun i hlo hhi => Eq.trans ?_ BitVec.getLsbD_zero.symm
  by_cases hcovered : ∃ f ∈ fs, f.off ≤ i ∧ i < f.off + f.width
  · obtain ⟨f, hf, hfrom, hto⟩ := hcovered
    have hzero : unpack w f.off f.width = 0 := by
      obtain hv | hapart := hfields f hf
      · exact (h.holds f hf).trans hv
      · simp only [span] at hapart
        omega
    have hbit := testBit_unpack w f.off f.width (i - f.off)
    rw [hzero, Nat.zero_testBit, show f.off + (i - f.off) = i by omega] at hbit
    simpa [show i - f.off < f.width by omega] using hbit
  · refine h.blank i fun f hf => ?_
    by_contra hin
    exact hcovered ⟨f, hf, by omega⟩

/-- The offset field of a label: the offset to it, or the placeholder while it is absent (R340, R341). -/
def offsetField (cfg : Cfg) (labels : List (Label × Nat)) (pos : Nat) (l : Label) : Nat :=
  match labelPos labels l with
  | some p => twos 32 (branchOffset cfg pos p)
  | none => 0

/-- A native word with the offset of a label in its field, if the label has a position. -/
def placeKnown (cfg : Cfg) (labels : List (Label × Nat)) (pos off : Nat) (l : Label) (w : NativeWord) : NativeWord :=
  match labelPos labels l with
  | some p => setField w off 32 (twos 32 (branchOffset cfg pos p))
  | none => w

section
variable (cfg : Cfg) (labels : List (Label × Nat)) (pos : Nat)

theorem WordOf.placeKnown {w : NativeWord} {fs : List Field} (h : WordOf w fs) {off : Nat} (hoff : off + 32 ≤ 128)
    (hfree : ∀ p ∈ fs.map span, Apart p (off, 32)) (l : Label) :
    WordOf (placeKnown cfg labels pos off l w) (fs ++ [⟨off, 32, offsetField cfg labels pos l⟩]) := by
  unfold Machine.placeKnown offsetField
  cases labelPos labels l with
  | none => exact h.append_blank hfree
  | some p => exact h.append_setField hfree hoff (twos_lt 32 _)

theorem writeKnown_one (jip : Label) (w : NativeWord) :
    writeKnown cfg labels pos .branchOneSrc (Payload.branch jip none).targets (.native w) =
      .native (placeKnown cfg labels pos 96 jip w) := by
  simp only [Payload.targets, Machine.placeKnown]
  cases h : labelPos labels jip <;> simp [h, writeOffset]

theorem writeKnown_two (jip uip : Label) (w : NativeWord) :
    writeKnown cfg labels pos .branchTwoSrc (Payload.branch jip (some uip)).targets (.native w) =
      .native (placeKnown cfg labels pos 96 uip (placeKnown cfg labels pos 64 jip w)) := by
  simp only [Payload.targets, Machine.placeKnown]
  cases hj : labelPos labels jip <;> cases hu : labelPos labels uip <;> simp [hj, hu, writeOffset]

variable {cfg labels pos}

theorem offsetReads_offsetField {l : Label} (h : Layout.offsetLegal cfg labels pos 32 l = true) :
    Layout.offsetReads cfg labels pos l (offsetField cfg labels pos l) = true := by
  cases hl : labelPos labels l with
  | none => simp only [Layout.offsetReads, offsetField, hl, beq_self_eq_true]
  | some p =>
    have hfits : fitsS 32 (branchOffset cfg pos p) = true := (offsetLegal_of_known hl pos false).symm.trans h
    simp only [Layout.offsetReads, offsetField, hl, signed_twos (by decide) hfits, beq_iff_eq]
    rfl

end

/-! ## Header of a branch (R175, R180, R354) -/

/-- A branch word holds the condition modifier's bits. -/
theorem condModReused_of_controlFlow {m : Mnemonic} (h : m.isControlFlow = true) : condModReused m = false := by
  revert h
  cases m <;> decide

/-- The places of a branch word's header. -/
def branchHeaderSpans : List (Nat × Nat) := headerSpans ++ [(48, 4)]

/-- A branch has no condition modifier, so that its bits 51:48 are 0 (R354). -/
theorem condModReads_of_holds {cfg : Cfg} {opc : BitVec 7} {fmt : FormatTag} {ins : Instruction} {back : Bool}
    {header : List Field} {w : NativeWord} (hbranch : ins.opcode.isControlFlow = true)
    (h : encodeHeader cfg opc fmt ins back = .ok header) (hw : Holds w header) : unpack w 48 4 = 0 := by
  obtain ⟨flags, cond, size, -, hcond, -, rfl⟩ := encodeHeader_parts h
  have hnone : ins.body.conditionModifier = none := by
    simpa [hbranch] using condModFields_ok_iff.mp ⟨cond, hcond⟩
  obtain ⟨v, rfl, hreads⟩ := condModFields_ok (condModReused_of_controlFlow hbranch) hcond
  simp only [holds_append, holds_cons] at hw
  obtain ⟨-, h48, -⟩ := hw
  have hself : Layout.condModReads cfg ins w = true := by rw [hreads, h48, beq_self_eq_true]
  simpa [Layout.condModReads, Layout.reads, hnone] using hself

/-! ## Operands of a branch (R350 to R353) -/

/-- What the operand fields of a branch are: the shape's, apart from each other, from the header and from the offset
fields at `offsets`; and a word of the header, these fields and the offsets reads as the record's operands. -/
structure BranchOperands (cfg : Cfg) (ins : Instruction) (offsets : List (Nat × Nat)) (shape : Shape)
    (operands : List Field) : Prop where
  selects : select ins = .ok shape
  encodes : encodeOperands cfg ins shape = .ok operands
  unpatched : ∀ w, applySendsPatch cfg shape w = w
  apart : (branchHeaderSpans ++ operands.map span ++ offsets).Pairwise Apart
  reserved : ∀ p ∈ operands.map span, Apart p (7, 1)
  reads : ∀ {w header values}, WordOf w (header ++ operands ++ values) → header.map span = branchHeaderSpans →
    values.map span = offsets → unpack w 48 4 = 0 → Layout.operandsRead cfg ins w = true

/-- An area of a branch word that no header field and no offset reaches, and no operand field but with 0. -/
theorem unpack_branchArea {w : NativeWord} {header operands values : List Field} {offsets : List (Nat × Nat)}
    (hword : WordOf w (header ++ operands ++ values)) (hheader : header.map span = branchHeaderSpans)
    (hvalues : values.map span = offsets) {off width : Nat}
    (hfree : ∀ p ∈ branchHeaderSpans ++ offsets, Apart p (off, width))
    (hoperands : ∀ f ∈ operands, f.value = 0 ∨ Apart (span f) (off, width)) : unpack w off width = 0 := by
  rw [← hheader, ← hvalues, List.forall_mem_append, List.forall_mem_map, List.forall_mem_map] at hfree
  refine hword.unpack_eq_zero_of_fields (List.forall_mem_append.mpr ⟨List.forall_mem_append.mpr ⟨?_, hoperands⟩, ?_⟩)
  · exact fun f hf => .inr (hfree.1 f hf)
  · exact fun f hf => .inr (hfree.2 f hf)

/-- `if`, `else`, `break`, `cont`, `halt`, `goto` (R350). -/
theorem branchOperands_two {cfg : Cfg} {ins : Instruction} (hclass : ins.opcode.opClass = .branchTwoSrc)
    (h : Layout.operandsLegal cfg ins = true) :
    ∃ jip uip, ins.body.payload = .branch jip (some uip) ∧
      BranchOperands cfg ins [(64, 32), (96, 32)] .branchTwo [] := by
  obtain ⟨jip, uip, hdst, hsrcs, hpayload⟩ : ∃ jip uip, ins.body.destination = none ∧ ins.body.sources = [] ∧
      ins.body.payload = .branch jip (some uip) := by
    simp only [Layout.operandsLegal, hclass] at h
    split at h <;> simp_all
  refine ⟨jip, uip, hpayload,
    { selects := by simp [select, branchShape, hclass, hdst, hsrcs, hpayload]
      encodes := rfl
      unpatched := fun _ => rfl
      apart := by decide
      reserved := by decide
      reads := fun {w header values} hword hheader hvalues hcond => ?_ }⟩
  have hzero (q : Nat × Nat) (hq : q ∈ [(22, 7), (35, 13), (55, 9)]) : unpack w q.1 q.2 = 0 :=
    unpack_branchArea hword hheader hvalues (by revert q; decide) (by simp)
  simp only [List.forall_mem_cons] at hzero
  simp [Layout.operandsRead, hclass, Layout.noOperandsRead, Layout.reads, hcond, hzero]

/-- `endif`, `while`, `join` (R351). -/
theorem branchOperands_one {cfg : Cfg} {ins : Instruction} (hclass : ins.opcode.opClass = .branchOneSrc)
    (h : Layout.operandsLegal cfg ins = true) :
    ∃ jip, ins.body.payload = .branch jip none ∧
      BranchOperands cfg ins [(96, 32)] .branchOne branchOneSrcFields := by
  obtain ⟨jip, hdst, hsrcs, hpayload⟩ : ∃ jip, ins.body.destination = none ∧ ins.body.sources = [] ∧
      ins.body.payload = .branch jip none := by
    simp only [Layout.operandsLegal, hclass] at h
    split at h <;> simp_all
  refine ⟨jip, hpayload,
    { selects := by simp [select, branchShape, hclass, hdst, hsrcs, hpayload]
      encodes := rfl
      unpatched := fun _ => rfl
      apart := by decide
      reserved := by decide
      reads := fun {w header values} hword hheader hvalues hcond => ?_ }⟩
  have hzero (q : Nat × Nat) (hq : q ∈ [(22, 7), (35, 6), (47, 1), (55, 9), (41, 6), (64, 25), (95, 1)]) :
      unpack w q.1 q.2 = 0 :=
    unpack_branchArea hword hheader hvalues (by revert q; decide) (by revert q; decide)
  have hholds := hword.holds
  simp only [branchOneSrcFields, jipOperandFields, immFileCode, holds_append, holds_cons] at hholds
  simp only [List.forall_mem_cons] at hzero
  simp [Layout.operandsRead, hclass, Layout.noDestinationReads, Layout.noSource0Reads, Layout.jipOperandReads,
    Layout.reads, hcond, hzero, hholds]

/-- `jmpi` (R352). -/
theorem branchOperands_jmpi {cfg : Cfg} {ins : Instruction} (hclass : ins.opcode.opClass = .jmpi)
    (h : Layout.operandsLegal cfg ins = true) :
    ∃ jip, ins.body.payload = .branch jip none ∧ BranchOperands cfg ins [(96, 32)] .jmpi (jmpiFields cfg) := by
  obtain ⟨jip, hdst, hsrcs, hpayload⟩ : ∃ jip, ins.body.destination = none ∧ ins.body.sources = [] ∧
      ins.body.payload = .branch jip none := by
    simp only [Layout.operandsLegal, hclass] at h
    split at h <;> simp_all
  have hspans : (jmpiFields cfg).map span =
      [(35, 2), (37, 4), (55, 8), (22, 2), (24, 5), (47, 1), (41, 2), (43, 4), (69, 8), (64, 5), (77, 1), (78, 2),
       (80, 3), (83, 4), (87, 2), (89, 2), (91, 4)] := rfl
  refine ⟨jip, hpayload,
    { selects := by simp [select, branchShape, hclass, hdst, hsrcs, hpayload]
      encodes := rfl
      unpatched := fun _ => rfl
      apart := hspans ▸ by decide
      reserved := hspans ▸ by decide
      reads := fun {w header values} hword hheader hvalues hcond => ?_ }⟩
  have hnonzero : ∀ f ∈ jmpiFields cfg, f.value = 0 ∨ span f ∈ [(22, 2), (55, 8), (69, 8), (89, 2), (91, 4)] := by
    simp [jmpiFields, jipOperandFields, span]
  have hfree : ∀ q ∈ [(35, 6), (63, 1), (41, 6), (77, 12), (95, 1)],
      (∀ p ∈ branchHeaderSpans ++ [(96, 32)], Apart p q) ∧
      ∀ p ∈ [(22, 2), (55, 8), (69, 8), (89, 2), (91, 4)], Apart p q := by decide
  have hzero (q : Nat × Nat) (hq : q ∈ [(35, 6), (63, 1), (41, 6), (77, 12), (95, 1)]) : unpack w q.1 q.2 = 0 :=
    unpack_branchArea hword hheader hvalues (hfree q hq).1 fun f hf => (hnonzero f hf).imp_right ((hfree q hq).2 _)
  have hholds := hword.holds
  simp only [jmpiFields, jipOperandFields, immFileCode, ipField, Nat.shiftLeft_eq, holds_append, holds_cons] at hholds
  simp only [List.forall_mem_cons] at hzero
  simp [Layout.operandsRead, hclass, Layout.ipReads, Layout.jipOperandReads, Layout.reads, hcond, hzero, hholds,
    Nat.mul_comm]

/-- `call` (R353). -/
theorem branchOperands_call {cfg : Cfg} {ins : Instruction} (hclass : ins.opcode.opClass = .call)
    (h : Layout.operandsLegal cfg ins = true) :
    ∃ jip d operands, ins.body.payload = .branch jip none ∧
      BranchOperands cfg ins [(96, 32)] (.call (.reg d)) operands := by
  obtain ⟨jip, d, hdst, hsrcs, hpayload, hcall⟩ : ∃ jip d, ins.body.destination = some (.reg d) ∧
      ins.body.sources = [] ∧ ins.body.payload = .branch jip none ∧ Layout.callLegal cfg d = true := by
    simp only [Layout.operandsLegal, hclass] at h
    split at h <;> simp_all
  obtain ⟨operands, hops⟩ := encodeCall_ok_iff.mpr hcall
  have hdirect : d.addressing = .direct := by
    simp only [Layout.callLegal, Bool.and_eq_true, beq_iff_eq] at hcall
    obtain ⟨⟨⟨hdirect, -⟩, -⟩, -⟩ := hcall
    exact hdirect
  have hencodes := hops
  simp only [encodeCall, bind_eq_ok, Except.ok.injEq] at hops
  obtain ⟨_, -, fd, hfd, rfl⟩ := hops
  have hdstSpans := encodeDstReg_direct_spans hdirect hfd
  have hspans : (fd ++ noSrc0Fields ++ jipOperandFields).map span =
      dstDirectSpans ++ noSrc0Fields.map span ++ jipOperandFields.map span := by
    rw [List.map_append, List.map_append, hdstSpans]
  refine ⟨jip, d, _, hpayload,
    { selects := by simp [select, hclass, hdst, hsrcs, hpayload]
      encodes := hencodes
      unpatched := fun _ => rfl
      apart := hspans ▸ by decide
      reserved := hspans ▸ by decide
      reads := fun {w header values} hword hheader hvalues hcond => ?_ }⟩
  have hfree : ∀ q ∈ [(63, 1), (41, 6), (64, 25), (95, 1)],
      (∀ p ∈ branchHeaderSpans ++ [(96, 32)], Apart p q) ∧ (∀ p ∈ dstDirectSpans, Apart p q) ∧
      ∀ f ∈ noSrc0Fields ++ jipOperandFields, f.value = 0 ∨ Apart (span f) q := by decide
  have hzero (q : Nat × Nat) (hq : q ∈ [(63, 1), (41, 6), (64, 25), (95, 1)]) : unpack w q.1 q.2 = 0 := by
    obtain ⟨hheaderFree, hdstFree, hrest⟩ := hfree q hq
    refine unpack_branchArea hword hheader hvalues hheaderFree ?_
    rw [List.append_assoc, List.forall_mem_append]
    exact ⟨fun f hf => .inr (hdstFree _ (hdstSpans ▸ List.mem_map_of_mem hf)), hrest⟩
  have hholds := hword.holds
  simp only [jipOperandFields, immFileCode, holds_append, holds_cons] at hholds
  obtain ⟨⟨-, ⟨hwd, -⟩, hfile, htype, -⟩, -⟩ := hholds
  have hdstReads := dstReads_of_holds_direct hdirect hfd hwd (hzero (63, 1) (by decide))
  simp only [List.forall_mem_cons] at hzero
  simp [Layout.operandsRead, hclass, hdst, Layout.noSource0Reads, Layout.jipOperandReads, Layout.reads, hcond, hzero,
    hdstReads, hfile, htype]

/-! ## The word of a branch -/

/-- The native word of a legal branch record, its offsets not yet written, and what it reads as once they are. -/
theorem branch_word {cfg : Cfg} {ins : Instruction} {offsets : List (Nat × Nat)} {shape : Shape} {operands : List Field}
    (back : Bool) (hbranch : ins.opcode.isControlFlow = true) (hlegal : Layout.recordLegal cfg ins = true)
    (hoperands : BranchOperands cfg ins offsets shape operands) (hoffsets : ∀ q ∈ offsets, Apart q (7, 1)) :
    ∃ w fs, encodeNative cfg back ins = .ok (Layout.formatOf ins, w) ∧ WordOf w fs ∧
      (∀ p ∈ fs.map span, ∀ q ∈ offsets, Apart p q) ∧
      ∀ w' values, WordOf w' (fs ++ values) → values.map span = offsets →
        Layout.headerReads cfg ins back w' = true ∧ Layout.operandsRead cfg ins w' = true := by
  simp only [Layout.recordLegal, Bool.and_eq_true] at hlegal
  obtain ⟨⟨hopcode, hheaderLegal⟩, -⟩ := hlegal
  have hformat := (select_fits hoperands.selects).format
  obtain ⟨opc, hopc, hcheck⟩ := checkOpcode_of_legal hopcode
  obtain ⟨header, hhead⟩ := encodeHeader_ok_iff (cfg := cfg) (opc := opc) (back := back).mpr hheaderLegal
  have hheader : header.map span = branchHeaderSpans :=
    encodeHeader_spans (condModReused_of_controlFlow hbranch) hhead
  have hfields : encodeFields cfg back ins = .ok (shape, header ++ operands) := by
    simp only [encodeFields, hcheck, hoperands.selects, hformat, hhead, hoperands.encodes, ok_bind]
  have hapart : ((header ++ operands).map span ++ offsets).Pairwise Apart := by
    rw [List.map_append, hheader]
    exact hoperands.apart
  obtain ⟨hfieldsApart, -, hfree⟩ := List.pairwise_append.mp hapart
  obtain ⟨w, hnative, hword⟩ := encodeNative_wordOf hfields hoperands.unpatched hfieldsApart
  refine ⟨w, _, hformat ▸ hnative, hword, hfree, fun w' values hword' hvalues => ?_⟩
  obtain ⟨⟨hheld, -⟩, -⟩ := by simpa only [holds_append] using hword'.holds
  have hreserved : unpack w' 7 1 = 0 := by
    refine unpack_branchArea hword' hheader hvalues ?_ fun f hf => .inr ?_
    · exact List.forall_mem_append.mpr ⟨by decide, hoffsets⟩
    · exact hoperands.reserved _ (List.mem_map_of_mem hf)
  exact ⟨headerReads_of_holds hopc hhead hheld hreserved,
    hoperands.reads hword' hheader hvalues (condModReads_of_holds hbranch hhead hheld)⟩

/-- A legal record of a branch with one offset: its label and its operand fields (R351 to R353). -/
theorem oneOffset_of_legal {cfg : Cfg} {i : Instr}
    (hmnemonic : i.mnemonic ∈ [Mnemonic.jmpi, .call, .endif, .while_, .join])
    (hlegal : Layout.recordLegal cfg i.instruction = true) :
    i.mnemonic.isControlFlow = true ∧ Layout.formatOf i.instruction = .branchOneSrc ∧
      ∃ jip shape operands, i.body.payload = .branch jip none ∧
        BranchOperands cfg i.instruction [(96, 32)] shape operands := by
  have hclass : i.mnemonic.isControlFlow = true ∧ (i.instruction.opcode.opClass = .jmpi ∨
      i.instruction.opcode.opClass = .call ∨ i.instruction.opcode.opClass = .branchOneSrc) := by
    change i.mnemonic.isControlFlow = true ∧
      (i.mnemonic.opClass = .jmpi ∨ i.mnemonic.opClass = .call ∨ i.mnemonic.opClass = .branchOneSrc)
    generalize i.mnemonic = m at hmnemonic
    revert hmnemonic
    cases m <;> decide
  simp only [Layout.recordLegal, Bool.and_eq_true] at hlegal
  obtain ⟨-, hoperands⟩ := hlegal
  obtain ⟨hbranch, hclass | hclass | hclass⟩ := hclass <;>
    refine ⟨hbranch, by simp [Layout.formatOf, hclass], ?_⟩
  · obtain ⟨jip, hpayload, hops⟩ := branchOperands_jmpi hclass hoperands
    exact ⟨jip, _, _, hpayload, hops⟩
  · obtain ⟨jip, d, operands, hpayload, hops⟩ := branchOperands_call hclass hoperands
    exact ⟨jip, _, _, hpayload, hops⟩
  · obtain ⟨jip, hpayload, hops⟩ := branchOperands_one hclass hoperands
    exact ⟨jip, _, _, hpayload, hops⟩

/-- Settles O39: the offset is written in a field apart from those of header and operands. -/
theorem branchOneSrcEmitted : Obligations.BranchOneSrcEmitted := by
  intro i s hmnemonic haccepts hpolicy htargets
  obtain ⟨-, -, hlegal⟩ := accepts_iff.mp haccepts
  obtain ⟨hbranch, hformat, jip, shape, operands, hpayload, hops⟩ := oneOffset_of_legal hmnemonic hlegal
  obtain ⟨w, fs, hnative, hword, hfree, hreads⟩ :=
    branch_word (Layout.isBackward s i) hbranch hlegal hops (by decide)
  have hcompact := compact_branch s.cfg w hpolicy (isBranchFormat_of_controlFlow (ins := i.instruction) hbranch)
  have hemits := instrEmits_branch haccepts hbranch hnative hcompact htargets
  rw [hformat, hpayload, writeKnown_one] at hemits
  have hplaced := hword.placeKnown s.cfg (Layout.labelsAfter s i.defs) s.pos (off := 96) (by decide)
    (fun p hp => hfree p hp _ (by decide)) jip
  obtain ⟨hheader, hoperands⟩ := hreads _ _ hplaced rfl
  obtain ⟨-, hoffset, -⟩ := by simpa only [holds_append, holds_cons] using hplaced.holds
  refine ⟨_, hemits, by rw [Layout.wordReads, hheader, hoperands, Bool.and_self], ?_⟩
  have hfits : Layout.offsetLegal s.cfg (Layout.labelsAfter s i.defs) s.pos 32 jip = true := by
    simpa [Layout.targetsLegal, hpayload, Payload.targets] using htargets
  simp only [Layout.targetsRead, hpayload, hoffset, offsetReads_offsetField hfits]

/-- Settles O40: the two offsets are written in fields apart from each other and from those of the header. -/
theorem branchTwoSrcEmitted : Obligations.BranchTwoSrcEmitted := by
  intro i s hmnemonic haccepts hpolicy htargets
  obtain ⟨-, -, hlegal⟩ := accepts_iff.mp haccepts
  have hclass : i.mnemonic.isControlFlow = true ∧ i.instruction.opcode.opClass = .branchTwoSrc := by
    change i.mnemonic.isControlFlow = true ∧ i.mnemonic.opClass = .branchTwoSrc
    generalize i.mnemonic = m at hmnemonic
    revert hmnemonic
    cases m <;> decide
  obtain ⟨hbranch, hclass⟩ := hclass
  have hformat : Layout.formatOf i.instruction = .branchTwoSrc := by simp [Layout.formatOf, hclass]
  obtain ⟨-, hoperandsLegal⟩ := Bool.and_eq_true_iff.mp hlegal
  obtain ⟨jip, uip, hrecord, hops⟩ := branchOperands_two hclass hoperandsLegal
  have hpayload : i.body.payload = .branch jip (some uip) := hrecord
  obtain ⟨w, fs, hnative, hword, hfree, hreads⟩ :=
    branch_word (Layout.isBackward s i) hbranch hlegal hops (by decide)
  have hcompact := compact_branch s.cfg w hpolicy (isBranchFormat_of_controlFlow (ins := i.instruction) hbranch)
  have hemits := instrEmits_branch haccepts hbranch hnative hcompact htargets
  rw [hformat, hpayload, writeKnown_two] at hemits
  have hjip := hword.placeKnown s.cfg (Layout.labelsAfter s i.defs) s.pos (off := 64) (by decide)
    (fun p hp => hfree p hp _ (by decide)) jip
  have huip := hjip.placeKnown s.cfg (Layout.labelsAfter s i.defs) s.pos (off := 96) (by decide)
    (by
      rw [List.map_append, List.forall_mem_append]
      exact ⟨fun p hp => hfree p hp _ (by decide), by simp [span, Apart]⟩) uip
  obtain ⟨hheader, hoperands⟩ := hreads _ _ (List.append_assoc _ _ _ ▸ huip) rfl
  obtain ⟨⟨-, hjipOffset, -⟩, huipOffset, -⟩ := by simpa only [holds_append, holds_cons] using huip.holds
  refine ⟨_, hemits, by rw [Layout.wordReads, hheader, hoperands, Bool.and_self], ?_⟩
  obtain ⟨hjipFits, huipFits⟩ : Layout.offsetLegal s.cfg (Layout.labelsAfter s i.defs) s.pos 32 jip = true ∧
      Layout.offsetLegal s.cfg (Layout.labelsAfter s i.defs) s.pos 32 uip = true := by
    simpa [Layout.targetsLegal, hpayload, Payload.targets]
      using htargets
  simp only [Layout.targetsRead, hpayload, hjipOffset, huipOffset,
    offsetReads_offsetField hjipFits, offsetReads_offsetField huipFits, Bool.and_self]

end Sys2Proof.Machine
end

section
/-! PROOFS. The compaction engine (45_compaction.md R373, R380, R383, R384): a lookup gives the first entry that is the
pattern, and a compact word and its native word are made of the same fields, so that expansion undoes compaction. -/

namespace Sys2Proof.Machine

/-! ## Lookup (R373) -/

theorem tableLookup_eq_some {n : Nat} {t : CompactionTable n} {g : BitVec n} {i : Fin 32} :
    tableLookup t g = some i ↔ tableRead t i = g ∧ ∀ j, j < i → tableRead t j ≠ g := by
  rw [tableLookup, List.find?_eq_some_iff_getElem]
  simp only [List.getElem_finRange, List.length_finRange, beq_iff_eq, Bool.not_eq_true', beq_eq_false_iff_ne]
  refine and_congr_right fun _ => ⟨?_, ?_⟩
  · rintro ⟨k, hk, rfl, hbefore⟩ j hj
    exact hbefore j hj
  · intro hbefore
    exact ⟨i, i.isLt, rfl, fun j hj => hbefore ⟨j, by omega⟩ hj⟩

theorem tableLookup_eq_none {n : Nat} {t : CompactionTable n} {g : BitVec n} :
    tableLookup t g = none ↔ ∀ i, tableRead t i ≠ g := by
  simp [tableLookup]

/-- Settles O56: the lookup searches the indexes in rising order. -/
theorem lookupExact : Obligations.LookupExact :=
  fun _ _ _ => ⟨fun _ => tableLookup_eq_some, tableLookup_eq_none⟩

/-! ## The fields of the four groups (R131) -/

theorem or_shiftLeft_eq_add {a n : Nat} (h : a < 2 ^ n) (b : Nat) : a ||| b <<< n = a + 2 ^ n * b := by
  rw [Nat.or_comm, ← Nat.shiftLeft_add_eq_or_of_lt h, Nat.shiftLeft_eq, Nat.mul_comm, Nat.add_comm]

theorem groupCtrl_toNat (w : NativeWord) :
    (groupCtrl w).toNat = unpack w 8 14 + 2 ^ 14 * unpack w 29 3 + 2 ^ 17 * unpack w 32 3 := by
  have h1 := unpack_lt w 8 14
  have h2 := unpack_lt w 29 3
  have h3 := unpack_lt w 32 3
  rw [groupCtrl, or_shiftLeft_eq_add h1, or_shiftLeft_eq_add (by omega), BitVec.toNat_ofNat,
    Nat.mod_eq_of_lt (by omega)]

theorem groupDt_toNat (w : NativeWord) :
    (groupDt w).toNat = unpack w 22 2 + 2 ^ 2 * unpack w 35 13 + 2 ^ 15 * unpack w 89 6 := by
  have h1 := unpack_lt w 22 2
  have h2 := unpack_lt w 35 13
  have h3 := unpack_lt w 89 6
  rw [groupDt, or_shiftLeft_eq_add h1, or_shiftLeft_eq_add (by omega), BitVec.toNat_ofNat, Nat.mod_eq_of_lt (by omega)]

theorem groupSr_toNat (w : NativeWord) :
    (groupSr w).toNat = unpack w 24 5 + 2 ^ 5 * unpack w 64 5 + 2 ^ 10 * (if imm1 w then 0 else unpack w 96 5) := by
  have h1 := unpack_lt w 24 5
  have h2 := unpack_lt w 64 5
  have h3 : (if imm1 w then 0 else unpack w 96 5) < 2 ^ 5 := by
    split
    · decide
    · exact unpack_lt w 96 5
  rw [groupSr, or_shiftLeft_eq_add h1, or_shiftLeft_eq_add (by omega), BitVec.toNat_ofNat, Nat.mod_eq_of_lt (by omega)]

theorem groupSrc_toNat (w : NativeWord) :
    (groupSrc w).toNat = unpack w 77 12 + 2 ^ 12 * (if imm1 w then 0 else unpack w 109 12) := by
  have h1 := unpack_lt w 77 12
  have h2 : (if imm1 w then 0 else unpack w 109 12) < 2 ^ 12 := by
    split
    · decide
    · exact unpack_lt w 109 12
  rw [groupSrc, or_shiftLeft_eq_add h1, BitVec.toNat_ofNat, Nat.mod_eq_of_lt (by omega)]

/-! ## Words as lists of fields -/

/-- The fields written one after another, with no check of R15. -/
def setFields {n : Nat} (w : BitVec n) (fs : List Field) : BitVec n :=
  fs.foldl (fun w f => setField w f.off f.width f.value) w

theorem packFields_eq_setFields {n : Nat} {fs : List Field}
    (hfit : ∀ f ∈ fs, f.off + f.width ≤ n ∧ f.value < 2 ^ f.width) (w : BitVec n) :
    packFields w fs = .ok (setFields w fs) := by
  induction fs generalizing w with
  | nil => rfl
  | cons f fs ih =>
    obtain ⟨⟨hoff, hvalue⟩, hrest⟩ := List.forall_mem_cons.mp hfit
    simp only [packFields, pack_of_fits w hoff hvalue, ih hrest]
    rfl

theorem unpack_setFields {n : Nat} (w : BitVec n) {fs : List Field}
    (hfit : ∀ f ∈ fs, f.off + f.width ≤ n ∧ f.value < 2 ^ f.width) (hapart : (fs.map span).Pairwise Apart) :
    ∀ f ∈ fs, unpack (setFields w fs) f.off f.width = f.value := by
  obtain ⟨w', hpack, hread, -⟩ := packFields_disjoint w fs hfit (List.pairwise_map.mp hapart)
  rw [packFields_eq_setFields hfit, Except.ok.injEq] at hpack
  exact hpack ▸ hread

theorem wordOf_setFields {fs : List Field} (hin : ∀ f ∈ fs, InWord f) (hapart : (fs.map span).Pairwise Apart) :
    WordOf (setFields 0 fs) fs := by
  obtain ⟨w, hpack, hword⟩ := packFields_wordOf hin hapart
  rw [packFields_eq_setFields hin, Except.ok.injEq] at hpack
  exact hpack ▸ hword

/-- The fields of a word tell the word (R72). -/
theorem WordOf.unique {w w' : NativeWord} {fs : List Field} (h : WordOf w fs) (h' : WordOf w' fs) : w = w' := by
  refine BitVec.eq_of_getLsbD_eq fun i _ => ?_
  by_cases hin : ∃ f ∈ fs, f.off ≤ i ∧ i < f.off + f.width
  · obtain ⟨f, hf, hfrom, hto⟩ := hin
    have hfield : unpack w f.off f.width = unpack w' f.off f.width := (h.holds f hf).trans (h'.holds f hf).symm
    have hbit := congrArg (Nat.testBit · (i - f.off)) hfield
    simpa only [testBit_unpack, show i - f.off < f.width by omega, show f.off + (i - f.off) = i by omega,
      decide_true, Bool.true_and] using hbit
  · have hout (f : Field) (hf : f ∈ fs) : i < f.off ∨ f.off + f.width ≤ i := by
      by_contra hcovers
      exact hin ⟨f, hf, by omega⟩
    rw [h.blank i hout, h'.blank i hout]

/-- A word that holds the fields, and 0 in places that make up the rest of it, is their word. -/
theorem wordOf_of_rest {w : NativeWord} {fs : List Field} {rest : List (Nat × Nat)} (hholds : Holds w fs)
    (hzero : ∀ q ∈ rest, unpack w q.1 q.2 = 0)
    (hcover : ∀ i < 128, ∃ q ∈ fs.map span ++ rest, q.1 ≤ i ∧ i < q.1 + q.2) : WordOf w fs where
  holds := hholds
  blank i hout := by
    obtain hi | hi := Nat.lt_or_ge i 128
    · obtain ⟨q, hq, hfrom, hto⟩ := hcover i hi
      obtain hq | hq := List.mem_append.mp hq
      · obtain ⟨f, hf, rfl⟩ := List.mem_map.mp hq
        have := hout f hf
        simp only [span] at hfrom hto
        omega
      · have hbit := testBit_unpack w q.1 q.2 (i - q.1)
        rw [hzero q hq, Nat.zero_testBit, show q.1 + (i - q.1) = i by omega] at hbit
        simpa [show i - q.1 < q.2 by omega] using hbit
    · exact BitVec.getLsbD_of_ge w i hi

/-! ## The compact word (R130, R380) -/

/-- The fields of a compact word (R130). -/
def compactFields (w : NativeWord) (ci di si xi : Fin 32) : List Field :=
  [⟨0, 7, unpack w 0 7⟩, ⟨7, 1, unpack w 54 1⟩, ⟨8, 5, ci⟩, ⟨13, 5, di⟩, ⟨18, 5, si⟩, ⟨23, 5, xi⟩,
   ⟨28, 4, unpack w 48 4⟩, ⟨32, 1, unpack w 52 1⟩, ⟨33, 8, unpack w 55 8⟩, ⟨41, 8, unpack w 69 8⟩, ⟨53, 1, 1⟩,
   if imm1 w then ⟨54, 10, unpack w 96 10⟩ else ⟨54, 8, unpack w 101 8⟩]

/-- The places of the fields of a compact word, by whether source 1 is an immediate. -/
def compactSpans (imm : Bool) : List (Nat × Nat) :=
  [(0, 7), (7, 1), (8, 5), (13, 5), (18, 5), (23, 5), (28, 4), (32, 1), (33, 8), (41, 8), (53, 1),
   if imm then (54, 10) else (54, 8)]

theorem compactFields_spans (w : NativeWord) (ci di si xi : Fin 32) :
    (compactFields w ci di si xi).map span = compactSpans (imm1 w) := by
  unfold compactFields
  cases imm1 w <;> rfl

theorem compactSpans_apart (imm : Bool) : (compactSpans imm).Pairwise Apart := by
  cases imm <;> decide

theorem compactFields_fit (w : NativeWord) (ci di si xi : Fin 32) :
    ∀ f ∈ compactFields w ci di si xi, f.off + f.width ≤ 64 ∧ f.value < 2 ^ f.width := by
  have hindex (i : Fin 32) : (i : Nat) < 2 ^ 5 := i.isLt
  have hbit (off : Nat) : unpack w off 1 ≤ 1 := Nat.le_of_lt_succ (unpack_lt w off 1)
  simp only [compactFields, List.forall_mem_cons]
  cases imm1 w <;> simp [unpack_lt, hindex, hbit, -Nat.reducePow]

theorem compactWord_eq (w : NativeWord) (ci di si xi : Fin 32) :
    compactWord w ci di si xi = setFields 0 (compactFields w ci di si xi) := by
  simp only [compactWord, setFields, compactFields, List.foldl_cons, List.foldl_nil]
  split <;> rfl

theorem compactWord_holds (w : NativeWord) (ci di si xi : Fin 32) :
    ∀ f ∈ compactFields w ci di si xi, unpack (compactWord w ci di si xi) f.off f.width = f.value :=
  compactWord_eq w ci di si xi ▸
    unpack_setFields 0 (compactFields_fit w ci di si xi) (compactFields_spans w ci di si xi ▸ compactSpans_apart _)

/-- The table entries that the index fields of a compact word name are those of the groups, and its other fields are
those of the native word. -/
structure CompactOf (cfg : Cfg) (w : NativeWord) (c : CompactWord) : Prop where
  ctrl : tableAt cfg.ctCtrl c 8 = (groupCtrl w).toNat
  dt : tableAt cfg.ctDt c 13 = (groupDt w).toNat
  sr : tableAt cfg.ctSr c 18 = (groupSr w).toNat
  src : tableAt cfg.ctSrc c 23 = (groupSrc w).toNat
  opcode : unpack c 0 7 = unpack w 0 7
  debug : unpack c 7 1 = unpack w 54 1
  condMod : unpack c 28 4 = unpack w 48 4
  accWrite : unpack c 32 1 = unpack w 52 1
  dstNumber : unpack c 33 8 = unpack w 55 8
  src0Number : unpack c 41 8 = unpack w 69 8
  src1Imm : imm1 w = true → unpack c 54 10 = unpack w 96 10
  src1Number : imm1 w = false → unpack c 54 8 = unpack w 101 8

theorem tableAt_eq {n : Nat} {t : CompactionTable n} {c : CompactWord} {off : Nat} {i : Fin 32} {g : BitVec n}
    (hindex : unpack c off 5 = i) (hread : tableRead t i = g) : tableAt t c off = g.toNat := by
  rw [tableAt, hindex, Fin.ofNat_val_eq_self, hread]

theorem compactOf_of_tryCompact {cfg : Cfg} {w : NativeWord} {c : CompactWord} (h : tryCompact cfg w = some c) :
    CompactOf cfg w c := by
  obtain ⟨-, ci, di, si, xi, hci, hdi, hsi, hxi, rfl⟩ := tryCompact_some h
  have hreads := compactWord_holds w ci di si xi
  simp only [compactFields, List.forall_mem_cons] at hreads
  obtain ⟨opcode, debug, hctrl, hdt, hsr, hsrc, condMod, accWrite, dstNumber, src0Number, -, hsrc1, -⟩ := hreads
  exact
    { ctrl := tableAt_eq hctrl hci, dt := tableAt_eq hdt hdi, sr := tableAt_eq hsr hsi, src := tableAt_eq hsrc hxi
      opcode, debug, condMod, accWrite, dstNumber, src0Number
      src1Imm := fun himm => by simpa [himm] using hsrc1
      src1Number := fun himm => by simpa [himm] using hsrc1 }

/-! ## Expansion (R383, R384) -/

/-- The fields of an expansion but those of source 1 (R383). -/
def expandFields (cfg : Cfg) (c : CompactWord) : List Field :=
  let ctrl := tableAt cfg.ctCtrl c 8
  let dt := tableAt cfg.ctDt c 13
  let sr := tableAt cfg.ctSr c 18
  [⟨0, 7, unpack c 0 7⟩, ⟨54, 1, unpack c 7 1⟩, ⟨48, 4, unpack c 28 4⟩, ⟨52, 1, unpack c 32 1⟩,
   ⟨8, 14, ctrl % 2 ^ 14⟩, ⟨29, 3, ctrl / 2 ^ 14 % 8⟩, ⟨32, 3, ctrl / 2 ^ 17⟩,
   ⟨22, 2, dt % 4⟩, ⟨35, 13, dt / 4 % 2 ^ 13⟩, ⟨89, 6, dt / 2 ^ 15⟩, ⟨24, 5, sr % 32⟩, ⟨64, 5, sr / 32 % 32⟩,
   ⟨77, 12, tableAt cfg.ctSrc c 23 % 2 ^ 12⟩, ⟨55, 8, unpack c 33 8⟩, ⟨69, 8, unpack c 41 8⟩]

/-- The fields of source 1 in an expansion, by whether it is an immediate (R383). -/
def expandSource1 (cfg : Cfg) (c : CompactWord) : Bool → List Field
  | true => [⟨96, 32, sext10to32 (unpack c 54 10)⟩]
  | false =>
    [⟨96, 5, tableAt cfg.ctSr c 18 / 2 ^ 10⟩, ⟨101, 8, unpack c 54 8⟩, ⟨109, 12, tableAt cfg.ctSrc c 23 / 2 ^ 12⟩]

theorem expand_eq (cfg : Cfg) (c : CompactWord) :
    expand cfg c =
      setFields 0 (expandFields cfg c ++ expandSource1 cfg c (imm1 (setFields 0 (expandFields cfg c)))) := by
  cases himm : imm1 (setFields 0 (expandFields cfg c))
  · exact if_neg (Bool.eq_false_iff.mp himm)
  · exact if_pos himm

theorem tableAt_lt {n : Nat} (t : CompactionTable n) (c : CompactWord) (off : Nat) : tableAt t c off < 2 ^ n :=
  BitVec.isLt _

theorem expandFields_inWord (cfg : Cfg) (c : CompactWord) (imm : Bool) :
    ∀ f ∈ expandFields cfg c ++ expandSource1 cfg c imm, InWord f := by
  have hctrl := tableAt_lt cfg.ctCtrl c 8
  have hdt := tableAt_lt cfg.ctDt c 13
  have hsr := tableAt_lt cfg.ctSr c 18
  have hsrc := tableAt_lt cfg.ctSrc c 23
  have hbit (off : Nat) : unpack c off 1 < 2 := unpack_lt c off 1
  have h4 : unpack c 28 4 < 16 := unpack_lt c 28 4
  have h7 : unpack c 0 7 < 128 := unpack_lt c 0 7
  have h8 (off : Nat) : unpack c off 8 < 256 := unpack_lt c off 8
  have hsext := twos_lt 32 (signed 10 (unpack c 54 10))
  cases imm <;> simp [expandFields, expandSource1, sext10to32, *] <;> omega

/-- The places of the fields of an expansion, by whether source 1 is an immediate. -/
def expandSpans (imm : Bool) : List (Nat × Nat) :=
  [(0, 7), (54, 1), (48, 4), (52, 1), (8, 14), (29, 3), (32, 3), (22, 2), (35, 13), (89, 6), (24, 5), (64, 5),
   (77, 12), (55, 8), (69, 8)] ++ if imm then [(96, 32)] else [(96, 5), (101, 8), (109, 12)]

theorem expandFields_spans (cfg : Cfg) (c : CompactWord) (imm : Bool) :
    (expandFields cfg c ++ expandSource1 cfg c imm).map span = expandSpans imm := by
  cases imm <;> rfl

theorem expandSpans_apart (imm : Bool) : (expandSpans imm).Pairwise Apart := by
  cases imm <;> decide

theorem wordOf_expandFields (cfg : Cfg) (c : CompactWord) (imm : Bool) :
    WordOf (setFields 0 (expandFields cfg c ++ expandSource1 cfg c imm))
      (expandFields cfg c ++ expandSource1 cfg c imm) :=
  wordOf_setFields (expandFields_inWord cfg c imm) (expandFields_spans cfg c imm ▸ expandSpans_apart imm)

/-- Whether source 1 is an immediate is told by the two bits of the DT entry that R131 puts there. -/
theorem imm1_of_holds {cfg : Cfg} {c : CompactWord} {w : NativeWord} (h : Holds w (expandFields cfg c)) :
    imm1 w = (tableAt cfg.ctDt c 13 / 2 ^ 15 % 2 ^ 2 == 3) := by
  have hfile : unpack w 89 6 = tableAt cfg.ctDt c 13 / 2 ^ 15 := h ⟨89, 6, _⟩ (by simp [expandFields])
  rw [imm1, ← hfile]
  exact congrArg (· == 3) (by simpa using unpack_part w 89 (show 0 + 2 ≤ 6 by decide))

/-- The condition of R383's last step, in the finished word. -/
theorem imm1_expand (cfg : Cfg) (c : CompactWord) :
    imm1 (expand cfg c) = imm1 (setFields 0 (expandFields cfg c)) := by
  have hhead : Holds (setFields 0 (expandFields cfg c)) (expandFields cfg c) := by
    have hall := expandFields_inWord cfg c true
    have hapart := expandFields_spans cfg c true ▸ expandSpans_apart true
    exact (wordOf_setFields (List.forall_mem_append.mp hall).1 (hapart.sublist (by simp))).holds
  have hwhole := (wordOf_expandFields cfg c (imm1 (setFields 0 (expandFields cfg c)))).holds
  rw [← expand_eq] at hwhole
  rw [imm1_of_holds hhead, imm1_of_holds (holds_append.mp hwhole).1]

theorem expand_wordOf (cfg : Cfg) (c : CompactWord) :
    WordOf (expand cfg c) (expandFields cfg c ++ expandSource1 cfg c (imm1 (expand cfg c))) := by
  rw [imm1_expand]
  exact expand_eq cfg c ▸ wordOf_expandFields cfg c _

/-- What R380 asks of the bits that no group carries: the reserved ones are 0, and an immediate is the extension of its
low 10 bits (R132). -/
theorem compactable_parts {w : NativeWord} (h : compactable w = true) :
    (∀ q ∈ [(7, 1), (53, 1), (63, 1), (95, 1)], unpack w q.1 q.2 = 0) ∧
    (imm1 w = true → unpack w 96 32 = sext10to32 (unpack w 96 10)) ∧ (imm1 w = false → unpack w 121 7 = 0) := by
  simp only [compactable, Bool.and_eq_true, beq_iff_eq] at h
  obtain ⟨⟨⟨⟨h7, h53⟩, h63⟩, h95⟩, hsrc1⟩ := h
  refine ⟨by simp [h7, h53, h63, h95], fun himm => ?_, fun himm => ?_⟩ <;> simpa [himm] using hsrc1

/-- The native word holds the fields that its compact word expands to (R131, R132). -/
theorem holds_expandFields {cfg : Cfg} {w : NativeWord} {c : CompactWord} (h : CompactOf cfg w c)
    (himm : imm1 w = true → unpack w 96 32 = sext10to32 (unpack w 96 10)) :
    Holds w (expandFields cfg c ++ expandSource1 cfg c (imm1 w)) := by
  have h3 (off : Nat) : unpack w off 3 < 8 := unpack_lt w off 3
  have h5 (off : Nat) : unpack w off 5 < 32 := unpack_lt w off 5
  have h14 := unpack_lt w 8 14
  have h2 := unpack_lt w 22 2
  have h13 := unpack_lt w 35 13
  have h12 := unpack_lt w 77 12
  have h29 := h3 29
  have h24 := h5 24
  have h64 := h5 64
  refine holds_append.mpr ⟨?_, ?_⟩
  · simp only [expandFields, holds_cons, holds_nil, h.ctrl, h.dt, h.sr, h.src, groupCtrl_toNat, groupDt_toNat,
      groupSr_toNat, groupSrc_toNat, h.opcode, h.debug, h.condMod, h.accWrite, h.dstNumber, h.src0Number,
      true_and, and_true]
    omega
  · cases hsrc1 : imm1 w
    · simp only [expandSource1, holds_cons, holds_nil, h.sr, h.src, groupSr_toNat, groupSrc_toNat, hsrc1,
        h.src1Number hsrc1, Bool.false_eq_true, if_false, true_and, and_true]
      omega
    · simp only [expandSource1, holds_cons, holds_nil, h.src1Imm hsrc1, himm hsrc1, and_self]

/-- The places that no field of an expansion takes (R132). -/
def expandRest : Bool → List (Nat × Nat)
  | true => [(7, 1), (53, 1), (63, 1), (95, 1)]
  | false => [(7, 1), (53, 1), (63, 1), (95, 1), (121, 7)]

theorem expandSpans_cover (imm : Bool) :
    ∀ i < 128, ∃ q ∈ expandSpans imm ++ expandRest imm, q.1 ≤ i ∧ i < q.1 + q.2 := by
  cases imm <;> decide

/-- The native word is the word of the fields that its compact word expands to (R380, R383). -/
theorem wordOf_of_tryCompact {cfg : Cfg} {w : NativeWord} {c : CompactWord} (h : tryCompact cfg w = some c) :
    WordOf w (expandFields cfg c ++ expandSource1 cfg c (imm1 w)) := by
  obtain ⟨hcompactable, -⟩ := tryCompact_some h
  obtain ⟨hreserved, himm, hreg⟩ := compactable_parts hcompactable
  refine wordOf_of_rest (holds_expandFields (compactOf_of_tryCompact h) himm) ?_
    (expandFields_spans cfg c _ ▸ expandSpans_cover _)
  cases hsrc1 : imm1 w
  · exact List.forall_mem_append.mpr ⟨hreserved, List.forall_mem_singleton.mpr (hreg hsrc1)⟩
  · exact hreserved

/-- A compact word expands to the native word that it was made of (R384). -/
theorem expand_of_tryCompact {cfg : Cfg} {w : NativeWord} {c : CompactWord} (h : tryCompact cfg w = some c) :
    expand cfg c = w := by
  have hnative := wordOf_of_tryCompact h
  have himm : imm1 (expand cfg c) = imm1 w := by
    rw [imm1_of_holds (holds_append.mp (expand_wordOf cfg c).holds).1, imm1_of_holds (holds_append.mp hnative.holds).1]
  exact (himm ▸ expand_wordOf cfg c).unique hnative

/-- Settles O55: the compact word and the native word are made of the same fields. -/
theorem expandUndoesCompaction : Obligations.ExpandUndoesCompaction :=
  fun _ _ _ => expand_of_tryCompact

end Sys2Proof.Machine
end

section
/-! PROOFS. Branches under policy `Must` (45_compaction.md R370, R372): the 10-bit offset of a compact word is the
32-bit offset of its expansion. -/

namespace Sys2Proof.Machine

/-! ## The offset of a compact branch (R346, R383) -/

theorem setField_setField {n : Nat} (w : BitVec n) (off width v v' : Nat) :
    setField (setField w off width v) off width v' = setField w off width v' := by
  refine BitVec.eq_of_getLsbD_eq fun i _ => ?_
  simp only [getLsbD_setField]
  split <;> rfl

/-- An expansion whose source 1 is an immediate: its field is written last (R383). -/
theorem expand_of_imm {cfg : Cfg} {c : CompactWord} (himm : imm1 (expand cfg c) = true) :
    expand cfg c = setField (setFields 0 (expandFields cfg c)) 96 32 (sext10to32 (unpack c 54 10)) := by
  rw [expand_eq, ← imm1_expand, himm, setFields, List.foldl_append]
  rfl

/-- No other field of an expansion comes from the offset bits of a compact word (R347). -/
theorem expandFields_setField_offset (cfg : Cfg) (c : CompactWord) (v : Nat) :
    expandFields cfg (setField c 54 10 v) = expandFields cfg c := by
  simp [expandFields, tableAt, unpack_setField_disjoint]

theorem expand_setField_offset {cfg : Cfg} {c : CompactWord} (himm : imm1 (expand cfg c) = true) {v : Nat}
    (hv : v < 2 ^ 10) : expand cfg (setField c 54 10 v) = setField (expand cfg c) 96 32 (sext10to32 v) := by
  have himm' : imm1 (expand cfg (setField c 54 10 v)) = true := by
    rw [imm1_expand, expandFields_setField_offset, ← imm1_expand, himm]
  rw [expand_of_imm himm', expand_of_imm himm, expandFields_setField_offset, setField_setField,
    unpack_setField_same c (by decide) hv]

/-- A branch offset that fits a compact word is the same number in the native one (R132, R345). -/
theorem sext10to32_twos {v : Int} (h : fitsS 10 v = true) : sext10to32 (twos 10 v) = twos 32 v := by
  rw [sext10to32, signed_twos (by decide) h]

/-- The offset of a label written into a compact word, if it is known, is the offset written into the native one. -/
theorem writeKnown_compact {cfg : Cfg} {labels : List (Label × Nat)} {pos : Nat} {jip : Label} {w : NativeWord}
    {c : CompactWord} (hcompact : tryCompact cfg w = some c) (himm : imm1 w = true)
    (hfits : Layout.offsetLegal cfg labels pos 10 jip = true) :
    ∃ c', writeKnown cfg labels pos .branchOneSrc (Payload.branch jip none).targets (.compact c) = .compact c' ∧
      expand cfg c' = placeKnown cfg labels pos 96 jip w := by
  have hexpand := expand_of_tryCompact hcompact
  cases hl : labelPos labels jip with
  | none => exact ⟨c, by simp [Payload.targets, hl], by simp [placeKnown, hl, hexpand]⟩
  | some p =>
    have hfits10 : fitsS 10 (branchOffset cfg pos p) = true := (offsetLegal_of_known hl pos true).symm.trans hfits
    refine ⟨setField c 54 10 (twos 10 (branchOffset cfg pos p)), by simp [Payload.targets, hl, writeOffset], ?_⟩
    simp only [expand_setField_offset (hexpand ▸ himm) (twos_lt 10 _), sext10to32_twos hfits10, hexpand, placeKnown, hl]

theorem fitsS32_of_fitsS10 {v : Int} (h : fitsS 10 v = true) : fitsS 32 v = true := by
  simp only [fitsS, Bool.and_eq_true, decide_eq_true_eq] at h ⊢
  omega

/-- An offset that fits a compact word fits a native one (R345). -/
theorem offsetLegal_widen {cfg : Cfg} {labels : List (Label × Nat)} {pos : Nat} {l : Label}
    (h : Layout.offsetLegal cfg labels pos 10 l = true) : Layout.offsetLegal cfg labels pos 32 l = true := by
  cases hl : labelPos labels l with
  | none => exact offsetLegal_of_absent hl pos 32
  | some p =>
    have hfits : fitsS 10 (branchOffset cfg pos p) = true := (offsetLegal_of_known hl pos true).symm.trans h
    exact (offsetLegal_of_known hl pos false).trans (fitsS32_of_fitsS10 hfits)

/-! ## jmpi, call, endif, while and join under `Must` -/

theorem class_of_format_branchOneSrc {ins : Instruction} (h : Layout.formatOf ins = .branchOneSrc) :
    ins.opcode.opClass = .branchOneSrc ∨ ins.opcode.opClass = .jmpi ∨ ins.opcode.opClass = .call := by
  cases hc : ins.opcode.opClass <;> simp only [Layout.formatOf, hc, reduceCtorEq] at h <;> simp
  all_goals split_ifs at h

/-- Source 1 of a branch word with one offset is an immediate (R351). -/
theorem imm1_of_oneOffset {cfg : Cfg} {ins : Instruction} {w : NativeWord}
    (hformat : Layout.formatOf ins = .branchOneSrc) (hreads : Layout.operandsRead cfg ins w = true) :
    imm1 w = true := by
  have hjip : Layout.jipOperandReads w = true := by
    obtain hclass | hclass | hclass := class_of_format_branchOneSrc hformat <;>
      simp only [Layout.operandsRead, hclass] at hreads
    case inr.inr =>
      split at hreads <;> simp_all
    all_goals exact (Bool.and_eq_true_iff.mp hreads).2
  exact (Bool.and_eq_true_iff.mp hjip).1

/-- Under `Must` a word of an eligible format is compacted or refused (R370). -/
theorem compact_must {cfg : Cfg} {fmt : FormatTag} (helig : eligible fmt = true) (w : NativeWord) :
    (∃ c, tryCompact cfg w = some c ∧ compact cfg .must fmt w = .ok (.compact c)) ∨
    (tryCompact cfg w = none ∧ compact cfg .must fmt w = .error .mustNoMatch) := by
  obtain ⟨hpolicy, -⟩ | ⟨-, -, hok⟩ | ⟨-, -, herror⟩ | ⟨-, hnot, -⟩ := compact_cases cfg .must fmt w
  · cases hpolicy rfl
  · exact .inl hok
  · exact .inr herror
  · cases helig.symm.trans hnot

/-- Settles O42: the native word without its offset compacts or not; what is then written in the compact word's offset
field is the offset in the expansion's. -/
theorem mustCompactsBranches : Obligations.MustCompactsBranches := by
  intro i s hmnemonic haccepts hpolicy htargets
  obtain ⟨-, -, hlegal⟩ := accepts_iff.mp haccepts
  obtain ⟨hbranch, hformat, jip, shape, operands, hpayload, hops⟩ := oneOffset_of_legal hmnemonic hlegal
  obtain ⟨w, fs, hnative, hword, hfree, hreads⟩ :=
    branch_word (Layout.isBackward s i) hbranch hlegal hops (by decide)
  have hfree96 : ∀ p ∈ fs.map span, Apart p (96, 32) := fun p hp => hfree p hp _ (by decide)
  obtain ⟨hheader, hoperands⟩ := hreads w _ (hword.append_blank hfree96) rfl
  obtain ⟨c, htry, hcompact⟩ | ⟨htry, hcompact⟩ :=
    compact_must (cfg := s.cfg) (hformat ▸ rfl : eligible (Layout.formatOf i.instruction) = true) w
  all_goals rw [← hpolicy] at hcompact
  · left
    have hlegal10 : Layout.offsetLegal s.cfg (Layout.labelsAfter s i.defs) s.pos 10 jip = true := by
      simpa [Layout.targetsLegal, hpayload, Payload.targets] using htargets
    have hemits := instrEmits_branch haccepts hbranch hnative (hcompact) htargets
    obtain ⟨c', hwritten, hexpand⟩ := writeKnown_compact htry (imm1_of_oneOffset hformat hoperands) hlegal10
    rw [hformat, hpayload, hwritten] at hemits
    have hplaced := hword.placeKnown s.cfg (Layout.labelsAfter s i.defs) s.pos (off := 96) (by decide) hfree96 jip
    obtain ⟨hheader', hoperands'⟩ := hreads _ _ hplaced rfl
    obtain ⟨-, hoffset, -⟩ := by simpa only [holds_append, holds_cons] using hplaced.holds
    refine ⟨c', hemits, ?_, ?_⟩
    · rw [hexpand, Layout.wordReads, hheader', hoperands', Bool.and_self]
    · simp only [Layout.targetsRead, hpayload, hexpand, hoffset, offsetReads_offsetField (offsetLegal_widen hlegal10)]
  · right
    refine ⟨w, hformat ▸ hnative, ?_, hword.unpack_eq_zero hfree96, htry, ?_⟩
    · rw [Layout.wordReads, hheader, hoperands, Bool.and_self]
    · exact instrFails_of_compact haccepts hbranch hnative (hcompact)

end Sys2Proof.Machine
end

section
/-! PROOFS. The operand fields of the two-source layout (30_encoding.md R101 to R105, 41_operands.md R232 to R247), each
in its own area of the word: what a word reads there that holds them, and 0 in the rest of the area. -/

namespace Sys2Proof.Machine

/-! ## Areas of a word (R72) -/

/-- The place lies in one place of the area. -/
@[reducible] def Within (area : List (Nat × Nat)) (p : Nat × Nat) : Prop :=
  ∃ a ∈ area, a.1 ≤ p.1 ∧ p.1 + p.2 ≤ a.1 + a.2

/-- No place of one area has a bit in common with one of the other. -/
@[reducible] def AreasApart (area area' : List (Nat × Nat)) : Prop := ∀ a ∈ area, ∀ b ∈ area', Apart a b

theorem Within.apart {area area' : List (Nat × Nat)} {p q : Nat × Nat} (hp : Within area p) (hq : Within area' q)
    (h : AreasApart area area') : Apart p q := by
  obtain ⟨a, ha, hlo, hhi⟩ := hp
  obtain ⟨b, hb, hlo', hhi'⟩ := hq
  have := h a ha b hb
  omega

/-- The area of the word holds the fields, and 0 where none of them lies. -/
structure HoldsIn (area : List (Nat × Nat)) (w : NativeWord) (fs : List Field) : Prop where
  holds : Holds w fs
  blank : ∀ q, Within area q → (∀ p ∈ fs.map span, Apart p q) → unpack w q.1 q.2 = 0

/-- The fields lie in the area, apart from each other, and an area that holds them reads as `reads` says. -/
structure Laid (area : List (Nat × Nat)) (fs : List Field) (reads : NativeWord → Bool) : Prop where
  within : ∀ p ∈ fs.map span, Within area p
  apart : (fs.map span).Pairwise Apart
  reads_of_holdsIn : ∀ w, HoldsIn area w fs → reads w = true

theorem Laid.reads_of_wordOf {area : List (Nat × Nat)} {fs : List Field} {reads : NativeWord → Bool} {w : NativeWord}
    (h : Laid area fs reads) (hword : WordOf w fs) : reads w = true :=
  h.reads_of_holdsIn w ⟨hword.holds, fun _ _ hfree => hword.unpack_eq_zero hfree⟩

theorem Laid.append {area area' : List (Nat × Nat)} {fs gs : List Field} {reads reads' : NativeWord → Bool}
    (h : Laid area fs reads) (h' : Laid area' gs reads') (hareas : AreasApart area area') :
    Laid (area ++ area') (fs ++ gs) fun w => reads w && reads' w where
  within p hp := by
    rw [List.map_append, List.mem_append] at hp
    obtain hp | hp := hp
    · obtain ⟨a, ha, hin⟩ := h.within p hp
      exact ⟨a, List.mem_append_left _ ha, hin⟩
    · obtain ⟨a, ha, hin⟩ := h'.within p hp
      exact ⟨a, List.mem_append_right _ ha, hin⟩
  apart := by
    rw [List.map_append, List.pairwise_append]
    exact ⟨h.apart, h'.apart, fun p hp q hq => (h.within p hp).apart (h'.within q hq) hareas⟩
  reads_of_holdsIn w hw := by
    obtain ⟨hfs, hgs⟩ := holds_append.mp hw.holds
    rw [h.reads_of_holdsIn w ⟨hfs, fun q hq hfree => ?_⟩, h'.reads_of_holdsIn w ⟨hgs, fun q hq hfree => ?_⟩]
    · rfl
    · obtain ⟨a, ha, hin⟩ := hq
      refine hw.blank q ⟨a, List.mem_append_right _ ha, hin⟩ ?_
      rw [List.map_append, List.forall_mem_append]
      exact ⟨fun p hp => (h.within p hp).apart ⟨a, ha, hin⟩ hareas, hfree⟩
    · obtain ⟨a, ha, hin⟩ := hq
      refine hw.blank q ⟨a, List.mem_append_left _ ha, hin⟩ ?_
      rw [List.map_append, List.forall_mem_append]
      exact ⟨hfree, fun p hp => (Within.apart ⟨a, ha, hin⟩ (h'.within p hp) hareas).symm⟩

/-- Fields at known places: the places lie in the area, apart from each other and from the places `rest` of the area, in
which the word is 0. -/
theorem Laid.of_spans {area spans rest : List (Nat × Nat)} {fs : List Field} {reads : NativeWord → Bool}
    (hspans : fs.map span = spans)
    (hplaces : (∀ p ∈ spans ++ rest, Within area p) ∧ spans.Pairwise Apart ∧ AreasApart spans rest)
    (hreads : ∀ w, Holds w fs → (∀ q ∈ rest, unpack w q.1 q.2 = 0) → reads w = true) : Laid area fs reads := by
  obtain ⟨hwithin, hapart, hrest⟩ := hplaces
  rw [← hspans] at hwithin hapart hrest
  exact
    { within := fun p hp => hwithin p (List.mem_append_left _ hp)
      apart := hapart
      reads_of_holdsIn := fun w hw => hreads w hw.holds fun q hq =>
        hw.blank q (hwithin q (List.mem_append_right _ hq)) fun p hp => hrest p hp q hq }

/-- Fields of an area, in a larger one. -/
theorem Laid.widen {area area' : List (Nat × Nat)} {fs : List Field} {reads : NativeWord → Bool}
    (h : Laid area fs reads) (hareas : ∀ a ∈ area, Within area' a) : Laid area' fs reads := by
  have htrans (p : Nat × Nat) (hp : Within area p) : Within area' p := by
    obtain ⟨a, ha, hlo, hhi⟩ := hp
    obtain ⟨b, hb, hlo', hhi'⟩ := hareas a ha
    exact ⟨b, hb, by omega, by omega⟩
  exact
    { within := fun p hp => htrans p (h.within p hp)
      apart := h.apart
      reads_of_holdsIn := fun w hw => h.reads_of_holdsIn w ⟨hw.holds, fun q hq => hw.blank q (htrans q hq)⟩ }

/-! ## Destinations (R101, R232 to R237) -/

/-- The bits of a destination in the two-source layout (R101). -/
def dstArea : List (Nat × Nat) := [(22, 7), (35, 6), (47, 1), (55, 9)]

/-- The two fields of an indirect offset read as the offset (R234, R241). -/
theorem signed_offsetFields {a : Nat} {o : Int} (h : Layout.indirectLegal a o = true) :
    signed 10 ((twos 10 o &&& 0x1FF) + 512 * (twos 10 o >>> 9)) = o := by
  have hfits : fitsS 10 o = true := by
    rw [← indirectRangeOk_eq, indirectRangeOk, Bool.and_eq_true] at h
    exact h.2
  have hsplit : (twos 10 o &&& 0x1FF) + 512 * (twos 10 o >>> 9) = twos 10 o := by
    rw [show (0x1FF : Nat) = 2 ^ 9 - 1 from rfl, Nat.and_two_pow_sub_one_eq_mod, Nat.shiftRight_eq_div_pow]
    exact Nat.mod_add_div _ _
  rw [hsplit, signed_twos (by decide) hfits]

/-- The places of an indirect destination (R234). -/
def dstIndirectSpans : List (Nat × Nat) := [(35, 2), (37, 4), (47, 1), (24, 4), (55, 9), (28, 1), (22, 2)]

/-- The places of an Align16 destination (R235). -/
def dstAlign16Spans : List (Nat × Nat) := [(35, 2), (37, 4), (47, 1), (55, 8), (28, 1), (24, 4), (22, 2)]

theorem dst_laid {cfg : Cfg} {mode : AccessMode} {d : RegOperand} {fs : List Field}
    (h : encodeDstReg cfg mode d = .ok fs) : Laid dstArea fs (Layout.dstReads cfg mode d) := by
  obtain ⟨ty, rest, hty, rfl, ⟨rfl, hd, hrest⟩ | ⟨a, o, rfl, hd, hrest⟩ | ⟨rfl, hd, hrest⟩⟩ := encodeDstReg_parts h
  · exact .of_spans (rest := [(63, 1)]) (encodeDstReg_direct_spans hd h) (by decide)
      fun w hw hzero => dstReads_of_holds_direct hd h hw (hzero (63, 1) (by decide))
  · obtain ⟨-, hrange, -, hs, hhs, rfl⟩ := dstAlign1Indirect_eq_ok.mp hrest
    obtain ⟨-, hhs⟩ := destinationStride_eq_ok.mp hhs
    refine .of_spans (spans := dstIndirectSpans) (rest := []) rfl (by decide) fun w hw _ => ?_
    simp only [holds_cons, fileCode_eq] at hw
    simp [Layout.dstReads, Layout.reads, Layout.readsCode, Layout.readsNat, hd, hty, hhs, hw,
      signed_offsetFields hrange]
  · obtain ⟨-, -, -, rfl⟩ := (dstAlign16Direct_eq_ok hd).mp hrest
    refine .of_spans (spans := dstAlign16Spans) (rest := [(63, 1)]) rfl (by decide) fun w hw hzero => ?_
    simp only [holds_cons, fileCode_eq] at hw
    have h63 : unpack w 63 1 = 0 := hzero (63, 1) (by decide)
    cases hacc : d.specialAcc <;>
      simp_all [Layout.dstReads, Layout.reads, Layout.readsCode]

/-! ## Source registers (R102, R103, R238 to R244) -/

/-- The bits of source slot `k` in the two-source layout (R102, R103). -/
def slotArea (k : Nat) : List (Nat × Nat) := if k = 0 then [(41, 6), (64, 25), (95, 1)] else [(89, 6), (96, 32)]

/-- The places of the fields that every source register has: file, type, modifier and addressing mode (R102, R238). -/
def srcCommonSpans (k : Nat) : List (Nat × Nat) :=
  [(rfPos k, 2), (tyPos k, 4), (slotBase k + 23, 2), (slotBase k + 13, 1)]

/-- The places of a region (R239). -/
def regionSpans (k : Nat) : List (Nat × Nat) := [(slotBase k + 19, 4), (slotBase k + 16, 3), (slotBase k + 14, 2)]

/-- The places of a direct Align1 source (R240). -/
def srcDirectSpans (k : Nat) : List (Nat × Nat) :=
  srcCommonSpans k ++ [(slotBase k + 5, 8), (slotBase k, 5)] ++ regionSpans k

/-- The places of an indirect source (R241). -/
def srcIndirectSpans (k : Nat) : List (Nat × Nat) :=
  srcCommonSpans k ++ [(slotBase k + 9, 4), (slotBase k, 9), (slotBase k + 31, 1)] ++ regionSpans k

/-- The places of an Align16 source (R242). -/
def srcAlign16Spans (k : Nat) : List (Nat × Nat) :=
  srcCommonSpans k ++
    [(slotBase k + 5, 8), (slotBase k + 4, 1), (slotBase k, 4), (slotBase k + 14, 2), (slotBase k + 16, 2)]

/-- The bits after the last field of slot 1, which hold nothing beside a register (R103). -/
def slotTail (k : Nat) : List (Nat × Nat) := if k = 0 then [] else [(121, 6)]

/-- An Align16 source: where it is legal, its fields (R242, R243). -/
theorem srcAlign16Direct_ok {cfg : Cfg} {base : Nat} {overlay : Bool} {s : RegOperand} {fs : List Field}
    (h : srcAlign16Direct cfg base overlay s = .ok fs) :
    fs = [⟨base + 13, 1, 0⟩, ⟨base + 5, 8, Layout.registerNumber cfg s⟩,
      ⟨base + 4, 1, Layout.offsetInRegister s / 16⟩,
      ⟨base, 4, match s.specialAcc with
        | some a => (cfg.specialAcc.code a).toNat
        | none => (s.region.channelSelect?.getD identitySelect).c0.code |||
            (s.region.channelSelect?.getD identitySelect).c1.code <<< 2⟩,
      ⟨base + 14, 2, (s.region.channelSelect?.getD identitySelect).c2.code⟩,
      ⟨base + 16, 2, (s.region.channelSelect?.getD identitySelect).c3.code⟩] := by
  simp only [srcAlign16Direct, bind_eq_ok, checkRegister_eq_ok, exists_const, Except.ok.injEq] at h
  obtain ⟨hreg, -, -, -, -, hfields⟩ := h
  rw [regNumField_eq hreg, subRegHighBit_eq hreg] at hfields
  exact hfields.symm

/-- The first two channels of an Align16 source, in one field of the encoder (R242). -/
theorem channelPair_reads {w : NativeWord} {base : Nat} {c c' : Channel}
    (h : unpack w base 4 = c.code ||| c'.code <<< 2) : unpack w base 2 = c.code ∧ unpack w (base + 2) 2 = c'.code := by
  have hlow : unpack w base 2 = unpack w base 4 / 2 ^ 0 % 2 ^ 2 := unpack_part w base (show 0 + 2 ≤ 4 by decide)
  have hhigh : unpack w (base + 2) 2 = unpack w base 4 / 2 ^ 2 % 2 ^ 2 := unpack_part w base (by decide)
  rw [hlow, hhigh, h]
  cases c <;> cases c' <;> decide

/-- Beside a register the bits of a slot that no field takes are 0 (R102, R103). -/
theorem slotReservedReads_of_zero {w : NativeWord} {k : Nat} (hk : k = 0 ∨ k = 1) {s : RegOperand}
    (hlast : s.addressing = .direct → unpack w (slotBase k + 31) 1 = 0)
    (htail : ∀ q ∈ slotTail k, unpack w q.1 q.2 = 0) : Layout.slotReservedReads k (.reg s) w = true := by
  have htail' : (k == 0 || Layout.reads w 121 6 0) = true := by
    obtain rfl | rfl := hk
    · rfl
    · exact beq_iff_eq.mpr (htail (121, 6) (by decide))
  cases hs : s.addressing with
  | direct =>
    have hlast' : unpack w (95 + 32 * k) 1 = 0 := by
      rw [show 95 + 32 * k = slotBase k + 31 by unfold slotBase; omega, hlast hs]
    simp only [Layout.slotReservedReads, hs, htail', Bool.and_true]
    exact beq_iff_eq.mpr hlast'
  | indirect a o => simp only [Layout.slotReservedReads, hs, htail', Bool.and_self]

theorem srcReg_laid {cfg : Cfg} {mode : AccessMode} {region : SrcRegion} {overlay : Bool} {k : Nat} (hk : k = 0 ∨ k = 1)
    {s : RegOperand} {fs : List Field} (h : encodeSrcReg cfg mode region overlay k s = .ok fs) :
    Laid (slotArea k) fs fun w =>
      Layout.srcRegReads cfg mode region k s w && Layout.slotReservedReads k (.reg s) w := by
  obtain ⟨ty, rest, hty, rfl, ⟨rfl, hs, hrest⟩ | ⟨a, o, rfl, hs, hrest⟩ | ⟨rfl, hs, hrest⟩⟩ := encodeSrcReg_parts h
  · obtain ⟨-, rs, hrs, rfl⟩ := srcAlign1Direct_ok hrest
    obtain ⟨vs, wd, hz, hvs, hwd, hhz, rfl⟩ := regionFields_eq_ok.mp hrs
    refine .of_spans (spans := srcDirectSpans k) (rest := [(slotBase k + 31, 1)] ++ slotTail k) rfl
      (by obtain rfl | rfl := hk <;> decide) fun w hw hzero => ?_
    obtain ⟨hlast, htail⟩ := List.forall_mem_append.mp hzero
    have hreserved : Layout.slotReservedReads k (.reg s) w = true :=
      slotReservedReads_of_zero hk (fun _ => hlast _ (List.mem_singleton_self _)) htail
    simp only [List.cons_append, List.nil_append, holds_cons, rfPos, tyPos, slotBase, fileCode_eq] at hw
    simp [Layout.srcRegReads, Layout.regionReads, Layout.reads, Layout.readsCode, Layout.readsNat, hs, hty, hvs, hwd,
      hhz, hw, hreserved]
  · obtain ⟨hrange, rs, hrs, rfl⟩ := srcAlign1Indirect_ok hrest
    obtain ⟨vs, wd, hz, hvs, hwd, hhz, rfl⟩ := regionFields_eq_ok.mp hrs
    refine .of_spans (spans := srcIndirectSpans k) (rest := slotTail k) rfl
      (by obtain rfl | rfl := hk <;> decide) fun w hw htail => ?_
    have hreserved : Layout.slotReservedReads k (.reg s) w = true :=
      slotReservedReads_of_zero hk (fun hdirect => by simp [hs] at hdirect) htail
    simp only [List.cons_append, List.nil_append, holds_cons, rfPos, tyPos, slotBase, fileCode_eq] at hw
    simp [Layout.srcRegReads, Layout.regionReads, Layout.reads, Layout.readsCode, Layout.readsNat, hs, hty, hvs, hwd,
      hhz, hw, hreserved, signed_offsetFields hrange]
  · obtain rfl := srcAlign16Direct_ok hrest
    refine .of_spans (spans := srcAlign16Spans k)
      (rest := [(slotBase k + 31, 1), (slotBase k + 18, 1), (slotBase k + 19, 4)] ++ slotTail k) rfl
      (by obtain rfl | rfl := hk <;> decide) fun w hw hzero => ?_
    obtain ⟨hrest, htail⟩ := List.forall_mem_append.mp hzero
    simp only [List.forall_mem_cons] at hrest
    obtain ⟨hlast, h18, h19, -⟩ := hrest
    have hreserved : Layout.slotReservedReads k (.reg s) w = true := slotReservedReads_of_zero hk (fun _ => hlast) htail
    simp only [slotBase] at h18 h19
    simp only [holds_cons, rfPos, tyPos, slotBase, fileCode_eq] at hw
    obtain ⟨hfile, htype, hmod, hmode, hnum, hsub, hlow, hc2, hc3, -⟩ := hw
    cases hacc : s.specialAcc with
    | some a =>
      simp only [hacc] at hlow
      simp [Layout.srcRegReads, Layout.reads, Layout.readsCode, hs, hty, hacc, hfile, htype, hmod, hmode, hnum, hsub,
        hlow, hc2, hc3, h18, h19, hreserved]
    | none =>
      simp only [hacc] at hlow
      simp [Layout.srcRegReads, Layout.reads, Layout.readsCode, hs, hty, hacc, hfile, htype, hmod, hmode, hnum, hsub,
        channelPair_reads hlow, hc2, hc3, h18, h19, hreserved]

/-! ## Immediates (R104, R245, R246) -/

/-- The bits that source 0 has to itself in a one-source word: its own slot and that of source 1 (R104, R105). -/
def soleArea : List (Nat × Nat) := [(41, 6), (64, 64)]

theorem replicate16_halves {h : Nat} (hlt : h < 2 ^ 16) {w : NativeWord} (hw : unpack w 96 32 = replicate16 h) :
    unpack w 96 16 = h ∧ unpack w 112 16 = h := by
  have hsum : replicate16 h = h + 2 ^ 16 * h := (Nat.or_comm _ _).trans (or_shiftLeft_eq_add hlt h)
  have hlow : unpack w 96 16 = unpack w 96 32 / 2 ^ 0 % 2 ^ 16 := unpack_part w 96 (show 0 + 16 ≤ 32 by decide)
  have hhigh : unpack w 112 16 = unpack w 96 32 / 2 ^ 16 % 2 ^ 16 := unpack_part w 96 (a := 16) (by decide)
  rw [hlow, hhigh, hw, hsum, pow_zero, Nat.div_one, Nat.add_mul_mod_self_left, Nat.add_mul_div_left _ _ (by decide),
    Nat.div_eq_of_lt hlt, Nat.zero_add, Nat.mod_eq_of_lt hlt]
  exact ⟨rfl, rfl⟩

/-- The value field of an immediate that holds the immediate's bits (R245, R246). -/
theorem immValueReads_of_holds {i : ImmOperand} {v : Nat} {w : NativeWord} (h : immBits i = .ok v)
    (hw : Holds w [if i.type.is64 then ⟨64, 64, v⟩ else ⟨96, 32, v⟩]) : Layout.immValueReads i w = true := by
  obtain ⟨value, bitWidth, type⟩ := i
  unfold immBits at h
  cases type <;>
    simp only [DataType.is64, Bool.false_eq_true, if_true, if_false, holds_cons, holds_nil, and_true] at h hw
  case d | q =>
    obtain ⟨x, rfl, hfits, rfl⟩ := signedValue_eq_ok.mp h
    simp [Layout.immValueReads, hw, signed_twos (by decide) hfits]
  case ud | uq =>
    obtain ⟨x, rfl, hpos, -, rfl⟩ := unsignedValue_eq_ok.mp h
    simp [Layout.immValueReads, hw, hpos]
  case f | df =>
    obtain ⟨x, rfl, hbits⟩ := floatValue_eq_ok.mp h
    simp [Layout.immValueReads, hw, hbits]
  case w =>
    obtain ⟨half, hhalf, rfl⟩ := replicate16_eq_ok.mp h
    obtain ⟨x, rfl, hfits, rfl⟩ := signedValue_eq_ok.mp hhalf
    simp [Layout.immValueReads, replicate16_halves (twos_lt 16 x) hw, signed_twos (by decide) hfits]
  case uw =>
    obtain ⟨half, hhalf, rfl⟩ := replicate16_eq_ok.mp h
    have hlt := unsignedValue_lt hhalf
    obtain ⟨x, rfl, hpos, -, rfl⟩ := unsignedValue_eq_ok.mp hhalf
    simp [Layout.immValueReads, replicate16_halves hlt hw, hpos]
  case hf =>
    obtain ⟨half, hhalf, rfl⟩ := replicate16_eq_ok.mp h
    have hlt := floatValue_lt hhalf
    obtain ⟨x, rfl, hbits⟩ := floatValue_eq_ok.mp hhalf
    simp [Layout.immValueReads, replicate16_halves hlt hw, hbits]
  all_goals cases h

/-- All that an immediate can give in a slot (R104, R246). -/
theorem encodeImm_parts {cfg : Cfg} {sole : Bool} {k : Nat} {i : ImmOperand} {fs : List Field}
    (h : encodeImm cfg sole k i = .ok fs) :
    ∃ ty v, (k ≠ 0 ∨ sole = true) ∧ (i.type.is64 = false ∨ sole = true) ∧ cfg.immTypeCode i.type = some ty ∧
      immBits i = .ok v ∧ fs = [⟨rfPos k, 2, immFileCode⟩, ⟨tyPos k, 4, ty.toNat⟩,
        if i.type.is64 then ⟨64, 64, v⟩ else ⟨96, 32, v⟩] := by
  simp only [encodeImm, bind_eq_ok, require_eq_ok, entry_eq_ok, exists_const, Except.ok.injEq] at h
  obtain ⟨hslot, ty, hty, h64, -, v, hv, rfl⟩ := h
  exact ⟨ty, v, by simpa using hslot, by simpa using h64, hty, hv, rfl⟩

theorem immReads_of_holds {cfg : Cfg} {k : Nat} {i : ImmOperand} {ty : BitVec 4} {v : Nat} {w : NativeWord}
    (hty : cfg.immTypeCode i.type = some ty) (hv : immBits i = .ok v)
    (hw : Holds w [⟨rfPos k, 2, immFileCode⟩, ⟨tyPos k, 4, ty.toNat⟩,
      if i.type.is64 then ⟨64, 64, v⟩ else ⟨96, 32, v⟩]) : Layout.immReads cfg k i w = true := by
  obtain ⟨hfile, hw⟩ := holds_cons.mp hw
  obtain ⟨htype, hvalue⟩ := holds_cons.mp hw
  simp only [rfPos, tyPos, immFileCode] at hfile htype
  simp [Layout.immReads, Layout.reads, Layout.readsCode, hfile, hty, htype, immValueReads_of_holds hv hvalue]

/-! ## Sources -/

/-- A source of a two-source word (R102 to R104). -/
theorem pairSource_laid {cfg : Cfg} {ins : Instruction} {k : Nat} (hk : k = 0 ∨ k = 1) {s : Operand} {fs : List Field}
    (h : encodeSrc cfg ins false k s = .ok fs) :
    Laid (slotArea k) fs fun w => Layout.srcReads cfg ins k s w && Layout.slotReservedReads k s w := by
  cases s with
  | reg r => exact srcReg_laid hk h
  | imm i =>
    obtain ⟨ty, v, hslot, h64, hty, hv, rfl⟩ := encodeImm_parts h
    obtain rfl : k = 1 := hk.resolve_left (by simpa using hslot)
    have h32 : i.type.is64 = false := by simpa using h64
    refine .of_spans (spans := [(89, 2), (91, 4), (96, 32)]) (rest := []) (by simp [h32, span, rfPos, tyPos])
      (by decide) fun w hw _ => ?_
    rw [Layout.srcReads, immReads_of_holds hty hv hw]
    rfl

/-- A register alone leaves source 1 all 0 (R105). -/
theorem noSource1_laid :
    Laid [(89, 6), (96, 32)] [] fun w => Layout.reads w 89 6 0 && Layout.reads w 96 32 0 := by
  refine .of_spans (spans := []) (rest := [(89, 6), (96, 32)]) rfl (by decide) fun w _ hzero => ?_
  simp only [List.forall_mem_cons] at hzero
  obtain ⟨h89, h96, -⟩ := hzero
  simp only [Layout.reads, h89, h96, beq_self_eq_true, Bool.and_self]

/-- The source of a one-source word, with all of source 1 (R102, R104, R105). -/
theorem soleSource_laid {cfg : Cfg} {ins : Instruction} {s : Operand} {fs : List Field}
    (h : encodeSrc cfg ins true 0 s = .ok fs) : Laid soleArea fs (Layout.soleReads cfg ins s) := by
  cases s with
  | reg r =>
    have hwhole := ((srcReg_laid (.inl rfl) h).append noSource1_laid (by decide)).widen
      (by decide : ∀ a ∈ slotArea 0 ++ [(89, 6), (96, 32)], Within soleArea a)
    rwa [List.append_nil] at hwhole
  | imm i =>
    obtain ⟨ty, v, -, -, hty, hv, rfl⟩ := encodeImm_parts h
    cases h64 : i.type.is64 with
    | true =>
      refine .of_spans (spans := [(41, 2), (43, 4), (64, 64)]) (rest := []) rfl (by decide) fun w hw _ => ?_
      have hreads := immReads_of_holds hty hv (by rwa [h64])
      simp only [Layout.soleReads, Layout.srcReads, Layout.slotReservedReads, hreads, h64, Bool.true_or, Bool.and_self]
    | false =>
      refine .of_spans (spans := [(41, 2), (43, 4), (96, 32)]) (rest := [(64, 32)]) rfl (by decide) fun w hw hzero => ?_
      have hreads := immReads_of_holds hty hv (by rwa [h64])
      have h64' : unpack w 64 32 = 0 := hzero (64, 32) (by decide)
      simp only [Layout.soleReads, Layout.srcReads, Layout.slotReservedReads, hreads, Layout.reads, h64',
        beq_self_eq_true, Bool.or_true, Bool.and_self]

/-! ## Operands of one- and two-source instructions (R192, R194) -/

theorem dstOp_laid {cfg : Cfg} {ins : Instruction} {d : Operand} {fs : List Field}
    (h : encodeDst cfg ins.body.accessMode d = .ok fs) : Laid dstArea fs (Layout.dstOpReads cfg ins d) := by
  cases d with
  | imm i => cases h
  | reg r => exact dst_laid h

theorem oneSrc_laid {cfg : Cfg} {ins : Instruction} {d s0 : Operand} {fs : List Field}
    (h : encodeOneSrc cfg ins d s0 = .ok fs) :
    Laid (dstArea ++ soleArea) fs fun w => Layout.dstOpReads cfg ins d w && Layout.soleReads cfg ins s0 w := by
  simp only [encodeOneSrc, bind_eq_ok, Except.ok.injEq] at h
  obtain ⟨fd, hfd, f0, hf0, rfl⟩ := h
  exact (dstOp_laid hfd).append (soleSource_laid hf0) (by decide)

theorem twoSrc_laid {cfg : Cfg} {ins : Instruction} {d s0 s1 : Operand} {fs : List Field}
    (h : encodeTwoSrc cfg ins d s0 s1 = .ok fs) :
    Laid (dstArea ++ soleArea) fs fun w => Layout.dstOpReads cfg ins d w && Layout.pairReads cfg ins s0 s1 w := by
  simp only [encodeTwoSrc, bind_eq_ok, Except.ok.injEq] at h
  obtain ⟨fd, hfd, f0, hf0, f1, hf1, rfl⟩ := h
  have hsources := ((pairSource_laid (.inl rfl) hf0).append (pairSource_laid (.inr rfl) hf1) (by decide)).widen
    (by decide : ∀ a ∈ slotArea 0 ++ slotArea 1, Within soleArea a)
  have hwhole := (dstOp_laid hfd).append hsources (by decide)
  rw [← List.append_assoc] at hwhole
  simpa only [Layout.pairReads, Bool.and_assoc] using hwhole

end Sys2Proof.Machine
end

section
/-! PROOFS. The words of the one- and two-source instructions and of math (30_encoding.md R100 to R105,
40_header_dispatch.md R192 to R202), and what policy `Must` makes of them (45_compaction.md R370). -/

namespace Sys2Proof.Machine

/-! ## Header (R100) -/

/-- The bits of the header but bits 51:48 (R100). -/
def headerArea : List (Nat × Nat) := [(0, 22), (29, 6), (52, 3)]

section
variable {cfg : Cfg} {ins : Instruction} {opc : BitVec 7} {fmt : FormatTag} {back : Bool} {header : List Field}
  (hopc : cfg.opcode ins.opcode = some opc) (hhead : encodeHeader cfg opc fmt ins back = .ok header)
include hopc hhead

/-- A header with the condition modifier in bits 51:48 (R180). -/
theorem header_laid_condMod (hreused : condModReused ins.opcode = false) :
    Laid (headerArea ++ [(48, 4)]) header fun w =>
      Layout.headerReads cfg ins back w && Layout.condModReads cfg ins w := by
  refine .of_spans (rest := [(7, 1)]) (encodeHeader_spans hreused hhead) (by decide) fun w hw hzero => ?_
  have hreads := headerReads_of_holds hopc hhead hw (hzero (7, 1) (by decide))
  obtain ⟨flags, cond, size, -, hcond, -, rfl⟩ := encodeHeader_parts hhead
  obtain ⟨v, rfl, hcondReads⟩ := condModFields_ok hreused hcond
  simp only [holds_append, holds_cons] at hw
  obtain ⟨-, h48, -⟩ := hw
  rw [hreads, hcondReads, h48, beq_self_eq_true, Bool.and_self]

/-- A header that leaves bits 51:48 to the operands (R180, R202). -/
theorem header_laid_reused (hreused : condModReused ins.opcode = true) :
    Laid headerArea header (Layout.headerReads cfg ins back) :=
  .of_spans (rest := [(7, 1)]) (encodeHeader_spans_reused hreused hhead) (by decide)
    fun _ hw hzero => headerReads_of_holds hopc hhead hw (hzero (7, 1) (by decide))

end

theorem mathPatch_laid {cfg : Cfg} {fn : MathFn} {fs : List Field} (h : mathPatch cfg fn = .ok fs) :
    Laid [(48, 4)] fs fun w => Layout.readsCode w 48 4 (cfg.mathFc.lookup fn) := by
  obtain ⟨code, hcode, rfl⟩ := mathPatch_eq_ok.mp h
  refine .of_spans (spans := [(48, 4)]) (rest := []) rfl (by decide) fun w hw _ => ?_
  simp only [holds_cons] at hw
  simp [Layout.readsCode, hcode, hw]

/-! ## The native word (R165) -/

/-- The word of a record whose fields are laid out. -/
theorem encodeNative_of_laid {cfg : Cfg} {back : Bool} {ins : Instruction} {shape : Shape} {fields : List Field}
    {area : List (Nat × Nat)} {reads : NativeWord → Bool} (hfields : encodeFields cfg back ins = .ok (shape, fields))
    (hpatch : ∀ w, applySendsPatch cfg shape w = w) (hlaid : Laid area fields reads) :
    ∃ w, encodeNative cfg back ins = .ok (shape.format, w) ∧ reads w = true := by
  obtain ⟨w, hnative, hword⟩ := encodeNative_wordOf hfields hpatch hlaid.apart
  exact ⟨w, hnative, hlaid.reads_of_wordOf hword⟩

/-- What the operand fields of a record of the two-source layout are: the shape's, and with the header's fields they are
laid out as the record's header and operands. -/
structure OperandsLaid (cfg : Cfg) (ins : Instruction) (shape : Shape) (operands : List Field) : Prop where
  selects : select ins = .ok shape
  encodes : encodeOperands cfg ins shape = .ok operands
  unpatched : ∀ w, applySendsPatch cfg shape w = w
  laid : ∀ {opc fmt back header}, cfg.opcode ins.opcode = some opc → encodeHeader cfg opc fmt ins back = .ok header →
    ∃ area, Laid area (header ++ operands) fun w => Layout.headerReads cfg ins back w && Layout.operandsRead cfg ins w

/-- Operands beside a header that holds the condition modifier. -/
theorem laid_condMod {cfg : Cfg} {ins : Instruction} {opc : BitVec 7} {fmt : FormatTag} {back : Bool}
    {header operands : List Field} {reads : NativeWord → Bool} (hopc : cfg.opcode ins.opcode = some opc)
    (hhead : encodeHeader cfg opc fmt ins back = .ok header) (hreused : condModReused ins.opcode = false)
    (hlaid : Laid (dstArea ++ soleArea) operands reads)
    (hreads : ∀ w, Layout.operandsRead cfg ins w = (Layout.condModReads cfg ins w && reads w)) :
    ∃ area, Laid area (header ++ operands) fun w =>
      Layout.headerReads cfg ins back w && Layout.operandsRead cfg ins w := by
  have hwhole := (header_laid_condMod hopc hhead hreused).append hlaid (by decide)
  simp only [Bool.and_assoc, ← hreads] at hwhole
  exact ⟨_, hwhole⟩

/-- Operands, and a function code where the condition modifier would be (R202). -/
theorem laid_math {cfg : Cfg} {ins : Instruction} {opc : BitVec 7} {fmt : FormatTag} {back : Bool} {fn : MathFn}
    {header operands patch : List Field} {reads : NativeWord → Bool} (hopc : cfg.opcode ins.opcode = some opc)
    (hhead : encodeHeader cfg opc fmt ins back = .ok header) (hreused : condModReused ins.opcode = true)
    (hlaid : Laid (dstArea ++ soleArea) operands reads) (hpatch : mathPatch cfg fn = .ok patch)
    (hreads : ∀ w, Layout.operandsRead cfg ins w = (Layout.readsCode w 48 4 (cfg.mathFc.lookup fn) && reads w)) :
    ∃ area, Laid area (header ++ (operands ++ patch)) fun w =>
      Layout.headerReads cfg ins back w && Layout.operandsRead cfg ins w := by
  have hwhole := (header_laid_reused hopc hhead hreused).append (hlaid.append (mathPatch_laid hpatch) (by decide))
    (by decide)
  simp only [Bool.and_comm (reads _), ← hreads] at hwhole
  exact ⟨_, hwhole⟩

theorem condModReused_of_class {m : Mnemonic} :
    (m.opClass = .oneSrc ∨ m.opClass = .twoSrc → condModReused m = false) ∧
    (m.opClass = .math → condModReused m = true) := by
  cases m <;> decide

/-- mov and not (R192, R193). -/
theorem operandsLaid_one {cfg : Cfg} {ins : Instruction} (hclass : ins.opcode.opClass = .oneSrc)
    (h : Layout.operandsLegal cfg ins = true) : ∃ shape operands, OperandsLaid cfg ins shape operands := by
  obtain ⟨d, s0, hdst, hsrcs, hpayload, hlegal⟩ : ∃ d s0, ins.body.destination = some d ∧ ins.body.sources = [s0] ∧
      ins.body.payload = .none ∧ Layout.dstOpLegal cfg ins d = true ∧ Layout.srcLegal cfg ins true 0 s0 = true := by
    simp only [Layout.operandsLegal, hclass] at h
    split at h <;> simp_all
  obtain ⟨fs, hfs⟩ := encodeOneSrc_ok_iff.mpr hlegal
  exact ⟨.one d s0, fs,
    { selects := by simp [select, hclass, hdst, hsrcs, hpayload]
      encodes := hfs
      unpatched := fun _ => rfl
      laid := fun hopc hhead => laid_condMod hopc hhead (condModReused_of_class.1 (.inl hclass)) (oneSrc_laid hfs)
        fun w => by simp only [Layout.operandsRead, hclass, hdst, hsrcs, Bool.and_assoc] }⟩

/-- The two-source instructions (R194 to R201). -/
theorem operandsLaid_two {cfg : Cfg} {ins : Instruction} (hclass : ins.opcode.opClass = .twoSrc)
    (h : Layout.operandsLegal cfg ins = true) : ∃ shape operands, OperandsLaid cfg ins shape operands := by
  obtain ⟨d, s0, s1, hdst, hsrcs, hpayload, hlegal⟩ : ∃ d s0 s1, ins.body.destination = some d ∧
      ins.body.sources = [s0, s1] ∧ ins.body.payload = .none ∧ Layout.dstOpLegal cfg ins d = true ∧
      Layout.srcLegal cfg ins false 0 s0 = true ∧ Layout.srcLegal cfg ins false 1 s1 = true := by
    simp only [Layout.operandsLegal, hclass] at h
    split at h <;> simp_all
  obtain ⟨fs, hfs⟩ := encodeTwoSrc_ok_iff.mpr hlegal
  exact ⟨.two d s0 s1, fs,
    { selects := by simp [select, hclass, hdst, hsrcs, hpayload]
      encodes := hfs
      unpatched := fun _ => rfl
      laid := fun hopc hhead => laid_condMod hopc hhead (condModReused_of_class.1 (.inr hclass)) (twoSrc_laid hfs)
        fun w => by simp only [Layout.operandsRead, hclass, hdst, hsrcs, Bool.and_assoc] }⟩

/-- A legal math record: its shape, by the number of sources of its function (R163, R164). -/
theorem math_of_legal {cfg : Cfg} {ins : Instruction} (hclass : ins.opcode.opClass = .math)
    (h : Layout.operandsLegal cfg ins = true) :
    ∃ fn code d, ins.body.payload = .math fn ∧ cfg.mathFc.lookup fn = some code ∧ ins.body.destination = some d ∧
      Layout.dstOpLegal cfg ins d = true ∧
      ((∃ s0, ins.body.sources = [s0] ∧ fn.sources = 1 ∧ Layout.srcLegal cfg ins true 0 s0 = true) ∨
       ∃ s0 s1, ins.body.sources = [s0, s1] ∧ fn.sources = 2 ∧ Layout.srcLegal cfg ins false 0 s0 = true ∧
        Layout.srcLegal cfg ins false 1 s1 = true) := by
  simp only [Layout.operandsLegal, hclass] at h
  split at h <;> simp_all [Option.isSome_iff_exists]

/-- math (R202). -/
theorem operandsLaid_math {cfg : Cfg} {ins : Instruction} (hclass : ins.opcode.opClass = .math)
    (h : Layout.operandsLegal cfg ins = true) : ∃ shape operands, OperandsLaid cfg ins shape operands := by
  obtain ⟨fn, code, d, hpayload, hcode, hdst, hdstLegal, ⟨s0, hsrcs, hn, h0⟩ | ⟨s0, s1, hsrcs, hn, h0, h1⟩⟩ :=
    math_of_legal hclass h
  all_goals have hpatch : mathPatch cfg fn = .ok [⟨48, 4, code.toNat⟩] := mathPatch_eq_ok.mpr ⟨code, hcode, rfl⟩
  · obtain ⟨fs, hfs⟩ := encodeOneSrc_ok_iff.mpr ⟨hdstLegal, h0⟩
    exact ⟨.mathOne fn d s0, fs ++ [⟨48, 4, code.toNat⟩],
      { selects := by simp [select, mathShape, hclass, hdst, hsrcs, hpayload, hn]
        encodes := by simp only [encodeOperands, hfs, hpatch, ok_bind]
        unpatched := fun _ => rfl
        laid := fun hopc hhead => laid_math hopc hhead (condModReused_of_class.2 hclass) (oneSrc_laid hfs) hpatch
          fun w => by simp only [Layout.operandsRead, hclass, hdst, hsrcs, hpayload, Bool.and_assoc] }⟩
  · obtain ⟨fs, hfs⟩ := encodeTwoSrc_ok_iff.mpr ⟨hdstLegal, h0, h1⟩
    exact ⟨.mathTwo fn d s0 s1, fs ++ [⟨48, 4, code.toNat⟩],
      { selects := by simp [select, mathShape, hclass, hdst, hsrcs, hpayload, hn]
        encodes := by simp only [encodeOperands, hfs, hpatch, ok_bind]
        unpatched := fun _ => rfl
        laid := fun hopc hhead => laid_math hopc hhead (condModReused_of_class.2 hclass) (twoSrc_laid hfs) hpatch
          fun w => by simp only [Layout.operandsRead, hclass, hdst, hsrcs, hpayload, Bool.and_assoc] }⟩

/-- The native word of a legal record of the two-source layout reads as the record (R100 to R105, R165). -/
theorem operands_wordReads {cfg : Cfg} {ins : Instruction} (back : Bool)
    (hclass : ins.opcode.opClass = .oneSrc ∨ ins.opcode.opClass = .twoSrc ∨ ins.opcode.opClass = .math)
    (hlegal : Layout.recordLegal cfg ins = true) :
    ∃ w, encodeNative cfg back ins = .ok (Layout.formatOf ins, w) ∧
      (Layout.headerReads cfg ins back w && Layout.operandsRead cfg ins w) = true := by
  simp only [Layout.recordLegal, Bool.and_eq_true] at hlegal
  obtain ⟨⟨hopcode, hheaderLegal⟩, hoperands⟩ := hlegal
  obtain ⟨shape, operands, hops⟩ : ∃ shape operands, OperandsLaid cfg ins shape operands := by
    obtain hclass | hclass | hclass := hclass
    · exact operandsLaid_one hclass hoperands
    · exact operandsLaid_two hclass hoperands
    · exact operandsLaid_math hclass hoperands
  have hformat := (select_fits hops.selects).format
  obtain ⟨opc, hopc, hcheck⟩ := checkOpcode_of_legal hopcode
  obtain ⟨header, hhead⟩ := encodeHeader_ok_iff (cfg := cfg) (opc := opc) (back := back).mpr hheaderLegal
  have hfields : encodeFields cfg back ins = .ok (shape, header ++ operands) := by
    simp only [encodeFields, hcheck, hops.selects, hformat, hhead, hops.encodes, ok_bind]
  obtain ⟨area, hlaid⟩ := hops.laid hopc hhead
  exact hformat ▸ encodeNative_of_laid hfields hops.unpatched hlaid

/-! ## Instr commands that are no branch -/

section
variable {s : State} {i : Instr} {w : NativeWord} (haccepts : Layout.accepts s i = true)
  (hbranch : i.mnemonic.isControlFlow = false)
  (hnative : encodeNative s.cfg false i.instruction = .ok (Layout.formatOf i.instruction, w))
include haccepts hbranch hnative

theorem encodeCommand_plain :
    encodeCommand s i.instruction i.defs =
      (compact s.cfg i.body.compactionPolicy (Layout.formatOf i.instruction) w >>= fun bits =>
        .ok (s.emit (Layout.labelsAfter s i.defs) (Layout.formatOf i.instruction) bits i.instruction false)) := by
  obtain ⟨-, hfresh, -⟩ := accepts_iff.mp haccepts
  have hback : backward (Layout.labelsAfter s i.defs) i.instruction = false := by
    simp [backward, Instr.instruction, hbranch]
  have hresolve (bits : EncodedWord) : resolveOrDefer s.cfg (Layout.labelsAfter s i.defs) s.pos i.instruction
      (Layout.formatOf i.instruction) bits = .ok (bits, false) := by
    simp [resolveOrDefer, Instr.instruction, hbranch]
  simp only [encodeCommand, enterLabels_fresh hfresh, hback, hnative, hresolve, ok_bind]
  rfl

/-- An accepted command that is no branch appends the word that the compaction engine answers (R165, R370). -/
theorem instrEmits_plain {bits : EncodedWord}
    (hcompact : compact s.cfg i.body.compactionPolicy (Layout.formatOf i.instruction) w = .ok bits) :
    s.instrEmits i bits false := by
  rw [State.instrEmits, exec_eq_instrCommand, instrCommand, if_pos (accepts_iff.mp haccepts).1,
    encodeCommand_plain haccepts hbranch hnative, hcompact, ok_bind, ← EncodedWord.units_eq]
  rfl

theorem instrFails_plain {c : Cause}
    (hcompact : compact s.cfg i.body.compactionPolicy (Layout.formatOf i.instruction) w = .error c) :
    s.instrFails i c.code := by
  refine instrFails_of_encodeCommand (accepts_iff.mp haccepts).1 ?_
  rw [encodeCommand_plain haccepts hbranch hnative, hcompact, error_bind]

end

/-! ## Policy `Must` (R370, R371) -/

/-- The formats of the two-source layout are compacted where the tables match (R371), and none is a branch's. -/
theorem eligible_of_class {ins : Instruction}
    (hclass : ins.opcode.opClass = .oneSrc ∨ ins.opcode.opClass = .twoSrc ∨ ins.opcode.opClass = .math) :
    eligible (Layout.formatOf ins) = true := by
  obtain hclass | hclass | hclass := hclass <;> simp only [Layout.formatOf, hclass]
  · rfl
  · rfl
  · split <;> rfl

/-- Settles O41: the native word of the record compacts, to a word that expands to it (O55), or is refused. -/
theorem mustCompactsOperands : Obligations.MustCompactsOperands := by
  intro i s hmnemonic haccepts hpolicy
  obtain ⟨-, -, hlegal⟩ := accepts_iff.mp haccepts
  have hclass : i.mnemonic.isControlFlow = false ∧ (i.instruction.opcode.opClass = .oneSrc ∨
      i.instruction.opcode.opClass = .twoSrc ∨ i.instruction.opcode.opClass = .math) := by
    change i.mnemonic.isControlFlow = false ∧
      (i.mnemonic.opClass = .oneSrc ∨ i.mnemonic.opClass = .twoSrc ∨ i.mnemonic.opClass = .math)
    generalize i.mnemonic = m at hmnemonic
    revert hmnemonic
    cases m <;> decide
  obtain ⟨hbranch, hclass⟩ := hclass
  obtain ⟨w, hnative, hreads⟩ := operands_wordReads false hclass hlegal
  refine ⟨w, hnative, hreads, ?_⟩
  obtain ⟨c, htry, hcompact⟩ | ⟨htry, hcompact⟩ := compact_must (cfg := s.cfg) (eligible_of_class hclass) w
  all_goals rw [← hpolicy] at hcompact
  · exact .inl ⟨c, instrEmits_plain haccepts hbranch hnative hcompact, expand_of_tryCompact htry⟩
  · exact .inr ⟨htry, instrFails_plain haccepts hbranch hnative hcompact⟩

end Sys2Proof.Machine
end

section
/-! PROOFS. What an error leaves of a session and how a command reports its outcome (60_exceptions.md R400, R403, R404,
R408), over the ways in which a step can end. -/

namespace Sys2Proof.Machine

/-! ## Every Instr command ends (R408) -/

/-- Settles O7: each of the three ends of an Instr command is a next state. -/
theorem execAnswers : Obligations.ExecAnswers := by
  intro i s
  rw [exec_eq_instrCommand]
  obtain ⟨-, hi⟩ | ⟨-, s', -, hi⟩ | ⟨-, c, -, hi⟩ := instrCommand_cases i.instruction i.defs s
  · exact ⟨_, hi⟩
  · exact ⟨_, hi⟩
  · exact ⟨_, hi⟩

/-! ## What an error keeps (R403, R404) -/

/-- An Instr command in `Scanning` that reports an error ended in it, with nothing of the step kept (R403). -/
theorem instrFails_of_report {i : Instr} {s t : State} {e : ErrCode} (hphase : s.phase = .scanning)
    (hexec : exec i s = .next t) (hreport : t.report = some (.error e)) : s.instrFails i e := by
  cases exec_ends hexec with
  | refused hphase' => exact absurd hphase hphase'
  | emitted => cases hreport
  | raised _ hcommand =>
    cases hreport
    exact instrFails_of_encodeCommand hphase hcommand

/-- A pass-2 step that aborts raised an error of the first deferred entry (R343, R403). -/
theorem raise_of_quietStep_aborted {s t : State} (hphase : s.phase = .finalizing) (hquiet : quietStep s = .next t)
    (haborted : t.phase = .aborted) :
    ∃ e rest c, s.deferred = e :: rest ∧ c.code.phase = .aborted ∧ t = s.raise e.index c := by
  cases quietStep_ends hquiet with
  | held hphase' => exact absurd hphase hphase'
  | done => cases haborted
  | resolved => cases hphase.symm.trans haborted
  | raised _ hqueue => exact ⟨_, _, _, hqueue, haborted, rfl⟩

/-- Settles O10. -/
theorem errorKeepsNothing : Obligations.ErrorKeepsNothing := by
  refine ⟨fun i s t e => instrFails_of_report, ?_, ?_⟩
  · intro s t hphase hquiet haborted
    obtain ⟨e, rest, c, hqueue, hcode, rfl⟩ := raise_of_quietStep_aborted hphase hquiet haborted
    exact ⟨e, rest, c, hqueue, by rw [State.raise, hcode]⟩
  · intro s hstopped
    exact if_neg (by obtain h | h := hstopped <;> simp [h])

/-- Settles O11: of the ways in which a step can end, only a refusal and the held state are open after an error. -/
theorem errorIsSticky : Obligations.ErrorIsSticky := by
  intro s t hstopped hreset hstep
  have hscanning : s.phase ≠ .scanning := by obtain h | h := hstopped <;> simp [h]
  have hfinalizing : s.phase ≠ .finalizing := by obtain h | h := hstopped <;> simp [h]
  cases step_ends hstep with
  | quiet _ hends =>
    cases hends with
    | held => rfl
    | done hphase | resolved hphase | raised hphase => exact absurd hphase hfinalizing
  | reset hin => exact absurd hin hreset
  | finalizing _ hphase => exact absurd hphase hscanning
  | endRefused => rfl
  | instr _ hends =>
    cases hends with
    | refused => rfl
    | emitted hphase | raised hphase => exact absurd hphase hscanning

/-! ## Outcomes (R400) -/

theorem ErrCode.number_ne_zero (e : ErrCode) : e.number ≠ 0 := by cases e <;> decide

/-- Settles O53: an Instr command in `Scanning` appends a word and reports OK, or raises an error and reports it. -/
theorem outcomeCodes : Obligations.OutcomeCodes := by
  refine ⟨rfl, rfl, rfl, rfl, rfl, fun i s t hphase hexec => ?_⟩
  cases exec_ends hexec with
  | refused hphase' => exact absurd hphase hphase'
  | emitted => exact ⟨.ok, 0, rfl, rfl, fun _ => ⟨rfl, hphase⟩, fun h => absurd rfl h⟩
  | @raised c =>
    exact ⟨.error c.code, c.code.number, rfl, rfl, fun h => absurd h c.code.number_ne_zero,
      fun _ => ⟨c.code, rfl, rfl, rfl⟩⟩

end Sys2Proof.Machine
end

section
/-! PROOFS. Which error each part of the encoder ends in (60_exceptions.md R400 to R402, R405): that of the first of the
demands of Sys2Proof/Machine/Layout.lean that does not hold. For each encoder its checks are listed in the order in
which it makes them; that this list and the one of Layout.lean have the same first error is then propositional. -/

namespace Sys2Proof.Machine

/-! ## The error of a list of demands -/

@[simp] theorem firstError_nil : Layout.firstError [] = none := rfl

@[simp] theorem firstError_cons (b : Bool) (e : ErrCode) (ds : List Layout.Demand) :
    Layout.firstError (⟨b, e⟩ :: ds) = if b then Layout.firstError ds else some e := rfl

@[simp] theorem firstError_elseUnsupported (b : Bool) (ds : List Layout.Demand) :
    Layout.firstError (Layout.elseUnsupported b :: ds) =
      if b then Layout.firstError ds else some .unsupportedOpcode := rfl

@[simp] theorem firstError_elseViolation (b : Bool) (ds : List Layout.Demand) :
    Layout.firstError (Layout.elseViolation b :: ds) =
      if b then Layout.firstError ds else some .invariantViolation := rfl

/-! ## The error of a sequence of checks -/

/-- The class of the error in which a part of the encoder ends, if it ends in one (R400). -/
def errorOf {α : Type} : Except Cause α → Option ErrCode
  | .ok _ => none
  | .error c => some c.code

/-- A part of the encoder ends in the error of the first of these demands that does not hold, and else without error. -/
def Raises {α : Type} (x : Except Cause α) (ds : List Layout.Demand) : Prop := errorOf x = Layout.firstError ds

theorem raises_ok {α : Type} (a : α) : Raises (.ok a) [] := rfl

theorem raises_error {α : Type} (c : Cause) : Raises (.error c : Except Cause α) [⟨false, c.code⟩] := rfl

theorem raises_require (b : Bool) (c : Cause) : Raises (require b c) [⟨b, c.code⟩] := by cases b <;> rfl

theorem raises_entry {α : Type} (o : Option α) (c : Cause) : Raises (entry o c) [⟨o.isSome, c.code⟩] := by
  cases o <;> rfl

section
variable {α β : Type} {x : Except Cause α} {ds es : List Layout.Demand}

theorem Raises.congr (h : Raises x ds) (hds : Layout.firstError ds = Layout.firstError es) : Raises x es :=
  Eq.trans h hds

theorem Raises.bind {f : α → Except Cause β} (hx : Raises x ds) (hf : ∀ a, x = .ok a → Raises (f a) es) :
    Raises (x >>= f) (ds ++ es) := by
  cases x with
  | error c =>
    have hc : Layout.firstError ds = some c.code := hx.symm
    simp [Raises, errorOf, hc]
  | ok a =>
    have hnone : Layout.firstError ds = none := hx.symm
    simpa [Raises, hnone] using hf a rfl

/-- What only puts fields together raises no error of its own. -/
theorem Raises.bind_ok {g : α → β} (hx : Raises x ds) : Raises (x >>= fun a => .ok (g a)) ds := by
  simpa using hx.bind fun a _ => raises_ok (g a)

/-- Checks that all raise the same error are one demand. -/
theorem raises_of_ok_iff {legal : Bool} {e : ErrCode} (hok : (∃ a, x = .ok a) ↔ legal = true)
    (herr : ErrorsAre e x) : Raises x [⟨legal, e⟩] := by
  cases x with
  | error c =>
    have hlegal : legal = false := by simpa using hok
    simp [Raises, errorOf, Layout.firstError, hlegal, herr c rfl]
  | ok a =>
    have hlegal : legal = true := by simpa using hok
    simp [Raises, errorOf, Layout.firstError, hlegal]

theorem Raises.ok_iff (h : Raises x ds) : (∃ a, x = .ok a) ↔ Layout.firstError ds = none := by
  rw [← h]
  cases x <;> simp [errorOf]

theorem Raises.error {e : ErrCode} (h : Raises x ds) (he : Layout.firstError ds = some e) :
    ∃ c, x = .error c ∧ c.code = e := by
  rw [← h] at he
  cases x with
  | error c => exact ⟨c, rfl, by simpa [errorOf] using he⟩
  | ok a => simp [errorOf] at he

end

theorem errorsAre_require {e : ErrCode} {b : Bool} {c : Cause} (hc : c.code = e) : ErrorsAre e (require b c) := by
  cases b <;> simp [hc]

theorem errorsAre_entry {α : Type} {e : ErrCode} {o : Option α} {c : Cause} (hc : c.code = e) :
    ErrorsAre e (entry o c) := by
  cases o <;> simp [hc]

theorem ErrorsAre.bind {α β : Type} {e : ErrCode} {x : Except Cause α} {f : α → Except Cause β} (hx : ErrorsAre e x)
    (hf : ∀ a, ErrorsAre e (f a)) : ErrorsAre e (x >>= f) :=
  errorsAre_bind.mpr ⟨hx, fun a _ => hf a⟩

theorem ErrorsAre.map {α β : Type} {e : ErrCode} {g : α → β} {x : Except Cause α} (hx : ErrorsAre e x) :
    ErrorsAre e (g <$> x) := by
  cases x with
  | error c => exact errorsAre_error.mpr (hx c rfl)
  | ok a => exact errorsAre_ok (g a)

/-! ## Register operands (R230, R231, R233, R239, R243) -/

theorem checkRegister_raises (cfg : Cfg) (r : RegOperand) :
    Raises (checkRegister cfg r) [Layout.elseViolation (Layout.registerLegal cfg r)] :=
  raises_of_ok_iff (by simp) <| (errorsAre_require rfl).bind fun _ => errorsAre_require rfl

theorem destinationStride_raises (d : RegOperand) :
    Raises (destinationStride d) [Layout.elseViolation ([1, 2, 4].contains (Layout.dstStride d))] :=
  raises_of_ok_iff destinationStride_ok_iff <|
    (errorsAre_require rfl).bind fun _ => errorsAre_entry rfl

theorem regionFields_raises (base : Nat) (r : SrcRegion) :
    Raises (regionFields base r) [Layout.elseViolation (Layout.regionLegal r)] :=
  raises_of_ok_iff regionFields_ok_iff <| (errorsAre_entry rfl).bind fun _ => (errorsAre_entry rfl).bind fun _ =>
    (errorsAre_entry rfl).bind fun _ => errorsAre_ok _

theorem checkSourceOverlay_raises (overlay : Bool) (s : RegOperand) :
    Raises (checkSourceOverlay overlay s)
      [Layout.elseUnsupported (s.specialAcc.isNone || overlay), Layout.elseViolation (Layout.accLegal s)] :=
  (raises_require _ .specialAccSource).bind fun _ _ => raises_require _ .specialAccOperand

/-! ## Destinations and sources of the two-source layout (R232 to R247) -/

theorem encodeDstReg_raises (cfg : Cfg) (mode : AccessMode) (d : RegOperand) :
    Raises (encodeDstReg cfg mode d) (Layout.dstRegDemands cfg mode d) := by
  have hty := raises_entry (cfg.regTypeCode d.dataType) .typeCode
  have hreg := checkRegister_raises cfg d
  have hacc := raises_require (d.specialAcc.isNone || specialAccOperandOk d) .specialAccOperand
  have hstride := destinationStride_raises d
  have hrep := raises_require (!d.repCtrl) .replicateControl
  cases mode <;> cases ha : d.addressing <;> simp only [encodeDstReg, ha]
  case align1.direct =>
    refine (hty.bind fun _ _ => (hreg.bind fun _ _ => hacc.bind fun _ _ => hstride.bind_ok).bind fun _ _ =>
      hrep.bind_ok).congr ?_
    simp [Layout.dstRegDemands, Layout.addressingCase, Layout.dstLegal, Layout.accLegal, specialAccOperandOk,
      Cause.code, ha]
    grind
  case align1.indirect a o =>
    refine (hty.bind fun _ _ => (hreg.bind fun _ _ => (raises_require _ .indirectRange).bind fun _ _ =>
      (raises_require _ .specialAccOperand).bind fun _ _ => hstride.bind_ok).bind fun _ _ => hrep.bind_ok).congr ?_
    simp [Layout.dstRegDemands, Layout.addressingCase, Layout.dstLegal, Layout.accLegal, indirectRangeOk_eq,
      Cause.code, ha]
    grind
  case align16.direct =>
    refine (hty.bind fun _ _ => (hreg.bind fun _ _ => (raises_require _ .align16Address).bind fun _ _ =>
      hacc.bind_ok).bind fun _ _ => hrep.bind_ok).congr ?_
    simp [Layout.dstRegDemands, Layout.addressingCase, Layout.dstLegal, Layout.accLegal, specialAccOperandOk,
      align16AddressOk_eq, Cause.code, ha]
    grind
  case align16.indirect a o =>
    refine (hty.bind fun _ _ => raises_error .align16Indirect).congr ?_
    simp [Layout.dstRegDemands, Layout.addressingCase, Cause.code, ha]

theorem encodeDst_raises (cfg : Cfg) (ins : Instruction) (d : Operand) :
    Raises (encodeDst cfg ins.body.accessMode d) (Layout.dstDemands cfg ins d) := by
  cases d with
  | imm i => exact raises_error .immediateDestination
  | reg r => exact encodeDstReg_raises cfg _ r

theorem encodeSrcReg_raises (cfg : Cfg) (mode : AccessMode) (region : SrcRegion) (overlay : Bool) (k : Nat)
    (s : RegOperand) :
    Raises (encodeSrcReg cfg mode region overlay k s) (Layout.srcRegDemands cfg mode region overlay s) := by
  have hty := raises_entry (cfg.regTypeCode s.dataType) .typeCode
  have hreg := checkRegister_raises cfg s
  have hregion := regionFields_raises (slotBase k) region
  have hoverlay := checkSourceOverlay_raises overlay s
  have hrep := raises_require (!s.repCtrl) .replicateControl
  cases mode <;> cases ha : s.addressing <;> simp only [encodeSrcReg, ha]
  case align1.direct =>
    refine (hty.bind fun _ _ => (hreg.bind fun _ _ => hregion.bind fun _ _ => hoverlay.bind_ok).bind fun _ _ =>
      hrep.bind_ok).congr ?_
    simp [Layout.srcRegDemands, Layout.addressingCase, Layout.srcRegLegal, Layout.srcPlaceLegal, Layout.accLegal,
      Cause.code, ha]
    grind
  case align1.indirect a o =>
    refine (hty.bind fun _ _ => (hreg.bind fun _ _ => (raises_require _ .indirectRange).bind fun _ _ =>
      hregion.bind fun _ _ => hoverlay.bind_ok).bind fun _ _ => hrep.bind_ok).congr ?_
    simp [Layout.srcRegDemands, Layout.addressingCase, Layout.srcRegLegal, Layout.srcPlaceLegal, Layout.accLegal,
      indirectRangeOk_eq, Cause.code, ha]
    grind
  case align16.direct =>
    refine (hty.bind fun _ _ => (hreg.bind fun _ _ => (raises_require _ .align16Address).bind fun _ _ =>
      hoverlay.bind_ok).bind fun _ _ => hrep.bind_ok).congr ?_
    simp [Layout.srcRegDemands, Layout.addressingCase, Layout.srcRegLegal, Layout.srcPlaceLegal, Layout.accLegal,
      align16AddressOk_eq, Cause.code, ha]
    grind
  case align16.indirect a o =>
    refine (hty.bind fun _ _ => raises_error .align16Indirect).congr ?_
    simp [Layout.srcRegDemands, Layout.addressingCase, Cause.code, ha]

/-! ## Immediates (R245 to R247, R278) -/

theorem signedValue_errors (n : Nat) (v : ImmValue) : ErrorsAre .invariantViolation (signedValue n v) := by
  cases v with
  | int i => exact (errorsAre_ok _).bind fun _ => (errorsAre_require rfl).bind fun _ => errorsAre_ok _
  | float f => exact errorsAre_error.mpr rfl

theorem unsignedValue_errors (n : Nat) (v : ImmValue) : ErrorsAre .invariantViolation (unsignedValue n v) := by
  cases v with
  | int i => exact (errorsAre_ok _).bind fun _ => (errorsAre_require rfl).bind fun _ => errorsAre_ok _
  | float f => exact errorsAre_error.mpr rfl

theorem floatValue_errors (e f : Nat) (v : ImmValue) : ErrorsAre .invariantViolation (floatValue e f v) := by
  cases v with
  | int i => exact errorsAre_error.mpr rfl
  | float x => exact errorsAre_entry rfl

/-- An immediate of a type with an `IMM_TYPE` code (R247) can fail by its value only. -/
theorem immBits_errors {cfg : Cfg} {i : ImmOperand} (h : (cfg.immTypeCode i.type).isSome = true) :
    ErrorsAre .invariantViolation (immBits i) := by
  cases ht : i.type <;> simp only [immBits, ht]
  case d | q => exact signedValue_errors _ _
  case ud | uq => exact unsignedValue_errors _ _
  case f | df => exact floatValue_errors _ _ _
  case w => exact (signedValue_errors _ _).map
  case uw => exact (unsignedValue_errors _ _).map
  case hf => exact (floatValue_errors _ _ _).map
  case ub | b | v | uv | vf => simp [Cfg.immTypeCode, DataType.immWidth, ht] at h

theorem encodeImm_raises (cfg : Cfg) (sole : Bool) (k : Nat) (i : ImmOperand) :
    Raises (encodeImm cfg sole k i)
      [Layout.elseViolation (k != 0 || sole), Layout.elseUnsupported (cfg.immTypeCode i.type).isSome,
        Layout.elseViolation (Layout.immLegal cfg sole k i)] := by
  have hslot := raises_require (k != 0 || sole) .immediateSource0
  have hty := raises_entry (cfg.immTypeCode i.type) .immediateType
  have h64 := raises_require (!i.type.is64 || sole) .immediate64Slot
  have hwidth := raises_require (i.type.immWidth == some i.bitWidth) .immediateWidth
  have hbits (ty : BitVec 4) (h : entry (cfg.immTypeCode i.type) .immediateType = .ok ty) :=
    raises_of_ok_iff (immBits_ok_iff (i := i)) (immBits_errors (cfg := cfg) (by simp [entry_eq_ok.mp h]))
  refine (hslot.bind fun _ _ => hty.bind fun ty hok => h64.bind fun _ _ => hwidth.bind fun _ _ =>
    (hbits ty hok).bind_ok).congr ?_
  simp [Layout.immLegal, Cause.code]
  grind

theorem encodeSrc_raises (cfg : Cfg) (ins : Instruction) (sole : Bool) (k : Nat) (s : Operand) :
    Raises (encodeSrc cfg ins sole k s) (Layout.srcDemands cfg ins sole k s) := by
  cases s with
  | imm i => exact encodeImm_raises cfg sole k i
  | reg r => exact encodeSrcReg_raises cfg _ _ _ k r

theorem encodeOneSrc_raises (cfg : Cfg) (ins : Instruction) (d s0 : Operand) :
    Raises (encodeOneSrc cfg ins d s0) (Layout.dstDemands cfg ins d ++ Layout.srcDemands cfg ins true 0 s0) :=
  (encodeDst_raises cfg ins d).bind fun _ _ => (encodeSrc_raises cfg ins true 0 s0).bind_ok

theorem encodeTwoSrc_raises (cfg : Cfg) (ins : Instruction) (d s0 s1 : Operand) :
    Raises (encodeTwoSrc cfg ins d s0 s1)
      (Layout.dstDemands cfg ins d ++ Layout.srcDemands cfg ins false 0 s0 ++
        Layout.srcDemands cfg ins false 1 s1) := by
  rw [List.append_assoc]
  exact (encodeDst_raises cfg ins d).bind fun _ _ => (encodeSrc_raises cfg ins false 0 s0).bind fun _ _ =>
    (encodeSrc_raises cfg ins false 1 s1).bind_ok

theorem mathPatch_raises (cfg : Cfg) (fn : MathFn) :
    Raises (mathPatch cfg fn) [Layout.elseUnsupported (cfg.mathFc.lookup fn).isSome] :=
  (raises_entry _ .mathFunction).bind_ok

/-! ## wait and call (R248, R353) -/

theorem dstLegal_direct {cfg : Cfg} {d : RegOperand} (hdirect : d.addressing = .direct)
    (hstride : Layout.dstStride d = 1) :
    Layout.dstLegal cfg .align1 d =
      ((cfg.regTypeCode d.dataType).isSome && Layout.registerLegal cfg d && Layout.accLegal d && !d.repCtrl) := by
  simp [Layout.dstLegal, hdirect, hstride]

theorem srcPlaceLegal_scalar {cfg : Cfg} {r : RegOperand} (hdirect : r.addressing = .direct) :
    Layout.srcPlaceLegal cfg .align1 scalarRegion r = Layout.registerLegal cfg r := by
  simp [Layout.srcPlaceLegal, Layout.regionLegal, scalarRegion, hdirect]

theorem encodeWait_raises (cfg : Cfg) (s : Operand) : Raises (encodeWait cfg s) (Layout.waitDemands cfg s) := by
  cases s with
  | imm i => exact raises_error .waitOperand
  | reg r =>
    refine ((raises_require _ .waitOperand).bind fun _ _ => (encodeDstReg_raises cfg .align1 _).bind fun _ _ =>
      (encodeSrcReg_raises cfg .align1 scalarRegion false 0 r).bind_ok).congr ?_
    by_cases ha : r.addressing = .direct
    · have hdst : Layout.dstLegal cfg .align1 { r with region := .align1 none none (some 1) } =
          ((cfg.regTypeCode r.dataType).isSome && Layout.registerLegal cfg r && Layout.accLegal r && !r.repCtrl) :=
        dstLegal_direct ha rfl
      simp only [Layout.dstRegDemands, hdst]
      simp [Layout.waitDemands, Layout.srcRegDemands, Layout.addressingCase, Layout.srcRegLegal,
        srcPlaceLegal_scalar ha, waitOperandOk, Cause.code, ha, Nat.lt_succ_iff]
      grind
    · simp [Layout.waitDemands, waitOperandOk, Cause.code, ha]

theorem encodeCall_raises (cfg : Cfg) (d : Operand) : Raises (encodeCall cfg d) (Layout.callDemands cfg d) := by
  cases d with
  | imm i => exact raises_error .immediateDestination
  | reg r =>
    exact (raises_require _ .callDestination).bind fun _ _ => (encodeDstReg_raises cfg .align1 r).bind_ok

/-! ## Three sources (R270 to R279) -/

theorem checkClasses_raises (m : Mnemonic) (d s0 s1 s2 : Operand) :
    Raises (checkClasses m d s0 s1 s2) [Layout.elseViolation (Layout.classesLegal m d s0 s1 s2)] :=
  raises_of_ok_iff (by simp [checkClasses_eq_ok]) <|
    (errorsAre_require rfl).bind fun _ => errorsAre_require rfl

theorem directRegister_bind {α : Type} (r : RegOperand) (c : Cause) (f : RegOperand → Except Cause α) :
    (directRegister (.reg r) c >>= f) =
      (require (r.addressing == .direct) .threeSourceIndirect >>= fun _ => f r) := by
  cases h : r.addressing == .direct <;> simp [directRegister, h]

theorem dst16_raises (cfg : Cfg) (d : Operand) : Raises (dst16 cfg d) (Layout.dst16Demands cfg d) := by
  cases d with
  | imm i => exact raises_error .threeSourceFile
  | reg r =>
    rw [dst16, directRegister_bind]
    refine ((raises_require _ _).bind fun _ _ => (raises_require _ .threeSourceFile).bind fun _ _ =>
      (raises_entry _ .typeCode).bind fun _ _ => (checkRegister_raises cfg r).bind fun _ _ =>
      (raises_require _ .align16Address).bind fun _ _ => (raises_require _ .specialAccOperand).bind_ok).congr ?_
    simp [Layout.dst16Demands, Layout.dst16Legal, Layout.accLegal, specialAccOperandOk, grfOrAccumulator,
      align16AddressOk_eq, Cause.code]
    grind

/-- The region of a ThreeSrcAlign16 source (R273). -/
theorem swizzleOf_raises (r : Region) :
    Raises (swizzleOf r) [Layout.elseViolation (match r with | .align1 _ _ _ => false | _ => true)] := by
  cases r <;> rfl

theorem src16_raises (cfg : Cfg) (k : Nat) (s : Operand) : Raises (src16 cfg k s) (Layout.src16Demands cfg s) := by
  cases s with
  | imm i => exact raises_error .threeSourceImmediateSlot
  | reg r =>
    rw [src16, directRegister_bind]
    refine ((raises_require _ _).bind fun _ _ => (raises_require _ .threeSourceFile).bind fun _ _ =>
      (raises_require _ .specialAccSource).bind fun _ _ => (checkRegister_raises cfg r).bind fun _ _ =>
      (raises_require _ .align16Address).bind fun _ _ => (raises_entry _ .typeCode).bind fun _ _ =>
      (swizzleOf_raises r.region).bind_ok).congr ?_
    simp [Layout.src16Demands, Layout.src16Legal, align16AddressOk_eq, Cause.code]
    grind

theorem dstStride3_raises (n : Nat) : Raises (entry (dstStride3Code n) .threeSourceStride)
    [Layout.elseViolation ([1, 2].contains n)] :=
  raises_of_ok_iff (by simp only [entry_eq_ok, dstStride3Code_ok_iff]) (errorsAre_entry rfl)

theorem vertStride3_raises (n : Nat) : Raises (entry (vertStride3Code n) .threeSourceStride)
    [Layout.elseViolation ([0, 2, 4, 8].contains n)] :=
  raises_of_ok_iff (by simp only [entry_eq_ok, vertStride3Code_ok_iff]) (errorsAre_entry rfl)

theorem horzStride3_raises (n : Nat) : Raises (entry (horzStride3Code n) .threeSourceStride)
    [Layout.elseViolation ([0, 1, 2, 4].contains n)] :=
  raises_of_ok_iff (by simp only [entry_eq_ok, horzStride3Code_ok_iff]) (errorsAre_entry rfl)

theorem dst1_raises (cfg : Cfg) (d : Operand) : Raises (dst1 cfg d) (Layout.dst1Demands cfg d) := by
  cases d with
  | imm i => exact raises_error .threeSourceFile
  | reg r =>
    rw [dst1, directRegister_bind]
    refine ((raises_require _ _).bind fun _ _ => (raises_require _ .threeSourceFile).bind fun _ _ =>
      (raises_entry _ .typeCode).bind fun _ _ => (checkRegister_raises cfg r).bind fun _ _ =>
      (raises_require _ .specialAccOperand).bind fun _ _ => (dstStride3_raises _).bind fun _ _ =>
      (raises_require _ .replicateControl).bind_ok).congr ?_
    simp [Layout.dst1Demands, Layout.dst1Legal, Layout.accLegal, Layout.dstStride, specialAccOperandOk,
      grfOrAccumulator, Cause.code]
    grind

theorem src1Reg_raises (cfg : Cfg) (execSize k : Nat) (r : RegOperand) :
    Raises (src1Reg cfg execSize k r) (Layout.src1Demands cfg execSize k (.reg r)) := by
  refine ((raises_require _ .threeSourceIndirect).bind fun _ _ => (raises_require _ .threeSourceFile).bind fun _ _ =>
    (raises_entry _ .typeCode).bind fun _ _ => (vertStride3_raises _).bind fun _ _ =>
    (horzStride3_raises _).bind fun _ _ => (checkRegister_raises cfg r).bind fun _ _ =>
    (checkSourceOverlay_raises _ r).bind fun _ _ => (raises_require _ .replicateControl).bind_ok).congr ?_
  simp [Layout.src1Demands, Layout.src1RegLegal, srcFile1Ok, Cause.code]
  grind

theorem imm16_ok_iff {i : ImmOperand} : (∃ v, imm16 i = .ok v) ↔ Layout.imm16ValueLegal i = true := by
  obtain ⟨value, width, t⟩ := i
  cases t <;> cases value <;>
    simp [imm16, Layout.imm16ValueLegal, signedValue_eq_ok, unsignedValue_eq_ok, floatValue_eq_ok, fitsS, fitsU,
      Option.isSome_iff_exists]

/-- An immediate of a type that R278 lists can fail by its value only. -/
theorem imm16_errors {i : ImmOperand} (h : Layout.imm16Type i.type = true) :
    ErrorsAre .invariantViolation (imm16 i) := by
  unfold imm16
  split
  case h_1 | h_2 => exact signedValue_errors _ _
  case h_3 | h_4 => exact unsignedValue_errors _ _
  case h_5 => exact floatValue_errors _ _ _
  case h_6 => simp_all [Layout.imm16Type]

theorem imm16_raises (i : ImmOperand) :
    Raises (imm16 i)
      [Layout.elseUnsupported (Layout.imm16Type i.type), Layout.elseViolation (Layout.imm16ValueLegal i)] := by
  cases ht : Layout.imm16Type i.type with
  | true => exact (raises_of_ok_iff imm16_ok_iff (imm16_errors ht)).congr (by simp)
  | false =>
    have herror : imm16 i = .error .threeSourceImmediateType := by
      unfold imm16
      split <;> simp_all [Layout.imm16Type]
    rw [herror]
    rfl

theorem src1Imm_raises (cfg : Cfg) (execSize k : Nat) (i : ImmOperand) :
    Raises (src1Imm cfg k i) (Layout.src1Demands cfg execSize k (.imm i)) :=
  (raises_require _ .threeSourceImmediateSlot).bind fun _ _ => (imm16_raises i).bind fun _ _ =>
    (raises_entry _ .typeCode).bind_ok

theorem src1_raises (cfg : Cfg) (execSize k : Nat) (s : Operand) :
    Raises (src1 cfg execSize k s) (Layout.src1Demands cfg execSize k s) := by
  cases s with
  | imm i => exact src1Imm_raises cfg execSize k i
  | reg r => exact src1Reg_raises cfg execSize k r

theorem encodeThreeSrc_raises (cfg : Cfg) (ins : Instruction) (d s0 s1 s2 : Operand) :
    Raises (encodeThreeSrc cfg ins d s0 s1 s2) (Layout.threeDemands cfg ins d s0 s1 s2) := by
  refine (checkClasses_raises ins.opcode d s0 s1 s2).bind fun _ _ => ?_
  cases hmode : ins.body.accessMode <;> simp only [List.append_assoc]
  case align16 =>
    exact (dst16_raises cfg d).bind fun _ _ => (src16_raises cfg 0 s0).bind fun _ _ =>
      (src16_raises cfg 1 s1).bind fun _ _ => (src16_raises cfg 2 s2).bind_ok
  case align1 =>
    exact (dst1_raises cfg d).bind fun _ _ => (src1_raises cfg _ 0 s0).bind fun _ _ =>
      (src1_raises cfg _ 1 s1).bind fun _ _ => (src1_raises cfg _ 2 s2).bind_ok

/-! ## Sends (R303, R310) -/

theorem sendRegister_bind {α : Type} (r : RegOperand) (c : Cause) (f : RegOperand → Except Cause α) :
    (sendRegister (.reg r) c >>= f) = (require (r.addressing == .direct) .sendIndirect >>= fun _ => f r) := by
  cases h : r.addressing == .direct <;> simp [sendRegister, h]

theorem encodeSend_raises (cfg : Cfg) (ins : Instruction) (d s0 : Operand) (desc exDesc : Descriptor) :
    Raises (encodeSend cfg ins d s0 desc exDesc) (Layout.sendOperandDemands cfg ins d s0) := by
  cases d with
  | imm i => exact raises_error .immediateDestination
  | reg rd =>
    simp only [encodeSend, sendRegister_bind]
    have hdst := encodeDstReg_raises cfg ins.body.accessMode rd
    cases s0 with
    | imm i =>
      refine ((raises_require _ _).bind fun _ _ => (raises_require _ .sendOperand).bind fun _ _ =>
        hdst.bind fun _ _ => raises_error .sendOperand).congr ?_
      simp [Layout.sendOperandDemands, grfOrNull, Layout.grfOrNullLegal, Cause.code]
    | reg r0 =>
      simp only [sendRegister_bind]
      refine ((raises_require _ _).bind fun _ _ => (raises_require _ .sendOperand).bind fun _ _ =>
        hdst.bind fun _ _ => (raises_require _ .sendIndirect).bind fun _ _ =>
        (raises_require _ .sendOperand).bind fun _ _ => (raises_require _ .sendModifier).bind fun _ _ =>
        (encodeSrc_raises cfg ins false 0 (.reg r0)).bind_ok).congr ?_
      simp [Layout.sendOperandDemands, grfOrNull, Layout.grfOrNullLegal, Cause.code]

theorem splitDestination_raises (cfg : Cfg) (d : Operand) :
    Raises (splitDestination cfg d) (Layout.splitDestinationDemands cfg d) := by
  cases d with
  | imm i => exact raises_error .sendOperand
  | reg r =>
    rw [splitDestination, splitRegister, ok_bind, subregister_zero_iff]
    refine ((raises_require _ .sendOperand).bind fun _ _ => (raises_require _ .sendOperand).bind fun _ _ =>
      (raises_entry _ .typeCode).bind fun _ _ => (raises_require _ .registerNumber).bind fun _ _ =>
      (raises_require _ .replicateControl).bind_ok).congr ?_
    have hsub : r.subregister = 0 → subregisterOk r = true := fun h => by simp [subregisterOk, h]
    simp [Layout.splitDestinationDemands, Layout.grfOrNullLegal, grfOrNull, registerLegal_eq, Cause.code]
    grind

theorem splitSource_raises (cfg : Cfg) (place : RegOperand → Bool) (s : Operand) :
    Raises (splitSource cfg place s) (Layout.splitSourceDemands cfg place s) := by
  cases s with
  | imm i => exact raises_error .sendOperand
  | reg r =>
    rw [splitSource, splitRegister, ok_bind]
    have hsource : Raises (checkSplitSource r)
        [Layout.elseUnsupported r.specialAcc.isNone, Layout.elseViolation (!r.repCtrl)] :=
      (raises_require _ .specialAccSource).bind fun _ _ => raises_require _ .replicateControl
    refine ((raises_require _ .sendOperand).bind fun _ _ => (raises_require _ .sendModifier).bind fun _ _ =>
      (checkRegister_raises cfg r).bind fun _ _ => hsource.bind_ok).congr ?_
    simp [Layout.splitSourceDemands, Cause.code]
    grind

theorem encodeSends_raises (cfg : Cfg) (d s0 s1 : Operand) (desc exDesc : Descriptor) :
    Raises (encodeSends cfg d s0 s1 desc exDesc) (Layout.sendsOperandDemands cfg d s0 s1) := by
  rw [Layout.sendsOperandDemands, List.append_assoc]
  exact (splitDestination_raises cfg d).bind fun _ _ => (splitSource_raises cfg payloadRegisterOk s0).bind fun _ _ =>
    (splitSource_raises cfg secondPayloadOk s1).bind_ok

end Sys2Proof.Machine
end

section
/-! PROOFS. Which error a record ends in (60_exceptions.md R400 to R402, R405 steps 2 to 8), and that the block encodes
the legal records and no others. -/

namespace Sys2Proof.Machine

/-! ## Opcode (R161) -/

theorem opcodeLegal_eq (cfg : Cfg) (ins : Instruction) :
    Layout.opcodeLegal cfg ins = ((cfg.opcode ins.opcode).isSome && featuresPresent cfg ins) := by
  unfold Layout.opcodeLegal featuresPresent
  cases ins.opcode <;> rfl

theorem checkOpcode_raises (cfg : Cfg) (ins : Instruction) :
    Raises (checkOpcode cfg ins) [Layout.elseUnsupported (Layout.opcodeLegal cfg ins)] := by
  refine ((raises_entry _ .noOpcode).bind fun _ _ => (raises_require _ .featureAbsent).bind_ok).congr ?_
  simp [opcodeLegal_eq, Cause.code]
  grind

/-! ## Shape and send descriptors (R164, R300) -/

/-- The demand on the descriptors of a send (R405 step 4), on a record of the shape of its class. -/
def descriptorsOk (ins : Instruction) : Bool :=
  match ins.body.payload with
  | .send desc exDesc => Layout.descriptorsLegal (ins.opcode.opClass == .sends) desc exDesc
  | _ => true

theorem descriptorsOk_of_send {ins : Instruction} {split : Bool} {desc exDesc : Operand}
    (hsplit : (ins.opcode.opClass == .sends) = split) (hpayload : ins.body.payload = .send desc exDesc) :
    descriptorsOk ins = Layout.descriptorsLegal split desc exDesc := by
  simp only [descriptorsOk, hpayload, hsplit]

theorem descriptorsOk_of_plain {ins : Instruction} (hplain : ins.opcode.isSendClass = false)
    (hshape : ins.body.shapeOk ins.opcode.opClass = true) : descriptorsOk ins = true := by
  unfold descriptorsOk
  cases hp : ins.body.payload with
  | send desc exDesc =>
    cases hop : ins.opcode <;> simp_all [Mnemonic.isSendClass, Mnemonic.opClass, InsBody.shapeOk]
  | none | branch | math => rfl

theorem MathFn.sources_cases (fn : MathFn) : fn.sources = 1 ∨ fn.sources = 2 := by cases fn <;> decide

/-- A record of the shape of its class selects its shape; a send's descriptors must also be well formed (R163, R164). -/
theorem select_of_shapeOk {ins : Instruction} (hshape : ins.body.shapeOk ins.opcode.opClass = true)
    (hdescs : descriptorsOk ins = true) : ∃ shape, select ins = .ok shape := by
  unfold InsBody.shapeOk at hshape
  split at hshape <;>
    simp only [Bool.and_eq_true, Bool.not_eq_true', Option.isSome_iff_exists, Option.isSome_eq_false_iff,
      Option.isNone_iff_eq_none, beq_iff_eq, List.length_eq_zero_iff, List.length_eq_one_iff, List.length_eq_two,
      List.length_eq_three] at hshape
  next hc hp =>
    obtain ⟨hd, hs⟩ := hshape
    exact ⟨.bare .illegal, by simp [select, bareShape, hc, hd, hs, hp]⟩
  next hc hp =>
    obtain ⟨hd, hs⟩ := hshape
    exact ⟨.bare .nop, by simp [select, bareShape, hc, hd, hs, hp]⟩
  next hc hp =>
    obtain ⟨⟨d, hd⟩, s0, hs⟩ := hshape
    exact ⟨.one d s0, by simp [select, hc, hd, hs, hp]⟩
  next hc hp =>
    obtain ⟨⟨d, hd⟩, s0, s1, hs⟩ := hshape
    exact ⟨.two d s0 s1, by simp [select, hc, hd, hs, hp]⟩
  next fn hc hp =>
    obtain ⟨⟨d, hd⟩, hlength⟩ := hshape
    obtain hn | hn := MathFn.sources_cases fn
    · obtain ⟨s0, hs⟩ := List.length_eq_one_iff.mp (hlength.trans hn)
      exact ⟨.mathOne fn d s0, by simp [select, mathShape, hc, hd, hs, hp, hn]⟩
    · obtain ⟨s0, s1, hs⟩ := List.length_eq_two.mp (hlength.trans hn)
      exact ⟨.mathTwo fn d s0 s1, by simp [select, mathShape, hc, hd, hs, hp, hn]⟩
  next hc hp =>
    obtain ⟨⟨d, hd⟩, s0, s1, s2, hs⟩ := hshape
    exact ⟨_, select_three hc hp hd hs⟩
  next hc hp =>
    obtain ⟨hd, s0, hs⟩ := hshape
    exact ⟨.wait s0, by simp [select, hc, hd, hs, hp]⟩
  next desc exDesc hc hp =>
    obtain ⟨⟨d, hd⟩, s0, hs⟩ := hshape
    obtain ⟨⟨dv, xv⟩, hdesc⟩ := sendDescriptors_of_legal (split := false) hp
      (descriptorsOk_of_send (split := false) (by rw [hc]; rfl) hp ▸ hdescs)
    exact ⟨.send d s0 dv xv, by simp [select, sendShape, sendSources, hc, hd, hs, hdesc]⟩
  next desc exDesc hc hp =>
    obtain ⟨⟨d, hd⟩, s0, s1, hs⟩ := hshape
    obtain ⟨⟨dv, xv⟩, hdesc⟩ := sendDescriptors_of_legal (split := true) hp
      (descriptorsOk_of_send (split := true) (by rw [hc]; rfl) hp ▸ hdescs)
    exact ⟨.sends d s0 s1 dv xv, by simp [select, sendShape, sendSources, hc, hd, hs, hdesc]⟩
  next hc hp =>
    obtain ⟨hd, hs⟩ := hshape
    exact ⟨.branchOne, by simp [select, branchShape, hc, hd, hs, hp]⟩
  next hc hp =>
    obtain ⟨hd, hs⟩ := hshape
    exact ⟨.jmpi, by simp [select, branchShape, hc, hd, hs, hp]⟩
  next hc hp =>
    obtain ⟨hd, hs⟩ := hshape
    exact ⟨.branchTwo, by simp [select, branchShape, hc, hd, hs, hp]⟩
  next hc hp =>
    obtain ⟨⟨d, hd⟩, hs⟩ := hshape
    exact ⟨.call d, by simp [select, hc, hd, hs, hp]⟩
  next => cases hshape

theorem bareShape_errors (fmt : FormatTag) (b : InsBody) : ErrorsAre .unsupportedOpcode (bareShape fmt b) := by
  unfold bareShape
  split <;> simp [Cause.code]

theorem mathShape_errors (b : InsBody) : ErrorsAre .unsupportedOpcode (mathShape b) := by
  unfold mathShape
  split
  · split <;> simp [Cause.code]
  · simp [Cause.code]

theorem branchShape_errors (b : InsBody) (wantUip : Bool) (shape : Shape) :
    ErrorsAre .unsupportedOpcode (branchShape b wantUip shape) := by
  unfold branchShape
  split
  · split <;> simp [Cause.code]
  · simp [Cause.code]

/-- Out of the send class, a record without the shape of its class is refused (R164). -/
theorem select_errors {ins : Instruction} (hplain : ins.opcode.isSendClass = false) :
    ErrorsAre .unsupportedOpcode (select ins) := by
  cases hclass : ins.opcode.opClass <;> simp only [select, hclass]
  case illegal | nop => exact bareShape_errors _ _
  case math => exact mathShape_errors _
  case send | sends => simp [sendClass_of_class (m := ins.opcode) (by simp [hclass])] at hplain
  case branchOneSrc | branchTwoSrc | jmpi => exact branchShape_errors _ _ _
  case oneSrc | twoSrc | threeSrc | wait | call => split <;> simp [Cause.code]

theorem descriptorsOk_of_select {ins : Instruction} {shape : Shape} (hsel : select ins = .ok shape) :
    descriptorsOk ins = true := by
  cases hsend : ins.opcode.isSendClass with
  | false => exact descriptorsOk_of_plain hsend (select_fits hsel).shapeOk
  | true =>
    unfold descriptorsOk
    split
    next desc exDesc hp =>
      by_contra hbad
      obtain ⟨c, herror, -⟩ := select_malformed hsend hp (Bool.eq_false_iff.mpr hbad)
      cases hsel.symm.trans herror
    next => rfl

theorem select_ok_iff {ins : Instruction} :
    (∃ shape, select ins = .ok shape) ↔ (ins.body.shapeOk ins.opcode.opClass && descriptorsOk ins) = true := by
  rw [Bool.and_eq_true]
  exact ⟨fun ⟨_, h⟩ => ⟨(select_fits h).shapeOk, descriptorsOk_of_select h⟩,
    fun ⟨hshape, hdescs⟩ => select_of_shapeOk hshape hdescs⟩

theorem select_raises (ins : Instruction) :
    Raises (select ins)
      [⟨ins.body.shapeOk ins.opcode.opClass, if ins.opcode.isSendClass then .failure else .unsupportedOpcode⟩,
        ⟨descriptorsOk ins, .failure⟩] := by
  cases hsend : ins.opcode.isSendClass with
  | false =>
    refine (raises_of_ok_iff select_ok_iff (select_errors hsend)).congr ?_
    have hdescs := descriptorsOk_of_plain hsend
    simp
    grind
  | true =>
    have herrors : ErrorsAre .failure (select ins) := select_sendClass hsend ▸ sendShape_errors _ _
    refine (raises_of_ok_iff select_ok_iff herrors).congr ?_
    simp
    grind

/-! ## Header (R170 to R183) -/

theorem predicateFields_errors (cfg : Cfg) (p : Option Predicate) :
    ErrorsAre .invariantViolation (predicateFields cfg p) := by
  cases p with
  | none => exact errorsAre_ok _
  | some p => exact (errorsAre_require rfl).bind fun _ => errorsAre_ok _

theorem condModFields_errors (cfg : Cfg) (ins : Instruction) :
    ErrorsAre .invariantViolation (condModFields cfg ins) := by
  refine (errorsAre_require rfl).bind fun _ => ?_
  split
  · exact errorsAre_ok _
  · split <;> exact errorsAre_ok _

theorem execSizeField_errors (ins : Instruction) : ErrorsAre .invariantViolation (execSizeField ins) :=
  (errorsAre_entry rfl).bind fun _ => (errorsAre_require rfl).bind fun _ => errorsAre_ok _

theorem encodeHeader_errors (cfg : Cfg) (opc : BitVec 7) (fmt : FormatTag) (ins : Instruction) (back : Bool) :
    ErrorsAre .invariantViolation (encodeHeader cfg opc fmt ins back) :=
  (errorsAre_require rfl).bind fun _ => (errorsAre_require rfl).bind fun _ => (errorsAre_require rfl).bind fun _ =>
    (predicateFields_errors _ _).bind fun _ => (condModFields_errors _ _).bind fun _ =>
    (execSizeField_errors _).bind fun _ => errorsAre_ok _

theorem encodeHeader_raises (cfg : Cfg) (opc : BitVec 7) (fmt : FormatTag) (ins : Instruction) (back : Bool) :
    Raises (encodeHeader cfg opc fmt ins back) [Layout.elseViolation (Layout.headerLegal fmt ins)] :=
  raises_of_ok_iff encodeHeader_ok_iff (encodeHeader_errors cfg opc fmt ins back)

/-! ## Operands (R405 steps 6 to 8) -/

/-- All that the selector can answer, by class, with the payload that the class asks for (R163, R164). The operands and
the format, the same for all classes, are in `Shape.Fits`. -/
inductive Selected (ins : Instruction) : Shape → Prop
  | bare {fmt : FormatTag} (hclass : ins.opcode.opClass = .illegal ∨ ins.opcode.opClass = .nop)
      (hpayload : ins.body.payload = .none) : Selected ins (.bare fmt)
  | one {d s0 : Operand} (hclass : ins.opcode.opClass = .oneSrc) (hpayload : ins.body.payload = .none) :
      Selected ins (.one d s0)
  | two {d s0 s1 : Operand} (hclass : ins.opcode.opClass = .twoSrc) (hpayload : ins.body.payload = .none) :
      Selected ins (.two d s0 s1)
  | mathOne {fn : MathFn} {d s0 : Operand} (hclass : ins.opcode.opClass = .math)
      (hpayload : ins.body.payload = .math fn) (hsources : fn.sources = 1) : Selected ins (.mathOne fn d s0)
  | mathTwo {fn : MathFn} {d s0 s1 : Operand} (hclass : ins.opcode.opClass = .math)
      (hpayload : ins.body.payload = .math fn) (hsources : fn.sources = 2) : Selected ins (.mathTwo fn d s0 s1)
  | three {fmt : FormatTag} {d s0 s1 s2 : Operand} (hclass : ins.opcode.opClass = .threeSrc)
      (hpayload : ins.body.payload = .none) : Selected ins (.three fmt d s0 s1 s2)
  | wait {s0 : Operand} (hclass : ins.opcode.opClass = .wait) (hpayload : ins.body.payload = .none) :
      Selected ins (.wait s0)
  | send {d s0 desc exDesc : Operand} {dv xv : Descriptor} (hclass : ins.opcode.opClass = .send)
      (hpayload : ins.body.payload = .send desc exDesc) : Selected ins (.send d s0 dv xv)
  | sends {d s0 s1 desc exDesc : Operand} {dv xv : Descriptor} (hclass : ins.opcode.opClass = .sends)
      (hpayload : ins.body.payload = .send desc exDesc) : Selected ins (.sends d s0 s1 dv xv)
  | branchOne {jip : Label} (hclass : ins.opcode.opClass = .branchOneSrc)
      (hpayload : ins.body.payload = .branch jip none) : Selected ins .branchOne
  | branchTwo {jip uip : Label} (hclass : ins.opcode.opClass = .branchTwoSrc)
      (hpayload : ins.body.payload = .branch jip (some uip)) : Selected ins .branchTwo
  | jmpi {jip : Label} (hclass : ins.opcode.opClass = .jmpi) (hpayload : ins.body.payload = .branch jip none) :
      Selected ins .jmpi
  | call {d : Operand} {jip : Label} (hclass : ins.opcode.opClass = .call)
      (hpayload : ins.body.payload = .branch jip none) : Selected ins (.call d)

theorem select_selected {ins : Instruction} {shape : Shape} (h : select ins = .ok shape) : Selected ins shape := by
  cases hc : ins.opcode.opClass <;> simp only [select, hc] at h
  case illegal =>
    obtain ⟨rfl, -, -, hp⟩ := bareShape_eq_ok h
    exact .bare (.inl hc) hp
  case nop =>
    obtain ⟨rfl, -, -, hp⟩ := bareShape_eq_ok h
    exact .bare (.inr hc) hp
  case math =>
    obtain ⟨fn, d, hp, -, ⟨s0, hn, -, rfl⟩ | ⟨s0, s1, hn, -, rfl⟩⟩ := mathShape_eq_ok h
    · exact .mathOne hc hp hn
    · exact .mathTwo hc hp hn
  case send =>
    obtain ⟨desc, exDesc, d, dv, xv, hp, -, ⟨s0, -, -, rfl⟩ | ⟨_, _, hsplit, -⟩⟩ := sendShape_eq_ok h
    · exact .send hc hp
    · cases hsplit
  case sends =>
    obtain ⟨desc, exDesc, d, dv, xv, hp, -, ⟨_, hsplit, -⟩ | ⟨s0, s1, -, -, rfl⟩⟩ := sendShape_eq_ok h
    · cases hsplit
    · exact .sends hc hp
  case branchOneSrc | jmpi =>
    obtain ⟨rfl, -, -, jip, uip, hp, huip⟩ := branchShape_eq_ok h
    cases uip <;> cases huip
    constructor <;> assumption
  case branchTwoSrc =>
    obtain ⟨rfl, -, -, jip, uip, hp, huip⟩ := branchShape_eq_ok h
    cases uip <;> cases huip
    exact .branchTwo hc hp
  case oneSrc | twoSrc | threeSrc | wait | call =>
    split at h <;> cases h
    constructor <;> assumption

theorem encodeOperands_raises {cfg : Cfg} {ins : Instruction} {shape : Shape} (hsel : select ins = .ok shape) :
    Raises (encodeOperands cfg ins shape) (Layout.operandDemands cfg ins) := by
  have hdst := (select_fits hsel).destination
  have hsrcs := (select_fits hsel).sources
  cases select_selected hsel <;> simp only [Shape.destination, Shape.sources] at hdst hsrcs
  case bare hclass hp =>
    obtain hclass | hclass := hclass <;> simp only [Layout.operandDemands, hclass] <;> exact raises_ok _
  case one hclass hp =>
    simp only [Layout.operandDemands, hclass, hdst, hsrcs]
    exact encodeOneSrc_raises cfg ins _ _
  case two hclass hp =>
    simp only [Layout.operandDemands, hclass, hdst, hsrcs]
    exact encodeTwoSrc_raises cfg ins _ _ _
  case mathOne hclass hp _ =>
    simp only [Layout.operandDemands, hclass, hdst, hsrcs, hp]
    exact (encodeOneSrc_raises cfg ins _ _).bind fun _ _ => (mathPatch_raises cfg _).bind_ok
  case mathTwo hclass hp _ =>
    simp only [Layout.operandDemands, hclass, hdst, hsrcs, hp]
    exact (encodeTwoSrc_raises cfg ins _ _ _).bind fun _ _ => (mathPatch_raises cfg _).bind_ok
  case three hclass hp =>
    simp only [Layout.operandDemands, hclass, hdst, hsrcs]
    exact encodeThreeSrc_raises cfg ins _ _ _ _
  case wait hclass hp =>
    simp only [Layout.operandDemands, hclass, hsrcs]
    exact encodeWait_raises cfg _
  case send hclass hp =>
    simp only [Layout.operandDemands, hclass, hdst, hsrcs]
    exact encodeSend_raises cfg ins _ _ _ _
  case sends hclass hp =>
    simp only [Layout.operandDemands, hclass, hdst, hsrcs]
    exact (encodeSends_raises cfg _ _ _ _ _).bind_ok
  case branchOne hclass hp | branchTwo hclass hp | jmpi hclass hp =>
    simp only [Layout.operandDemands, hclass]
    exact raises_ok _
  case call hclass hp =>
    simp only [Layout.operandDemands, hclass, hdst]
    exact encodeCall_raises cfg _

/-- A split send takes registers only (R310). -/
theorem registers_of_encodeSends {cfg : Cfg} {d s0 s1 : Operand} {desc exDesc : Descriptor} {fs : List Field}
    (h : encodeSends cfg d s0 s1 desc exDesc = .ok fs) :
    ∃ rd r0 r1, d = .reg rd ∧ s0 = .reg r0 ∧ s1 = .reg r1 := by
  simp only [encodeSends, bind_eq_ok] at h
  obtain ⟨_, hd, _, h0, _, h1, -⟩ := h
  cases d with
  | imm i => cases hd
  | reg rd =>
  cases s0 with
  | imm i => cases h0
  | reg r0 =>
  cases s1 with
  | imm i => cases h1
  | reg r1 => exact ⟨rd, r0, r1, rfl, rfl, rfl⟩

theorem operandsLegal_of_encodeOperands {cfg : Cfg} {ins : Instruction} {shape : Shape} {operands : List Field}
    (hsel : select ins = .ok shape) (h : encodeOperands cfg ins shape = .ok operands) :
    Layout.operandsLegal cfg ins = true := by
  have hdst := (select_fits hsel).destination
  have hsrcs := (select_fits hsel).sources
  have hdescs := descriptorsOk_of_select hsel
  cases select_selected hsel <;> simp only [Shape.destination, Shape.sources] at hdst hsrcs
  case bare hclass hp => obtain hclass | hclass := hclass <;> simp [Layout.operandsLegal, hclass, hdst, hsrcs, hp]
  case one hclass hp =>
    simpa [Layout.operandsLegal, hclass, hdst, hsrcs, hp] using encodeOneSrc_ok_iff.mp ⟨_, h⟩
  case two hclass hp =>
    simpa [Layout.operandsLegal, hclass, hdst, hsrcs, hp, and_assoc] using encodeTwoSrc_ok_iff.mp ⟨_, h⟩
  case mathOne hclass hp hn =>
    obtain ⟨fs, hfs, hpatch⟩ := bind_eq_ok.mp h
    obtain ⟨fm, hfm, -⟩ := bind_eq_ok.mp hpatch
    obtain ⟨code, hcode, -⟩ := mathPatch_eq_ok.mp hfm
    obtain ⟨hd, h0⟩ := encodeOneSrc_ok_iff.mp ⟨fs, hfs⟩
    simp [Layout.operandsLegal, hclass, hdst, hsrcs, hp, hn, hcode, hd, h0]
  case mathTwo hclass hp hn =>
    obtain ⟨fs, hfs, hpatch⟩ := bind_eq_ok.mp h
    obtain ⟨fm, hfm, -⟩ := bind_eq_ok.mp hpatch
    obtain ⟨code, hcode, -⟩ := mathPatch_eq_ok.mp hfm
    obtain ⟨hd, h0, h1⟩ := encodeTwoSrc_ok_iff.mp ⟨fs, hfs⟩
    simp [Layout.operandsLegal, hclass, hdst, hsrcs, hp, hn, hcode, hd, h0, h1]
  case three hclass hp =>
    simpa [Layout.operandsLegal, hclass, hdst, hsrcs, hp] using encodeThreeSrc_ok_iff.mp ⟨_, h⟩
  case wait s0 hclass hp =>
    cases s0 with
    | imm i => cases h
    | reg r => simpa [Layout.operandsLegal, hclass, hdst, hsrcs, hp] using encodeWait_ok_iff.mp ⟨_, h⟩
  case send hclass hp =>
    rw [descriptorsOk_of_send (split := false) (by rw [hclass]; rfl) hp] at hdescs
    simpa [Layout.operandsLegal, hclass, hdst, hsrcs, hp, hdescs] using encodeSend_ok_iff.mp ⟨_, h⟩
  case sends hclass hp =>
    rw [descriptorsOk_of_send (split := true) (by rw [hclass]; rfl) hp] at hdescs
    obtain ⟨fs, hfs, -⟩ := bind_eq_ok.mp h
    obtain ⟨rd, r0, r1, rfl, rfl, rfl⟩ := registers_of_encodeSends hfs
    simpa [Layout.operandsLegal, hclass, hdst, hsrcs, hp, hdescs] using encodeSends_ok_iff.mp ⟨_, hfs⟩
  case branchOne hclass hp | branchTwo hclass hp | jmpi hclass hp =>
    simp [Layout.operandsLegal, hclass, hdst, hsrcs, hp]
  case call d _ hclass hp =>
    cases d with
    | imm i => cases h
    | reg r => simpa [Layout.operandsLegal, hclass, hdst, hsrcs, hp] using encodeCall_ok_iff.mp ⟨_, h⟩

/-! ## The whole record -/

theorem encodeFields_raises (cfg : Cfg) (back : Bool) (ins : Instruction) :
    Raises (encodeFields cfg back ins) (Layout.recordDemands cfg ins) := by
  have hheader (opc : BitVec 7) (shape : Shape) (hsel : select ins = .ok shape) :
      Raises (encodeHeader cfg opc shape.format ins back)
        [Layout.elseViolation (Layout.headerLegal (Layout.formatOf ins) ins)] :=
    (select_fits hsel).format ▸ encodeHeader_raises cfg opc shape.format ins back
  exact (checkOpcode_raises cfg ins).bind fun opc _ => (select_raises ins).bind fun shape hsel =>
    (hheader opc shape hsel).bind fun _ _ => (encodeOperands_raises hsel).bind_ok

/-- The block encodes the legal records and no others (R401, R402, R300). -/
theorem encodeNative_ok_iff {cfg : Cfg} {back : Bool} {ins : Instruction} :
    (∃ r, encodeNative cfg back ins = .ok r) ↔ Layout.recordLegal cfg ins = true := by
  constructor
  · rintro ⟨⟨tag, w⟩, h⟩
    obtain ⟨opc, shape, header, operands, _, hopc, hsel, hheader, hoperands, -⟩ := encodeNative_eq_ok h
    have hopcode : Layout.opcodeLegal cfg ins = true := by
      simpa using (checkOpcode_raises cfg ins).ok_iff.mp ⟨opc, hopc⟩
    have hlegal : Layout.headerLegal (Layout.formatOf ins) ins = true :=
      (select_fits hsel).format ▸ encodeHeader_ok_iff.mp ⟨header, hheader⟩
    rw [Layout.recordLegal, hopcode, hlegal, operandsLegal_of_encodeOperands hsel hoperands]
    rfl
  · intro h
    obtain ⟨w, hw⟩ := encodeNative_of_legal back h
    exact ⟨_, hw⟩

theorem encodeFields_ok_iff {cfg : Cfg} {back : Bool} {ins : Instruction} :
    (∃ r, encodeFields cfg back ins = .ok r) ↔ Layout.recordLegal cfg ins = true := by
  constructor
  · rintro ⟨⟨shape, fields⟩, h⟩
    obtain ⟨w, -, hnative⟩ := encodeNative_of_encodeFields h
    exact encodeNative_ok_iff.mp ⟨_, hnative⟩
  · intro h
    obtain ⟨shape, fields, hfields⟩ := encodeFields_of_legal back h
    exact ⟨_, hfields⟩

/-- Settles O51: part by part, the encoder succeeds just where the checks of the part hold. -/
theorem errorsExactly : Obligations.ErrorsExactly := fun _ _ _ => encodeNative_ok_iff

/-- Settles O52: the encoder raises the error of the first demand that does not hold, and it encodes the legal records
and no others. -/
theorem recordErrors : Obligations.RecordErrors := by
  refine ⟨fun i s e hphase hfresh herror => ?_, fun cfg ins => ?_⟩
  · obtain ⟨c, hfields, rfl⟩ :=
      (encodeFields_raises s.cfg (backward (Layout.labelsAfter s i.defs) i.instruction) i.instruction).error herror
    refine instrFails_of_encodeCommand hphase ?_
    rw [encodeCommand, enterLabels_fresh hfresh, ok_bind, encodeNative, hfields, error_bind, error_bind]
  · rw [← encodeFields_ok_iff (back := false)]
    exact (encodeFields_raises cfg false ins).ok_iff.symm

end Sys2Proof.Machine
end

section
/-! PROOFS. What a Reset leaves of an earlier session (R430, R433): it reads the configuration and the commands still to
come, and no other part of the state. -/

namespace Sys2Proof.Machine

/-- The state after a Reset is a function of the configuration and the commands still to come. -/
theorem State.resetSession_congr {s t : State} (hcfg : s.cfg = t.cfg) (hinput : s.input = t.input) :
    s.resetSession = t.resetSession := by
  rw [State.resetSession, State.resetSession, hcfg, hinput]

/-- A step at which the next command is a Reset (R38, R430). -/
theorem step_of_reset {s : State} (hin : s.input.head? = some (some .reset)) :
    step s = .next s.consume.resetSession := by
  obtain ⟨rest, hinput⟩ := List.head?_eq_some_iff.mp hin
  rw [step_eq_runCommand hinput, ← State.consume_of_cons hinput]
  rfl

/-- Settles O2: each step is a Reset's, and the two Resets read the same. -/
theorem resetForgets : Obligations.ResetForgets := by
  intro s t hcfg hinput hin
  have hafter : s.consume.resetSession = t.consume.resetSession :=
    State.resetSession_congr hcfg (congrArg List.tail hinput)
  rw [step_of_reset hin, step_of_reset (hinput ▸ hin), hafter]

end Sys2Proof.Machine
end

section
/-! PROOFS. Reading a native word back from its bytes (00_scope.md R12, R14; 20_memory.md R53): the bytes give the word
again, its bit 53 tells that it is native (30_encoding.md R150), and its opcode, header and operands are read one after
another. Then the three words of 95_test_vectors.md. -/

namespace Sys2Proof

/-! ## The bytes of a number (R53) -/

@[simp] theorem length_toBytes (n v : Nat) : (toBytes n v).length = n := by
  induction n generalizing v with
  | zero => rfl
  | succ n ih => rw [toBytes, List.length_cons, ih]

/-- The first bytes of a number are those of its low part. -/
theorem take_toBytes {k n : Nat} (h : k ≤ n) (v : Nat) : (toBytes n v).take k = toBytes k v := by
  induction k generalizing n v with
  | zero => rfl
  | succ k ih =>
    obtain ⟨n, rfl⟩ : ∃ n', n = n' + 1 := ⟨n - 1, by omega⟩
    rw [toBytes, List.take_succ_cons, ih (by omega), toBytes]

theorem ofBytes_toBytes (n v : Nat) : ofBytes (toBytes n v) = v % 256 ^ n := by
  induction n generalizing v with
  | zero => rw [toBytes, ofBytes, pow_zero, Nat.mod_one]
  | succ n ih =>
    have hsplit : v % (256 * 256 ^ n) = v % 256 + 256 * (v / 256 % 256 ^ n) := Nat.mod_mul
    rw [toBytes, ofBytes, ih, BitVec.toNat_ofNat, pow_succ' 256 n, hsplit]

/-! ## The native word -/

open Decoding

/-- The length of a native word's encoding is told by its bit 53, in the first 8 bytes (R150). -/
theorem isCompactAt_toBytes (w : NativeWord) :
    isCompactAt (ofBytes ((toBytes 16 w.toNat).take 8)) = (unpack w 53 1 == 1) := by
  have hbit : w.toNat % 256 ^ 8 / 2 ^ 53 % 2 = w.toNat / 2 ^ 53 % 2 := by omega
  rw [isCompactAt, take_toBytes (by decide), ofBytes_toBytes, hbit, unpack, Nat.shiftRight_eq_div_pow, pow_one]

/-- The 16 bytes of a native word give the word again. -/
theorem ofNat_ofBytes_toBytes (w : NativeWord) : BitVec.ofNat 128 (ofBytes (toBytes 16 w.toNat)) = w := by
  have hlt : w.toNat < 256 ^ 16 := w.isLt
  rw [ofBytes_toBytes, Nat.mod_eq_of_lt hlt, BitVec.ofNat_toNat, BitVec.setWidth_eq]

@[simp] theorem read_ok_bind {α β : Type} (a : α) (f : α → Read β) : (Except.ok a >>= f) = f a := rfl

@[simp] theorem found_some {α : Type} (a : α) (e : DecodeError) : found (some a) e = .ok a := rfl

/-- The bytes of a word without bit 53 decode as the native word does. -/
theorem decode_toBytes {cfg : Cfg} {w : NativeWord} {v : Nat} {i : Instr} (hvalue : w.toNat = v)
    (hlength : unpack w 53 1 = 0) (hnative : decodeNative cfg .mustNot w = .ok i) :
    decode cfg (toBytes 16 v) = .ok (i, []) := by
  subst hvalue
  have hbit : isCompactAt (ofBytes ((toBytes 16 w.toNat).take 8)) = false := by rw [isCompactAt_toBytes, hlength]; rfl
  have htake : (toBytes 16 w.toNat).take 16 = toBytes 16 w.toNat := take_toBytes le_rfl _
  have hdrop : (toBytes 16 w.toNat).drop 16 = [] := List.drop_of_length_le (length_toBytes 16 _).le
  simp [decode, hbit, htake, hdrop, ofNat_ofBytes_toBytes, hnative]

/-- A native word decodes part by part: opcode, reserved bits (R71, R150), header, operands. -/
theorem decodeNative_of_parts {cfg : Cfg} {policy : CompactionPolicy} {w : NativeWord} {m : Mnemonic} {b b' : InsBody}
    (hopcode : keyOf cfg.opc (BitVec.ofNat 7 (unpack w 0 7)) = some m)
    (hreserved : reserved w [(7, 1), (53, 1)] = .ok ()) (hheader : readHeader cfg m policy w = .ok b)
    (hoperands : readOperands cfg m b w = .ok b') : decodeNative cfg policy w = .ok (m.instr b' []) := by
  simp only [decodeNative, hopcode, hreserved, hheader, hoperands, found_some, read_ok_bind]

/-! ## Operands by class -/

/-- A word without operands holds 0 in the operand areas and in its upper half (R123). -/
theorem readOperands_nop {cfg : Cfg} {b : InsBody} {w : NativeWord}
    (hreserved : reserved w (noOperandAreas ++ [(64, 64)]) = .ok ()) : readOperands cfg .nop b w = .ok b := by
  simp only [readOperands, Mnemonic.opClass, hreserved, read_ok_bind]

theorem readOperands_oneSrc {cfg : Cfg} {m : Mnemonic} {b : InsBody} {w : NativeWord} {d s : Operand}
    (hclass : m.opClass = .oneSrc) (hdst : readDst cfg b.accessMode w = .ok d)
    (hsrc : readSole cfg b.accessMode false w = .ok s) :
    readOperands cfg m b w = .ok { b with destination := some d, sources := [s] } := by
  simp only [readOperands, hclass, hdst, hsrc, read_ok_bind]

/-- The two offsets of a branch word are read as its labels, JIP in DW2 and UIP in DW3 (R121; assumption 6). -/
theorem readOperands_branchTwoSrc {cfg : Cfg} {m : Mnemonic} {b : InsBody} {w : NativeWord}
    (hclass : m.opClass = .branchTwoSrc) (hreserved : reserved w noOperandAreas = .ok ()) :
    readOperands cfg m b w =
      .ok { b with payload := .branch (offsetLabel w 64) (some (offsetLabel w 96)) } := by
  simp only [readOperands, hclass, hreserved, read_ok_bind]

/-! ## The words of the test vectors -/

/-- V1-1. -/
theorem decodeNative_mov : decodeNative defaultCfg .mustNot 0x00000000_00234280_05003AE8_60400001#128 =
    .ok (.mov
      { executionSize := 8
        destination := some (.reg { file := .grf, number := 10, region := .align1 none none (some 1), dataType := .f })
        sources := [.reg { file := .grf, number := 20, region := .align1 (some 8) (some 8) (some 1), dataType := .f }]
        compactionPolicy := .mustNot } []) := by
  have hheader : readHeader defaultCfg .mov .mustNot 0x00000000_00234280_05003AE8_60400001#128 =
    .ok { executionSize := 8, compactionPolicy := .mustNot } := rfl
  exact decodeNative_of_parts (m := .mov) rfl rfl hheader (readOperands_oneSrc rfl rfl rfl)

/-- H1. -/
theorem decodeNative_nop : decodeNative defaultCfg .mustNot 0x7E#128 =
    .ok (.nop { compactionPolicy := .mustNot } []) := by
  have hheader : readHeader defaultCfg .nop .mustNot 0x7E#128 = .ok { compactionPolicy := .mustNot } := rfl
  exact decodeNative_of_parts (m := .nop) rfl rfl hheader (readOperands_nop rfl)

/-- VB-1. -/
theorem decodeNative_if : decodeNative defaultCfg .mustNot 0x00000000_00000000_00100000_60000022#128 =
    .ok (.if_
      { executionSize := 8, accWriteControl := true, payload := .branch ⟨0⟩ (some ⟨0⟩)
        compactionPolicy := .mustNot } []) := by
  have hheader : readHeader defaultCfg .if_ .mustNot 0x00000000_00000000_00100000_60000022#128 =
    .ok { executionSize := 8, accWriteControl := true, compactionPolicy := .mustNot } := rfl
  exact decodeNative_of_parts (m := .if_) rfl rfl hheader (readOperands_branchTwoSrc rfl rfl)

/-- Settles O6: each word has bit 53 clear, and its opcode, header and operands are read as the record's. -/
theorem decodeWords : Obligations.DecodeWords :=
  ⟨decode_toBytes rfl rfl decodeNative_mov, decode_toBytes rfl rfl decodeNative_nop,
    decode_toBytes rfl rfl decodeNative_if⟩

end Sys2Proof
end

section
/-! PROOFS. The checks that R405 makes before the operands (steps 2, 3 and 5): an opcode that the platform lacks, an
operand shape that is not the class's, and a header value that its rule forbids. -/

namespace Sys2Proof.Machine

open Layout

/-- Settles O45: the opcode is the first demand on a record (R405 step 2). -/
theorem opcodeUnsupported : Obligations.OpcodeUnsupported := by
  intro i s hphase hfresh hopcode
  refine recordErrors.1 i s _ hphase hfresh ?_
  simp [recordError, recordDemands, elseUnsupported, hopcode]

/-- Settles O46: the shape is the second demand on a record, after the opcode (R405 step 3). -/
theorem shapeMismatch : Obligations.ShapeMismatch := by
  intro i s hphase hfresh hopcode hshape
  have hshape' : i.instruction.body.shapeOk i.instruction.opcode.opClass = false := hshape
  refine recordErrors.1 i s _ hphase hfresh ?_
  simp only [recordError, recordDemands, List.cons_append, firstError_elseUnsupported, firstError_cons, hopcode,
    hshape']
  rfl

/-- The demands on a record, that on its descriptors by its name (R405). -/
theorem recordDemands_eq (cfg : Cfg) (ins : Instruction) :
    recordDemands cfg ins =
      [elseUnsupported (opcodeLegal cfg ins),
       ⟨ins.body.shapeOk ins.opcode.opClass, if ins.opcode.isSendClass then .failure else .unsupportedOpcode⟩,
       ⟨descriptorsOk ins, .failure⟩, elseViolation (headerLegal (formatOf ins) ins)] ++ operandDemands cfg ins := rfl

/-- Settles O48: the header is the first demand after opcode, shape and descriptors (R405 step 5). -/
theorem headerViolation : Obligations.HeaderViolation := by
  intro i s hphase hfresh hopcode hshape hdescs hheader
  have hshape' : i.instruction.body.shapeOk i.instruction.opcode.opClass = true := hshape
  have hdescs' : descriptorsOk i.instruction = true := hdescs
  refine recordErrors.1 i s _ hphase hfresh ?_
  simp only [recordError, recordDemands_eq, List.cons_append, firstError_elseUnsupported, firstError_elseViolation,
    firstError_cons, hopcode, hshape', hdescs', hheader]
  rfl

end Sys2Proof.Machine
end

section
/-! PROOFS. The words that `illegal`, `nop`, `wait` and the one- and two-source instructions emit (30_encoding.md R100
to R105, R122, R123; 40_header_dispatch.md R190 to R203): header and operands as the record has them, native, or under
policy `Normal` compact where the tables match (45_compaction.md R370). -/

namespace Sys2Proof.Machine

/-! ## Words of laid-out operands -/

/-- The native word of a legal record whose operand fields are laid out (R165). -/
theorem OperandsLaid.wordReads {cfg : Cfg} {ins : Instruction} {shape : Shape} {operands : List Field}
    (hops : OperandsLaid cfg ins shape operands) (back : Bool) (hlegal : Layout.recordLegal cfg ins = true) :
    ∃ w, encodeNative cfg back ins = .ok (Layout.formatOf ins, w) ∧
      (Layout.headerReads cfg ins back w && Layout.operandsRead cfg ins w) = true := by
  simp only [Layout.recordLegal, Bool.and_eq_true] at hlegal
  obtain ⟨⟨hopcode, hheaderLegal⟩, -⟩ := hlegal
  have hformat := (select_fits hops.selects).format
  obtain ⟨opc, hopc, hcheck⟩ := checkOpcode_of_legal hopcode
  obtain ⟨header, hhead⟩ := encodeHeader_ok_iff (cfg := cfg) (opc := opc) (back := back).mpr hheaderLegal
  have hfields : encodeFields cfg back ins = .ok (shape, header ++ operands) := by
    simp only [encodeFields, hcheck, hops.selects, hformat, hhead, hops.encodes, ok_bind]
  obtain ⟨area, hlaid⟩ := hops.laid hopc hhead
  exact hformat ▸ encodeNative_of_laid hfields hops.unpatched hlaid

/-- The classes of words whose bits 51:48 hold the condition modifier and that are no branch (R162, R180). -/
theorem plain_of_class {m : Mnemonic} (h : m.opClass = .illegal ∨ m.opClass = .nop ∨ m.opClass = .wait) :
    condModReused m = false ∧ m.isControlFlow = false := by
  revert h
  cases m <;> decide

/-- A word without operands holds 0 in the operand areas (R123). -/
theorem noOperands_laid :
    Laid (dstArea ++ soleArea) [] fun w => Layout.noOperandsRead w && Layout.reads w 64 64 0 := by
  refine .of_spans (spans := []) (rest := dstArea ++ soleArea) rfl (by decide) fun w _ hzero => ?_
  simp only [dstArea, soleArea, List.cons_append, List.nil_append, List.forall_mem_cons] at hzero
  obtain ⟨h22, h35, h47, h55, h41, h64, -⟩ := hzero
  have hmiddle : unpack w 35 (6 + (6 + 1)) = 0 := unpack_eq_zero_of_parts h35 (unpack_eq_zero_of_parts h41 h47)
  simp [Layout.noOperandsRead, Layout.reads, h22, hmiddle, h55, h64]

/-- A legal record of illegal or nop has no operands and no payload (R164). -/
theorem bare_of_legal {cfg : Cfg} {ins : Instruction}
    (hclass : ins.opcode.opClass = .illegal ∨ ins.opcode.opClass = .nop) (h : Layout.operandsLegal cfg ins = true) :
    ins.body.destination = none ∧ ins.body.sources = [] ∧ ins.body.payload = .none := by
  obtain hclass | hclass := hclass <;>
    · simp only [Layout.operandsLegal, hclass] at h
      split at h <;> simp_all

/-- illegal and nop (R190, R191). -/
theorem operandsLaid_bare {cfg : Cfg} {ins : Instruction}
    (hclass : ins.opcode.opClass = .illegal ∨ ins.opcode.opClass = .nop) (h : Layout.operandsLegal cfg ins = true) :
    ∃ shape, OperandsLaid cfg ins shape [] := by
  have hreused : condModReused ins.opcode = false := (plain_of_class (hclass.imp_right .inl)).1
  obtain ⟨hdst, hsrcs, hpayload⟩ := bare_of_legal hclass h
  obtain ⟨fmt, hsel⟩ : ∃ fmt, select ins = .ok (.bare fmt) := by
    obtain hclass | hclass := hclass <;> simp [select, bareShape, hclass, hdst, hsrcs, hpayload]
  have hreads (w : NativeWord) : Layout.operandsRead cfg ins w =
      (Layout.condModReads cfg ins w && (Layout.noOperandsRead w && Layout.reads w 64 64 0)) := by
    obtain hclass | hclass := hclass <;> simp only [Layout.operandsRead, hclass, Bool.and_assoc]
  exact ⟨.bare fmt,
    { selects := hsel
      encodes := rfl
      unpatched := fun _ => rfl
      laid := fun hopc hhead => laid_condMod hopc hhead hreused noOperands_laid hreads }⟩

/-- The operand of a wait as destination and as source 0, and 0 in all of source 1 (R122, R248). -/
theorem wait_laid {cfg : Cfg} {r : RegOperand} {fs : List Field} (hdirect : r.addressing = .direct)
    (h : encodeWait cfg (.reg r) = .ok fs) : Laid (dstArea ++ soleArea) fs (Layout.waitReads cfg r) := by
  simp only [encodeWait, bind_eq_ok, Except.ok.injEq] at h
  obtain ⟨_, -, fd, hfd, f0, hf0, rfl⟩ := h
  have hsource := ((srcReg_laid (.inl rfl) hf0).append noSource1_laid (by decide)).widen
    (by decide : ∀ a ∈ slotArea 0 ++ [(89, 6), (96, 32)], Within soleArea a)
  rw [List.append_nil] at hsource
  have hwhole := (dst_laid hfd).append hsource (by decide)
  refine { hwhole with reads_of_holdsIn := fun w hw => ?_ }
  have hreads := hwhole.reads_of_holdsIn w hw
  simp only [Layout.reads, Bool.and_eq_true, beq_iff_eq] at hreads
  obtain ⟨hdst, ⟨hsrc, hreserved⟩, h89, h96⟩ := hreads
  have h95 : unpack w 95 1 = 0 := by simpa [Layout.slotReservedReads, hdirect, Layout.reads] using hreserved
  have hslot : unpack w 89 (6 + 1) = 0 := unpack_eq_zero_of_parts h89 h95
  simp [Layout.waitReads, Layout.reads, hdst, hsrc, hslot, h96]

/-- A legal wait record: its operand (R164, R248). -/
theorem wait_of_legal {cfg : Cfg} {ins : Instruction} (hclass : ins.opcode.opClass = .wait)
    (h : Layout.operandsLegal cfg ins = true) :
    ∃ r, ins.body.destination = none ∧ ins.body.sources = [.reg r] ∧ ins.body.payload = .none ∧
      Layout.waitLegal cfg r = true := by
  simp only [Layout.operandsLegal, hclass] at h
  split at h <;> simp_all

/-- wait (R203). -/
theorem operandsLaid_wait {cfg : Cfg} {ins : Instruction} (hclass : ins.opcode.opClass = .wait)
    (h : Layout.operandsLegal cfg ins = true) : ∃ shape operands, OperandsLaid cfg ins shape operands := by
  obtain ⟨r, hdst, hsrcs, hpayload, hlegal⟩ := wait_of_legal hclass h
  obtain ⟨fs, hfs⟩ := encodeWait_ok_iff.mpr hlegal
  have hdirect : r.addressing = .direct := by
    simp only [Layout.waitLegal, Bool.and_eq_true, beq_iff_eq] at hlegal
    obtain ⟨⟨⟨⟨⟨-, hdirect⟩, -⟩, -⟩, -⟩, -⟩ := hlegal
    exact hdirect
  exact ⟨.wait (.reg r), fs,
    { selects := by simp [select, hclass, hdst, hsrcs, hpayload]
      encodes := hfs
      unpatched := fun _ => rfl
      laid := fun hopc hhead =>
        laid_condMod hopc hhead (plain_of_class (.inr (.inr hclass))).1 (wait_laid hdirect hfs)
          fun w => by simp only [Layout.operandsRead, hclass, hsrcs] }⟩

/-! ## Formats that are never compacted (R371) -/

/-- An accepted command of an ineligible format that is no branch emits the native word of its laid-out operands. -/
theorem emitted_of_operandsLaid {s : State} {i : Instr} {shape : Shape} {operands : List Field}
    (haccepts : Layout.accepts s i = true) (hpolicy : i.body.compactionPolicy ≠ .must)
    (hineligible : eligible (Layout.formatOf i.instruction) = false) (hbranch : i.mnemonic.isControlFlow = false)
    (hops : OperandsLaid s.cfg i.instruction shape operands) :
    ∃ w : NativeWord, s.instrEmits i (.native w) false ∧ Layout.wordReads s.cfg i false w = true := by
  obtain ⟨-, -, hlegal⟩ := accepts_iff.mp haccepts
  obtain ⟨w, hnative, hreads⟩ := hops.wordReads false hlegal
  exact ⟨w, instrEmits_native haccepts hpolicy hineligible hbranch hnative, hreads⟩

/-- Settles O31: the word of a record without operands holds its header, and 0 in the operand areas. -/
theorem bareWordsEmitted : Obligations.BareWordsEmitted := by
  intro i s hmnemonic haccepts hpolicy
  have hclass : i.instruction.opcode.opClass = .illegal ∨ i.instruction.opcode.opClass = .nop := by
    change i.mnemonic.opClass = .illegal ∨ i.mnemonic.opClass = .nop
    generalize i.mnemonic = m at hmnemonic
    revert hmnemonic
    cases m <;> decide
  obtain ⟨-, -, hlegal⟩ := accepts_iff.mp haccepts
  obtain ⟨shape, hops⟩ := operandsLaid_bare hclass (Bool.and_eq_true_iff.mp hlegal).2
  have hineligible : eligible (Layout.formatOf i.instruction) = false := by
    obtain hclass | hclass := hclass <;> simp only [Layout.formatOf, hclass] <;> rfl
  exact emitted_of_operandsLaid haccepts hpolicy hineligible (plain_of_class (hclass.imp_right .inl)).2 hops

/-- Settles O35: the word of a wait holds its operand as destination and as source 0. -/
theorem waitEmitted : Obligations.WaitEmitted := by
  intro i s hmnemonic haccepts hpolicy
  have hclass : i.instruction.opcode.opClass = .wait := by
    change i.mnemonic.opClass = .wait
    rw [hmnemonic]
    rfl
  obtain ⟨-, -, hlegal⟩ := accepts_iff.mp haccepts
  obtain ⟨shape, operands, hops⟩ := operandsLaid_wait hclass (Bool.and_eq_true_iff.mp hlegal).2
  have hineligible : eligible (Layout.formatOf i.instruction) = false := by simp only [Layout.formatOf, hclass]; rfl
  exact emitted_of_operandsLaid haccepts hpolicy hineligible (plain_of_class (.inr (.inr hclass))).2 hops

/-! ## The two-source layout under policy `Normal` or `MustNot` (R370) -/

/-- An eligible format that is no branch's gives the shortest word that the policy and the tables let it. -/
theorem compact_shortest (cfg : Cfg) {policy : CompactionPolicy} {fmt : FormatTag} (w : NativeWord)
    (hpolicy : policy ≠ .must) (helig : eligible fmt = true) (hbranch : isBranchFormat fmt = false) :
    compact cfg policy fmt w = .ok (Layout.shortest cfg policy w) := by
  cases policy with
  | mustNot => rfl
  | must => exact absurd rfl hpolicy
  | normal =>
    simp only [compact, Layout.shortest, helig, hbranch]
    cases tryCompact cfg w <;> rfl

/-- What mov, not, math and the two-source instructions emit: the record's word, or its compact form. -/
theorem twoSourceLayout_emitted {s : State} {i : Instr} (hbranch : i.mnemonic.isControlFlow = false)
    (hclass : i.instruction.opcode.opClass = .oneSrc ∨ i.instruction.opcode.opClass = .twoSrc ∨
      i.instruction.opcode.opClass = .math)
    (haccepts : Layout.accepts s i = true) (hpolicy : i.body.compactionPolicy ≠ .must) :
    ∃ w : NativeWord, s.instrEmits i (Layout.shortest s.cfg i.body.compactionPolicy w) false ∧
      Layout.wordReads s.cfg i false w = true := by
  obtain ⟨-, -, hlegal⟩ := accepts_iff.mp haccepts
  have hformat : isBranchFormat (Layout.formatOf i.instruction) = false := by
    obtain hclass | hclass | hclass := hclass <;> simp only [Layout.formatOf, hclass]
    · rfl
    · rfl
    · split <;> rfl
  obtain ⟨w, hnative, hreads⟩ := operands_wordReads false hclass hlegal
  exact ⟨w, instrEmits_plain haccepts hbranch hnative
    (compact_shortest s.cfg w hpolicy (eligible_of_class hclass) hformat), hreads⟩

/-- Settles O32: the word holds header, destination and source 0. -/
theorem oneSrcEmitted : Obligations.OneSrcEmitted := by
  intro i s hmnemonic haccepts hpolicy
  have hclass : i.mnemonic.isControlFlow = false ∧ i.instruction.opcode.opClass = .oneSrc := by
    change i.mnemonic.isControlFlow = false ∧ i.mnemonic.opClass = .oneSrc
    generalize i.mnemonic = m at hmnemonic
    revert hmnemonic
    cases m <;> decide
  exact twoSourceLayout_emitted hclass.1 (.inl hclass.2) haccepts hpolicy

/-- Settles O33: the word holds header, destination and both sources. -/
theorem twoSrcEmitted : Obligations.TwoSrcEmitted := by
  intro i s hmnemonic haccepts hpolicy
  have hclass : i.mnemonic.isControlFlow = false ∧ i.instruction.opcode.opClass = .twoSrc := by
    change i.mnemonic.isControlFlow = false ∧ i.mnemonic.opClass = .twoSrc
    generalize i.mnemonic = m at hmnemonic
    revert hmnemonic
    cases m <;> decide
  exact twoSourceLayout_emitted hclass.1 (.inr (.inl hclass.2)) haccepts hpolicy

/-- Settles O34: the word holds header, destination, the function's sources, and its code in bits 51:48. -/
theorem mathEmitted : Obligations.MathEmitted := by
  intro i s hmnemonic haccepts hpolicy
  have hclass : i.mnemonic.isControlFlow = false ∧ i.mnemonic.opClass = .math := by
    rw [hmnemonic]
    decide
  exact twoSourceLayout_emitted hclass.1 (.inr (.inr hclass.2)) haccepts hpolicy

end Sys2Proof.Machine
end

section
/-! PROOFS. A native word is its fields (30_encoding.md R71, R72, R95): they lie in the word, no two overlap, and
every bit that none of them names is 0. -/

namespace Sys2Proof.Machine

/-! ## The places of a record's fields, by layout -/

section
variable {cfg : Cfg} {ins : Instruction} {opc : BitVec 7} {fmt : FormatTag} {back : Bool} {shape shape' : Shape}
  {header operands operands' : List Field}

/-- The fields of the two-source layout and of words without operands. -/
theorem OperandsLaid.fields_apart (h : OperandsLaid cfg ins shape' operands') (hsel : select ins = .ok shape)
    (hops : encodeOperands cfg ins shape = .ok operands) (hopc : cfg.opcode ins.opcode = some opc)
    (hhead : encodeHeader cfg opc fmt ins back = .ok header) : ((header ++ operands).map span).Pairwise Apart := by
  obtain rfl : shape' = shape := Except.ok.inj (h.selects.symm.trans hsel)
  obtain rfl : operands' = operands := Except.ok.inj (h.encodes.symm.trans hops)
  obtain ⟨area, hlaid⟩ := h.laid hopc hhead
  exact hlaid.apart

/-- The fields of a branch word. -/
theorem BranchOperands.fields_apart {offsets : List (Nat × Nat)} (h : BranchOperands cfg ins offsets shape' operands')
    (hbranch : ins.opcode.isControlFlow = true) (hsel : select ins = .ok shape)
    (hops : encodeOperands cfg ins shape = .ok operands) (hhead : encodeHeader cfg opc fmt ins back = .ok header) :
    ((header ++ operands).map span).Pairwise Apart := by
  obtain rfl : shape' = shape := Except.ok.inj (h.selects.symm.trans hsel)
  obtain rfl : operands' = operands := Except.ok.inj (h.encodes.symm.trans hops)
  rw [List.map_append, encodeHeader_spans (condModReused_of_controlFlow hbranch) hhead]
  exact (List.pairwise_append.mp h.apart).1

end

theorem isControlFlow_of_class {m : Mnemonic}
    (h : m.opClass = .branchOneSrc ∨ m.opClass = .branchTwoSrc ∨ m.opClass = .jmpi ∨ m.opClass = .call) :
    m.isControlFlow = true := by
  revert h
  cases m <;> decide

/-- The fields of a split send, bit 45 among them (R116, R312). -/
theorem sends_fields_apart {cfg : Cfg} {ins : Instruction} {opc : BitVec 7} {fmt : FormatTag} {back : Bool}
    {d s0 s1 : Operand} {desc exDesc : Descriptor} {header fs : List Field} (hclass : ins.opcode.opClass = .sends)
    (hhead : encodeHeader cfg opc fmt ins back = .ok header) (hfs : encodeSends cfg d s0 s1 desc exDesc = .ok fs) :
    ((header ++ (fs ++ [exDescRegField exDesc])).map span).Pairwise Apart := by
  obtain ⟨rd, r0, r1, rfl, rfl, rfl⟩ := registers_of_encodeSends hfs
  rw [List.map_append, encodeHeader_spans_reused (plain_of_sendClass (sendClass_of_class (.inr hclass))).1 hhead,
    encodeSends_spans hfs]
  exact splitSpans_apart _

/-- No two fields of a record overlap, whatever its layout (R72). -/
theorem encodeFields_apart {cfg : Cfg} {back : Bool} {ins : Instruction} {shape : Shape} {fields : List Field}
    (h : encodeFields cfg back ins = .ok (shape, fields)) : (fields.map span).Pairwise Apart := by
  have hlegal := (Bool.and_eq_true_iff.mp (encodeFields_ok_iff.mp ⟨_, h⟩)).2
  simp only [encodeFields, bind_eq_ok, Except.ok.injEq, Prod.mk.injEq] at h
  obtain ⟨opc, hcheck, shape, hsel, header, hhead, operands, hops, rfl, rfl⟩ := h
  obtain ⟨_, hopc, _, -, rfl⟩ := by simpa only [checkOpcode, bind_eq_ok, entry_eq_ok, Except.ok.injEq] using hcheck
  cases select_selected hsel with
  | bare hclass =>
    obtain ⟨shape', hlaid⟩ := operandsLaid_bare hclass hlegal
    exact hlaid.fields_apart hsel hops hopc hhead
  | one hclass =>
    obtain ⟨shape', operands', hlaid⟩ := operandsLaid_one hclass hlegal
    exact hlaid.fields_apart hsel hops hopc hhead
  | two hclass =>
    obtain ⟨shape', operands', hlaid⟩ := operandsLaid_two hclass hlegal
    exact hlaid.fields_apart hsel hops hopc hhead
  | mathOne hclass | mathTwo hclass =>
    obtain ⟨shape', operands', hlaid⟩ := operandsLaid_math hclass hlegal
    exact hlaid.fields_apart hsel hops hopc hhead
  | wait hclass =>
    obtain ⟨shape', operands', hlaid⟩ := operandsLaid_wait hclass hlegal
    exact hlaid.fields_apart hsel hops hopc hhead
  | three hclass =>
    rw [List.map_append, encodeHeader_spans (plain_of_three hclass).1 hhead, encodeThreeSrc_spans hops]
    exact threeSpans_apart _ _ _ _
  | send hclass =>
    have hmode := accessMode_of_send (encodeHeader_ok_iff.mp ⟨header, hhead⟩)
    rw [List.map_append, encodeHeader_spans_reused (plain_of_sendClass (sendClass_of_class (.inl hclass))).1 hhead,
      encodeSend_spans hmode hops]
    exact sendSpans_apart _
  | sends hclass =>
    obtain ⟨fs, hfs, hpatch⟩ := bind_eq_ok.mp hops
    have hapart := sends_fields_apart hclass hhead hfs
    split at hpatch <;> cases hpatch
    · exact hapart.sublist (((List.sublist_append_left _ _).append_left _).map _)
    · exact hapart
  | branchOne hclass =>
    obtain ⟨_, -, hbranch⟩ := branchOperands_one hclass hlegal
    exact hbranch.fields_apart (isControlFlow_of_class (.inl hclass)) hsel hops hhead
  | branchTwo hclass =>
    obtain ⟨_, _, -, hbranch⟩ := branchOperands_two hclass hlegal
    exact hbranch.fields_apart (isControlFlow_of_class (.inr (.inl hclass))) hsel hops hhead
  | jmpi hclass =>
    obtain ⟨_, -, hbranch⟩ := branchOperands_jmpi hclass hlegal
    exact hbranch.fields_apart (isControlFlow_of_class (.inr (.inr (.inl hclass)))) hsel hops hhead
  | call hclass =>
    obtain ⟨_, _, _, -, hbranch⟩ := branchOperands_call hclass hlegal
    exact hbranch.fields_apart (isControlFlow_of_class (.inr (.inr (.inr hclass)))) hsel hops hhead

/-- Settles O27: layout by layout, the fields have places of their own in the word. -/
theorem fieldsDisjoint : Obligations.FieldsDisjoint := fun _ _ _ _ _ h =>
  ⟨List.pairwise_map.mp (encodeFields_apart h), encodeFields_inWord h⟩

/-! ## The word of the fields (R165, R312) -/

/-- Bit 45 is no field's where the split-send patch writes it. -/
theorem holds_applySendsPatch {cfg : Cfg} {back : Bool} {ins : Instruction} {shape : Shape} {fields : List Field}
    {w : NativeWord} (h : encodeFields cfg back ins = .ok (shape, fields)) (hw : Holds w fields) :
    Holds (applySendsPatch cfg shape w) fields := by
  cases shape with
  | sends d s0 s1 desc exDesc =>
    cases hpatch : cfg.sendsExDescPatch with
    | false => simpa only [applySendsPatch, hpatch, Bool.false_eq_true, if_false] using hw
    | true =>
      simp only [encodeFields, bind_eq_ok, Except.ok.injEq, Prod.mk.injEq] at h
      obtain ⟨opc, -, shape, hsel, header, hhead, operands, hops, rfl, rfl⟩ := h
      simp only [encodeOperands, hpatch, if_true, bind_eq_ok, Except.ok.injEq] at hops
      obtain ⟨fs, hfs, rfl⟩ := hops
      have hapart := sends_fields_apart (class_of_format_sends (select_fits hsel).format.symm) hhead hfs
      rw [← List.append_assoc, List.map_append, List.pairwise_append] at hapart
      obtain ⟨-, -, hbit⟩ := hapart
      intro f hf
      have hfree : f.off + f.width ≤ 45 ∨ 45 + 1 ≤ f.off :=
        hbit _ (List.mem_map_of_mem hf) _ (List.mem_singleton_self _)
      rw [applySendsPatch, if_pos hpatch, sendsPatch, unpack_setField_disjoint w hfree]
      exact hw f hf
  | _ => exact hw

/-- The split-send patch leaves every bit but 45 of a split send (R312). -/
theorem getLsbD_applySendsPatch (cfg : Cfg) {shape : Shape} (w : NativeWord) {k : Nat}
    (hk : ¬(shape.format = .sends ∧ k = 45)) : (applySendsPatch cfg shape w).getLsbD k = w.getLsbD k := by
  cases shape with
  | sends d s0 s1 desc exDesc => exact applySendsPatch_getLsbD cfg _ w fun h => hk ⟨rfl, h⟩
  | _ => rfl

/-- Settles O28: fields with places of their own are packed into their word, which the patch then leaves but for
bit 45. -/
theorem wordIsItsFields : Obligations.WordIsItsFields := by
  intro cfg back ins shape fields h
  obtain ⟨w, hpack, hword⟩ := packFields_wordOf (encodeFields_inWord h) (encodeFields_apart h)
  refine ⟨applySendsPatch cfg shape w, ?_, holds_applySendsPatch h hword.holds, fun k hk hpatch => ?_⟩
  · simp only [encodeNative, h, hpack, ok_bind]
  · rw [getLsbD_applySendsPatch cfg w hpatch, hword.blank k hk]

end Sys2Proof.Machine
end

section
/-! PROOFS. The binary interchange formats (00_scope.md R96): a bit pattern is a sign, an exponent and a fraction; which
patterns stand for a value, and that the value a pattern stands for is exact. -/

namespace Sys2Proof.Machine

open Decoding

/-! ## Bit patterns -/

/-- The bit pattern with the sign, the exponent field and the fraction field given. -/
def floatPattern (e f : Nat) (neg : Bool) (ex fr : Nat) : Nat := fr + 2 ^ f * (ex + 2 ^ e * neg.toNat)

/-- The number a finite pattern stands for, in units of the smallest subnormal. -/
def floatMagnitude (f ex fr : Nat) : Nat := if ex = 0 then fr else (2 ^ f + fr) * 2 ^ (ex - 1)

/-- One, in units of the smallest subnormal. -/
def floatOne (e f : Nat) : Nat := 2 ^ (2 ^ (e - 1) + f - 2)

theorem floatOne_pos (e f : Nat) : 0 < floatOne e f := Nat.two_pow_pos _

theorem or_eq_floatPattern {e f : Nat} (neg : Bool) {ex fr : Nat} (hex : ex < 2 ^ e) (hfr : fr < 2 ^ f) :
    neg.toNat <<< (e + f) ||| ex <<< f ||| fr = floatPattern e f neg ex fr := by
  have hsign : neg.toNat <<< (e + f) ||| ex <<< f = (ex + 2 ^ e * neg.toNat) <<< f := by
    rw [Nat.shiftLeft_add, ← Nat.shiftLeft_or_distrib, Nat.or_comm, or_shiftLeft_eq_add hex]
  rw [hsign, Nat.or_comm, or_shiftLeft_eq_add hfr, floatPattern]

theorem exists_floatPattern {e f b : Nat} (h : b < 2 ^ (1 + e + f)) :
    ∃ neg ex fr, ex < 2 ^ e ∧ fr < 2 ^ f ∧ b = floatPattern e f neg ex fr := by
  have hsign : b / 2 ^ f / 2 ^ e < 2 := by
    rw [Nat.div_div_eq_div_mul, ← pow_add, Nat.div_lt_iff_lt_mul (Nat.two_pow_pos _), ← pow_succ']
    rwa [show f + e + 1 = 1 + e + f by omega]
  have hneg : (b / 2 ^ f / 2 ^ e == 1).toNat = b / 2 ^ f / 2 ^ e := by
    generalize b / 2 ^ f / 2 ^ e = s at hsign
    obtain rfl | rfl : s = 0 ∨ s = 1 := by omega
    all_goals rfl
  refine ⟨b / 2 ^ f / 2 ^ e == 1, b / 2 ^ f % 2 ^ e, b % 2 ^ f, Nat.mod_lt _ (Nat.two_pow_pos _),
    Nat.mod_lt _ (Nat.two_pow_pos _), ?_⟩
  rw [floatPattern, hneg, Nat.mod_add_div, Nat.mod_add_div]

/-- The value of a pattern, by its three fields. -/
theorem floatOf_floatPattern {e f : Nat} (neg : Bool) {ex fr : Nat} (hex : ex < 2 ^ e) (hfr : fr < 2 ^ f) :
    floatOf e f (floatPattern e f neg ex fr) =
      if ex = 2 ^ e - 1 then if fr = 0 then .infinity neg else .nan neg fr
      else .finite neg (floatMagnitude f ex fr / (floatMagnitude f ex fr).gcd (floatOne e f))
        (floatOne e f / (floatMagnitude f ex fr).gcd (floatOne e f)) := by
  have hupper : floatPattern e f neg ex fr / 2 ^ f = ex + 2 ^ e * neg.toNat := by
    rw [floatPattern, Nat.add_mul_div_left _ _ (Nat.two_pow_pos f), Nat.div_eq_of_lt hfr, Nat.zero_add]
  have hfraction : floatPattern e f neg ex fr % 2 ^ f = fr := by
    rw [floatPattern, Nat.add_mul_mod_self_left, Nat.mod_eq_of_lt hfr]
  have hexponent : (ex + 2 ^ e * neg.toNat) % 2 ^ e = ex := by
    rw [Nat.add_mul_mod_self_left, Nat.mod_eq_of_lt hex]
  have hsign : (floatPattern e f neg ex fr / 2 ^ (e + f) % 2 == 1) = neg := by
    rw [Nat.add_comm e f, pow_add, ← Nat.div_div_eq_div_mul, hupper, Nat.add_mul_div_left _ _ (Nat.two_pow_pos e),
      Nat.div_eq_of_lt hex, Nat.zero_add]
    cases neg <;> rfl
  simp only [floatOf, hupper, hfraction, hexponent, hsign]
  rfl

/-! ## Which patterns stand for a value -/

theorem log2_mul_pow {f fr : Nat} (hfr : fr < 2 ^ f) (s : Nat) : Nat.log2 ((2 ^ f + fr) * 2 ^ s) = f + s := by
  have hpos : 0 < 2 ^ f := Nat.two_pow_pos f
  rw [Nat.log2_eq_iff (Nat.mul_ne_zero (by omega) (Nat.two_pow_pos s).ne')]
  constructor
  · rw [pow_add]
    exact Nat.mul_le_mul_right _ (Nat.le_add_right _ _)
  · rw [show f + s + 1 = (f + 1) + s by omega, pow_add, pow_succ]
    exact Nat.mul_lt_mul_of_pos_right (by omega) (Nat.two_pow_pos s)

/-- The pattern of a number of units of the smallest subnormal, if it has one: `floatBits` after the division. -/
def numberPattern (e f : Nat) (neg : Bool) (n : Nat) : Option Nat :=
  if n < 2 ^ f then some (neg.toNat <<< (e + f) ||| n)
  else if n % 2 ^ (Nat.log2 n - f) != 0 || decide (2 ^ e - 1 ≤ Nat.log2 n - f + 1) then none
  else some (neg.toNat <<< (e + f) ||| (Nat.log2 n - f + 1) <<< f ||| (n >>> (Nat.log2 n - f) - 2 ^ f))

theorem floatBits_finite (e f : Nat) (neg : Bool) (num den : Nat) :
    floatBits e f (.finite neg num den) =
      if den == 0 || num * floatOne e f % den != 0 then none
      else numberPattern e f neg (num * floatOne e f / den) := rfl

/-- A number below `2 ^ f` has a subnormal pattern. -/
theorem numberPattern_of_lt {e f : Nat} (neg : Bool) {n : Nat} (hn : n < 2 ^ f) :
    numberPattern e f neg n = some (floatPattern e f neg 0 n) := by
  rw [numberPattern, if_pos hn, ← or_eq_floatPattern neg (Nat.two_pow_pos e) hn, Nat.zero_shiftLeft, Nat.or_zero]

/-- A number whose binary digits after the first `f + 1` are 0 has the pattern of its exponent and its fraction. -/
theorem numberPattern_of_normal {e f : Nat} (neg : Bool) {s fr : Nat} (hs : s + 1 < 2 ^ e - 1) (hfr : fr < 2 ^ f) :
    numberPattern e f neg ((2 ^ f + fr) * 2 ^ s) = some (floatPattern e f neg (s + 1) fr) := by
  have hge : ¬(2 ^ f + fr) * 2 ^ s < 2 ^ f :=
    Nat.not_lt.mpr ((Nat.le_add_right _ _).trans (Nat.le_mul_of_pos_right _ (Nat.two_pow_pos s)))
  have hdigits : ((2 ^ f + fr) * 2 ^ s) >>> s - 2 ^ f = fr := by
    rw [Nat.shiftRight_eq_div_pow, Nat.mul_div_cancel _ (Nat.two_pow_pos s), Nat.add_sub_cancel_left]
  have hexp : decide (2 ^ e - 1 ≤ s + 1) = false := decide_eq_false (by omega)
  rw [numberPattern, if_neg hge, log2_mul_pow hfr, Nat.add_sub_cancel_left, Nat.mul_mod_left, hdigits, hexp,
    if_neg (by decide), or_eq_floatPattern neg (by omega) hfr]

/-- A number with a pattern is the number that the pattern's exponent and fraction give. -/
theorem numberPattern_eq_some {e f : Nat} (he : 0 < e) {neg : Bool} {n b : Nat}
    (h : numberPattern e f neg n = some b) :
    ∃ ex fr, ex < 2 ^ e - 1 ∧ fr < 2 ^ f ∧ n = floatMagnitude f ex fr ∧ b = floatPattern e f neg ex fr := by
  by_cases hn : n < 2 ^ f
  · rw [numberPattern_of_lt neg hn, Option.some.injEq] at h
    have hone : 1 < 2 ^ e := Nat.one_lt_two_pow he.ne'
    exact ⟨0, n, by omega, hn, rfl, h.symm⟩
  · have hf : f ≤ n.log2 := (Nat.le_log2 (by have := Nat.two_pow_pos f; omega)).mpr (by omega)
    obtain ⟨s, hs⟩ := Nat.exists_eq_add_of_le hf
    have hcond := h
    simp only [numberPattern, if_neg hn, Option.ite_none_left_eq_some, Bool.or_eq_true, bne_iff_ne, decide_eq_true_eq,
      not_or, not_not, hs, Nat.add_sub_cancel_left] at hcond
    obtain ⟨⟨hlow, hexp⟩, -⟩ := hcond
    have hlo : 2 ^ f ≤ n / 2 ^ s := by
      rw [Nat.le_div_iff_mul_le (Nat.two_pow_pos s), ← pow_add, ← hs]
      exact Nat.log2_self_le (by have := Nat.two_pow_pos f; omega)
    have hhi : n / 2 ^ s < 2 ^ f * 2 := by
      rw [Nat.div_lt_iff_lt_mul (Nat.two_pow_pos s), ← pow_succ, ← pow_add, show f + 1 + s = n.log2 + 1 by omega]
      exact Nat.lt_log2_self
    obtain ⟨fr, hfr⟩ := Nat.exists_eq_add_of_le hlo
    have heq : n = (2 ^ f + fr) * 2 ^ s := by rw [← hfr, Nat.div_mul_cancel (Nat.dvd_of_mod_eq_zero hlow)]
    have hfrLt : fr < 2 ^ f := by omega
    rw [heq, numberPattern_of_normal neg (by omega) hfrLt, Option.some.injEq] at h
    exact ⟨s + 1, fr, by omega, hfrLt, heq, h.symm⟩

/-- The number of a finite pattern has that pattern. -/
theorem numberPattern_floatMagnitude {e f : Nat} (neg : Bool) {ex fr : Nat} (hex : ex < 2 ^ e - 1) (hfr : fr < 2 ^ f) :
    numberPattern e f neg (floatMagnitude f ex fr) = some (floatPattern e f neg ex fr) := by
  cases ex with
  | zero => exact numberPattern_of_lt neg hfr
  | succ s => exact numberPattern_of_normal neg hex hfr

/-! ## Reading back -/

/-- Settles O29: the value of a finite pattern is its number over one, in lowest terms, and that number has the
pattern. -/
theorem floatBitsReadBack : Obligations.FloatBitsReadBack := by
  intro e f _ b hb
  obtain ⟨neg, ex, fr, hex, hfr, rfl⟩ := exists_floatPattern hb
  rw [floatOf_floatPattern neg hex hfr]
  by_cases hones : ex = 2 ^ e - 1
  · by_cases hzero : fr = 0
    · rw [if_pos hones, if_pos hzero, floatBits, ← or_eq_floatPattern neg hex hfr, ← hones, hzero, Nat.or_zero]
    · rw [if_pos hones, if_neg hzero, ← or_eq_floatPattern neg hex hfr, hones]
      simp [floatBits, hzero, fitsU, hfr]
  · rw [if_neg hones, floatBits_finite]
    generalize hn : floatMagnitude f ex fr = n
    have hpos : 0 < n.gcd (floatOne e f) := Nat.gcd_pos_of_pos_right _ (floatOne_pos e f)
    have hden : 0 < floatOne e f / n.gcd (floatOne e f) :=
      Nat.div_pos (Nat.le_of_dvd (floatOne_pos e f) (Nat.gcd_dvd_right _ _)) hpos
    have hscaled : n / n.gcd (floatOne e f) * floatOne e f = n * (floatOne e f / n.gcd (floatOne e f)) := by
      rw [Nat.div_mul_right_comm (Nat.gcd_dvd_left _ _), Nat.mul_div_assoc _ (Nat.gcd_dvd_right _ _)]
    rw [hscaled, Nat.mul_mod_left, Nat.mul_div_cancel _ hden, if_neg (by simpa using hden.ne'), ← hn]
    exact numberPattern_floatMagnitude neg (by omega) hfr

/-- What has a pattern is what the pattern stands for: infinities and NaNs as they are, a fraction as an equal one in
lowest terms (R96). -/
theorem floatOf_of_floatBits {e f : Nat} (he : 0 < e) {v : FloatValue} {b : Nat} (h : floatBits e f v = some b) :
    match v with
    | .finite neg num den => ∃ num' den', floatOf e f b = .finite neg num' den' ∧ num'.gcd den' = 1 ∧ den ≠ 0 ∧
        num * den' = num' * den
    | _ => floatOf e f b = v := by
  have hones : 2 ^ e - 1 < 2 ^ e := Nat.sub_lt (Nat.two_pow_pos e) (by decide)
  cases v with
  | infinity neg =>
    obtain rfl : neg.toNat <<< (e + f) ||| (2 ^ e - 1) <<< f = b := by simpa [floatBits] using h
    have hpattern := or_eq_floatPattern neg hones (Nat.two_pow_pos f)
    rw [Nat.or_zero] at hpattern
    simp [hpattern, floatOf_floatPattern neg hones (Nat.two_pow_pos f)]
  | nan neg payload =>
    simp only [floatBits, fitsU, Option.ite_none_right_eq_some, Bool.and_eq_true, decide_eq_true_eq, bne_iff_ne,
      Option.some.injEq] at h
    obtain ⟨⟨hne, hpayload⟩, rfl⟩ := h
    simp [or_eq_floatPattern neg hones hpayload, floatOf_floatPattern neg hones hpayload, hne]
  | finite neg num den =>
    simp only [floatBits_finite, Option.ite_none_left_eq_some, Bool.or_eq_true, beq_iff_eq, bne_iff_ne, not_or,
      not_not] at h
    obtain ⟨⟨hden, hdvd⟩, h⟩ := h
    obtain ⟨ex, fr, hex, hfr, hn, rfl⟩ := numberPattern_eq_some he h
    have hscaled : num * floatOne e f = floatMagnitude f ex fr * den := by
      rw [← hn, Nat.div_mul_cancel (Nat.dvd_of_mod_eq_zero hdvd)]
    rw [floatOf_floatPattern neg (by omega) hfr, if_neg (by omega)]
    generalize floatMagnitude f ex fr = n at hscaled
    have hpos : 0 < n.gcd (floatOne e f) := Nat.gcd_pos_of_pos_right _ (floatOne_pos e f)
    refine ⟨_, _, rfl, Nat.coprime_div_gcd_div_gcd hpos, hden, ?_⟩
    rw [← Nat.mul_div_assoc _ (Nat.gcd_dvd_right _ _), hscaled, Nat.div_mul_right_comm (Nat.gcd_dvd_left _ _)]

/-- Settles O30: a value has a pattern only as the number that the pattern gives. -/
theorem floatExact : Obligations.FloatExact := by
  intro e f hformat v b h
  have he : 0 < e := by
    simp only [List.mem_cons, Prod.mk.injEq, List.not_mem_nil, or_false] at hformat
    omega
  refine ⟨floatBits_lt h, ?_⟩
  have hvalue := floatOf_of_floatBits he h
  cases v with
  | finite neg num den =>
    obtain ⟨num', den', hof, -, hden, heq⟩ := hvalue
    exact ⟨num', den', hof, hden, heq⟩
  | infinity neg => exact hvalue
  | nan neg payload => exact hvalue

/-- A value in lowest terms is the value that its pattern stands for. -/
theorem floatOf_of_lowestTerms {e f : Nat} (he : 0 < e) {v : FloatValue} {b : Nat} (h : floatBits e f v = some b)
    (hlowest : ∀ neg num den, v = .finite neg num den → num.gcd den = 1) : floatOf e f b = v := by
  have hvalue := floatOf_of_floatBits he h
  cases v with
  | finite neg num den =>
    obtain ⟨num', den', hof, hcoprime', -, heq⟩ := hvalue
    have hcoprime : num.Coprime den := hlowest neg num den rfl
    have hnum : num = num' := Nat.dvd_antisymm
      (hcoprime.dvd_of_dvd_mul_right (heq ▸ Nat.dvd_mul_right num den'))
      (Nat.Coprime.dvd_of_dvd_mul_right hcoprime' (heq ▸ Nat.dvd_mul_right num' den))
    have hden : den = den' := Nat.dvd_antisymm
      (hcoprime.symm.dvd_of_dvd_mul_left (heq ▸ Nat.dvd_mul_left den num'))
      ((Nat.Coprime.symm hcoprime').dvd_of_dvd_mul_left (heq ▸ Nat.dvd_mul_left den' num))
    rw [hof, hnum, hden]
  | infinity neg => exact hvalue
  | nan neg payload => exact hvalue

end Sys2Proof.Machine
end

section
/-! PROOFS. Reading a word back, part by part (30_encoding.md R100 to R104): where a word reads as a table of
Sys2Proof/Machine/Layout.lean says and the record is legal and canonical, the decoder gives the record's part. Here the
code tables, registers, sub-registers, the header, and the step from a native word to its bytes. -/

namespace Sys2Proof

open Decoding Layout Machine

/-! ## Checks on a word -/

theorem reads_iff {w : NativeWord} {off width v : Nat} : reads w off width v = true ↔ unpack w off width = v :=
  beq_iff_eq

theorem readsCode_iff {n : Nat} {w : NativeWord} {off width : Nat} {code : Option (BitVec n)} :
    readsCode w off width code = true ↔ ∃ c, code = some c ∧ unpack w off width = c.toNat := by
  cases code with
  | none => simp [readsCode]
  | some c =>
    simp only [readsCode, Option.map_some, beq_iff_eq, Option.some.injEq, exists_eq_left']
    exact eq_comm

theorem readsNat_iff {w : NativeWord} {off width : Nat} {code : Option Nat} :
    readsNat w off width code = true ↔ code = some (unpack w off width) := beq_iff_eq

@[simp] theorem reserved_nil {n : Nat} (w : BitVec n) : reserved w [] = .ok () := rfl

theorem reserved_cons {n : Nat} {w : BitVec n} {off width : Nat} {rest : List (Nat × Nat)}
    (h : unpack w off width = 0) : reserved w ((off, width) :: rest) = reserved w rest := by
  simp [reserved, h]

/-- Places that all hold 0 pass for reserved bits (R71). -/
theorem reserved_of_zero {n : Nat} {w : BitVec n} {places : List (Nat × Nat)}
    (h : ∀ q ∈ places, unpack w q.1 q.2 = 0) : reserved w places = .ok () := by
  induction places with
  | nil => rfl
  | cons q rest ih =>
    obtain ⟨hq, hrest⟩ := List.forall_mem_cons.mp h
    rw [reserved_cons hq, ih hrest]

theorem flag_of_toNat {w : NativeWord} {i : Nat} {b : Bool} (h : unpack w i 1 = b.toNat) : flag w i = b := by
  cases b <;> simp [flag, h]

theorem DataType.bytes_pos (t : DataType) : 0 < t.bytes := by cases t <;> decide

/-! ## Tables read backwards -/

/-- What `Cfg.readable` checks, table by table: each name's code is read back as that name. -/
structure Cfg.Readable (cfg : Cfg) : Prop where
  opcode : ∀ {m c}, cfg.opcode m = some c → keyOf cfg.opc c = some m
  regType : ∀ {t c}, cfg.regTypeCode t = some c → regTypeOf cfg c.toNat = some t
  immType : ∀ {t c}, cfg.immTypeCode t = some c → immTypeOf cfg c.toNat = some t
  type3 : ∀ {t c}, cfg.type3Code t = some c → type3Of cfg c.toNat = some t
  arfSel : ∀ sel, nameOf allArfSel cfg.arfSel.code (cfg.arfSel.code sel) = some sel
  accName : ∀ a, nameOf allAccName (fun n => (cfg.specialAcc.code n).toNat) (cfg.specialAcc.code a).toNat = some a
  predCtrl : ∀ c, 1 < (cfg.predCtrl.code c).toNat ∧
    nameOf allPredCtrl cfg.predCtrl.code (cfg.predCtrl.code c) = some c
  condMod : ∀ {m}, m ≠ .none → m ≠ .zero →
    cfg.condMod.code m ≠ 0#4 ∧ nameOf allCondMod cfg.condMod.code (cfg.condMod.code m) = some m
  mathFc : ∀ {f c}, cfg.mathFc.lookup f = some c → keyOf cfg.mathFc c = some f

theorem Cfg.readable_parts {cfg : Cfg} (h : cfg.readable = true) : cfg.Readable := by
  simp only [Cfg.readable, Bool.and_eq_true, List.all_eq_true, Option.all_eq_true, Bool.or_eq_true, beq_iff_eq,
    bne_iff_ne, decide_eq_true_eq, and_assoc] at h
  obtain ⟨hopcode, hreg, himm, htype3, harf, hacc, hpred, hcond, hmath⟩ := h
  exact
    { opcode := fun {m _} hm => hopcode m (by cases m <;> decide) _ hm
      regType := fun {t _} ht => hreg t (by cases t <;> decide) _ ht
      immType := fun {t _} ht => himm t (by cases t <;> decide) _ ht
      type3 := fun {t _} ht => htype3 t (by cases t <;> decide) _ ht
      arfSel := fun sel => harf sel (by cases sel <;> decide)
      accName := fun a => hacc a (by cases a <;> decide)
      predCtrl := fun c => hpred c (by cases c <;> decide)
      condMod := fun {m} hnone hzero =>
        (hcond m (by revert hnone; cases m <;> decide)).resolve_left hzero
      mathFc := fun {f _} hf => hmath f (by cases f <;> decide) _ hf }

section
variable {cfg : Cfg} (hr : cfg.Readable) {w : NativeWord} {off : Nat} {t : DataType}
include hr

theorem regTypeOf_of_reads (h : readsCode w off 4 (cfg.regTypeCode t) = true) :
    regTypeOf cfg (unpack w off 4) = some t := by
  obtain ⟨c, hc, hw⟩ := readsCode_iff.mp h
  rw [hw, hr.regType hc]

theorem immTypeOf_of_reads (h : readsCode w off 4 (cfg.immTypeCode t) = true) :
    immTypeOf cfg (unpack w off 4) = some t := by
  obtain ⟨c, hc, hw⟩ := readsCode_iff.mp h
  rw [hw, hr.immType hc]

theorem type3Of_of_reads (h : readsCode w off 3 (cfg.type3Code t) = true) :
    type3Of cfg (unpack w off 3) = some t := by
  obtain ⟨c, hc, hw⟩ := readsCode_iff.mp h
  rw [hw, hr.type3 hc]

/-! ## Registers (R83, R89, R230) -/

/-- A register is read back from its file code and its number field. -/
theorem readRegister_of_legal {r : RegOperand} (h : registerLegal cfg r = true) :
    readRegister cfg (if r.file = .grf then 1 else 0) (registerNumber cfg r) = .ok (r.file, r.number) := by
  cases hfile : r.file with
  | grf => simp [readRegister, registerNumber, hfile]
  | arf sel =>
    have hnumber : r.number < 16 := by
      simp only [registerLegal, hfile, Bool.and_eq_true, decide_eq_true_eq] at h
      exact h.1
    have hsel : (16 * (cfg.arfSel.code sel).toNat + r.number) / 16 = (cfg.arfSel.code sel).toNat := by omega
    have hlow : (16 * (cfg.arfSel.code sel).toNat + r.number) % 16 = r.number := by omega
    simp [readRegister, registerNumber, hfile, hsel, hlow, hr.arfSel sel]

/-- A register whose file alone stands in the word: a GRF register, or an ARF one of selector code 0, with number 0
(R234, R241, R310). -/
theorem readRegister_zero {file : RegFile} (h : ∀ sel, file = .arf sel → cfg.arfSel.code sel = 0#4) :
    readRegister cfg (if file = .grf then 1 else 0) 0 = .ok (file, 0) := by
  cases file with
  | grf => rfl
  | arf sel =>
    have hname := h sel rfl ▸ hr.arfSel sel
    simp [readRegister, hname]

theorem readRegister3_of_legal {r : RegOperand} (h : registerLegal cfg r = true) :
    readRegister3 cfg (if r.file = .grf then 0 else 1) (registerNumber cfg r) = .ok (r.file, r.number) := by
  have hcode : 1 - (if r.file = .grf then 0 else 1) = if r.file = .grf then 1 else 0 := by split <;> rfl
  rw [readRegister3, hcode, readRegister_of_legal hr h]

/-- The sub-register field of a direct Align1 operand gives the sub-register, or the special accumulator in its place
(R230, R237, R243). -/
theorem readSub_of_legal {r : RegOperand} {overlay : Bool} (hacc : accLegal r = true)
    (hcanonical : accReadable cfg r = true) (hoverlay : r.specialAcc.isNone = true ∨ overlay = true) :
    readSub cfg r.dataType overlay (subRegOrAcc cfg r) = .ok (r.subregister, r.specialAcc) := by
  cases ha : r.specialAcc with
  | none =>
    simp [readSub, subRegOrAcc, ha, offsetInRegister, Nat.mul_div_cancel _ (DataType.bytes_pos _)]
  | some a =>
    obtain rfl : overlay = true := by simpa [ha] using hoverlay
    have hsub : r.subregister = 0 := by
      simp only [accLegal, ha, Option.isNone_some, Bool.false_or, Bool.and_eq_true, beq_iff_eq] at hacc
      exact hacc.2
    have hcode : (cfg.specialAcc.code a).toNat % r.dataType.bytes ≠ 0 := by
      simpa [accReadable, ha] using hcanonical
    simp [readSub, subRegOrAcc, ha, hcode, hr.accName a, hsub]

omit hr in
/-- The high bit of an Align16 sub-register offset gives the sub-register (R235, R242). -/
theorem subregister_of_highBit {r : RegOperand} (h : offsetInRegister r % 16 = 0) :
    16 * (offsetInRegister r / 16) / r.dataType.bytes = r.subregister := by
  rw [Nat.mul_div_cancel' (Nat.dvd_of_mod_eq_zero h), offsetInRegister, Nat.mul_div_cancel _ (DataType.bytes_pos _)]

/-! ## Header (R100, R171 to R183) -/

/-- The predicate (R176). -/
theorem readPredicate_of_reads {p : Option Predicate} (hreads : predicateReads cfg p w = true)
    (hlegal : ∀ q, p = some q → q.flagReg < 2 ∧ q.flagSubreg < 2) : readPredicate cfg w = .ok p := by
  cases p with
  | none =>
    simp only [predicateReads, Bool.and_eq_true, reads_iff] at hreads
    obtain ⟨⟨⟨h16, h20⟩, h32⟩, h33⟩ := hreads
    have hflag : unpack w 32 (1 + 1) = 0 := unpack_eq_zero_of_parts h32 h33
    simp [readPredicate, h16, h20, hflag]
  | some q =>
    obtain ⟨flagReg, flagSubreg, inverted, control⟩ := q
    simp only [predicateReads, Bool.and_eq_true, reads_iff] at hreads
    obtain ⟨⟨⟨h16, h20⟩, h32⟩, h33⟩ := hreads
    have hinverted := flag_of_toNat h20
    cases control with
    | none => simp [readPredicate, h16, hinverted, h32, h33]
    | some c =>
      obtain ⟨hcode, hname⟩ := hr.predCtrl c
      have h0 : (cfg.predCtrl.code c).toNat ≠ 0 := by omega
      have h1 : (cfg.predCtrl.code c).toNat ≠ 1 := by omega
      simp [readPredicate, h16, h0, h1, hname, hinverted, h32, h33]

/-- Bits 51:48 where they hold the condition modifier (R180), one with a code of its own (R82). -/
theorem readCondMod_of_reads {ins : Instruction} (hreads : condModReads cfg ins w = true)
    (hreused : condModReused ins.opcode = false) (hnone : ins.body.conditionModifier ≠ some .none)
    (hzero : ins.body.conditionModifier ≠ some .zero) :
    readCondMod cfg ins.opcode w = .ok ins.body.conditionModifier := by
  simp only [condModReused, Bool.or_eq_false_iff] at hreused
  cases hm : ins.body.conditionModifier with
  | none =>
    simp only [condModReads, hm, reads_iff] at hreads
    simp [readCondMod, hreads]
  | some m =>
    simp only [condModReads, hm, reads_iff] at hreads
    obtain ⟨hcode, hname⟩ := hr.condMod (m := m) (by rintro rfl; exact hnone hm) (by rintro rfl; exact hzero hm)
    have hne : (cfg.condMod.code m).toNat ≠ 0 := fun h => hcode (BitVec.eq_of_toNat_eq h)
    simp [readCondMod, hreads, hreused.1, hreused.2, hname, hne]

omit hr in
/-- Bits 51:48 where they hold another field: there is no condition modifier (R180). -/
theorem readCondMod_reused {m : Mnemonic} (h : condModReused m = true) : readCondMod cfg m w = .ok none := by
  simp only [condModReused] at h
  simp [readCondMod, h]

omit hr in
theorem execSizeOf_code {n c : Nat} (h : execSizeCode n = some c) : execSizeOf c = some n := by
  unfold execSizeCode at h
  split at h <;> cases h <;> rfl

omit hr in
theorem threadControlOf_code (t : ThreadControl) : threadControlOf t.code = t := by cases t <;> rfl

/-- A record without its operands and its payload: what the header of its word tells. -/
def headerPart (b : InsBody) : InsBody := { b with destination := none, sources := [], payload := .none }

/-- The header of a legal record is read back (R100). -/
theorem readHeader_of_reads {ins : Instruction} {fmt : FormatTag} (hreads : headerReads cfg ins false w = true)
    (hlegal : headerLegal fmt ins = true)
    (hcond : readCondMod cfg ins.opcode w = .ok ins.body.conditionModifier) :
    readHeader cfg ins.opcode ins.body.compactionPolicy w = .ok (headerPart ins.body) := by
  obtain ⟨-, hoffset, hflags⟩ := ranges_of_headerLegal hlegal
  simp only [headerReads, Bool.and_eq_true, and_assoc, reads_iff, readsNat_iff, Bool.or_false] at hreads
  obtain ⟨-, -, h8, h9, h10, h11, h12, h14, hpred, h21, h29, h34, h52, -, h54⟩ := hreads
  have hpredicate : readPredicate cfg w = .ok ins.body.predicate := by
    refine readPredicate_of_reads hr hpred fun q hq => ?_
    simpa [InsBody.flagsOk, hq] using hflags
  have hmode : (if flag w 8 = true then AccessMode.align16 else .align1) = ins.body.accessMode := by
    cases hmode : ins.body.accessMode <;> simp [flag, h8, hmode]
  have hmask : (if flag w 34 = true then MaskControl.noMask else .normal) = ins.body.maskControl := by
    cases hmask : ins.body.maskControl <;> simp [flag, h34, hmask]
  have hmaskOffset : 8 * (ins.body.maskOffset / 8) + 4 * (ins.body.maskOffset / 4 % 2) = ins.body.maskOffset := by
    simp only [InsBody.offsetOk, Bool.and_eq_true, decide_eq_true_eq, beq_iff_eq] at hoffset
    omega
  simp [readHeader, headerPart, execSizeOf_code h29, hpredicate, hcond, hmode, hmask, h11, h12, hmaskOffset, h14,
    threadControlOf_code, flag_of_toNat h9, flag_of_toNat h10, flag_of_toNat h21, flag_of_toNat h52, flag_of_toNat h54]

end

/-! ## The native word and its bytes (R53, R150) -/

/-- The bytes of a native word, with any bytes after them, decode as the native word does. -/
theorem decode_toBytes_append {cfg : Cfg} {w : NativeWord} {i : Instr} (hlength : unpack w 53 1 = 0)
    (hnative : decodeNative cfg .mustNot w = .ok i) (rest : List Byte) :
    decode cfg (toBytes 16 w.toNat ++ rest) = .ok (i, rest) := by
  have hlen := length_toBytes 16 w.toNat
  have htake8 : (toBytes 16 w.toNat ++ rest).take 8 = (toBytes 16 w.toNat).take 8 :=
    List.take_append_of_le_length (by omega)
  have hbit : isCompactAt (ofBytes ((toBytes 16 w.toNat).take 8)) = false := by rw [isCompactAt_toBytes, hlength]; rfl
  have hshort : ¬(16 + rest.length < 8) := by omega
  simp [decode, htake8, hbit, hlen, ofNat_ofBytes_toBytes, hnative, hshort]

theorem instr_of_parts (i : Instr) : i.mnemonic.instr i.body i.defs = i := by cases i <;> rfl

/-- What `Instr.canonical` asks of a record beside its operands. -/
theorem canonical_parts {cfg : Cfg} {i : Instr} (h : i.canonical cfg = true) :
    i.defs = [] ∧ i.body.compactionPolicy = .mustNot ∧ i.body.conditionModifier ≠ some .none ∧
      i.body.conditionModifier ≠ some .zero ∧ (∀ t ∈ i.body.payload.targets, t.2.name < 2 ^ 32) ∧
      operandsCanonical cfg i.mnemonic i.body = true := by
  simpa only [Instr.canonical, Bool.and_eq_true, beq_iff_eq, bne_iff_ne, List.all_eq_true, decide_eq_true_eq,
    and_assoc] using h

/-- A record is encoded, and decoding its bytes, with any bytes after them, gives it back. -/
abbrev RoundTrips (cfg : Cfg) (i : Instr) : Prop :=
  ∃ bytes, encodeBytes cfg i = .ok bytes ∧ ∀ rest, decode cfg (bytes ++ rest) = .ok (i, rest)

/-- The round trip of one record, from its native word: the word's header and operands are read back as the record's. -/
theorem roundTrip_of_reads {cfg : Cfg} {i : Instr} {w : NativeWord} (hr : cfg.Readable)
    (hlegal : recordLegal cfg i.instruction = true) (hcanonical : i.canonical cfg = true)
    (hencode : encode cfg i = .ok w) (hheader : headerReads cfg i.instruction false w = true)
    (hcond : readCondMod cfg i.mnemonic w = .ok i.body.conditionModifier)
    (hoperands : readOperands cfg i.mnemonic (headerPart i.body) w = .ok i.body) :
    RoundTrips cfg i := by
  obtain ⟨hdefs, hpolicy, -⟩ := canonical_parts hcanonical
  simp only [recordLegal, Bool.and_eq_true] at hlegal
  obtain ⟨⟨-, hheaderLegal⟩, -⟩ := hlegal
  have hparts := hheader
  simp only [headerReads, Bool.and_eq_true, and_assoc, reads_iff, readsCode_iff] at hparts
  obtain ⟨⟨c, hc, h0⟩, h7, -, -, -, -, -, -, -, -, -, -, -, h53, -⟩ := hparts
  have hopcode : keyOf cfg.opc (BitVec.ofNat 7 (unpack w 0 7)) = some i.mnemonic := by
    rw [h0, BitVec.ofNat_toNat, BitVec.setWidth_eq]
    exact hr.opcode hc
  have hreserved : reserved w [(7, 1), (53, 1)] = .ok () := reserved_of_zero (by simp [h7, h53])
  have hread := readHeader_of_reads (ins := i.instruction) hr hheader hheaderLegal hcond
  have hnative : decodeNative cfg .mustNot w = .ok i := by
    have hparts := instr_of_parts i
    rw [hdefs] at hparts
    rw [← hparts]
    exact decodeNative_of_parts hopcode hreserved (hpolicy ▸ hread) hoperands
  exact ⟨_, by rw [encodeBytes, hencode]; rfl, decode_toBytes_append h53 hnative⟩

/-- A record that names no label is encoded as the block packs it. -/
theorem encode_of_no_targets {cfg : Cfg} {i : Instr} {tag : FormatTag} {w : NativeWord}
    (htargets : i.body.payload.targets = []) (hnative : encodeNative cfg false i.instruction = .ok (tag, w)) :
    encode cfg i = .ok w := by
  simp [encode, hnative, htargets, writeLabels]

end Sys2Proof
end

section
/-! PROOFS. The round trip of the words without operands and of the branches without a destination (30_encoding.md R120,
R121, R123): a branch's labels stand for the offsets that its word holds (assumption 6). -/

namespace Sys2Proof

open Decoding Layout Machine

/-! ## The record of a word's parts -/

/-- A record is what the header of its word tells, with its operands and its payload. -/
theorem headerPart_with {b : InsBody} {d : Option Operand} {ss : List Operand} {p : Payload} (hdst : b.destination = d)
    (hsrcs : b.sources = ss) (hpayload : b.payload = p) :
    { headerPart b with destination := d, sources := ss, payload := p } = b := by
  subst hdst hsrcs hpayload
  rfl

/-! ## The condition modifier, whatever the class (R180, R354) -/

/-- A legal call record: its label and its destination (R164, R353). -/
theorem call_of_legal {cfg : Cfg} {ins : Instruction} (hclass : ins.opcode.opClass = .call)
    (h : operandsLegal cfg ins = true) :
    ∃ jip d, ins.body.destination = some (.reg d) ∧ ins.body.sources = [] ∧ ins.body.payload = .branch jip none ∧
      callLegal cfg d = true := by
  simp only [operandsLegal, hclass] at h
  split at h <;> simp_all

/-- A legal branch has no condition modifier, and its word 0 in bits 51:48 (R354). -/
theorem readCondMod_branch {cfg : Cfg} {ins : Instruction} {w : NativeWord} (hbranch : ins.opcode.isControlFlow = true)
    (hlegal : recordLegal cfg ins = true) (hreads : operandsRead cfg ins w = true) :
    readCondMod cfg ins.opcode w = .ok ins.body.conditionModifier := by
  have hnone : ins.body.conditionModifier = none := by
    simp only [recordLegal, headerLegal, Bool.and_eq_true] at hlegal
    obtain ⟨⟨-, ⟨⟨-, hcond⟩, -⟩, -⟩, -⟩ := hlegal
    simpa [hbranch] using hcond
  have h48 : unpack w 48 4 = 0 := by
    have hclass : ins.opcode.opClass = .branchOneSrc ∨ ins.opcode.opClass = .branchTwoSrc ∨
        ins.opcode.opClass = .jmpi ∨ ins.opcode.opClass = .call := by
      revert hbranch
      cases ins.opcode <;> decide
    obtain hclass | hclass | hclass | hclass := hclass
    · simp_all [operandsRead, reads_iff]
    · simp_all [operandsRead, reads_iff]
    · simp_all [operandsRead, reads_iff]
    · obtain ⟨_, d, hdst, -⟩ := call_of_legal hclass (Bool.and_eq_true_iff.mp hlegal).2
      simp_all [operandsRead, reads_iff]
  simp [readCondMod, h48, hnone]

/-- The words that hold a condition modifier in bits 51:48. -/
theorem condModReads_of_operandsRead {cfg : Cfg} {ins : Instruction} {w : NativeWord}
    (hreused : condModReused ins.opcode = false) (hbranch : ins.opcode.isControlFlow = false)
    (h : operandsRead cfg ins w = true) : condModReads cfg ins w = true := by
  have hclass : ins.opcode.opClass = .illegal ∨ ins.opcode.opClass = .nop ∨ ins.opcode.opClass = .oneSrc ∨
      ins.opcode.opClass = .twoSrc ∨ ins.opcode.opClass = .threeSrc ∨ ins.opcode.opClass = .wait := by
    revert hreused hbranch
    cases ins.opcode <;> decide
  obtain hclass | hclass | hclass | hclass | hclass | hclass := hclass <;> simp only [operandsRead, hclass] at h
  · simp_all
  · simp_all
  all_goals split at h <;> simp_all

/-- The condition modifier of a legal canonical record is read back from its word. -/
theorem readCondMod_of_operandsRead {cfg : Cfg} {ins : Instruction} {w : NativeWord} (hr : cfg.Readable)
    (hlegal : recordLegal cfg ins = true) (hnone : ins.body.conditionModifier ≠ some .none)
    (hzero : ins.body.conditionModifier ≠ some .zero) (h : operandsRead cfg ins w = true) :
    readCondMod cfg ins.opcode w = .ok ins.body.conditionModifier := by
  cases hbranch : ins.opcode.isControlFlow with
  | true => exact readCondMod_branch hbranch hlegal h
  | false =>
  cases hreused : condModReused ins.opcode with
  | false => exact readCondMod_of_reads hr (condModReads_of_operandsRead hreused hbranch h) hreused hnone hzero
  | true =>
    have habsent : ins.body.conditionModifier = none := by
      simp only [recordLegal, headerLegal, Bool.and_eq_true, and_assoc] at hlegal
      obtain ⟨-, -, -, -, -, hcond, -⟩ := hlegal
      rw [condModReused, Bool.or_eq_true] at hreused
      obtain hreused | hreused := hreused <;> simpa [hreused] using hcond
    rw [habsent, readCondMod_reused hreused]

/-- The round trip of a record, from the word that holds it: the class's operands remain to be read. -/
theorem roundTrip_of_word {cfg : Cfg} {i : Instr} {w : NativeWord} (hr : cfg.Readable)
    (hlegal : recordLegal cfg i.instruction = true) (hcanonical : i.canonical cfg = true)
    (hencode : encode cfg i = .ok w) (hheader : headerReads cfg i.instruction false w = true)
    (hbody : operandsRead cfg i.instruction w = true)
    (hoperands : readOperands cfg i.mnemonic (headerPart i.body) w = .ok i.body) :
    RoundTrips cfg i := by
  obtain ⟨-, -, hnone, hzero, -⟩ := canonical_parts hcanonical
  exact roundTrip_of_reads hr hlegal hcanonical hencode hheader
    (readCondMod_of_operandsRead (ins := i.instruction) hr hlegal hnone hzero hbody) hoperands

/-! ## Words without operands (R123) -/

theorem readOperands_bare {cfg : Cfg} {m : Mnemonic} {b : InsBody} {w : NativeWord}
    (hclass : m.opClass = .illegal ∨ m.opClass = .nop) (hareas : noOperandsRead w = true)
    (hupper : reads w 64 64 0 = true) :
    readOperands cfg m b w = .ok b := by
  simp only [noOperandsRead, Bool.and_eq_true, reads_iff] at hareas hupper
  obtain ⟨⟨h22, h35⟩, h55⟩ := hareas
  have hreserved : reserved w (noOperandAreas ++ [(64, 64)]) = .ok () :=
    reserved_of_zero (by simp [noOperandAreas, h22, h35, h55, hupper])
  obtain hclass | hclass := hclass <;> simp only [readOperands, hclass, hreserved, read_ok_bind]

/-- illegal and nop. -/
theorem roundTrip_bare {cfg : Cfg} {i : Instr} (hr : cfg.Readable)
    (hclass : i.mnemonic.opClass = .illegal ∨ i.mnemonic.opClass = .nop)
    (hlegal : recordLegal cfg i.instruction = true) (hcanonical : i.canonical cfg = true) :
    RoundTrips cfg i := by
  have hoperands := (Bool.and_eq_true_iff.mp hlegal).2
  obtain ⟨hdst, hsrcs, hpayload⟩ : i.body.destination = none ∧ i.body.sources = [] ∧ i.body.payload = .none :=
    bare_of_legal (ins := i.instruction) hclass hoperands
  obtain ⟨shape, hops⟩ := operandsLaid_bare (ins := i.instruction) hclass hoperands
  obtain ⟨w, hnative, hreads⟩ := hops.wordReads false hlegal
  obtain ⟨hheader, hbody⟩ := Bool.and_eq_true_iff.mp hreads
  obtain ⟨-, hareas, hupper⟩ : condModReads cfg i.instruction w = true ∧ noOperandsRead w = true ∧
      reads w 64 64 0 = true := by
    have hclass' : i.instruction.opcode.opClass = .illegal ∨ i.instruction.opcode.opClass = .nop := hclass
    obtain hclass' | hclass' := hclass' <;>
      simpa only [operandsRead, hclass', Bool.and_eq_true, and_assoc] using hbody
  refine roundTrip_of_word hr hlegal hcanonical (encode_of_no_targets (by rw [hpayload]; rfl) hnative) hheader hbody ?_
  rw [readOperands_bare hclass hareas hupper]
  exact congrArg Except.ok (headerPart_with hdst hsrcs hpayload)

/-! ## Branches (R120, R121) -/

/-- A legal branch other than call has no operands (R164). -/
theorem noOperands_of_branch {cfg : Cfg} {ins : Instruction}
    (hclass : ins.opcode.opClass = .branchOneSrc ∨ ins.opcode.opClass = .jmpi ∨ ins.opcode.opClass = .branchTwoSrc)
    (h : operandsLegal cfg ins = true) : ins.body.destination = none ∧ ins.body.sources = [] := by
  obtain hclass | hclass | hclass := hclass <;>
    · simp only [operandsLegal, hclass] at h
      split at h <;> simp_all

/-- A number of `n` bits is its own two's complement (R95). -/
theorem twos_natCast {n v : Nat} (h : v < 2 ^ n) : twos n v = v := by
  have hcast : ((v : Int) % (2 ^ n : Int)) = ((v % 2 ^ n : Nat) : Int) := by push_cast; rfl
  rw [twos, hcast, Int.toNat_natCast, Nat.mod_eq_of_lt h]

/-- The word of a branch with one offset holds its record, and its label in DW3 (R120, R346). -/
theorem encode_oneOffset {cfg : Cfg} {i : Instr}
    (hmnemonic : i.mnemonic ∈ [Mnemonic.jmpi, .call, .endif, .while_, .join])
    (hlegal : recordLegal cfg i.instruction = true) (hnames : ∀ t ∈ i.body.payload.targets, t.2.name < 2 ^ 32) :
    ∃ jip w, i.body.payload = .branch jip none ∧ encode cfg i = .ok w ∧
      headerReads cfg i.instruction false w = true ∧ operandsRead cfg i.instruction w = true ∧
      offsetLabel w 96 = jip := by
  obtain ⟨hbranch, hformat, jip, shape, operands, hpayload, hops⟩ := oneOffset_of_legal hmnemonic hlegal
  obtain ⟨w, fs, hnative, hword, hfree, hreads⟩ := branch_word false hbranch hlegal hops (by decide)
  have hname : jip.name < 2 ^ 32 := by simpa [hpayload, Payload.targets] using hnames
  have htwos : twos 32 jip.name = jip.name := twos_natCast hname
  have hwritten := hword.append_setField (off := 96) (fun p hp => hfree p hp _ (by decide)) (by decide) hname
  obtain ⟨hheader, hoperands⟩ := hreads _ _ hwritten rfl
  refine ⟨jip, _, hpayload, ?_, hheader, hoperands, ?_⟩
  · simp [encode, hnative, hformat, hpayload, Payload.targets, writeLabels, writeOffset, htwos]
  · rw [offsetLabel, unpack_setField_same w (by decide) hname]

/-- The word of a branch with two offsets holds its record, JIP in DW2 and UIP in DW3 (R121, R346). -/
theorem encode_twoOffsets {cfg : Cfg} {i : Instr} (hclass : i.instruction.opcode.opClass = .branchTwoSrc)
    (hbranch : i.mnemonic.isControlFlow = true) (hlegal : recordLegal cfg i.instruction = true)
    (hnames : ∀ t ∈ i.body.payload.targets, t.2.name < 2 ^ 32) :
    ∃ jip uip w, i.body.payload = .branch jip (some uip) ∧ encode cfg i = .ok w ∧
      headerReads cfg i.instruction false w = true ∧ operandsRead cfg i.instruction w = true ∧
      offsetLabel w 64 = jip ∧ offsetLabel w 96 = uip := by
  obtain ⟨jip, uip, hrecord, hops⟩ := branchOperands_two hclass (Bool.and_eq_true_iff.mp hlegal).2
  have hpayload : i.body.payload = .branch jip (some uip) := hrecord
  have hformat : formatOf i.instruction = .branchTwoSrc := by simp [formatOf, hclass]
  obtain ⟨w, fs, hnative, hword, hfree, hreads⟩ := branch_word false hbranch hlegal hops (by decide)
  obtain ⟨hjip, huip⟩ : jip.name < 2 ^ 32 ∧ uip.name < 2 ^ 32 := by simpa [hpayload, Payload.targets] using hnames
  have hjipWritten := hword.append_setField (off := 64) (fun p hp => hfree p hp _ (by decide)) (by decide) hjip
  have hwritten := hjipWritten.append_setField (off := 96)
    (by
      rw [List.map_append, List.forall_mem_append]
      exact ⟨fun p hp => hfree p hp _ (by decide), by simp [span, Apart]⟩) (by decide) huip
  obtain ⟨hheader, hoperands⟩ := hreads _ _ (List.append_assoc _ _ _ ▸ hwritten) rfl
  obtain ⟨⟨-, h64, -⟩, h96, -⟩ := by simpa only [holds_append, holds_cons] using hwritten.holds
  refine ⟨jip, uip, _, hpayload, ?_, hheader, hoperands, by rw [offsetLabel, h64], by rw [offsetLabel, h96]⟩
  simp [encode, hnative, hformat, hpayload, Payload.targets, writeLabels, writeOffset, twos_natCast hjip,
    twos_natCast huip]

theorem readOperands_oneOffset {cfg : Cfg} {m : Mnemonic} {b : InsBody} {w : NativeWord}
    (hclass : m.opClass = .branchOneSrc ∨ m.opClass = .jmpi) :
    readOperands cfg m b w = .ok { b with payload := .branch (offsetLabel w 96) none } := by
  obtain hclass | hclass := hclass <;> simp only [readOperands, hclass]

/-- jmpi, endif, while and join. -/
theorem roundTrip_oneOffset {cfg : Cfg} {i : Instr} (hr : cfg.Readable)
    (hmnemonic : i.mnemonic ∈ [Mnemonic.jmpi, .endif, .while_, .join])
    (hlegal : recordLegal cfg i.instruction = true) (hcanonical : i.canonical cfg = true) :
    RoundTrips cfg i := by
  obtain ⟨hclass, hmem⟩ : (i.mnemonic.opClass = .branchOneSrc ∨ i.mnemonic.opClass = .jmpi) ∧
      i.mnemonic ∈ [Mnemonic.jmpi, .call, .endif, .while_, .join] := by
    generalize i.mnemonic = m at hmnemonic
    revert hmnemonic
    cases m <;> decide
  obtain ⟨-, -, -, -, hnames, -⟩ := canonical_parts hcanonical
  obtain ⟨jip, w, hpayload, hencode, hheader, hreads, hjip⟩ := encode_oneOffset hmem hlegal hnames
  obtain ⟨hdst, hsrcs⟩ : i.body.destination = none ∧ i.body.sources = [] :=
    noOperands_of_branch (ins := i.instruction) (hclass.imp_right .inl) (Bool.and_eq_true_iff.mp hlegal).2
  refine roundTrip_of_word hr hlegal hcanonical hencode hheader hreads ?_
  rw [readOperands_oneOffset hclass, hjip]
  exact congrArg Except.ok (headerPart_with hdst hsrcs hpayload)

/-- if, else, break, cont, halt and goto. -/
theorem roundTrip_twoOffsets {cfg : Cfg} {i : Instr} (hr : cfg.Readable) (hclass : i.mnemonic.opClass = .branchTwoSrc)
    (hlegal : recordLegal cfg i.instruction = true) (hcanonical : i.canonical cfg = true) :
    RoundTrips cfg i := by
  have hbranch : i.mnemonic.isControlFlow = true := by
    revert hclass
    cases i.mnemonic <;> decide
  obtain ⟨-, -, -, -, hnames, -⟩ := canonical_parts hcanonical
  obtain ⟨jip, uip, w, hpayload, hencode, hheader, hreads, hjip, huip⟩ :=
    encode_twoOffsets hclass hbranch hlegal hnames
  obtain ⟨hdst, hsrcs⟩ : i.body.destination = none ∧ i.body.sources = [] :=
    noOperands_of_branch (ins := i.instruction) (.inr (.inr hclass)) (Bool.and_eq_true_iff.mp hlegal).2
  have hareas : reserved w noOperandAreas = .ok () := by
    have hclass' : i.instruction.opcode.opClass = .branchTwoSrc := hclass
    simp only [operandsRead, hclass', noOperandsRead, Bool.and_eq_true, reads_iff] at hreads
    obtain ⟨-, ⟨h22, h35⟩, h55⟩ := hreads
    exact reserved_of_zero (by simp [noOperandAreas, h22, h35, h55])
  refine roundTrip_of_word hr hlegal hcanonical hencode hheader hreads ?_
  rw [readOperands_branchTwoSrc hclass hareas, hjip, huip]
  exact congrArg Except.ok (headerPart_with hdst hsrcs hpayload)

/-- Settles O57: by the three layouts, none, one and two offsets. -/
theorem roundTripBare : Obligations.RoundTripBare := by
  intro cfg i hreadable hmnemonic hlegal hcanonical
  have hr := Cfg.readable_parts hreadable
  have hkind : (i.mnemonic.opClass = .illegal ∨ i.mnemonic.opClass = .nop) ∨
      i.mnemonic ∈ [Mnemonic.jmpi, .endif, .while_, .join] ∨ i.mnemonic.opClass = .branchTwoSrc := by
    generalize i.mnemonic = m at hmnemonic
    revert hmnemonic
    cases m <;> decide
  obtain hbare | hone | htwo := hkind
  · exact roundTrip_bare hr hbare hlegal hcanonical
  · exact roundTrip_oneOffset hr hone hlegal hcanonical
  · exact roundTrip_twoOffsets hr htwo hlegal hcanonical

end Sys2Proof
end

section
/-! PROOFS. Reading the operands of the two-source layout back (30_encoding.md R101 to R104, R245, R246): a canonical
operand that is legal is what the decoder gives, field by field, of a word that reads as it. -/

namespace Sys2Proof

open Decoding Layout Machine

theorem horzStrideOf_code {n c : Nat} (h : horzStrideCode n = some c) : horzStrideOf c = n := by
  unfold horzStrideCode at h
  split at h <;> cases h <;> rfl

theorem widthOf_code {n c : Nat} (h : widthCode n = some c) : widthOf c = some n := by
  unfold widthCode at h
  split at h <;> cases h <;> rfl

theorem vertStrideOf_code {n c : Nat} (h : vertStrideCode n = some c) : vertStrideOf c = some n := by
  unfold vertStrideCode at h
  split at h <;> cases h <;> rfl

theorem srcModOf_code (m : SrcMod) : srcModOf m.code = m := by cases m <;> rfl

theorem channelOf_code (c : Channel) : channelOf c.code = c := by cases c <;> rfl

theorem strideOnly_iff {r : Region} : strideOnly r = true ↔ ∃ s, r = .align1 none none (some s) := by
  unfold strideOnly
  split <;> simp_all

/-- An indirect operand whose word tells all of it has no number, no sub-register and no overlay, and an ARF one a
selector of code 0. -/
theorem indirectCanonical_iff {cfg : Cfg} {r : RegOperand} :
    indirectCanonical cfg r = true ↔ r.number = 0 ∧ r.subregister = 0 ∧ r.specialAcc = none ∧
      ∀ sel, r.file = .arf sel → cfg.arfSel.code sel = 0#4 := by
  cases hf : r.file <;> simp [indirectCanonical, hf, and_assoc]

section
variable {cfg : Cfg} (hr : cfg.Readable) {w : NativeWord}
include hr

/-! ## Destinations (R101) -/

theorem readDst_of_reads {mode : AccessMode} {d : RegOperand} (hreads : dstReads cfg mode d w = true)
    (hlegal : dstLegal cfg mode d = true) (hcanonical : dstCanonical cfg mode d = true) :
    readDst cfg mode w = .ok (.reg d) := by
  simp only [dstReads, Bool.and_eq_true, reads_iff] at hreads
  obtain ⟨⟨hfile, htype⟩, hreads⟩ := hreads
  have hty := regTypeOf_of_reads hr htype
  simp only [dstLegal, Bool.and_eq_true, and_assoc] at hlegal
  obtain ⟨-, hreg, hacc, -, hplace⟩ := hlegal
  simp only [dstCanonical, Bool.and_eq_true, beq_iff_eq, Bool.not_eq_true'] at hcanonical
  obtain ⟨⟨hmod, hrep⟩, hcanonical⟩ := hcanonical
  cases mode <;> cases haddr : d.addressing <;>
    simp only [haddr, Bool.and_eq_true, and_assoc, reads_iff, readsNat_iff, beq_iff_eq, strideOnly_iff,
      Bool.false_eq_true, Option.isNone_iff_eq_none] at hreads hplace hcanonical
  case align1.direct =>
    obtain ⟨h47, h55, h24, h22, h63⟩ := hreads
    obtain ⟨⟨s, hregion⟩, hmask, hreadable⟩ := hcanonical
    have hstride : horzStrideOf (unpack w 22 2) = s := by
      rw [horzStrideOf_code h22, dstStride, hregion]
      rfl
    simp only [readDst, hty, found_some, read_ok_bind, hfile, h55, h24, flag, h47, readRegister_of_legal hr hreg,
      readSub_of_legal hr hacc hreadable (.inr rfl), reserved_cons h63, reserved_nil, hstride]
    obtain ⟨file, number, subregister, addressing, region, dataType, modifier, writeMask, specialAcc, repCtrl⟩ := d
    simp_all
  case align1.indirect a o =>
    obtain ⟨h47, h24, hoffset, h22⟩ := hreads
    obtain ⟨⟨s, hregion⟩, hmask, hindirect⟩ := hcanonical
    obtain ⟨hnumber, hsub, hnone, hzero⟩ := indirectCanonical_iff.mp hindirect
    have hstride : horzStrideOf (unpack w 22 2) = s := by
      rw [horzStrideOf_code h22, dstStride, hregion]
      rfl
    simp only [readDst, hty, found_some, read_ok_bind, hfile, h24, flag, h47, readRegister_zero hr hzero, hoffset,
      hstride]
    obtain ⟨file, number, subregister, addressing, region, dataType, modifier, writeMask, specialAcc, repCtrl⟩ := d
    simp_all
  case align16.direct =>
    obtain ⟨hregion, hnone⟩ := hcanonical
    simp only [hnone] at hreads
    obtain ⟨h47, h55, h28, h24, -, h63⟩ := hreads
    simp only [readDst, hty, found_some, read_ok_bind, hfile, h55, h28, h24, flag, h47, readRegister_of_legal hr hreg,
      reserved_cons h63, reserved_nil, subregister_of_highBit hplace, BitVec.ofNat_toNat, BitVec.setWidth_eq]
    obtain ⟨file, number, subregister, addressing, region, dataType, modifier, writeMask, specialAcc, repCtrl⟩ := d
    simp_all

/-! ## Source registers (R102, R103) -/

omit hr in
theorem readRegion_of_reads {base vs wd hs : Nat} (h : regionReads base ⟨vs, wd, hs⟩ w = true) :
    readRegion w base = .ok (.align1 (some vs) (some wd) (some hs)) := by
  simp only [regionReads, Bool.and_eq_true, and_assoc, readsNat_iff] at h
  obtain ⟨hvs, hwd, hhs⟩ := h
  simp only [readRegion, vertStrideOf_code hvs, widthOf_code hwd, horzStrideOf_code hhs, found_some, read_ok_bind]

omit hr in
/-- A region that gives all three values is the region that the source packs (R239). -/
theorem sourceRegion_of_explicit {execSize : Nat} {s : RegOperand} {vs wd hs : Nat}
    (h : s.region = .align1 (some vs) (some wd) (some hs)) : sourceRegion execSize s = ⟨vs, wd, hs⟩ := by
  simp [sourceRegion, h, Region.vertStride?, Region.width?, Region.horzStride?]

omit hr in
/-- A canonical source of the two-source layout: what its record must be, by access mode and addressing. -/
theorem srcRegCanonical_cases {mode : AccessMode} {s : RegOperand} (h : srcRegCanonical cfg mode s = true) :
    s.writeMask = 15#4 ∧ s.repCtrl = false ∧
      ((∃ vs wd hs, mode = .align1 ∧ s.addressing = .direct ∧ s.region = .align1 (some vs) (some wd) (some hs) ∧
        accReadable cfg s = true) ∨
       (∃ vs wd hs a o, mode = .align1 ∧ s.addressing = .indirect a o ∧
        s.region = .align1 (some vs) (some wd) (some hs) ∧ indirectCanonical cfg s = true) ∨
       (∃ c, mode = .align16 ∧ s.region = .align16 c ∧ s.specialAcc = none)) := by
  simp only [srcRegCanonical, Bool.and_eq_true, beq_iff_eq, Bool.not_eq_true'] at h
  obtain ⟨⟨hmask, hrep⟩, hcase⟩ := h
  refine ⟨hmask, hrep, ?_⟩
  split at hcase <;> simp_all

theorem readSrcReg_of_reads {mode : AccessMode} {overlay : Bool} {execSize k : Nat} {s : RegOperand}
    (hreads : srcRegReads cfg mode (sourceRegion execSize s) k s w = true)
    (hlegal : srcRegLegal cfg mode (sourceRegion execSize s) overlay s = true)
    (hcanonical : srcRegCanonical cfg mode s = true) : readSrcReg cfg mode overlay k w = .ok (.reg s) := by
  simp only [srcRegReads, Bool.and_eq_true, reads_iff] at hreads
  obtain ⟨⟨⟨hfile, htype⟩, hmod⟩, hreads⟩ := hreads
  have hty := regTypeOf_of_reads hr htype
  simp only [srcRegLegal, Bool.and_eq_true, and_assoc, Bool.or_eq_true] at hlegal
  obtain ⟨-, -, hoverlay, hacc, hplace⟩ := hlegal
  simp only [srcPlaceLegal, Bool.and_eq_true] at hplace
  obtain ⟨hreg, hplace⟩ := hplace
  obtain ⟨hmask, hrep, ⟨vs, wd, hs, rfl, haddr, hregion, hreadable⟩ |
    ⟨vs, wd, hs, a, o, rfl, haddr, hregion, hindirect⟩ | ⟨c, rfl, hregion, hnone⟩⟩ := srcRegCanonical_cases hcanonical
  · simp only [haddr, Bool.and_eq_true, and_assoc, reads_iff, sourceRegion_of_explicit hregion] at hreads
    obtain ⟨hdirect, hnumber, hsub, hregionReads⟩ := hreads
    simp only [readSrcReg, slotBase, rfPos, tyPos, hty, found_some, read_ok_bind, hfile, hmod, srcModOf_code, flag,
      hdirect, hnumber, hsub, readRegister_of_legal hr hreg, readSub_of_legal hr hacc hreadable hoverlay,
      readRegion_of_reads hregionReads]
    obtain ⟨file, number, subregister, addressing, region, dataType, modifier, writeMask, specialAcc, repCtrl⟩ := s
    simp_all
  · obtain ⟨hnumber, hsub, hnone, hzero⟩ := indirectCanonical_iff.mp hindirect
    simp only [haddr, Bool.and_eq_true, and_assoc, reads_iff, beq_iff_eq, sourceRegion_of_explicit hregion] at hreads
    obtain ⟨hdirect, haddrReg, hoffset, hregionReads⟩ := hreads
    simp only [readSrcReg, slotBase, rfPos, tyPos, hty, found_some, read_ok_bind, hfile, hmod, srcModOf_code, flag,
      hdirect, haddrReg, hoffset, readRegister_zero hr hzero, readRegion_of_reads hregionReads]
    obtain ⟨file, number, subregister, addressing, region, dataType, modifier, writeMask, specialAcc, repCtrl⟩ := s
    simp_all
  · cases haddr : s.addressing with
    | indirect a o => simp [haddr] at hplace
    | direct =>
    simp only [haddr, hnone, hregion, Region.channelSelect?, Option.getD_some, Bool.and_eq_true, and_assoc, reads_iff,
      beq_iff_eq] at hreads hplace
    obtain ⟨hdirect, hnumber, hsub, hc0, hc1, hc2, hc3, h18, h19⟩ := hreads
    simp only [readSrcReg, slotBase, rfPos, tyPos, hty, found_some, read_ok_bind, hfile, hmod, srcModOf_code, flag,
      hdirect, hnumber, hsub, hc0, hc1, hc2, hc3, channelOf_code, readRegister_of_legal hr hreg, reserved_cons h18,
      reserved_cons h19, reserved_nil, subregister_of_highBit hplace]
    obtain ⟨file, number, subregister, addressing, region, dataType, modifier, writeMask, specialAcc, repCtrl⟩ := s
    simp_all

omit hr in
/-- The last bit of a slot is 0 beside a direct register, and the sign of an indirect offset (R102, R103). -/
theorem slotReserved_of_reads {mode : AccessMode} {region : SrcRegion} {k : Nat} {s : RegOperand}
    (hreads : srcRegReads cfg mode region k s w = true) (hreserved : slotReservedReads k (.reg s) w = true) :
    slotReserved w k = .ok () := by
  have hlast : slotBase k + 31 = 95 + 32 * k := by unfold slotBase; omega
  cases haddr : s.addressing with
  | direct =>
    simp only [slotReservedReads, haddr, Bool.and_eq_true, reads_iff] at hreserved
    have hmode : unpack w (slotBase k + 13) 1 = 0 := by
      cases mode <;> simp only [srcRegReads, haddr, Bool.and_eq_true, and_assoc, reads_iff] at hreads
      · exact hreads.2.2.2.1
      · exact hreads.2.2.2.1
    simp [slotReserved, flag, hmode, hlast, reserved_cons hreserved.1]
  | indirect a o =>
    have hmode : unpack w (slotBase k + 13) 1 = 1 := by
      cases mode <;> simp only [srcRegReads, haddr, Bool.and_eq_true, and_assoc, reads_iff, Bool.false_eq_true,
        and_false] at hreads
      exact hreads.2.2.2.1
    simp [slotReserved, flag, hmode]

/-! ## Immediates (R104, R245, R246) -/

omit hr in
/-- A canonical immediate has its type's width, and a float number in lowest terms. -/
theorem immCanonical_parts {i : ImmOperand} (h : immCanonical i = true) :
    i.type.immWidth = some i.bitWidth ∧
      ∀ neg num den, i.value = .float (.finite neg num den) → num.gcd den = 1 := by
  simp only [immCanonical, Bool.and_eq_true, beq_iff_eq] at h
  refine ⟨h.1, fun neg num den hvalue => ?_⟩
  simpa [hvalue] using h.2

omit hr in
/-- The two equal halves of a replicated value give the value (R245). -/
theorem half_of_reads (h : unpack w 96 16 = unpack w 112 16) : half (unpack w 96 32) = .ok (unpack w 96 16) := by
  have hlow : unpack w 96 16 = unpack w 96 32 / 2 ^ 0 % 2 ^ 16 := unpack_part w 96 (show 0 + 16 ≤ 32 by decide)
  have hhigh : unpack w 112 16 = unpack w 96 32 / 2 ^ 16 % 2 ^ 16 := unpack_part w 96 (a := 16) (by decide)
  have hlt := unpack_lt w 96 32
  rw [half, if_pos (by omega), hlow, pow_zero, Nat.div_one]

omit hr in
/-- A float immediate is the value that its bits stand for (R96). -/
theorem floatOf_of_canonical {e f b : Nat} {i : ImmOperand} {x : FloatValue} (he : 0 < e)
    (hcanonical : immCanonical i = true) (hvalue : i.value = .float x) (hbits : floatBits e f x = some b) :
    floatOf e f b = x :=
  floatOf_of_lowestTerms he hbits fun neg num den hx => (immCanonical_parts hcanonical).2 neg num den (hx ▸ hvalue)

theorem readImm_of_reads {sole : Bool} {k : Nat} {i : ImmOperand} (hreads : immReads cfg k i w = true)
    (hlegal : immLegal cfg sole k i = true) (hcanonical : immCanonical i = true) :
    readImm cfg sole k w = .ok (.imm i) := by
  simp only [immReads, Bool.and_eq_true] at hreads
  obtain ⟨⟨-, htype⟩, hvalue⟩ := hreads
  have hty : immTypeOf cfg (unpack w (tyPos k) 4) = some i.type := immTypeOf_of_reads hr htype
  have h64 : (i.type.is64 && !sole) = false := by
    simp only [immLegal, Bool.and_eq_true, and_assoc] at hlegal
    obtain ⟨-, -, h64, -⟩ := hlegal
    revert h64
    cases i.type.is64 <;> cases sole <;> decide
  obtain ⟨hwidth, -⟩ := immCanonical_parts hcanonical
  have hfloat {e f b : Nat} {x : FloatValue} (he : 0 < e) (hx : i.value = .float x)
      (hb : floatBits e f x = some b) : floatOf e f b = x := floatOf_of_canonical he hcanonical hx hb
  obtain ⟨value, bitWidth, type⟩ := i
  simp only [readImm, hty, found_some, read_ok_bind, h64]
  cases type <;> cases value <;>
    simp only [immValueReads, Bool.false_eq_true, beq_iff_eq, Bool.and_eq_true] at hvalue <;>
    cases hwidth
  case d.int | q.int | ud.int | uq.int => simp [hvalue]
  case f.float | df.float => simp [hfloat (by decide) rfl hvalue]
  case w.int =>
    obtain ⟨hvalue, hhalves⟩ := hvalue
    simp [half_of_reads hhalves, hvalue]
  case uw.int =>
    obtain ⟨hvalue, hhalves⟩ := hvalue
    simp [half_of_reads hhalves, hvalue]
  case hf.float =>
    obtain ⟨hvalue, hhalves⟩ := hvalue
    simp [half_of_reads hhalves, hfloat (by decide) rfl hvalue]

/-! ## The sources of an instruction (R104, R105) -/

omit hr in
/-- The file code of a register source is no immediate's (R83). -/
theorem fileCode_ne_imm {w : NativeWord} {off : Nat} {file : RegFile}
    (h : unpack w off 2 = if file = .grf then 1 else 0) : unpack w off 2 ≠ immFileCode := by
  rw [h, immFileCode]
  split <;> decide

theorem readSole_of_reads {ins : Instruction} {s : Operand} (hreads : soleReads cfg ins s w = true)
    (hlegal : srcLegal cfg ins true 0 s = true) (hcanonical : srcCanonical cfg ins.body.accessMode s = true) :
    readSole cfg ins.body.accessMode (sourceOverlayLegal cfg ins) w = .ok s := by
  simp only [soleReads, Bool.and_eq_true] at hreads
  obtain ⟨⟨hsrc, hslot⟩, hrest⟩ := hreads
  cases s with
  | imm i =>
    have hfile : unpack w 41 2 = immFileCode := by
      simp only [srcReads, immReads, Bool.and_eq_true, and_assoc, reads_iff] at hsrc
      exact hsrc.1
    simp only [readSole, hfile, if_true, readImm_of_reads hr hsrc hlegal hcanonical, read_ok_bind]
    by_cases h64 : (operandType (.imm i)).is64 = true
    · rw [if_pos h64]
    · have hslot1 : unpack w 64 32 = 0 := by
        simpa [reads_iff, show i.type.is64 = false by simpa [operandType] using h64] using hrest
      rw [if_neg h64, reserved_cons hslot1, reserved_nil, read_ok_bind]
  | reg r =>
    have hfile : unpack w 41 2 ≠ immFileCode := by
      simp only [srcReads, srcRegReads, Bool.and_eq_true, and_assoc, reads_iff] at hsrc
      exact fileCode_ne_imm hsrc.1
    simp only [Bool.and_eq_true, reads_iff] at hrest
    simp only [readSole, hfile, if_false, readSrcReg_of_reads hr hsrc hlegal hcanonical,
      slotReserved_of_reads hsrc hslot, reserved_cons hrest.1, reserved_cons hrest.2, reserved_nil, read_ok_bind]

theorem readPair_of_reads {ins : Instruction} {s0 s1 : Operand} (hreads : pairReads cfg ins s0 s1 w = true)
    (hlegal0 : srcLegal cfg ins false 0 s0 = true) (hlegal1 : srcLegal cfg ins false 1 s1 = true)
    (hcanonical0 : srcCanonical cfg ins.body.accessMode s0 = true)
    (hcanonical1 : srcCanonical cfg ins.body.accessMode s1 = true) :
    readPair cfg ins.body.accessMode (sourceOverlayLegal cfg ins) w = .ok [s0, s1] := by
  simp only [pairReads, Bool.and_eq_true, and_assoc] at hreads
  obtain ⟨hsrc0, hslot0, hsrc1, hslot1⟩ := hreads
  cases s0 with
  | imm i => simp [srcLegal, immLegal] at hlegal0
  | reg r0 =>
  cases s1 with
  | imm i =>
    have hfile : unpack w 89 2 = immFileCode := by
      simp only [srcReads, immReads, Bool.and_eq_true, and_assoc, reads_iff] at hsrc1
      exact hsrc1.1
    simp only [readPair, readSrcReg_of_reads hr hsrc0 hlegal0 hcanonical0, slotReserved_of_reads hsrc0 hslot0, hfile,
      if_true, readImm_of_reads hr hsrc1 hlegal1 hcanonical1, read_ok_bind]
  | reg r1 =>
    have hfile : unpack w 89 2 ≠ immFileCode := by
      simp only [srcReads, srcRegReads, Bool.and_eq_true, and_assoc, reads_iff] at hsrc1
      exact fileCode_ne_imm hsrc1.1
    have htail : unpack w 121 6 = 0 := by
      simp only [slotReservedReads, Bool.and_eq_true] at hslot1
      exact beq_iff_eq.mp hslot1.2
    simp only [readPair, readSrcReg_of_reads hr hsrc0 hlegal0 hcanonical0, slotReserved_of_reads hsrc0 hslot0, hfile,
      if_false, readSrcReg_of_reads hr hsrc1 hlegal1 hcanonical1, slotReserved_of_reads hsrc1 hslot1,
      reserved_cons htail, reserved_nil, read_ok_bind]

end

end Sys2Proof
end

section
/-! PROOFS. The round trip of the one- and two-source instructions, math, wait and call (30_encoding.md R101 to
R105, R120, R122): header and operands are read back from the word that holds them. -/

namespace Sys2Proof

open Decoding Layout Machine

/-! ## What the records are -/

/-- A canonical record of the two-source layout: a destination register and canonical sources. -/
theorem twoSourceLayout_canonical {cfg : Cfg} {m : Mnemonic} {b : InsBody}
    (hclass : m.opClass = .oneSrc ∨ m.opClass = .twoSrc ∨ m.opClass = .math)
    (h : operandsCanonical cfg m b = true) :
    ∃ d, b.destination = some (.reg d) ∧ dstCanonical cfg b.accessMode d = true ∧
      ∀ s ∈ b.sources, srcCanonical cfg b.accessMode s = true := by
  obtain hclass | hclass | hclass := hclass <;>
    · simp only [operandsCanonical, hclass] at h
      split at h <;> simp_all

/-- A legal record of mov or not (R164, R192). -/
theorem one_of_legal {cfg : Cfg} {ins : Instruction} (hclass : ins.opcode.opClass = .oneSrc)
    (h : operandsLegal cfg ins = true) :
    ∃ d s0, ins.body.destination = some d ∧ ins.body.sources = [s0] ∧ ins.body.payload = .none ∧
      dstOpLegal cfg ins d = true ∧ srcLegal cfg ins true 0 s0 = true := by
  simp only [operandsLegal, hclass] at h
  split at h <;> simp_all

/-- A legal record of a two-source instruction (R164, R194). -/
theorem two_of_legal {cfg : Cfg} {ins : Instruction} (hclass : ins.opcode.opClass = .twoSrc)
    (h : operandsLegal cfg ins = true) :
    ∃ d s0 s1, ins.body.destination = some d ∧ ins.body.sources = [s0, s1] ∧ ins.body.payload = .none ∧
      dstOpLegal cfg ins d = true ∧ srcLegal cfg ins false 0 s0 = true ∧ srcLegal cfg ins false 1 s1 = true := by
  simp only [operandsLegal, hclass] at h
  split at h <;> simp_all

/-- Only math may name a special accumulator on a source (R243). -/
theorem sourceOverlayLegal_of_class {cfg : Cfg} {ins : Instruction}
    (hclass : ins.opcode.opClass = .oneSrc ∨ ins.opcode.opClass = .twoSrc ∨ ins.opcode.opClass = .send) :
    sourceOverlayLegal cfg ins = false := by
  have hmath : (ins.opcode == .math) = false := by
    revert hclass
    cases ins.opcode <;> decide
  simp [sourceOverlayLegal, hmath]

theorem sourceOverlayLegal_math {cfg : Cfg} {ins : Instruction} {fn : MathFn} (hclass : ins.opcode.opClass = .math)
    (hpayload : ins.body.payload = .math fn) :
    sourceOverlayLegal cfg ins = (cfg.specialAccSrcOverlay && fn.isAccumulatorForm) := by
  have hmath : ins.opcode = .math := by
    revert hclass
    cases ins.opcode <;> decide
  simp [sourceOverlayLegal, hmath, hpayload]

/-! ## Operands by class -/

theorem readOperands_twoSrc {cfg : Cfg} {m : Mnemonic} {b : InsBody} {w : NativeWord} {d : Operand} {ss : List Operand}
    (hclass : m.opClass = .twoSrc) (hdst : readDst cfg b.accessMode w = .ok d)
    (hsrcs : readPair cfg b.accessMode false w = .ok ss) :
    readOperands cfg m b w = .ok { b with destination := some d, sources := ss } := by
  simp only [readOperands, hclass, hdst, hsrcs, read_ok_bind]

section
variable {cfg : Cfg} {m : Mnemonic} {b : InsBody} {w : NativeWord} {d : Operand} {fn : MathFn}
  (hclass : m.opClass = .math) (hdst : readDst cfg b.accessMode w = .ok d) (hfn : readMathFn cfg w = some fn)
include hclass hdst hfn

theorem readOperands_mathOne {s : Operand} (hsources : fn.sources = 1)
    (hsrc : readSole cfg b.accessMode (cfg.specialAccSrcOverlay && fn.isAccumulatorForm) w = .ok s) :
    readOperands cfg m b w = .ok { b with destination := some d, sources := [s], payload := .math fn } := by
  simp only [readOperands, hclass, hdst, hfn, hsources, hsrc, read_ok_bind]
  rfl

theorem readOperands_mathTwo {ss : List Operand} (hsources : fn.sources = 2)
    (hsrcs : readPair cfg b.accessMode (cfg.specialAccSrcOverlay && fn.isAccumulatorForm) w = .ok ss) :
    readOperands cfg m b w = .ok { b with destination := some d, sources := ss, payload := .math fn } := by
  simp only [readOperands, hclass, hdst, hfn, hsources, hsrcs, read_ok_bind, if_true]

end

theorem readOperands_call {cfg : Cfg} {m : Mnemonic} {b : InsBody} {w : NativeWord} {d : Operand}
    (hclass : m.opClass = .call) (hdst : readDst cfg .align1 w = .ok d) :
    readOperands cfg m b w =
      .ok { b with destination := some d, payload := .branch (offsetLabel w 96) none } := by
  simp only [readOperands, hclass, hdst, read_ok_bind]

/-- The function of a legal math record is read back from bits 51:48 (R163). -/
theorem readMathFn_of_reads {cfg : Cfg} {w : NativeWord} {fn : MathFn} (hr : cfg.Readable)
    (h : readsCode w 48 4 (cfg.mathFc.lookup fn) = true) : readMathFn cfg w = some fn := by
  obtain ⟨c, hc, hw⟩ := readsCode_iff.mp h
  rw [readMathFn, hw, BitVec.ofNat_toNat, BitVec.setWidth_eq, hr.mathFc hc]

/-- What the decoder reads of a wait's word: the region <0;1,0> of its source 0 has the codes 0 (R122, R248). -/
theorem waitReads_parts {cfg : Cfg} {w : NativeWord} {r : RegOperand} (hdirect : r.addressing = .direct)
    (h : waitReads cfg r w = true) :
    unpack w 41 2 = (if r.file = .grf then 1 else 0) ∧ readsCode w 43 4 (cfg.regTypeCode r.dataType) = true ∧
      unpack w 87 2 = r.modifier.code ∧ unpack w 69 8 = registerNumber cfg r ∧ unpack w 64 5 = subRegOrAcc cfg r ∧
      reserved w [(77, 10), (89, 7), (96, 32)] = .ok () := by
  simp only [waitReads, srcRegReads, hdirect, regionReads, scalarRegion, Bool.and_eq_true, and_assoc, reads_iff,
    readsNat_iff] at h
  obtain ⟨-, hfile, htype, hmod, h77, hnumber, hsub, hvs, hwd, hhs, h89, h96⟩ := h
  obtain ⟨h83, h80, h78⟩ : unpack w 83 4 = 0 ∧ unpack w 80 3 = 0 ∧ unpack w 78 2 = 0 :=
    ⟨(Option.some.inj hvs).symm, (Option.some.inj hwd).symm, (Option.some.inj hhs).symm⟩
  have hregion : unpack w 77 10 = 0 :=
    unpack_eq_zero_of_parts (b := 9) h77 (unpack_eq_zero_of_parts (b := 7) h78 (unpack_eq_zero_of_parts h80 h83))
  exact ⟨hfile, htype, hmod, hnumber, hsub, reserved_of_zero (by simp [hregion, h89, h96])⟩

/-! ## The operands of a word, read back -/

section
variable {cfg : Cfg} {ins : Instruction} {w : NativeWord} (hr : cfg.Readable)
  (hlegal : operandsLegal cfg ins = true) (hcanonical : operandsCanonical cfg ins.opcode ins.body = true)
  (hreads : operandsRead cfg ins w = true)
include hr hlegal hcanonical hreads

/-- mov and not. -/
theorem readOperands_one_of_reads (hclass : ins.opcode.opClass = .oneSrc) :
    readOperands cfg ins.opcode (headerPart ins.body) w = .ok ins.body := by
  obtain ⟨d, hdst, hdstCanonical, hsrcsCanonical⟩ := twoSourceLayout_canonical (.inl hclass) hcanonical
  obtain ⟨_, s0, hdst', hsrcs, hpayload, hdstLegal, hsrcLegal⟩ := one_of_legal hclass hlegal
  obtain rfl := Option.some.inj (hdst.symm.trans hdst')
  simp only [operandsRead, hclass, hdst, hsrcs, Bool.and_eq_true, and_assoc] at hreads
  obtain ⟨-, hdstReads, hsrcReads⟩ := hreads
  have hsole := readSole_of_reads hr hsrcReads hsrcLegal (hsrcsCanonical s0 (by simp [hsrcs]))
  rw [sourceOverlayLegal_of_class (.inl hclass)] at hsole
  have hread := readDst_of_reads hr hdstReads hdstLegal hdstCanonical
  exact (readOperands_oneSrc (b := headerPart ins.body) hclass hread hsole).trans
    (congrArg Except.ok (headerPart_with hdst hsrcs hpayload))

/-- sel, and, or, xor, ror, rol, cmp, add and mul. -/
theorem readOperands_two_of_reads (hclass : ins.opcode.opClass = .twoSrc) :
    readOperands cfg ins.opcode (headerPart ins.body) w = .ok ins.body := by
  obtain ⟨d, hdst, hdstCanonical, hsrcsCanonical⟩ := twoSourceLayout_canonical (.inr (.inl hclass)) hcanonical
  obtain ⟨_, s0, s1, hdst', hsrcs, hpayload, hdstLegal, hlegal0, hlegal1⟩ := two_of_legal hclass hlegal
  obtain rfl := Option.some.inj (hdst.symm.trans hdst')
  simp only [operandsRead, hclass, hdst, hsrcs, Bool.and_eq_true, and_assoc] at hreads
  obtain ⟨-, hdstReads, hsrcReads⟩ := hreads
  have hpair := readPair_of_reads hr hsrcReads hlegal0 hlegal1 (hsrcsCanonical s0 (by simp [hsrcs]))
    (hsrcsCanonical s1 (by simp [hsrcs]))
  rw [sourceOverlayLegal_of_class (.inr (.inl hclass))] at hpair
  have hread := readDst_of_reads hr hdstReads hdstLegal hdstCanonical
  exact (readOperands_twoSrc (b := headerPart ins.body) hclass hread hpair).trans
    (congrArg Except.ok (headerPart_with hdst hsrcs hpayload))

/-- math with one or two sources. -/
theorem readOperands_math_of_reads (hclass : ins.opcode.opClass = .math) :
    readOperands cfg ins.opcode (headerPart ins.body) w = .ok ins.body := by
  obtain ⟨d, hdst, hdstCanonical, hsrcsCanonical⟩ := twoSourceLayout_canonical (.inr (.inr hclass)) hcanonical
  obtain ⟨fn, code, _, hpayload, hcode, hdst', hdstLegal, hsources⟩ := math_of_legal hclass hlegal
  obtain rfl := Option.some.inj (hdst.symm.trans hdst')
  have hoverlay := sourceOverlayLegal_math (cfg := cfg) hclass hpayload
  obtain ⟨s0, hsrcs, hcount, hlegal0⟩ | ⟨s0, s1, hsrcs, hcount, hlegal0, hlegal1⟩ := hsources
  · simp only [operandsRead, hclass, hdst, hsrcs, hpayload, Bool.and_eq_true, and_assoc] at hreads
    obtain ⟨hfn, hdstReads, hsrcReads⟩ := hreads
    have hsole := readSole_of_reads hr hsrcReads hlegal0 (hsrcsCanonical s0 (by simp [hsrcs]))
    rw [hoverlay] at hsole
    have hread := readDst_of_reads hr hdstReads hdstLegal hdstCanonical
    exact (readOperands_mathOne (b := headerPart ins.body) hclass hread (readMathFn_of_reads hr hfn) hcount hsole).trans
      (congrArg Except.ok (headerPart_with hdst hsrcs hpayload))
  · simp only [operandsRead, hclass, hdst, hsrcs, hpayload, Bool.and_eq_true, and_assoc] at hreads
    obtain ⟨hfn, hdstReads, hsrcReads⟩ := hreads
    have hpair := readPair_of_reads hr hsrcReads hlegal0 hlegal1 (hsrcsCanonical s0 (by simp [hsrcs]))
      (hsrcsCanonical s1 (by simp [hsrcs]))
    rw [hoverlay] at hpair
    have hread := readDst_of_reads hr hdstReads hdstLegal hdstCanonical
    exact (readOperands_mathTwo (b := headerPart ins.body) hclass hread (readMathFn_of_reads hr hfn) hcount hpair).trans
      (congrArg Except.ok (headerPart_with hdst hsrcs hpayload))

/-- call, whose label is in DW3. -/
theorem readOperands_call_of_reads {jip : Label} (hclass : ins.opcode.opClass = .call)
    (hpayload : ins.body.payload = .branch jip none) (hlabel : offsetLabel w 96 = jip) :
    readOperands cfg ins.opcode (headerPart ins.body) w = .ok ins.body := by
  obtain ⟨_, d, hdst, hsrcs, -, hcall⟩ := call_of_legal hclass hlegal
  simp only [callLegal, Bool.and_eq_true] at hcall
  obtain ⟨-, hdstLegal⟩ := hcall
  simp only [operandsCanonical, hclass, hdst] at hcanonical
  simp only [operandsRead, hclass, hdst, Bool.and_eq_true] at hreads
  obtain ⟨⟨⟨-, hdstReads⟩, -⟩, -⟩ := hreads
  rw [readOperands_call hclass (readDst_of_reads hr hdstReads hdstLegal hcanonical), hlabel]
  exact congrArg Except.ok (headerPart_with hdst hsrcs hpayload)

/-- wait: its operand stands as source 0 with the region <0;1,0>, whose codes are all 0 (R248). -/
theorem readOperands_wait_of_reads (hclass : ins.opcode.opClass = .wait) :
    readOperands cfg ins.opcode (headerPart ins.body) w = .ok ins.body := by
  obtain ⟨r, hdst, hsrcs, hpayload, hwait⟩ := wait_of_legal hclass hlegal
  simp only [waitLegal, Bool.and_eq_true, and_assoc, beq_iff_eq, Option.isNone_iff_eq_none, Bool.not_eq_true'] at hwait
  obtain ⟨hfileN, hdirect, hreg, -, hacc, hrep⟩ := hwait
  simp only [operandsCanonical, hclass, hsrcs, beq_iff_eq] at hcanonical
  simp only [operandsRead, hclass, hsrcs, Bool.and_eq_true] at hreads
  obtain ⟨hfile, htype, hmod, hnumber, hsub, hreserved⟩ := waitReads_parts hdirect hreads.2
  have hread := readSub_of_legal (overlay := false) hr (r := r) (by simp [accLegal, hacc])
    (by simp [accReadable, hacc]) (.inl (by simp [hacc]))
  have hrecord : ins.body.sources = [Operand.reg { file := r.file, number := r.number, subregister := r.subregister,
                                                   dataType := r.dataType, modifier := r.modifier }] := by
    rw [hsrcs, ← hcanonical]
  simp only [readOperands, hclass, regTypeOf_of_reads hr htype, found_some, read_ok_bind, hfile, hnumber, hsub,
    readRegister_of_legal hr hreg, hread, hreserved, hmod, srcModOf_code]
  exact congrArg Except.ok (headerPart_with hdst hrecord hpayload)

end

/-! ## The round trips -/

section
variable {cfg : Cfg} {i : Instr} (hr : cfg.Readable) (hlegal : recordLegal cfg i.instruction = true)
  (hcanonical : i.canonical cfg = true)
include hr hlegal hcanonical

/-- A word without labels is as the block packs it: the class's operands remain to be read. -/
theorem roundTrip_of_native {tag : FormatTag} {w : NativeWord} (htargets : i.body.payload.targets = [])
    (hnative : encodeNative cfg false i.instruction = .ok (tag, w))
    (hheader : headerReads cfg i.instruction false w = true) (hbody : operandsRead cfg i.instruction w = true)
    (hoperands : operandsLegal cfg i.instruction = true → operandsCanonical cfg i.mnemonic i.body = true →
      readOperands cfg i.mnemonic (headerPart i.body) w = .ok i.body) :
    RoundTrips cfg i := by
  obtain ⟨-, -, -, -, -, hoperandsCanonical⟩ := canonical_parts hcanonical
  exact roundTrip_of_word hr hlegal hcanonical (encode_of_no_targets htargets hnative) hheader hbody
    (hoperands (Bool.and_eq_true_iff.mp hlegal).2 hoperandsCanonical)

/-- The two-source layout. -/
theorem roundTrip_twoSourceLayout
    (hclass : i.mnemonic.opClass = .oneSrc ∨ i.mnemonic.opClass = .twoSrc ∨ i.mnemonic.opClass = .math) :
    RoundTrips cfg i := by
  have htargets : i.body.payload.targets = [] := by
    have hoperands := (Bool.and_eq_true_iff.mp hlegal).2
    obtain hclass | hclass | hclass := hclass
    · obtain ⟨_, _, -, -, hpayload, -⟩ := one_of_legal (ins := i.instruction) hclass hoperands
      exact congrArg Payload.targets hpayload
    · obtain ⟨_, _, _, -, -, hpayload, -⟩ := two_of_legal (ins := i.instruction) hclass hoperands
      exact congrArg Payload.targets hpayload
    · obtain ⟨_, _, _, hpayload, -⟩ := math_of_legal (ins := i.instruction) hclass hoperands
      exact congrArg Payload.targets hpayload
  obtain ⟨w, hnative, hreads⟩ := operands_wordReads (ins := i.instruction) false hclass hlegal
  obtain ⟨hheader, hbody⟩ := Bool.and_eq_true_iff.mp hreads
  refine roundTrip_of_native hr hlegal hcanonical htargets hnative hheader hbody fun hoperands hcanonical => ?_
  obtain hclass | hclass | hclass := hclass
  · exact readOperands_one_of_reads (ins := i.instruction) hr hoperands hcanonical hbody hclass
  · exact readOperands_two_of_reads (ins := i.instruction) hr hoperands hcanonical hbody hclass
  · exact readOperands_math_of_reads (ins := i.instruction) hr hoperands hcanonical hbody hclass

/-- wait. -/
theorem roundTrip_wait (hclass : i.mnemonic.opClass = .wait) :
    RoundTrips cfg i := by
  have hoperands := (Bool.and_eq_true_iff.mp hlegal).2
  obtain ⟨_, -, -, hpayload, -⟩ := wait_of_legal (ins := i.instruction) hclass hoperands
  obtain ⟨shape, operands, hops⟩ := operandsLaid_wait (ins := i.instruction) hclass hoperands
  obtain ⟨w, hnative, hreads⟩ := hops.wordReads false hlegal
  obtain ⟨hheader, hbody⟩ := Bool.and_eq_true_iff.mp hreads
  exact roundTrip_of_native hr hlegal hcanonical (congrArg Payload.targets hpayload) hnative hheader hbody
    fun hoperands hcanonical =>
      readOperands_wait_of_reads (ins := i.instruction) hr hoperands hcanonical hbody hclass

/-- call, the branch with a destination. -/
theorem roundTrip_call (hmnemonic : i.mnemonic = .call) :
    RoundTrips cfg i := by
  obtain ⟨-, -, -, -, hnames, hoperandsCanonical⟩ := canonical_parts hcanonical
  obtain ⟨jip, w, hpayload, hencode, hheader, hbody, hlabel⟩ :=
    encode_oneOffset (by simp [hmnemonic]) hlegal hnames
  have hclass : i.mnemonic.opClass = .call := by rw [hmnemonic]; rfl
  exact roundTrip_of_word hr hlegal hcanonical hencode hheader hbody
    (readOperands_call_of_reads (ins := i.instruction) hr (Bool.and_eq_true_iff.mp hlegal).2 hoperandsCanonical hbody
      hclass hpayload hlabel)

end

/-- Settles O58: the two-source layout, wait and call, by the operands of each class read back. -/
theorem roundTripOperands : Obligations.RoundTripOperands := by
  intro cfg i hreadable hmnemonic hlegal hcanonical
  have hr := Cfg.readable_parts hreadable
  have hkind : (i.mnemonic.opClass = .oneSrc ∨ i.mnemonic.opClass = .twoSrc ∨ i.mnemonic.opClass = .math) ∨
      i.mnemonic.opClass = .wait ∨ i.mnemonic = .call := by
    generalize i.mnemonic = m at hmnemonic
    revert hmnemonic
    cases m <;> decide
  obtain htwo | hwait | hcall := hkind
  · exact roundTrip_twoSourceLayout hr hlegal hcanonical htwo
  · exact roundTrip_wait hr hlegal hcanonical hwait
  · exact roundTrip_call hr hlegal hcanonical hcall

end Sys2Proof
end

section
/-! PROOFS. The round trip of the three-source instructions (30_encoding.md R110, R111): the destination and each of the
three slots are read back, in either access mode. -/

namespace Sys2Proof

open Decoding Layout Machine

theorem vertStride3Of_code {n c : Nat} (h : vertStride3Code n = some c) : vertStride3Of c = n := by
  unfold vertStride3Code at h
  split at h <;> cases h <;> rfl

theorem horzStrideOf_code3 {n c : Nat} (h : horzStride3Code n = some c) : horzStrideOf c = n := by
  unfold horzStride3Code at h
  split at h <;> cases h <;> rfl

/-! ## The parts of the two decoders -/

/-- What `readThree16` does for the source in slot `k` (R273). -/
def readSlot16 (cfg : Cfg) (w : NativeWord) (k : Nat) : Read Operand := do
  let p := slot16 k
  let ts ← found (type3Of cfg (unpack w p.type 3)) (.dataType (unpack w p.type 3))
  .ok (.reg { file := .grf, number := unpack w p.regnum 8, subregister := 16 * unpack w p.sub 1 / ts.bytes,
              region := .align16 { c0 := channelOf (unpack w p.swizzle 2), c1 := channelOf (unpack w (p.swizzle + 2) 2),
                                   c2 := channelOf (unpack w (p.swizzle + 4) 2),
                                   c3 := channelOf (unpack w (p.swizzle + 6) 2) },
              dataType := ts, modifier := srcModOf (unpack w p.srcmod 2), repCtrl := flag w p.rep })

/-- What `readThree1` does for a register source in slot `k` (R276). -/
def readSlot1Reg (cfg : Cfg) (w : NativeWord) (k : Nat) (ts : DataType) : Read Operand := do
  let p := slot1 k
  let (sf, sn) ← readRegister3 cfg (unpack w p.regfile 1) (unpack w p.regnum 8)
  let (ss, sa) ← readSub cfg ts cfg.specialAccSrcOverlay (unpack w p.subreg 5)
  .ok (.reg { file := sf, number := sn, subregister := ss, dataType := ts, specialAcc := sa,
              region := .align1 (some (vertStride3Of (unpack w p.vstride 2))) none
                (some (horzStrideOf (unpack w p.hstride 2))),
              modifier := srcModOf (unpack w p.srcmod 2) })

/-- What `readThree1` does for an immediate in slot `k` (R278, R279). -/
def readSlot1Imm (w : NativeWord) (k : Nat) (ts : DataType) : Read Operand := do
  let p := slot1 k
  reserved w [(p.vstride + 16, 1), (p.srcmod, 2)]
  readImm16 ts (unpack w p.vstride 16)

/-- What `readThree1` does for the source in slot `k`: an immediate stands in slots 0 and 2 only. -/
def readSlot1 (cfg : Cfg) (w : NativeWord) (k : Nat) : Read Operand := do
  let p := slot1 k
  let ts ← found (regTypeOf cfg (unpack w p.type 4)) (.dataType (unpack w p.type 4))
  if k ≠ 1 ∧ unpack w p.regfile 1 = 1 then readSlot1Imm w k ts else readSlot1Reg cfg w k ts

theorem readThree16_eq (cfg : Cfg) (w : NativeWord) :
    readThree16 cfg w = (do
      let t ← found (type3Of cfg (unpack w 35 3)) (.dataType (unpack w 35 3))
      let (file, num) ← readRegister3 cfg (unpack w 38 1) (unpack w 55 8)
      let s0 ← readSlot16 cfg w 0
      let s1 ← readSlot16 cfg w 1
      let s2 ← readSlot16 cfg w 2
      reserved w [(39, 2), (47, 1), (63, 1), (127, 1)]
      .ok (.reg { file := file, number := num, subregister := 16 * unpack w 26 1 / t.bytes, dataType := t,
                  writeMask := BitVec.ofNat 4 (unpack w 22 4) }, [s0, s1, s2])) := rfl

theorem readThree1_eq (cfg : Cfg) (w : NativeWord) :
    readThree1 cfg w = (do
      let t ← found (regTypeOf cfg (unpack w 35 4)) (.dataType (unpack w 35 4))
      let (file, num) ← readRegister3 cfg (unpack w 26 1) (unpack w 120 8)
      let (sub, acc) ← readSub cfg t true (unpack w 115 5)
      let s0 ← readSlot1 cfg w 0
      let s1 ← readSlot1 cfg w 1
      let s2 ← readSlot1 cfg w 2
      reserved w [(47, 1), (63, 1)]
      .ok (.reg { file := file, number := num, subregister := sub, dataType := t, specialAcc := acc,
                  region := .align1 none none (some (1 + unpack w 22 1)) }, [s0, s1, s2])) := rfl

/-! ## Slots -/

section
variable {cfg : Cfg} (hr : cfg.Readable) {w : NativeWord}
include hr

theorem readSlot16_of_reads {k : Nat} {s : RegOperand} (hreads : src16Reads cfg k s w = true)
    (hlegal : src16Legal cfg s = true) (hcanonical : src3Canonical cfg .align16 (.reg s) = true) :
    readSlot16 cfg w k = .ok (.reg s) := by
  simp only [src16Reads, Bool.and_eq_true, and_assoc, reads_iff] at hreads
  obtain ⟨htype, hrep, hc0, hc1, hc2, hc3, hsub, hnumber, hmod⟩ := hreads
  simp only [src16Legal, Bool.and_eq_true, and_assoc, beq_iff_eq, Option.isNone_iff_eq_none] at hlegal
  obtain ⟨hdirect, hfile, hacc, -, hplace, -⟩ := hlegal
  obtain ⟨hmask, c, hregion⟩ : s.writeMask = 15#4 ∧ ∃ c, s.region = .align16 c := by
    simp only [src3Canonical, Bool.and_eq_true, beq_iff_eq] at hcanonical
    refine ⟨hcanonical.1, ?_⟩
    cases hregion : s.region <;> simp_all
  simp only [swizzleChannels, hregion, Region.channelSelect?, Option.getD_some] at hc0 hc1 hc2 hc3
  simp only [readSlot16, type3Of_of_reads hr htype, found_some, read_ok_bind, hnumber, hsub, hc0, hc1, hc2, hc3, hmod,
    channelOf_code, srcModOf_code, subregister_of_highBit hplace, flag_of_toNat hrep]
  obtain ⟨file, number, subregister, addressing, region, dataType, modifier, writeMask, specialAcc, repCtrl⟩ := s
  simp_all

theorem readSlot1Reg_of_reads {execSize k : Nat} {s : RegOperand} (hreads : src1RegReads cfg execSize k s w = true)
    (hlegal : src1RegLegal cfg execSize k s = true) (hcanonical : src3Canonical cfg .align1 (.reg s) = true) :
    readSlot1Reg cfg w k s.dataType = .ok (.reg s) := by
  simp only [src1RegReads, Bool.and_eq_true, and_assoc, reads_iff, readsNat_iff] at hreads
  obtain ⟨hfile, -, hmod, hvs, hhs, hnumber, hsub⟩ := hreads
  simp only [src1RegLegal, Bool.and_eq_true, and_assoc, beq_iff_eq, Bool.not_eq_true', Bool.or_eq_true] at hlegal
  obtain ⟨hdirect, -, -, hreg, hrep, -, -, hoverlay, hacc⟩ := hlegal
  obtain ⟨hmask, vs, hs, hregion, hreadable⟩ : s.writeMask = 15#4 ∧ ∃ vs hs,
      s.region = .align1 (some vs) none (some hs) ∧ accReadable cfg s = true := by
    simp only [src3Canonical, Bool.and_eq_true, beq_iff_eq] at hcanonical
    refine ⟨hcanonical.1, ?_⟩
    split at hcanonical <;> simp_all
  have hstrides : sourceRegion3 execSize s = (vs, hs) := by
    simp [sourceRegion3, hregion, Region.vertStride?, Region.horzStride?]
  rw [hstrides] at hvs hhs
  simp only [readSlot1Reg, hfile, hnumber, hsub, hmod, readRegister3_of_legal hr hreg, vertStride3Of_code hvs,
    horzStrideOf_code3 hhs, srcModOf_code, read_ok_bind,
    readSub_of_legal hr hacc hreadable (hoverlay.imp_left (by simp))]
  obtain ⟨file, number, subregister, addressing, region, dataType, modifier, writeMask, specialAcc, repCtrl⟩ := s
  simp_all

omit hr in
theorem readSlot1Imm_of_reads {k : Nat} {i : ImmOperand} (hreads : imm16Reads cfg k i w = true)
    (hlegal : imm16Legal cfg k i = true) (hcanonical : immCanonical i = true) :
    readSlot1Imm w k i.type = .ok (.imm i) := by
  simp only [imm16Reads, Bool.and_eq_true, and_assoc, reads_iff] at hreads
  obtain ⟨-, -, hspare, hmod, hvalue⟩ := hreads
  simp only [imm16Legal, Bool.and_eq_true] at hlegal
  obtain ⟨-, hvalueLegal⟩ := hlegal
  obtain ⟨hwidth, -⟩ := immCanonical_parts hcanonical
  have hfloat {x : FloatValue} (hx : i.value = .float x)
      (hb : floatBits 5 10 x = some (unpack w (slot1 k).vstride 16)) :
      floatOf 5 10 (unpack w (slot1 k).vstride 16) = x :=
    floatOf_of_canonical (by decide) hcanonical hx hb
  simp only [readSlot1Imm, reserved_cons hspare, reserved_cons hmod, reserved_nil, read_ok_bind]
  obtain ⟨value, bitWidth, type⟩ := i
  cases type <;> cases value <;> simp only [imm16ValueLegal, Bool.false_eq_true] at hvalueLegal <;> cases hwidth <;>
    simp only [beq_iff_eq] at hvalue
  case d.int | w.int | ud.int | uw.int => simp [readImm16, hvalue]
  case hf.float => simp [readImm16, hfloat rfl hvalue]

theorem readSlot1_of_reads {execSize k : Nat} {s : Operand} (hreads : src1Reads cfg execSize k s w = true)
    (hlegal : src1Legal cfg execSize k s = true) (hcanonical : src3Canonical cfg .align1 s = true) :
    readSlot1 cfg w k = .ok s := by
  cases s with
  | imm i =>
    have hslot : readSlot1Imm w k i.type = .ok (.imm i) := readSlot1Imm_of_reads hreads hlegal hcanonical
    simp only [src1Reads, imm16Reads, Bool.and_eq_true, and_assoc, reads_iff] at hreads
    obtain ⟨hfile, htype, -⟩ := hreads
    simp only [src1Legal, imm16Legal, Bool.and_eq_true, bne_iff_ne, and_assoc] at hlegal
    obtain ⟨hk, -⟩ := hlegal
    simp only [readSlot1, regTypeOf_of_reads hr htype, found_some, read_ok_bind, if_pos (And.intro hk hfile), hslot]
  | reg r =>
    have hslot : readSlot1Reg cfg w k r.dataType = .ok (.reg r) := readSlot1Reg_of_reads hr hreads hlegal hcanonical
    simp only [src1Reads, src1RegReads, Bool.and_eq_true, and_assoc, reads_iff] at hreads
    obtain ⟨hfile, htype, -⟩ := hreads
    have hreg : ¬(k ≠ 1 ∧ unpack w (slot1 k).regfile 1 = 1) := by
      rintro ⟨hk, hbit⟩
      simp only [src1Legal, src1RegLegal, Bool.and_eq_true, Bool.or_eq_true, beq_iff_eq, and_assoc] at hlegal
      obtain ⟨-, hgrf | ⟨hone, -⟩, -⟩ := hlegal
      · simp [hfile, hgrf] at hbit
      · exact hk hone
    simp only [readSlot1, regTypeOf_of_reads hr htype, found_some, read_ok_bind, if_neg hreg, hslot]

/-! ## Whole words -/

/-- The Align16 layout, its three sources read back (R110). -/
theorem readThree16_of_reads {d : RegOperand} {s0 s1 s2 : Operand} (hreads : dst16Reads cfg d w = true)
    (hlegal : dst16Legal cfg d = true) (hcanonical : dst3Canonical cfg .align16 d = true)
    (h0 : readSlot16 cfg w 0 = .ok s0) (h1 : readSlot16 cfg w 1 = .ok s1) (h2 : readSlot16 cfg w 2 = .ok s2)
    (hreserved : reserved w [(39, 2), (47, 1), (63, 1), (127, 1)] = .ok ()) :
    readThree16 cfg w = .ok (.reg d, [s0, s1, s2]) := by
  simp only [dst3Canonical, Bool.and_eq_true, and_assoc, beq_iff_eq, Bool.not_eq_true',
    Option.isNone_iff_eq_none] at hcanonical
  obtain ⟨hmod, hrep, hregion, hacc⟩ := hcanonical
  simp only [dst16Reads, hacc, Bool.and_eq_true, and_assoc, reads_iff] at hreads
  obtain ⟨hfile, htype, hnumber, hsub, hmask, -⟩ := hreads
  simp only [dst16Legal, Bool.and_eq_true, and_assoc, beq_iff_eq] at hlegal
  obtain ⟨hdirect, -, -, hreg, hplace, -⟩ := hlegal
  simp only [readThree16_eq, type3Of_of_reads hr htype, found_some, read_ok_bind, hfile, hnumber,
    readRegister3_of_legal hr hreg, h0, h1, h2, hreserved, hsub, subregister_of_highBit hplace, hmask,
    BitVec.ofNat_toNat, BitVec.setWidth_eq]
  obtain ⟨file, number, subregister, addressing, region, dataType, modifier, writeMask, specialAcc, repCtrl⟩ := d
  simp_all

/-- The Align1 layout, its three sources read back (R111). -/
theorem readThree1_of_reads {d : RegOperand} {s0 s1 s2 : Operand} (hreads : dst1Reads cfg d w = true)
    (hlegal : dst1Legal cfg d = true) (hcanonical : dst3Canonical cfg .align1 d = true)
    (h0 : readSlot1 cfg w 0 = .ok s0) (h1 : readSlot1 cfg w 1 = .ok s1) (h2 : readSlot1 cfg w 2 = .ok s2)
    (hreserved : reserved w [(47, 1), (63, 1)] = .ok ()) :
    readThree1 cfg w = .ok (.reg d, [s0, s1, s2]) := by
  simp only [dst3Canonical, Bool.and_eq_true, and_assoc, beq_iff_eq, Bool.not_eq_true', strideOnly_iff] at hcanonical
  obtain ⟨hmod, hrep, ⟨stride, hregion⟩, hmask, hreadable⟩ := hcanonical
  simp only [dst1Reads, Bool.and_eq_true, and_assoc, reads_iff] at hreads
  obtain ⟨hfile, htype, hnumber, hsub, hstride⟩ := hreads
  simp only [dst1Legal, Bool.and_eq_true, and_assoc, beq_iff_eq] at hlegal
  obtain ⟨hdirect, -, -, hreg, hacc, hstrides, -⟩ := hlegal
  have hstrideOf : 1 + unpack w 22 1 = stride := by
    have hone : stride = 1 ∨ stride = 2 := by simpa [dstStride, hregion, Region.horzStride?] using hstrides
    rw [hstride, dstStride, hregion]
    simp only [Region.horzStride?, Option.getD_some]
    omega
  simp only [readThree1_eq, regTypeOf_of_reads hr htype, found_some, read_ok_bind, hfile, hnumber,
    readRegister3_of_legal hr hreg, hsub, readSub_of_legal hr hacc hreadable (.inr rfl), h0, h1, h2, hreserved,
    hstrideOf]
  obtain ⟨file, number, subregister, addressing, region, dataType, modifier, writeMask, specialAcc, repCtrl⟩ := d
  simp_all

omit hr in
theorem readOperands_align16 {m : Mnemonic} {b : InsBody} {d : Operand} {ss : List Operand}
    (hclass : m.opClass = .threeSrc) (hmode : b.accessMode = .align16) (h : readThree16 cfg w = .ok (d, ss)) :
    readOperands cfg m b w = .ok { b with destination := some d, sources := ss } := by
  simp only [readOperands, hclass, hmode, h, read_ok_bind]

omit hr in
theorem readOperands_align1 {m : Mnemonic} {b : InsBody} {d : Operand} {ss : List Operand}
    (hclass : m.opClass = .threeSrc) (hmode : b.accessMode = .align1) (h : readThree1 cfg w = .ok (d, ss)) :
    readOperands cfg m b w = .ok { b with destination := some d, sources := ss } := by
  simp only [readOperands, hclass, hmode, h, read_ok_bind]

/-- mad and dp4a: the destination and the three sources, in either access mode. -/
theorem readOperands_three_of_reads {ins : Instruction} (hclass : ins.opcode.opClass = .threeSrc)
    (hlegal : operandsLegal cfg ins = true) (hcanonical : operandsCanonical cfg ins.opcode ins.body = true)
    (hreads : operandsRead cfg ins w = true) :
    readOperands cfg ins.opcode (headerPart ins.body) w = .ok ins.body := by
  obtain ⟨d, s0, s1, s2, hdst, hsrcs, hpayload, hthree⟩ := three_of_legal hclass hlegal
  obtain ⟨d, rfl⟩ : ∃ r, d = .reg r := by
    cases d with
    | reg r => exact ⟨r, rfl⟩
    | imm i => simp [operandsCanonical, hclass, hdst] at hcanonical
  simp only [operandsRead, hclass, hdst, hsrcs, Bool.and_eq_true] at hreads
  replace hreads := hreads.2
  simp only [operandsCanonical, hclass, hdst, hsrcs, Bool.and_eq_true, List.all_cons, List.all_nil] at hcanonical
  obtain ⟨hcd, hc0, hc1, hc2, -⟩ := hcanonical
  have hrecord := congrArg (Except.ok (ε := DecodeError)) (headerPart_with hdst hsrcs hpayload)
  cases hmode : ins.body.accessMode with
  | align1 =>
    simp only [threeLegal, threeReads, hmode, Bool.and_eq_true, and_assoc, reads_iff] at hthree hreads hcd hc0 hc1 hc2
    obtain ⟨-, hld, hl0, hl1, hl2⟩ := hthree
    obtain ⟨hrd, hr0, hr1, hr2, h47, h63⟩ := hreads
    have hread := readThree1_of_reads hr hrd hld hcd (readSlot1_of_reads hr hr0 hl0 hc0)
      (readSlot1_of_reads hr hr1 hl1 hc1) (readSlot1_of_reads hr hr2 hl2 hc2) (reserved_of_zero (by simp [h47, h63]))
    exact (readOperands_align1 (b := headerPart ins.body) hclass hmode hread).trans hrecord
  | align16 =>
    obtain ⟨r0, r1, r2, rfl, rfl, rfl⟩ : ∃ r0 r1 r2, s0 = .reg r0 ∧ s1 = .reg r1 ∧ s2 = .reg r2 := by
      cases s0 <;> cases s1 <;> cases s2 <;> simp [threeLegal, hmode] at hthree ⊢
    simp only [threeLegal, threeReads, hmode, Bool.and_eq_true, and_assoc, reads_iff] at hthree hreads hcd hc0 hc1 hc2
    obtain ⟨-, hld, hl0, hl1, hl2⟩ := hthree
    obtain ⟨hrd, hr0, hr1, hr2, h39, h47, h63, h127⟩ := hreads
    have hread := readThree16_of_reads hr hrd hld hcd (readSlot16_of_reads hr hr0 hl0 hc0)
      (readSlot16_of_reads hr hr1 hl1 hc1) (readSlot16_of_reads hr hr2 hl2 hc2)
      (reserved_of_zero (by simp [h39, h47, h63, h127]))
    exact (readOperands_align16 (b := headerPart ins.body) hclass hmode hread).trans hrecord

end

/-- Settles O59: each slot of either layout gives its operand back. -/
theorem roundTripThreeSrc : Obligations.RoundTripThreeSrc := by
  intro cfg i hreadable hmnemonic hlegal hcanonical
  have hr := Cfg.readable_parts hreadable
  have hclass : i.instruction.opcode.opClass = .threeSrc := by
    change i.mnemonic.opClass = .threeSrc
    generalize i.mnemonic = m at hmnemonic
    revert hmnemonic
    cases m <;> decide
  obtain ⟨_, _, _, _, -, -, hpayload, -⟩ := three_of_legal hclass (Bool.and_eq_true_iff.mp hlegal).2
  obtain ⟨w, hnative, hheader, hbody⟩ := three_wordReads false hclass hlegal
  exact roundTrip_of_native hr hlegal hcanonical (congrArg Payload.targets hpayload) hnative hheader hbody
    fun hoperands hcanonical => readOperands_three_of_reads (ins := i.instruction) hr hclass hoperands hcanonical hbody

end Sys2Proof
end

section
/-! PROOFS. The round trip of the send class (30_encoding.md R115, R116): payload operands and descriptors are read
back, each descriptor an immediate or an address register (R300 to R312). -/

namespace Sys2Proof

open Decoding Layout Machine

/-! ## Descriptors (R300, R302, R311) -/

/-- A canonical descriptor is a UD immediate or an address register of type UD. -/
theorem descCanonical_cases {o : Operand} (h : descCanonical o = true) :
    (∃ v, o = udImm v) ∨ ∃ n, o = addressOperand n := by
  cases o with
  | imm i =>
    obtain ⟨value, bitWidth, type⟩ := i
    cases value with
    | float x => simp [descCanonical] at h
    | int v =>
      simp only [descCanonical, Bool.and_eq_true, beq_iff_eq, decide_eq_true_eq] at h
      obtain ⟨⟨rfl, rfl⟩, hv⟩ := h
      exact .inl ⟨v.toNat, by rw [udImm, Int.toNat_of_nonneg hv]⟩
  | reg r => exact .inr ⟨r.subregister, beq_iff_eq.mp h⟩

theorem descLegal_udImm {v : Nat} {allowed : Nat → Bool} (h : descLegal (udImm v) allowed = true) :
    v < 2 ^ 32 := by
  simp only [descLegal, udImm, Bool.and_eq_true, decide_eq_true_eq] at h
  omega

theorem descLegal_addressOperand {n : Nat} {allowed : Nat → Bool}
    (h : descLegal (addressOperand n) allowed = true) : allowed n = true := by
  simp only [descLegal, addressOperand, Bool.and_eq_true] at h
  exact h.2

theorem descValue_udImm {v : Nat} (h : v < 2 ^ 32) : descValue (udImm v) = some v := by
  simp only [descValue, udImm, Option.some.injEq]
  omega

theorem descValue_addressOperand (n : Nat) : descValue (addressOperand n) = none := rfl

/-- An extended descriptor immediate is its function bits, its EOT bit and, on a split send, its upper half (R302,
R311). -/
theorem exDesc_of_parts {x : Nat} (hspare : x % 65536 / 64 = 0) (h4 : x / 16 % 2 = 0) :
    x % 16 + 32 * (x / 32 % 2) + 2 ^ 16 * (x / 65536) = x := by omega

/-- A descriptor immediate is its low 31 bits and EOT (R302). -/
theorem desc_of_parts {v eot : Nat} (heot : v / 2147483648 = eot) : v % 2147483648 + 2 ^ 31 * eot = v := by omega

/-- What well-formed descriptors ask of a canonical extended descriptor immediate (R300 cases 6 and 7). -/
theorem descriptorsLegal_exImm {split : Bool} {desc : Operand} {x : Nat}
    (h : descriptorsLegal split desc (udImm x) = true) :
    x < 2 ^ 32 ∧ x % 65536 / 64 = 0 ∧ x / 16 % 2 = 0 ∧ (split = false → x / 65536 = 0) := by
  simp only [descriptorsLegal, Bool.and_eq_true, and_assoc] at h
  obtain ⟨-, hexDesc, hparts, -⟩ := h
  have hlt := descLegal_udImm hexDesc
  simp only [descValue_udImm hlt, Bool.and_eq_true, and_assoc, beq_iff_eq, Bool.or_eq_true] at hparts
  obtain ⟨hspare, h4, hupper⟩ := hparts
  exact ⟨hlt, hspare, h4, fun hsplit => by simpa [hsplit] using hupper⟩

/-- An extended descriptor in a register is a split send's, and names one of 16 sub-registers (R300 case 4). -/
theorem descriptorsLegal_exReg {split : Bool} {desc : Operand} {n : Nat}
    (h : descriptorsLegal split desc (addressOperand n) = true) : split = true := by
  simp only [descriptorsLegal, Bool.and_eq_true, and_assoc] at h
  obtain ⟨-, hexDesc, -⟩ := h
  have hallowed := descLegal_addressOperand hexDesc
  simp only [Bool.and_eq_true] at hallowed
  exact hallowed.1

/-- Bit 31 of a canonical descriptor immediate is EOT (R300 case 7). -/
theorem descriptorsLegal_descImm {split : Bool} {exDesc : Operand} {v : Nat}
    (h : descriptorsLegal split (udImm v) exDesc = true) : v < 2 ^ 32 ∧ v / 2147483648 = eotOf exDesc := by
  simp only [descriptorsLegal, Bool.and_eq_true, and_assoc] at h
  obtain ⟨hdesc, -, -, heot⟩ := h
  have hlt := descLegal_udImm hdesc
  exact ⟨hlt, by simpa [descValue_udImm hlt] using heot⟩

/-- A descriptor register is `a0.0` (R300 case 3). -/
theorem descriptorsLegal_descReg {split : Bool} {exDesc : Operand} {n : Nat}
    (h : descriptorsLegal split (addressOperand n) exDesc = true) : n = 0 := by
  simp only [descriptorsLegal, Bool.and_eq_true, and_assoc] at h
  exact beq_iff_eq.mp (descLegal_addressOperand h.1)

/-- An immediate extended descriptor is none in a register (R312). -/
theorem sendsReads_exImm {cfg : Cfg} {rd r0 r1 : RegOperand} {desc : Operand} {x : Nat} {w : NativeWord}
    (hlt : x < 2 ^ 32) (h : sendsReads cfg rd r0 r1 desc (udImm x) w = true) :
    unpack w 45 1 = 0 ∧ unpack w 48 4 = x % 16 ∧ unpack w 80 16 = x / 65536 ∧ unpack w 127 1 = x / 32 % 2 := by
  have hfields : (reads w 45 1 0 && reads w 48 4 ((descValue (udImm x)).getD 0 % 16) &&
      reads w 80 16 ((descValue (udImm x)).getD 0 / 65536) &&
      reads w 127 1 ((descValue (udImm x)).getD 0 / 32 % 2)) = true :=
    (Bool.and_eq_true_iff.mp h).2
  simpa only [descValue_udImm hlt, Option.getD_some, Bool.and_eq_true, and_assoc, reads_iff] using hfields

theorem eotOf_udImm {x : Nat} (h : x < 2 ^ 32) : eotOf (udImm x) = x / 32 % 2 := by
  simp [eotOf, descValue_udImm h]

/-! ## Send (R115) -/

section
variable {cfg : Cfg} (hr : cfg.Readable) {w : NativeWord}
include hr

theorem readSend_of_reads {d s0 desc exDesc : Operand} (hreserved : reserved w [(47, 1), (77, 1)] = .ok ())
    (hdst : readDst cfg .align1 w = .ok d) (hsrc : readSrcReg cfg .align1 false 0 w = .ok s0)
    (hreads : sendDescReads cfg desc exDesc w = true) (hlegal : descriptorsLegal false desc exDesc = true)
    (hdesc : descCanonical desc = true) (hexDesc : descCanonical exDesc = true) :
    readSend cfg w = .ok (d, [s0], .send desc exDesc) := by
  obtain ⟨x, rfl⟩ | ⟨n, rfl⟩ := descCanonical_cases hexDesc
  swap
  · exact absurd (descriptorsLegal_exReg hlegal) (by decide)
  obtain ⟨hlt, hspare, h4, hupper⟩ := descriptorsLegal_exImm hlegal
  have hvalue := exDesc_of_parts hspare h4
  rw [hupper rfl, Nat.mul_zero, Nat.add_zero] at hvalue
  simp only [sendDescReads, descValue_udImm hlt, Option.getD_some, Bool.and_eq_true, and_assoc, reads_iff] at hreads
  obtain ⟨h48, -, -, h127, hreads⟩ := hreads
  obtain ⟨v, rfl⟩ | ⟨n, rfl⟩ := descCanonical_cases hdesc
  · obtain ⟨hv, heot⟩ := descriptorsLegal_descImm hlegal
    rw [eotOf_udImm hlt] at heot
    simp only [descValue_udImm hv, Bool.and_eq_true, reads_iff] at hreads
    obtain ⟨h89, h96⟩ := hreads
    simp only [readSend, hreserved, hdst, hsrc, read_ok_bind, h127, h48, h89, h96, hvalue, desc_of_parts heot]
  · obtain rfl := descriptorsLegal_descReg hlegal
    simp only [descValue_addressOperand, Bool.and_eq_true, and_assoc, reads_iff] at hreads
    obtain ⟨h89, h96, h101, h109⟩ := hreads
    have hreg : readRegister cfg 0 (16 * (cfg.arfSel.code .a).toNat) = .ok (.arf .a, 0) := by
      simp [readRegister, hr.arfSel .a]
    simp only [readSend, hreserved, hdst, hsrc, read_ok_bind, h127, h48, h89, h96, h101, hvalue, reserved_cons h109,
      reserved_nil, hreg, addressOperand]

theorem readOperands_send_of_reads {ins : Instruction} (hclass : ins.opcode.opClass = .send)
    (hmode : ins.body.accessMode = .align1) (hlegal : operandsLegal cfg ins = true)
    (hcanonical : operandsCanonical cfg ins.opcode ins.body = true) (hreads : operandsRead cfg ins w = true) :
    readOperands cfg ins.opcode (headerPart ins.body) w = .ok ins.body := by
  obtain ⟨d, s0, desc, exDesc, hdst, hsrcs, hpayload, hdescs, hoperands⟩ := send_of_legal hclass hlegal
  obtain ⟨rd, r0, rfl, rfl⟩ : ∃ rd r0, d = .reg rd ∧ s0 = .reg r0 := by
    cases d <;> cases s0 <;> simp [sendOperandsLegal] at hoperands ⊢
  simp only [sendOperandsLegal, srcLegal, hmode, sourceOverlayLegal_of_class (.inr (.inr hclass)), Bool.and_eq_true,
    and_assoc, beq_iff_eq] at hoperands
  obtain ⟨hdirect, -, hdstLegal, hdirect0, -, -, hsrcLegal⟩ := hoperands
  simp only [operandsCanonical, hclass, hdst, hsrcs, hpayload, srcCanonical, Bool.and_eq_true, and_assoc] at hcanonical
  obtain ⟨hdstCanonical, hsrcCanonical, hdesc, hexDesc⟩ := hcanonical
  simp only [operandsRead, hclass, hdst, hsrcs, hpayload, dstOpReads, srcReads, hmode, Bool.and_eq_true,
    and_assoc] at hreads
  obtain ⟨hdstReads, hsrcReads, hdescReads⟩ := hreads
  have h47 : unpack w 47 1 = 0 := by
    simp only [dstReads, hdirect, Bool.and_eq_true, and_assoc, reads_iff] at hdstReads
    obtain ⟨-, -, h47, -⟩ := hdstReads
    exact h47
  have h77 : unpack w 77 1 = 0 := by
    simp only [srcRegReads, hdirect0, Bool.and_eq_true, and_assoc, reads_iff] at hsrcReads
    obtain ⟨-, -, -, h77, -⟩ := hsrcReads
    exact h77
  have hread := readSend_of_reads hr (reserved_of_zero (by simp [h47, h77]))
    (readDst_of_reads hr hdstReads hdstLegal hdstCanonical)
    (readSrcReg_of_reads hr hsrcReads hsrcLegal hsrcCanonical) hdescReads hdescs hdesc hexDesc
  simp only [readOperands, hclass, hread, read_ok_bind]
  exact congrArg Except.ok (headerPart_with hdst hsrcs hpayload)

end

/-! ## Split send (R116) -/

/-- What `readSends` does for the extended descriptor: bit 45 tells a register (R312). -/
def readSplitExDesc (w : NativeWord) : Read Operand :=
  if flag w 45 then do
    reserved w [(48, 4), (84, 12), (127, 1)]
    .ok (addressOperand (unpack w 80 4))
  else .ok (udImm (unpack w 48 4 + 32 * unpack w 127 1 + 2 ^ 16 * unpack w 80 16))

/-- What `readSends` does for the descriptor: bit 44 tells a register (R311). -/
def readSplitDesc (w : NativeWord) : Read Operand :=
  if flag w 44 then do
    reserved w [(96, 31)]
    .ok (addressOperand 0)
  else .ok (udImm (unpack w 96 31 + 2 ^ 31 * unpack w 127 1))

theorem readSends_eq (cfg : Cfg) (w : NativeWord) :
    readSends cfg w = (do
      let t ← found (regTypeOf cfg (unpack w 37 4)) (.dataType (unpack w 37 4))
      reserved w [(24, 5), (46, 1), (47, 1), (63, 1)]
      let (df, dn) ← readRegister cfg (unpack w 35 2) (unpack w 55 8)
      let (f0, n0) ← readRegister cfg (unpack w 41 2) (unpack w 64 8)
      let (f1, n1) ← readRegister cfg (unpack w 43 1) (unpack w 72 8)
      let exDesc ← readSplitExDesc w
      let desc ← readSplitDesc w
      .ok (.reg { file := df, number := dn, dataType := t },
           [.reg { file := f0, number := n0, dataType := .ud }, .reg { file := f1, number := n1, dataType := .ud }],
           .send desc exDesc)) := by
  cases h45 : flag w 45 <;> cases h44 : flag w 44 <;>
    simp only [readSends, readSplitExDesc, readSplitDesc, h45, h44, if_true, Bool.false_eq_true, if_false, bind_assoc,
      read_ok_bind]

/-- The descriptor fields of a split-send word: those of the extended descriptor, EOT in bit 127 among them. -/
theorem readSplitExDesc_of_reads {w : NativeWord} {exDesc : Operand} {rd r0 r1 : RegOperand} {cfg : Cfg}
    {desc : Operand} (hreads : sendsReads cfg rd r0 r1 desc exDesc w = true)
    (hlegal : descriptorsLegal true desc exDesc = true) (hcanonical : descCanonical exDesc = true) :
    readSplitExDesc w = .ok exDesc ∧ unpack w 127 1 = eotOf exDesc := by
  obtain ⟨x, rfl⟩ | ⟨n, rfl⟩ := descCanonical_cases hcanonical
  · obtain ⟨hlt, hspare, h4, -⟩ := descriptorsLegal_exImm hlegal
    obtain ⟨h45, h48, h80, h127⟩ := sendsReads_exImm hlt hreads
    have hflag : flag w 45 = false := by simp [flag, h45]
    rw [readSplitExDesc, hflag, if_neg Bool.false_ne_true, h48, h80, h127, exDesc_of_parts hspare h4, eotOf_udImm hlt]
    exact ⟨rfl, rfl⟩
  · simp only [sendsReads, addressOperand, Bool.and_eq_true, and_assoc, reads_iff] at hreads
    obtain ⟨-, -, -, -, -, -, -, -, -, -, -, -, -, h45, h48, h80, h84, h127⟩ := hreads
    have hflag : flag w 45 = true := by simp [flag, h45]
    exact ⟨by simp [readSplitExDesc, hflag, reserved_cons, h48, h84, h127, h80], h127⟩

theorem readSplitDesc_of_reads {w : NativeWord} {exDesc : Operand} {rd r0 r1 : RegOperand} {cfg : Cfg} {desc : Operand}
    (hreads : sendsReads cfg rd r0 r1 desc exDesc w = true) (hlegal : descriptorsLegal true desc exDesc = true)
    (hcanonical : descCanonical desc = true) (heot : unpack w 127 1 = eotOf exDesc) :
    readSplitDesc w = .ok desc := by
  simp only [sendsReads, Bool.and_eq_true] at hreads
  obtain ⟨⟨-, hreads⟩, -⟩ := hreads
  obtain ⟨v, rfl⟩ | ⟨n, rfl⟩ := descCanonical_cases hcanonical
  · obtain ⟨hv, hbit⟩ := descriptorsLegal_descImm hlegal
    simp only [descValue_udImm hv, Bool.and_eq_true, reads_iff] at hreads
    obtain ⟨h44, h96⟩ := hreads
    have hflag : flag w 44 = false := by simp [flag, h44]
    rw [readSplitDesc, hflag, if_neg Bool.false_ne_true, h96, heot, desc_of_parts hbit]
  · obtain rfl := descriptorsLegal_descReg hlegal
    simp only [descValue_addressOperand, Bool.and_eq_true, reads_iff] at hreads
    obtain ⟨h44, h96⟩ := hreads
    have hflag : flag w 44 = true := by simp [flag, h44]
    simp [readSplitDesc, hflag, reserved_cons, h96]

/-- The destination register of a legal split send exists (R230, R310). -/
theorem registerLegal_of_sends {cfg : Cfg} {rd r0 r1 : RegOperand} (h : sendsOperandsLegal cfg rd r0 r1 = true) :
    registerLegal cfg rd = true := by
  simp only [sendsOperandsLegal, Bool.and_eq_true, Bool.or_eq_true, and_assoc, beq_iff_eq, decide_eq_true_eq] at h
  obtain ⟨-, hsub, -, -, hfile, -⟩ := h
  obtain ⟨hgrf, hcount, hlt⟩ | ⟨hnull, hzero⟩ := hfile
  · simp [registerLegal, offsetInRegister, hsub, hgrf, hcount, hlt]
  · simp [registerLegal, offsetInRegister, hsub, hnull, hzero]

theorem payloadCanonical_parts {cfg : Cfg} {r : RegOperand} (h : payloadCanonical cfg r = true) :
    r = { file := r.file, number := r.number, dataType := .ud } ∧
      ∀ sel, r.file = .arf sel → cfg.arfSel.code sel = 0#4 := by
  simp only [payloadCanonical, Bool.and_eq_true, beq_iff_eq] at h
  refine ⟨h.1, fun sel hsel => ?_⟩
  simpa [hsel] using h.2

section
variable {cfg : Cfg} (hr : cfg.Readable) {w : NativeWord}
include hr

theorem readSends_of_reads {rd r0 r1 : RegOperand} {desc exDesc : Operand}
    (hreads : sendsReads cfg rd r0 r1 desc exDesc w = true) (hdescs : descriptorsLegal true desc exDesc = true)
    (hlegal : sendsOperandsLegal cfg rd r0 r1 = true)
    (hrd : rd = { file := rd.file, number := rd.number, dataType := rd.dataType })
    (hr0 : payloadCanonical cfg r0 = true) (hr1 : payloadCanonical cfg r1 = true)
    (hdesc : descCanonical desc = true) (hexDesc : descCanonical exDesc = true) :
    readSends cfg w = .ok (.reg rd, [.reg r0, .reg r1], .send desc exDesc) := by
  obtain ⟨hreadEx, heot⟩ := readSplitExDesc_of_reads hreads hdescs hexDesc
  have hreadDesc := readSplitDesc_of_reads hreads hdescs hdesc heot
  have hreg := registerLegal_of_sends hlegal
  obtain ⟨hr0, -⟩ := payloadCanonical_parts hr0
  obtain ⟨hr1, hnullCode⟩ := payloadCanonical_parts hr1
  simp only [sendsReads, Bool.and_eq_true, and_assoc, reads_iff] at hreads
  obtain ⟨-, h24, h35, htype, h41, h43, h46, h47, h55, h63, h64, h72, -⟩ := hreads
  simp only [sendsOperandsLegal, payloadLegal, Bool.and_eq_true, Bool.or_eq_true, and_assoc, beq_iff_eq] at hlegal
  obtain ⟨-, -, -, -, -, -, -, -, -, -, hfile0, -, -, hpayload1⟩ := hlegal
  have hreserved : reserved w [(24, 5), (46, 1), (47, 1), (63, 1)] = .ok () :=
    reserved_of_zero (by simp [h24, h46, h47, h63])
  have hread0 : readRegister cfg 1 r0.number = .ok (r0.file, r0.number) := by rw [hfile0]; rfl
  have hread1 : readRegister cfg (unpack w 43 1) (unpack w 72 8) = .ok (r1.file, r1.number) := by
    rw [h43, h72]
    obtain ⟨-, -, -, -, -, hgrf, -⟩ | ⟨-, hnull, hzero, -⟩ := hpayload1
    · rw [hgrf]; rfl
    · simpa [hnull, hzero] using readRegister_zero hr hnullCode
  simp only [readSends_eq, regTypeOf_of_reads hr htype, found_some, read_ok_bind, hreserved, h35, h55,
    readRegister_of_legal hr hreg, h41, h64, hread0, hread1, hreadEx, hreadDesc, ← hrd, ← hr0, ← hr1]

theorem readOperands_sends_of_reads {ins : Instruction} (hclass : ins.opcode.opClass = .sends)
    (hlegal : operandsLegal cfg ins = true) (hcanonical : operandsCanonical cfg ins.opcode ins.body = true)
    (hreads : operandsRead cfg ins w = true) :
    readOperands cfg ins.opcode (headerPart ins.body) w = .ok ins.body := by
  obtain ⟨rd, r0, r1, desc, exDesc, hdst, hsrcs, hpayload, hdescs, hoperands⟩ := sends_of_legal hclass hlegal
  simp only [operandsCanonical, hclass, hdst, hsrcs, hpayload, Bool.and_eq_true, and_assoc, beq_iff_eq] at hcanonical
  obtain ⟨hrd, hr0, hr1, hdesc, hexDesc⟩ := hcanonical
  simp only [operandsRead, hclass, hdst, hsrcs, hpayload] at hreads
  have hread := readSends_of_reads hr hreads hdescs hoperands hrd hr0 hr1 hdesc hexDesc
  simp only [readOperands, hclass, hread, read_ok_bind]
  exact congrArg Except.ok (headerPart_with hdst hsrcs hpayload)

end

/-! ## The round trip -/

/-- Settles O60: a send by the two-source readers and its descriptors, a split send by its own layout. -/
theorem roundTripSend : Obligations.RoundTripSend := by
  intro cfg i hreadable hmnemonic hlegal hcanonical
  have hr := Cfg.readable_parts hreadable
  obtain ⟨hsend, hclass⟩ : i.instruction.opcode.isSendClass = true ∧
      (i.instruction.opcode.opClass = .send ∨ i.instruction.opcode.opClass = .sends) := by
    change i.mnemonic.isSendClass = true ∧ (i.mnemonic.opClass = .send ∨ i.mnemonic.opClass = .sends)
    generalize i.mnemonic = m at hmnemonic
    revert hmnemonic
    cases m <;> decide
  have hparts := hlegal
  simp only [recordLegal, Bool.and_eq_true] at hparts
  obtain ⟨⟨-, hheaderLegal⟩, hoperands⟩ := hparts
  obtain hclass | hclass := hclass
  · have hmode : i.instruction.body.accessMode = .align1 :=
      accessMode_of_send (by simpa [formatOf, hclass] using hheaderLegal)
    obtain ⟨_, _, _, _, -, -, hpayload, -⟩ := send_of_legal hclass hoperands
    obtain ⟨w, hnative, hheader, hbody⟩ := send_wordReads false hclass hsend hlegal
    exact roundTrip_of_native hr hlegal hcanonical (congrArg Payload.targets hpayload) hnative hheader hbody
      fun hoperands hcanonical =>
        readOperands_send_of_reads (ins := i.instruction) hr hclass hmode hoperands hcanonical hbody
  · obtain ⟨_, _, _, _, _, -, -, hpayload, -⟩ := sends_of_legal hclass hoperands
    obtain ⟨w, hnative, hheader, hbody⟩ := sends_wordReads false hclass hsend hlegal
    exact roundTrip_of_native hr hlegal hcanonical (congrArg Payload.targets hpayload) hnative hheader hbody
      fun hoperands hcanonical =>
        readOperands_sends_of_reads (ins := i.instruction) hr hclass hoperands hcanonical hbody

end Sys2Proof
end
